-- ==== Sys2Proof/Word.lean ====
section
/-! DEFINITION. The words of P25RX-CORE: dibits, octet strings, port words, and complex samples. -/

namespace Sys2Proof

/-- A dibit `{b1, b0}`; `b1`, the earlier bit on the air, is bit 1 (30_encoding.md R150, 20_memory.md R100). -/
abbrev Dibit := BitVec 2

/-- A 64-bit NID or a 64-bit P_CMD word (R153, R170); bit 63 is the first bit. -/
abbrev Word64 := BitVec 64

/-- The twelve octets of a TSBK, `o[0]` in bits 95..88 (R155). -/
abbrev Octets12 := BitVec 96

/-- A Complex value: a pair of reals of the NUMERICS configuration, here exact rationals
(00_scope.md section 5; log entry 6). -/
structure Cplx where
  re : Rat
  im : Rat
deriving DecidableEq, Repr

end Sys2Proof
end

