-- ==== Sys2Proof/Machine/Bits.lean ====
section
/-! DEFINITION. Bit strings: their order (20_memory.md R100), their values, and the Hamming weight. -/

namespace Sys2Proof.Machine

/-- The number a bit string stands for, its first bit the most significant (R100). -/
def bitsToNat (bs : List Bool) : Nat := bs.foldl (fun n b => 2 * n + b.toNat) 0

/-- The same as a field of width `n`. -/
def bitsToBV (n : Nat) (bs : List Bool) : BitVec n := BitVec.ofNat n (bitsToNat bs)

/-- The bits of a field in the order they are sent: most significant first (R100). -/
def bvToBits {n : Nat} (x : BitVec n) : List Bool := (List.range n).map fun i => x.getMsbD i

/-- The part of a bit string from position `start` on, `len` bits long. -/
def bitsAt (start len : Nat) (bs : List Bool) : List Bool := (bs.drop start).take len

/-- The two bits of a dibit in arrival order, `b1` first (R100, R291). -/
def dibitBits (d : Dibit) : List Bool := [d.getLsbD 1, d.getLsbD 0]

/-- The dibit whose first bit is `b1`. -/
def dibitOf (b1 b0 : Bool) : Dibit := BitVec.ofBool b1 ++ BitVec.ofBool b0

/-- A bit string cut into dibits, in arrival order. -/
def dibitsOf : List Bool → List Dibit
  | b1 :: b0 :: rest => dibitOf b1 b0 :: dibitsOf rest
  | _ => []

/-- A list of dibits cut into 4-bit points, high dibit first (42_fec_decoder.md R346). -/
def pointsOf : List Dibit → List (BitVec 4)
  | hi :: lo :: rest => (hi ++ lo) :: pointsOf rest
  | _ => []

/-- The number of one bits: the Hamming weight. -/
def popcount {n : Nat} (x : BitVec n) : Nat := x.cpop.toNat

end Sys2Proof.Machine
end

