-- ==== Sys2Proof/Machine/Codes.lean ====
section
/-! DEFINITION. What R342 (a) and R345 of 42_fec_decoder.md say of the configured codes: a block code of bit words with its
distance that repairs up to `t` bit errors, the same for words of six-bit symbols, and a fixed reordering of bits (R341). -/

namespace Sys2Proof.Machine

/-- A hexbit: a symbol of GF(64) (R345). -/
abbrev Hexbit := BitVec 6

/-- In how many places two lists of the same length differ. -/
def differences {α : Type} [DecidableEq α] : List α → List α → Nat
  | x :: xs, y :: ys => (if x = y then 0 else 1) + differences xs ys
  | _, _ => 0

/-- In how many bits two words differ. -/
def bitErrors {n : Nat} (a b : BitVec n) : Nat := differences (bvToBits a) (bvToBits b)

/-- A code of `n`-bit words with `k` data bits and distance `d` that repairs up to `t` bit errors (R345). A word within `t` bits
of a codeword decodes to that codeword's data (R342 (a)); a word further from every codeword is known to be beyond the
capability and does not decode (R342 (b), 90_conflicts.md C9). -/
structure WordCode (k n d t : Nat) where
  encode : BitVec k → BitVec n
  decode : BitVec n → Option (BitVec k)
  distance : ∀ a b, a ≠ b → d ≤ bitErrors (encode a) (encode b)
  decode_eq_some : ∀ m r, decode r = some m ↔ bitErrors (encode m) r ≤ t

/-- A code of words of `n` hexbits with `k` data bits and distance `d` that repairs up to `t` symbol errors, and decodes nothing
else (R345, R342, C9). -/
structure SymbolCode (k n d t : Nat) where
  encode : BitVec k → List Hexbit
  decode : List Hexbit → Option (BitVec k)
  length_encode : ∀ m, (encode m).length = n
  distance : ∀ a b, a ≠ b → d ≤ differences (encode a) (encode b)
  decode_eq_some : ∀ m r, r.length = n → (decode r = some m ↔ differences (encode m) r ≤ t)

/-- A fixed permutation of `n` bits (R341). -/
structure BitOrder (n : Nat) where
  order : List Nat := List.range n
  perm : order.Perm (List.range n) := by exact List.Perm.refl _
deriving Inhabited

/-- Undoes the interleaving: bit `i` of the result is bit `order[i]` as received (R341). -/
def BitOrder.collect {n : Nat} (o : BitOrder n) (air : List Bool) : List Bool := o.order.map fun k => air.getD k false

/-- The interleaving that `collect` undoes. -/
def BitOrder.spread {n : Nat} (o : BitOrder n) (bits : List Bool) : List Bool :=
  (List.range n).map fun k => bits.getD (o.order.idxOf k) false

end Sys2Proof.Machine
end

