-- ==== Sys2Proof/Machine/CodeWitness.lean ====
section
/-! DEFINITION. Codes with the parameters of R345 exist. A free constant of a type can be declared only where the type has an
element; nothing here is read by the machine, and nothing of it can be proved of the configured codes. -/

namespace Sys2Proof.Machine

/-! ## Distances -/

theorem differences_self {α : Type} [DecidableEq α] (a : List α) : differences a a = 0 := by
  induction a with
  | nil => rfl
  | cons x xs ih => simp [differences, ih]

theorem differences_comm {α : Type} [DecidableEq α] (a b : List α) : differences a b = differences b a := by
  induction a generalizing b with
  | nil => cases b <;> rfl
  | cons x xs ih =>
    cases b with
    | nil => rfl
    | cons y ys => simp only [differences, ih ys, eq_comm]

theorem differences_triangle {α : Type} [DecidableEq α] (a b c : List α) (hab : a.length = b.length)
    (hbc : b.length = c.length) : differences a c ≤ differences a b + differences b c := by
  induction a generalizing b c with
  | nil => simp [differences]
  | cons x xs ih =>
    match b, c, hab, hbc with
    | y :: ys, z :: zs, hab, hbc =>
      have := ih ys zs (by simpa using hab) (by simpa using hbc)
      simp only [differences]
      by_cases h1 : x = y
      · subst h1
        simp only [if_true]
        omega
      · simp only [if_neg h1]
        by_cases h3 : x = z <;> simp only [h3, if_true, if_false] <;> omega

/-! ## Decoding by search -/

/-- The first of the `2 ^ k` data words with a property. -/
def searchData {k : Nat} (p : BitVec k → Bool) : Nat → Option (BitVec k)
  | 0 => none
  | i + 1 => if p (BitVec.ofNat k i) then some (BitVec.ofNat k i) else searchData p i

theorem searchData_unique {k : Nat} {p : BitVec k → Bool} {m : BitVec k} (hm : p m = true)
    (hu : ∀ m', p m' = true → m' = m) (i : Nat) (hi : m.toNat < i) : searchData p i = some m := by
  induction i with
  | zero => omega
  | succ i ih =>
    unfold searchData
    by_cases h : p (BitVec.ofNat k i) = true
    · rw [if_pos h, hu _ h]
    · rw [if_neg h]
      refine ih (lt_of_le_of_ne (Nat.lt_succ_iff.mp hi) ?_)
      rintro rfl
      exact h (by simpa using hm)

theorem searchData_sound {k : Nat} {p : BitVec k → Bool} {m : BitVec k} {i : Nat} (h : searchData p i = some m) :
    p m = true := by
  induction i with
  | zero => cases h
  | succ i ih =>
    unfold searchData at h
    split at h
    · next hp => cases h; exact hp
    · exact ih h

/-! ## Words of bits: linear codes -/

/-- The sum of the rows of a generator matrix that a data word selects. -/
def rowSum {k n : Nat} (row : Nat → BitVec n) (m : BitVec k) : Nat → BitVec n
  | 0 => 0#n
  | i + 1 => rowSum row m i ^^^ (if m.getLsbD i then row i else 0#n)

theorem rowSum_xor {k n : Nat} (row : Nat → BitVec n) (a b : BitVec k) (i : Nat) :
    rowSum row (a ^^^ b) i = rowSum row a i ^^^ rowSum row b i := by
  induction i with
  | zero => simp [rowSum]
  | succ i ih =>
    simp only [rowSum, ih, BitVec.getLsbD_xor]
    refine BitVec.eq_of_getLsbD_eq fun j _ => ?_
    cases a.getLsbD i <;> cases b.getLsbD i <;>
      simp only [BitVec.getLsbD_xor, BitVec.getLsbD_zero, Bool.xor_false, Bool.false_xor, Bool.true_xor, Bool.not_true,
        Bool.false_eq_true, if_true, if_false] <;>
      cases (rowSum row a i).getLsbD j <;> cases (rowSum row b i).getLsbD j <;> cases (row i).getLsbD j <;> rfl

/-- The number of one bits, by the bits' order. -/
def weight {n : Nat} (a : BitVec n) : Nat := bitErrors a 0#n

theorem differences_map_xor (l : List Nat) (f g : Nat → Bool) :
    differences (l.map f) (l.map g) = differences (l.map fun i => f i ^^ g i) (l.map fun _ => false) := by
  induction l with
  | nil => rfl
  | cons x xs ih =>
    simp only [List.map_cons, differences, ih]
    cases f x <;> cases g x <;> rfl

theorem bitErrors_eq_weight {n : Nat} (a b : BitVec n) : bitErrors a b = weight (a ^^^ b) := by
  simp only [weight, bitErrors, bvToBits]
  rw [differences_map_xor]
  simp

theorem bitErrors_triangle {n : Nat} (a b c : BitVec n) : bitErrors a c ≤ bitErrors a b + bitErrors b c :=
  differences_triangle _ _ _ (by simp [bvToBits]) (by simp [bvToBits])

/-- The number of one bits among the lowest `n` of a number. -/
def oneBits : Nat → Nat → Nat
  | 0, _ => 0
  | n + 1, x => x % 2 + oneBits n (x / 2)

theorem oneBits_eq (n x : Nat) : oneBits n x = (List.range n).countP fun i => x.testBit i := by
  induction n generalizing x with
  | zero => rfl
  | succ n ih =>
    rw [oneBits, ih, List.range_succ_eq_map, List.countP_cons, List.countP_map, Nat.add_comm]
    have h0 : x % 2 = if x.testBit 0 then 1 else 0 := by
      rw [Nat.testBit_zero]
      rcases Nat.mod_two_eq_zero_or_one x with h | h <;> simp [h]
    rw [h0]
    congr 2
    funext i
    simp [Nat.testBit_succ]

theorem differences_zeros (l : List Nat) (f : Nat → Bool) :
    differences (l.map f) (l.map fun _ => false) = l.countP f := by
  induction l with
  | nil => rfl
  | cons x xs ih =>
    rw [List.map_cons, List.map_cons, differences, ih, List.countP_cons, Nat.add_comm]
    cases f x <;> rfl

theorem weight_eq_oneBits {n : Nat} (a : BitVec n) : weight a = oneBits n a.toNat := by
  have h0 : bvToBits 0#n = (List.range n).map fun _ => false := by simp [bvToBits]
  rw [weight, bitErrors, h0, bvToBits, differences_zeros, oneBits_eq, ← List.countP_reverse]
  have hr : (List.range n).reverse = (List.range n).map fun i => n - 1 - i := by
    refine List.ext_getElem (by simp) fun i h1 _ => ?_
    simp at h1
    simp
  rw [hr, List.countP_map]
  refine List.countP_congr fun i hi => ?_
  have hi' := List.mem_range.mp hi
  simp only [Function.comp_apply, BitVec.getMsbD, BitVec.getLsbD]
  have h1 : n - 1 - i < n := by omega
  have h2 : n - 1 - (n - 1 - i) = i := by omega
  simp [h1, h2]

/-- The rows of a generator matrix as numbers, the last first. -/
def rowNumbers {n : Nat} (row : Nat → BitVec n) : Nat → List Nat
  | 0 => []
  | i + 1 => (row i).toNat :: rowNumbers row i

/-- Every sum of a word and some of the rows, with the word chosen or at least one row, has weight `d` or more. -/
def heavySpan (d n : Nat) : List Nat → Bool → Nat → Bool
  | [], chosen, c => !chosen || Nat.ble d (oneBits n c)
  | r :: rs, chosen, c => heavySpan d n rs chosen c && heavySpan d n rs true (c ^^^ r)

theorem heavySpan_apply {k n d i : Nat} {row : Nat → BitVec n} {chosen : Bool} {c : BitVec n}
    (h : heavySpan d n (rowNumbers row i) chosen c.toNat = true) (m : BitVec k)
    (hm : chosen = true ∨ ∃ j < i, m.getLsbD j = true) : d ≤ weight (c ^^^ rowSum row m i) := by
  induction i generalizing chosen c with
  | zero =>
    rcases hm with rfl | ⟨j, hj, _⟩
    · simp only [rowNumbers, heavySpan, Bool.not_true, Bool.false_or, Nat.ble_eq] at h
      simpa [rowSum, weight_eq_oneBits] using h
    · omega
  | succ i ih =>
    simp only [rowNumbers, heavySpan, Bool.and_eq_true] at h
    cases hb : m.getLsbD i with
    | false =>
      have := ih h.1 (by
        rcases hm with hm | ⟨j, hj, hj2⟩
        · exact .inl hm
        · refine .inr ⟨j, lt_of_le_of_ne (by omega) ?_, hj2⟩
          rintro rfl
          rw [hb] at hj2
          cases hj2)
      simpa [rowSum, hb] using this
    | true =>
      have := ih (c := c ^^^ row i) (by simpa using h.2) (.inl rfl)
      have he : c ^^^ row i ^^^ rowSum row m i = c ^^^ rowSum row m (i + 1) := by
        simp only [rowSum, hb, if_true]
        ac_rfl
      rwa [he] at this

/-- All codewords of a linear code but 0 have weight `d` or more. -/
def heavy (k n d : Nat) (row : Nat → BitVec n) : Bool := heavySpan d n (rowNumbers row k) false 0

theorem heavy_apply {k n d : Nat} {row : Nat → BitVec n} (h : heavy k n d row = true) (m : BitVec k) (h0 : m ≠ 0#k) :
    d ≤ weight (rowSum row m k) := by
  have := heavySpan_apply (c := 0#n) (chosen := false) (by simpa [heavy] using h) m (.inr (by
    by_contra hc
    refine h0 (BitVec.eq_of_getLsbD_eq fun j hj => ?_)
    cases hb : m.getLsbD j with
    | false => simp
    | true => exact absurd ⟨j, hj, hb⟩ hc))
  simpa using this

theorem rowSum_distance {k n d : Nat} {row : Nat → BitVec n} (h : heavy k n d row = true) {a b : BitVec k} (hne : a ≠ b) :
    d ≤ bitErrors (rowSum row a k) (rowSum row b k) := by
  rw [bitErrors_eq_weight, ← rowSum_xor]
  exact heavy_apply h _ fun he => hne (by simpa using congrArg (· ^^^ b) he)

/-- A linear code whose codewords are heavy repairs `t` errors, and decodes nothing else. -/
def linearCode (k n d t : Nat) (row : Nat → BitVec n) (h : heavy k n d row = true) (ht : 2 * t < d) : WordCode k n d t where
  encode m := rowSum row m k
  decode r := searchData (fun m => decide (bitErrors (rowSum row m k) r ≤ t)) (2 ^ k)
  distance _ _ hne := rowSum_distance h hne
  decode_eq_some m r := by
    refine ⟨fun h => by simpa using searchData_sound h, fun hr => ?_⟩
    refine searchData_unique (by simpa using hr) (fun m' h' => ?_) _ m.isLt
    simp only [decide_eq_true_eq] at h'
    by_contra hne
    have h1 := rowSum_distance h hne
    have h2 := bitErrors_triangle (rowSum row m' k) r (rowSum row m k)
    have h3 : bitErrors r (rowSum row m k) = bitErrors (rowSum row m k) r := differences_comm _ _
    omega

/-- The Golay polynomial times `x + 1`. -/
def rowsGolay18 (i : Nat) : BitVec 18 := 0x149F#18 <<< i

/-- The Golay polynomial. -/
def rowsGolay23 (i : Nat) : BitVec 23 := 0xC75#23 <<< i

/-- The Golay polynomial with a parity bit. -/
def rowsGolay24 (i : Nat) : BitVec 24 := (0xC75#24 <<< i) ^^^ 0x800000#24

/-- The Hamming polynomial. -/
def rowsHamming (n i : Nat) : BitVec n := 0x13#n <<< i

theorem heavy_golay18 : heavy 6 18 8 rowsGolay18 = true := by decide +kernel

theorem heavy_golay23 : heavy 12 23 7 rowsGolay23 = true := by decide +kernel

theorem heavy_golay24 : heavy 12 24 8 rowsGolay24 = true := by decide +kernel

theorem heavy_hamming15 : heavy 11 15 3 (rowsHamming 15) = true := by decide +kernel

theorem heavy_hamming10 : heavy 6 10 3 (rowsHamming 10) = true := by decide +kernel

/-! ## Words of hexbits: evaluation at powers of a generator of GF(64) -/

/-- The product by the generator of GF(64). -/
def gfNext (a : Hexbit) : Hexbit := if a.msb then (a <<< 1) ^^^ 3#6 else a <<< 1

/-- The product by the `j`-th power of the generator. -/
def gfPow : Nat → Hexbit → Hexbit
  | 0, a => a
  | j + 1, a => gfNext (gfPow j a)

/-- The value of a polynomial, its coefficients from the constant one up, at the `j`-th power of the generator. -/
def gfEval (j : Nat) : List Hexbit → Hexbit
  | [] => 0#6
  | c :: cs => c ^^^ gfPow j (gfEval j cs)

theorem gfNext_xor : ∀ a b : Hexbit, gfNext (a ^^^ b) = gfNext a ^^^ gfNext b := by decide +kernel

theorem gfPow_xor (j : Nat) (a b : Hexbit) : gfPow j (a ^^^ b) = gfPow j a ^^^ gfPow j b := by
  induction j with
  | zero => rfl
  | succ j ih => simp only [gfPow, ih, gfNext_xor]

theorem gfPow_zero (j : Nat) : gfPow j 0#6 = 0#6 := by simpa using gfPow_xor j 0#6 0#6

theorem gfPow_add (i j : Nat) (a : Hexbit) : gfPow (i + j) a = gfPow i (gfPow j a) := by
  induction i with
  | zero => simp [gfPow]
  | succ i ih => rw [Nat.succ_add]; simp only [gfPow, ih]

theorem gfPow_comm (i j : Nat) (a : Hexbit) : gfPow i (gfPow j a) = gfPow j (gfPow i a) := by
  rw [← gfPow_add, ← gfPow_add, Nat.add_comm]

theorem gfNext_injective : ∀ a : Hexbit, gfNext a = 0#6 → a = 0#6 := by decide +kernel

theorem gfPow_injective (j : Nat) (a : Hexbit) (h : gfPow j a = 0#6) : a = 0#6 := by
  induction j with
  | zero => exact h
  | succ j ih => exact ih (gfNext_injective _ h)

theorem gfPow_order : ∀ d < 63, 0 < d → ∀ a : Hexbit, gfPow d a = a → a = 0#6 := by decide +kernel

/-- Different powers below the order differ at every element but 0. -/
theorem gfPow_separates {i j : Nat} (hi : i < 63) (hj : j < 63) (hij : i ≠ j) (a : Hexbit)
    (h : gfPow i a ^^^ gfPow j a = 0#6) : a = 0#6 := by
  wlog hlt : i < j generalizing i j with H
  · exact H hj hi hij.symm (by rwa [BitVec.xor_comm]) (by omega)
  · obtain ⟨d, rfl⟩ : ∃ d, j = i + d := ⟨j - i, by omega⟩
    rw [gfPow_add, ← gfPow_xor] at h
    have h1 := gfPow_injective i _ h
    exact gfPow_order d (by omega) (by omega) a (by rw [eq_comm]; simpa using h1)

/-- The quotient of a polynomial by the factor of one point. -/
def gfQuotient (j : Nat) : List Hexbit → List Hexbit
  | [] => []
  | _ :: cs =>
    match cs with
    | [] => []
    | _ :: _ => gfEval j cs :: gfQuotient j cs

theorem xor_four (a b c d : Hexbit) : (a ^^^ b) ^^^ (c ^^^ d) = (a ^^^ c) ^^^ (b ^^^ d) := by ac_rfl

theorem gfEval_quotient (i j : Nat) (p : List Hexbit) :
    gfEval i p ^^^ gfEval j p = gfPow i (gfEval i (gfQuotient j p)) ^^^ gfPow j (gfEval i (gfQuotient j p)) := by
  induction p with
  | nil => simp [gfEval, gfQuotient, gfPow_zero]
  | cons c cs ih =>
    cases cs with
    | nil => simp [gfEval, gfQuotient, gfPow_zero]
    | cons d ds =>
      have hq : gfQuotient j (c :: d :: ds) = gfEval j (d :: ds) :: gfQuotient j (d :: ds) := rfl
      have he : ∀ k, gfEval k (c :: d :: ds) = c ^^^ gfPow k (gfEval k (d :: ds)) := fun _ => rfl
      rw [hq, he i, he j]
      generalize gfQuotient j (d :: ds) = q at ih
      have hv : gfEval i (gfEval j (d :: ds) :: q) = gfEval j (d :: ds) ^^^ gfPow i (gfEval i q) := rfl
      rw [hv]
      generalize gfEval i (d :: ds) = x at ih
      generalize gfEval j (d :: ds) = y at ih
      generalize gfEval i q = z at ih
      simp only [gfPow_xor, gfPow_comm j i z]
      have h2 := congrArg (gfPow i) ih
      simp only [gfPow_xor] at h2
      rw [xor_four, BitVec.xor_self, BitVec.zero_xor, xor_four (gfPow i y), ← h2]
      have : gfPow i y ^^^ gfPow j y ^^^ (gfPow i x ^^^ gfPow i y) =
        (gfPow i y ^^^ gfPow i y) ^^^ (gfPow i x ^^^ gfPow j y) := by ac_rfl
      rw [this]
      simp

theorem gfQuotient_length (j : Nat) (p : List Hexbit) : (gfQuotient j p).length = p.length - 1 := by
  induction p with
  | nil => rfl
  | cons c cs ih =>
    cases cs with
    | nil => rfl
    | cons d ds =>
      have hq : gfQuotient j (c :: d :: ds) = gfEval j (d :: ds) :: gfQuotient j (d :: ds) := rfl
      rw [hq, List.length_cons, ih]
      simp

theorem zero_of_quotient {j : Nat} {p : List Hexbit} (he : gfEval j p = 0#6) (hq : ∀ c ∈ gfQuotient j p, c = 0#6) :
    ∀ c ∈ p, c = 0#6 := by
  induction p with
  | nil => simp
  | cons c cs ih =>
    cases cs with
    | nil => simpa [gfEval, gfPow_zero] using he
    | cons d ds =>
      have hqq : gfQuotient j (c :: d :: ds) = gfEval j (d :: ds) :: gfQuotient j (d :: ds) := rfl
      rw [hqq] at hq
      have h1 : gfEval j (d :: ds) = 0#6 := hq _ (by simp)
      have hc : c = 0#6 := by
        have : c ^^^ gfPow j (gfEval j (d :: ds)) = 0#6 := he
        rw [h1, gfPow_zero] at this
        simpa using this
      intro x hx
      rcases List.mem_cons.mp hx with rfl | hx
      · exact hc
      · exact ih h1 (fun y hy => hq y (by simp [hy])) x hx

/-- A polynomial with as many roots among the powers of the generator as coefficients is zero. -/
theorem zero_of_roots {n : Nat} {p : List Hexbit} (hn : p.length = n) {js : List Nat} (hd : js.Nodup)
    (hj : ∀ j ∈ js, j < 63 ∧ gfEval j p = 0#6) (hl : n ≤ js.length) : ∀ c ∈ p, c = 0#6 := by
  induction n generalizing p js with
  | zero => simp [List.length_eq_zero_iff.mp hn]
  | succ n ih =>
    match js, hl with
    | j :: js, hl =>
      obtain ⟨hj1, hj2⟩ := hj j (by simp)
      refine zero_of_quotient hj2 (ih (by rw [gfQuotient_length, hn]; rfl) (List.nodup_cons.mp hd).2 ?_ (by simpa using hl))
      intro i hi
      obtain ⟨hi1, hi2⟩ := hj i (by simp [hi])
      refine ⟨hi1, gfPow_separates hi1 hj1 ?_ _ ?_⟩
      · rintro rfl
        exact (List.nodup_cons.mp hd).1 hi
      · rw [← gfEval_quotient, hi2, hj2]
        rfl

/-- The hexbits of a data word. -/
def hexbitsOf {k : Nat} (m : BitVec k) : List Hexbit := (List.range (k / 6)).map fun i => m.extractLsb' (6 * i) 6

/-- The values of a data word's polynomial at `n` powers of the generator. -/
def evalCode {k : Nat} (n : Nat) (m : BitVec k) : List Hexbit := (List.range n).map fun j => gfEval j (hexbitsOf m)

theorem gfEval_xor (j : Nat) (l : List Nat) (f g : Nat → Hexbit) :
    gfEval j (l.map f) ^^^ gfEval j (l.map g) = gfEval j (l.map fun i => f i ^^^ g i) := by
  induction l with
  | nil => simp [gfEval]
  | cons x xs ih =>
    simp only [List.map_cons, gfEval, ← ih, gfPow_xor]
    exact xor_four _ _ _ _

theorem length_agreeing {l : List Nat} (f g : Nat → Hexbit) :
    l.length = differences (l.map f) (l.map g) + (l.filter fun i => f i = g i).length := by
  induction l with
  | nil => rfl
  | cons x xs ih =>
    by_cases h : f x = g x
    · simp only [List.map_cons, differences, h, List.filter_cons, decide_true, if_true, List.length_cons]; omega
    · simp only [List.map_cons, differences, h, List.filter_cons, decide_false, if_false, List.length_cons,
        Bool.false_eq_true]
      omega

theorem hexbits_separate {k : Nat} (hk : k % 6 = 0) {a b : BitVec k}
    (h : ∀ i < k / 6, a.extractLsb' (6 * i) 6 = b.extractLsb' (6 * i) 6) : a = b := by
  refine BitVec.eq_of_getLsbD_eq fun j hj => ?_
  have h1 := congrArg (fun x => x.getLsbD (j % 6)) (h (j / 6) (by omega))
  simpa [BitVec.getLsbD_extractLsb', Nat.mod_lt, Nat.div_add_mod] using h1

/-- Two data words whose codewords agree in as many places as there are data hexbits are equal. -/
theorem evalCode_separates {k n : Nat} (hk : k % 6 = 0) (hn : n ≤ 63) {a b : BitVec k}
    (h : differences (evalCode n a) (evalCode n b) + k / 6 ≤ n) : a = b := by
  have hl := length_agreeing (l := List.range n) (fun j => gfEval j (hexbitsOf a)) (fun j => gfEval j (hexbitsOf b))
  simp only [List.length_range] at hl
  have hz := zero_of_roots (n := k / 6)
    (p := (List.range (k / 6)).map fun i => a.extractLsb' (6 * i) 6 ^^^ b.extractLsb' (6 * i) 6) (by simp)
    (js := (List.range n).filter fun j => gfEval j (hexbitsOf a) = gfEval j (hexbitsOf b))
    (List.nodup_range.filter _) ?_ (by simp only [evalCode] at h; omega)
  · refine hexbits_separate hk fun i hi => ?_
    have := hz _ (List.mem_map.mpr ⟨i, List.mem_range.mpr hi, rfl⟩)
    simpa using congrArg (· ^^^ b.extractLsb' (6 * i) 6) this
  · intro j hj
    simp only [List.mem_filter, List.mem_range, decide_eq_true_eq] at hj
    refine ⟨by omega, ?_⟩
    rw [← gfEval_xor]
    have := hj.2
    simp only [hexbitsOf] at this
    rw [this]
    simp

/-- Evaluation codes repair `t` symbol errors where they have `2 * t` symbols more than data, and decode nothing else. -/
def polynomialCode (k n d t : Nat) (hk : k % 6 = 0) (hn : n ≤ 63) (hd : d + k / 6 ≤ n + 1) (ht : 2 * t < d) :
    SymbolCode k n d t where
  encode m := evalCode n m
  decode r := searchData (fun m : BitVec k => decide (differences (evalCode n m) r ≤ t)) (2 ^ k)
  length_encode m := by simp [evalCode]
  distance a b hne := by
    by_contra hc
    exact hne (evalCode_separates hk hn (by omega))
  decode_eq_some m r hr := by
    refine ⟨fun h => by simpa using searchData_sound h, fun hm => ?_⟩
    refine searchData_unique (by simpa using hm) (fun m' h' => ?_) _ m.isLt
    simp only [decide_eq_true_eq] at h'
    refine evalCode_separates hk hn ?_
    have h2 := differences_triangle (evalCode n m') r (evalCode n m) (by simp [evalCode, hr]) (by simp [evalCode, hr])
    have h3 : differences r (evalCode n m) = differences (evalCode n m) r := differences_comm _ _
    omega

end Sys2Proof.Machine
end

