-- ==== Sys2Proof/Config.lean ====
section
/-! DEFINITION. What an implementation fixes: the configuration registers K1-K13 (10_state.md R60), the
START(config) record, and the free values: constants with no body, of which nothing can be proved but what
their types say. -/

namespace Sys2Proof

/-- K3 GAIN: automatic, or an explicit gain as an s32 in the Source's unit (R60, R502). -/
inductive Gain where
  | auto
  | manual (g : BitVec 32)
deriving DecidableEq, Repr

/-- K4 TG_POLICY (R60, R402). Values of an allow-list are naturals: boot checks that they are below 2^16 (R547). -/
inductive TgPolicy where
  | all
  | allowList (tgs : List Nat)
deriving DecidableEq, Repr

/-- K5 GRANT_PRIORITY (R60, R412). -/
inductive GrantPriority where
  | ignore
  | preempt
deriving DecidableEq, Repr

/-- The configuration registers K1-K13 (10_state.md R60). -/
structure CoreConfig where
  /-- K1 INIT_FREQ, Hz -/
  initFreq : Nat
  /-- K2 PPM, s32 -/
  ppm : BitVec 32
  /-- K3 GAIN -/
  gain : Gain
  /-- K4 TG_POLICY -/
  tgPolicy : TgPolicy
  /-- K5 GRANT_PRIORITY -/
  grantPriority : GrantPriority
  /-- K6 FAIL_LIMIT -/
  failLimit : Nat
  /-- K7 TIMEOUT_SAMPLES -/
  timeoutSamples : Nat
  /-- K8 SETTLE_SAMPLES -/
  settleSamples : Nat
  /-- K9 QUEUE_CAP, blocks -/
  queueCap : Nat
  /-- K10 BLOCK_LEN, samples -/
  blockLen : Nat
  /-- K11 FS, samples per second -/
  fs : Nat
  /-- K12 SYNC_THRESH -/
  syncThresh : Int
  /-- K13 CFO_RESID_HZ -/
  cfoResidHz : Rat
  /-- K13 MF_TAPS -/
  mfTaps : List Rat
  /-- K13 KP -/
  kp : Rat
  /-- K13 KI -/
  ki : Rat
  /-- K13 DRIFT_MAX -/
  driftMax : Rat
  /-- K13 SLICE_THRESH_HZ -/
  sliceThreshHz : Rat
deriving DecidableEq, Repr

/-- The record START(config) carries (45_host_interface.md R506). The fields that 00_scope.md section 4 gives a
value are optional; `none` takes that value (70_reset_and_hazards.md R591, "absent optional fields take their
defaults"). INIT_FREQ is required, and the OPEN parameters have no default. -/
structure StartConfig where
  initFreq : Nat
  ppm : Option (BitVec 32)
  gain : Option Gain
  tgPolicy : Option TgPolicy
  grantPriority : Option GrantPriority
  failLimit : Nat
  timeoutSamples : Nat
  settleSamples : Nat
  queueCap : Nat
  blockLen : Nat
  fs : Nat
  syncThresh : Option Int
  cfoResidHz : Option Rat
  mfTaps : Option (List Rat)
  kp : Option Rat
  ki : Option Rat
  driftMax : Option Rat
  sliceThreshHz : Option Rat
deriving DecidableEq, Repr

namespace Config

/-- FREE VALUE (log entry 7). NUMERICS' choice of `arg` at a point off the axes and the diagonals, where the exact
argument is no rational number of turns (R233, R242). `argTurns` keeps it inside the point's octant. -/
opaque argFree : Rat → Rat → Rat

/-- FREE VALUE (log entry 8). NUMERICS' choice of `cos` of an angle in turns whose exact cosine is irrational (R232). -/
opaque cosFree : Rat → Rat

/-- FREE VALUE (log entry 8). NUMERICS' choice of `sin` of an angle in turns whose exact sine is irrational (R232). -/
opaque sinFree : Rat → Rat

/-- The configured parts of HDU_DECODE, LDU_DECODE and TDULC_DECODE that R345 names. -/
inductive CodePart where
  | golay18 | golay23 | golay24 | hamming15 | hamming10
  | rsHdu | rsLc | rsEs
deriving DecidableEq, Repr

/-- FREE VALUE (log entry 9). Some element of a type that has one; nothing is known of which. The code of a part is a code
with the part's parameters, and of such a code nothing is known but the property its type states. -/
opaque freePart {α : Type} (witness : Inhabited α) (part : CodePart) : α

/-- Golay(18,6,8) of an HDU: 3 bit errors (R345). -/
def golay18 : Machine.WordCode 6 18 8 3 :=
  freePart ⟨Machine.linearCode 6 18 8 3 Machine.rowsGolay18 Machine.heavy_golay18 (by decide)⟩ .golay18

/-- Golay(23,12,7) of a voice frame: 3 bit errors (R345). -/
def golay23 : Machine.WordCode 12 23 7 3 :=
  freePart ⟨Machine.linearCode 12 23 7 3 Machine.rowsGolay23 Machine.heavy_golay23 (by decide)⟩ .golay23

/-- Golay(24,12,8) of a TDULC: 3 bit errors (R345). -/
def golay24 : Machine.WordCode 12 24 8 3 :=
  freePart ⟨Machine.linearCode 12 24 8 3 Machine.rowsGolay24 Machine.heavy_golay24 (by decide)⟩ .golay24

/-- Hamming(15,11,3) of a voice frame: 1 bit error (R345). -/
def hamming15 : Machine.WordCode 11 15 3 1 :=
  freePart ⟨Machine.linearCode 11 15 3 1 (Machine.rowsHamming 15) Machine.heavy_hamming15 (by decide)⟩ .hamming15

/-- Hamming(10,6,3) of an LDU's hexbits: 1 bit error (R345). -/
def hamming10 : Machine.WordCode 6 10 3 1 :=
  freePart ⟨Machine.linearCode 6 10 3 1 (Machine.rowsHamming 10) Machine.heavy_hamming10 (by decide)⟩ .hamming10

/-- RS(36,20,17) of an HDU: 8 symbol errors (R345). -/
def rsHdu : Machine.SymbolCode 120 36 17 8 :=
  freePart ⟨Machine.polynomialCode 120 36 17 8 (by decide) (by decide) (by decide) (by decide)⟩ .rsHdu

/-- RS(24,12,13) of the link control of an LDU1 or a TDULC: 6 symbol errors (R345). DESIGN CHOICE (log entry 9): it is one code
in both classes. -/
def rsLc : Machine.SymbolCode 72 24 13 6 :=
  freePart ⟨Machine.polynomialCode 72 24 13 6 (by decide) (by decide) (by decide) (by decide)⟩ .rsLc

/-- RS(24,16,9) of the encryption sync word of an LDU2: 4 symbol errors (R345). -/
def rsEs : Machine.SymbolCode 96 24 9 4 :=
  freePart ⟨Machine.polynomialCode 96 24 9 4 (by decide) (by decide) (by decide) (by decide)⟩ .rsEs

/-- FREE VALUE (log entry 9). The order of an HDU's 648 body bits (R341). -/
opaque hduOrder : Machine.BitOrder 648

/-- FREE VALUE (log entry 9). The order of an LDU1's 1568 body bits (R341, R350). -/
opaque ldu1Order : Machine.BitOrder 1568

/-- FREE VALUE (log entry 9). The order of an LDU2's 1568 body bits, which need not be that of an LDU1 (R341, R352). -/
opaque ldu2Order : Machine.BitOrder 1568

/-- FREE VALUE (log entry 9). The order of a TDULC's 288 body bits (R341). -/
opaque tdulcOrder : Machine.BitOrder 288

/-- FREE VALUE (log entry 9). What LDU_DECODE adds, by the first vector of a voice frame, to the frame's other 121 bits; a
configured function that adds nothing is the one whose every value is 0. DESIGN CHOICE (log entry 9): it is one function for
LDU1 and LDU2. -/
opaque voiceMask : BitVec 12 → BitVec 121

end Config
end Sys2Proof
end

