-- ==== Sys2Proof/Machine/BodyCodes.lean ====
section
/-! DEFINITION. HDU_DECODE, LDU_DECODE and TDULC_DECODE as R341, R345 and D20 give them: the bits are put in order, every
protected word is decoded, and the hexbits go through their Reed-Solomon code. The parts are configured (Config); so are the
orders of the bits. With each decoder stands its encoder. How the words lie in the ordered bits, and how the parts make up a
payload, is the model's choice (log entry 9). -/

namespace Sys2Proof.Machine

/-- The results of a list of decodings: all of them, or none where one failed (R345, "every word decodes"). -/
def allSome {α : Type} : List (Option α) → Option (List α)
  | [] => some []
  | none :: _ => none
  | some x :: rest =>
    match allSome rest with
    | none => none
    | some xs => some (x :: xs)

/-- `count` words of `n` bits, from position `start` on. -/
def wordsAt (start n count : Nat) (b : List Bool) : List (BitVec n) :=
  (List.range count).map fun i => bitsToBV n (bitsAt (start + n * i) n b)

/-- Decodes `count` words that lie one after the other. -/
def decodeWords {k n d t : Nat} (c : WordCode k n d t) (start count : Nat) (b : List Bool) : Option (List (BitVec k)) :=
  allSome ((wordsAt start n count b).map c.decode)

/-- The words' codewords one after the other. -/
def encodeWords {k n d t : Nat} (c : WordCode k n d t) (data : List (BitVec k)) : List Bool :=
  data.flatMap fun m => bvToBits (c.encode m)

/-! ## HDU and TDULC -/

/-- HDU_DECODE (R345, R348): 36 Golay words of a hexbit each, then the Reed-Solomon code. -/
def hduDecode (b : List Bool) : Option (BitVec 120) :=
  match decodeWords Config.golay18 0 36 (Config.hduOrder.collect b) with
  | none => none
  | some hexbits => Config.rsHdu.decode hexbits

/-- The 648 bits a transmitter sends for 120 header bits. -/
def hduEncode (m : BitVec 120) : List Bool := Config.hduOrder.spread (encodeWords Config.golay18 (Config.rsHdu.encode m))

/-- The two hexbits of a Golay word of a TDULC, the high one first. -/
def hexbitPair (x : BitVec 12) : List Hexbit := [x.extractLsb' 6 6, x.extractLsb' 0 6]

/-- Hexbits joined in pairs. -/
def joinHexbits : List Hexbit → List (BitVec 12)
  | hi :: lo :: rest => (hi ++ lo) :: joinHexbits rest
  | _ => []

/-- TDULC_DECODE (R345, R354): 12 Golay words of two hexbits each, then the Reed-Solomon code. -/
def tdulcDecode (b : List Bool) : Option (BitVec 72) :=
  match decodeWords Config.golay24 0 12 (Config.tdulcOrder.collect b) with
  | none => none
  | some words => Config.rsLc.decode (words.flatMap hexbitPair)

/-- The 288 bits a transmitter sends for a link control word. -/
def tdulcEncode (m : BitVec 72) : List Bool :=
  Config.tdulcOrder.spread (encodeWords Config.golay24 (joinHexbits (Config.rsLc.encode m)))

/-! ## LDU: nine voice frames of 144 bits, 240 bits of link control or encryption sync, 32 bits of low-speed data (R350) -/

/-- The other 121 bits of a voice frame with the configured mask added or taken away. -/
def maskVoice (first : BitVec 12) (rest : List Bool) : List Bool :=
  List.zipWith xor rest (bvToBits (Config.voiceMask first))

/-- A voice frame of 144 bits (R345): four Golay vectors of 12 bits, three Hamming vectors of 11, and seven bits that no code
protects. -/
def voiceDecode (b : List Bool) : Option (BitVec 88) :=
  match Config.golay23.decode (bitsToBV 23 (bitsAt 0 23 b)) with
  | none => none
  | some first =>
    let rest := maskVoice first (b.drop 23)
    match decodeWords Config.golay23 0 3 rest, decodeWords Config.hamming15 69 3 rest with
    | some gs, some hs =>
      some (bitsToBV 88 (bvToBits first ++ gs.flatMap bvToBits ++ hs.flatMap bvToBits ++ bitsAt 114 7 rest))
    | _, _ => none

/-- The 144 bits a transmitter sends for a voice frame. -/
def voiceEncode (f : BitVec 88) : List Bool :=
  let first := f.extractLsb' 76 12
  bvToBits (Config.golay23.encode first) ++
    maskVoice first
      (encodeWords Config.golay23 [f.extractLsb' 64 12, f.extractLsb' 52 12, f.extractLsb' 40 12] ++
        encodeWords Config.hamming15 [f.extractLsb' 29 11, f.extractLsb' 18 11, f.extractLsb' 7 11] ++
          bvToBits (f.extractLsb' 0 7))

/-- The nine voice frames of an LDU's ordered bits. -/
def voiceFrames (b : List Bool) : Option (List (BitVec 88)) :=
  allSome ((List.range 9).map fun j => voiceDecode (bitsAt (144 * j) 144 b))

/-- LDU_DECODE (R345, R350, R352): the voice frames, and the 24 Hamming words through the Reed-Solomon code `rs`,
of a body whose bits are in the order `o`. The low-speed
data are not looked at: no code protects them (D20). -/
def lduDecode {k d t : Nat} (o : BitOrder 1568) (rs : SymbolCode k 24 d t) (b : List Bool) :
    Option (List (BitVec 88) × BitVec k) :=
  let bits := o.collect b
  match voiceFrames bits, decodeWords Config.hamming10 1296 24 bits with
  | some frames, some hexbits =>
    match rs.decode hexbits with
    | some word => some (frames, word)
    | none => none
  | _, _ => none

/-- The 1568 bits a transmitter sends for nine voice frames, a link control or encryption sync word, and low-speed data. -/
def lduEncode {k d t : Nat} (o : BitOrder 1568) (rs : SymbolCode k 24 d t) (frames : List (BitVec 88)) (word : BitVec k)
    (lowSpeed : BitVec 32) : List Bool :=
  o.spread
    (frames.flatMap voiceEncode ++ encodeWords Config.hamming10 (rs.encode word) ++ bvToBits lowSpeed)

end Sys2Proof.Machine
end

