-- ==== Sys2Proof/Machine/Protocol.lean ====
section
/-! DEFINITION. The protocol constants of 00_scope.md section 4 and 30_encoding.md (R150-R154): the spec
gives them from general knowledge (log entry 23). -/

namespace Sys2Proof.Machine

/-- SYMBOL_RATE, symbols per second. -/
def symbolRate : Nat := 4800

/-- SYNC_WORD (R152). -/
def syncWord : BitVec 48 := 0x5575F5FF77FF#48

/-- SYNC_LEN in dibits (R152). -/
def syncLen : Nat := 24

/-- STATUS_PERIOD (R292). -/
def statusPeriod : Nat := 36

/-- TSBK_MAX, the most TSBKs in one TSDU. -/
def tsbkMax : Nat := 3

/-- `level(d)`, the symbol level of a dibit (R150): 01, 00, 10, 11 are +3, +1, -1, -3. -/
def level (d : Dibit) : Int :=
  if d = 1#2 then 3 else if d = 0#2 then 1 else if d = 2#2 then -1 else -3

/-- `SYNC[k]`: the sync word as dibits in air order (R152). -/
def syncDibits : List Dibit := dibitsOf (bvToBits syncWord)

/-- The frame classes of R154, and `Unknown`, a frame whose NID or PDU header failed (10_state.md R39). -/
inductive FrameClass where
  | hdu | tdu | ldu1 | tsdu | ldu2 | pdu | tdulc
  | unknown
deriving DecidableEq, Repr

/-- `36 * ceil(data dibits / 35)`: a frame is padded to fill its last status period (R154, R296). -/
def paddedLen (dataDibits : Nat) : Nat := 36 * ((dataDibits + 34) / 35)

/-- Body data bits of the classes with a fixed body (R154, R294). -/
def bodyBits : FrameClass → Nat
  | .hdu => 648
  | .ldu1 => 1568
  | .ldu2 => 1568
  | .tdulc => 288
  | _ => 0

/-- FRAME_LEN of the classes whose length the DUID fixes; none for TSDU and PDU, whose length comes from
their first blocks, and for Unknown (R154, R185, R296). -/
def fixedFrameLen : FrameClass → Option Nat
  | .hdu => some 396
  | .tdu => some 72
  | .ldu1 => some 864
  | .ldu2 => some 864
  | .tdulc => some 216
  | .tsdu => none
  | .pdu => none
  | .unknown => none

/-- Data dibits of a TSDU that holds `n` TSBKs (R154). -/
def tsduDibits (n : Nat) : Nat := 56 + 98 * n

/-- SPS, nominal samples per symbol (00_scope.md section 4). -/
def spsOf (c : CoreConfig) : Nat := c.fs / symbolRate

/-- The default of MF_TAPS: SPS taps of 1/SPS (00_scope.md section 4). -/
def boxcar (sps : Nat) : List Rat := List.replicate sps (1 / (sps : Rat))

/-- The configuration registers before START (R60): the defaults where R60 gives one; the OPEN parameters at the test
column of 00_scope.md section 4, and INIT_FREQ at 0, no legal value (DESIGN CHOICE, unsafe: log entry 4). -/
def resetConfig : CoreConfig where
  initFreq := 0
  ppm := 0#32
  gain := .auto
  tgPolicy := .all
  grantPriority := .ignore
  failLimit := 3
  timeoutSamples := 48000
  settleSamples := 4800
  queueCap := 4
  blockLen := 4800
  fs := 48000
  syncThresh := 170
  cfoResidHz := 0
  mfTaps := boxcar 10
  kp := 1 / 8
  ki := 1 / 256
  driftMax := 1 / 100
  sliceThreshHz := 1200

end Sys2Proof.Machine
end

