-- ==== Sys2Proof/Machine/Fec.lean ====
section
/-! DEFINITION. The reference code functions of 42_fec_decoder.md: CRC16 (R347), DEINT (R343), the trellis of
TSBK_DECODE (R346) and the BCH code of NID_DECODE (R344), each with its encoder. -/

namespace Sys2Proof.Machine

/-! ## CRC16 -/

/-- One bit of the CRC16 register (R347). -/
def crcStep (r : BitVec 16) (m : Bool) : BitVec 16 :=
  if (r.msb ^^ m) then (r <<< 1) ^^^ 0x1021#16 else r <<< 1

/-- CRC16 over a bit string, the remainder complemented (R347). -/
def crc16 (m : List Bool) : BitVec 16 := m.foldl crcStep 0#16 ^^^ 0xFFFF#16

/-- The CRC16 of octets 0-9 of a TSBK. -/
def tsbkCrc (o : Octets12) : BitVec 16 := crc16 (bvToBits (o.extractLsb' 16 80))

/-- CRC16 holds: octets 10 and 11 are the CRC of octets 0-9 (R347). -/
def crcOk (o : Octets12) : Bool := o.extractLsb' 0 16 == tsbkCrc o

/-- Octets 0-9 followed by their CRC16 (R347). -/
def withCrc (m : BitVec 80) : Octets12 := m ++ crc16 (bvToBits m)

/-! ## Deinterleaving -/

/-- DEINT: coded dibit `i` is air dibit `DEINT[i]` (R343). -/
def deint : List Nat :=
  [0, 1, 8, 9, 16, 17, 24, 25, 32, 33, 40, 41, 48, 49, 56, 57, 64, 65, 72, 73, 80, 81, 88, 89, 96, 97,
   2, 3, 10, 11, 18, 19, 26, 27, 34, 35, 42, 43, 50, 51, 58, 59, 66, 67, 74, 75, 82, 83, 90, 91,
   4, 5, 12, 13, 20, 21, 28, 29, 36, 37, 44, 45, 52, 53, 60, 61, 68, 69, 76, 77, 84, 85, 92, 93,
   6, 7, 14, 15, 22, 23, 30, 31, 38, 39, 46, 47, 54, 55, 62, 63, 70, 71, 78, 79, 86, 87, 94, 95]

/-- `coded[i] = air[DEINT[i]]` (R343). -/
def deinterleave (air : List Dibit) : List Dibit := deint.map fun k => air.getD k 0#2

/-- The inverse of `deinterleave`: air dibit `k` is the coded dibit whose DEINT is `k`. -/
def interleave (coded : List Dibit) : List Dibit :=
  (List.range 98).map fun k => coded.getD (deint.idxOf k) 0#2

/-! ## The trellis -/

/-- TRELLIS[s][d]: the point sent from state `s` (the previous input dibit) on input `d` (R346). -/
def trellis (s d : Dibit) : BitVec 4 :=
  (match s.toNat with
    | 0 => [0x2#4, 0xC#4, 0x1#4, 0xF#4]
    | 1 => [0xE#4, 0x0#4, 0xD#4, 0x3#4]
    | 2 => [0x9#4, 0x7#4, 0xA#4, 0x4#4]
    | _ => [0x5#4, 0xB#4, 0x6#4, 0x8#4]).getD d.toNat 0#4

/-- The points the encoder sends for the input dibits `ins` from state `s` (R346). -/
def trellisEncode (s : Dibit) : List Dibit → List (BitVec 4)
  | [] => []
  | d :: rest => trellis s d :: trellisEncode d rest

/-- The metric of the path with inputs `ins` from state `s` against the received points:
the sum over j of popcount(TRELLIS[s_j][in_j] xor pt[j]) (R346). -/
def pathMetric (s : Dibit) : List Dibit → List (BitVec 4) → Nat
  | d :: ins, pt :: pts => popcount (trellis s d ^^^ pt) + pathMetric d ins pts
  | _, _ => 0

/-- A path and its metric. -/
structure Path where
  metric : Nat
  ins : List Dibit
deriving DecidableEq, Repr

/-- The better of two paths: the first one on a tie. -/
def Path.better (a b : Path) : Path := if b.metric < a.metric then b else a

/-- The best completions from each of the four states. -/
structure PathTable where
  s0 : Path
  s1 : Path
  s2 : Path
  s3 : Path
deriving DecidableEq, Repr

/-- The entry of a state. -/
def PathTable.get (t : PathTable) (s : Dibit) : Path :=
  match s.toNat with
  | 0 => t.s0
  | 1 => t.s1
  | 2 => t.s2
  | _ => t.s3

/-- The path that takes input `d` from state `s` on point `pt` and goes on as the table says. -/
def extendPath (t : PathTable) (pt : BitVec 4) (s d : Dibit) : Path :=
  ⟨popcount (trellis s d ^^^ pt) + (t.get d).metric, d :: (t.get d).ins⟩

/-- The best path from state `s`, inputs tried in increasing order so that a tie goes to the least one (R346). -/
def bestFrom (t : PathTable) (pt : BitVec 4) (s : Dibit) : Path :=
  (((extendPath t pt s 0#2).better (extendPath t pt s 1#2)).better (extendPath t pt s 2#2)).better
    (extendPath t pt s 3#2)

/-- The last point of a block, where the input is the flush dibit 0 (R346). -/
def flushFrom (pt : BitVec 4) (s : Dibit) : Path := ⟨popcount (trellis s 0#2 ^^^ pt), [0#2]⟩

/-- For each state, the input sequence of least metric over the received points that ends with the flush dibit,
and of those the least in lexicographic order (R346). -/
def bestPaths : List (BitVec 4) → PathTable
  | [] => ⟨⟨0, []⟩, ⟨0, []⟩, ⟨0, []⟩, ⟨0, []⟩⟩
  | [pt] => ⟨flushFrom pt 0#2, flushFrom pt 1#2, flushFrom pt 2#2, flushFrom pt 3#2⟩
  | pt :: rest =>
    let t := bestPaths rest
    ⟨bestFrom t pt 0#2, bestFrom t pt 1#2, bestFrom t pt 2#2, bestFrom t pt 3#2⟩

/-- The inputs of the best path from state 0 (R346). -/
def trellisDecode (pts : List (BitVec 4)) : List Dibit := (bestPaths pts).s0.ins

/-- TSBK_DECODE: 196 bits to 12 octets (R346). Also PDU_HDR_DECODE. -/
def tsbkDecode (b : List Bool) : Octets12 :=
  bitsToBV 96 (((trellisDecode (pointsOf (deinterleave (dibitsOf b)))).take 48).flatMap dibitBits)

/-- The dibits of a list of points, high dibit first (R346). -/
def pointDibits (pt : BitVec 4) : List Dibit := [pt.extractLsb' 2 2, pt.extractLsb' 0 2]

/-- The 196 bits a transmitter sends for 12 octets (R346, R343): 48 input dibits and the flush dibit. -/
def tsbkEncode (o : Octets12) : List Bool :=
  (interleave ((trellisEncode 0#2 (dibitsOf (bvToBits o) ++ [0#2])).flatMap pointDibits)).flatMap dibitBits

/-! ## The NID code -/

/-- The generator of BCH(63,16,23), degree 47 (R344). -/
def bchGenerator : BitVec 48 := 0xCD930BDD3B2B#48

/-- One bit of the division by the generator (R344). -/
def bchStep (r : BitVec 47) (m : Bool) : BitVec 47 :=
  if (r.msb ^^ m) then (r <<< 1) ^^^ bchGenerator.setWidth 47 else r <<< 1

/-- The remainder of `data * x^47` modulo the generator (R344). -/
def bchParity (data : BitVec 16) : BitVec 47 := (bvToBits data).foldl bchStep 0#47

/-- The systematic codeword of 16 data bits, `nid[63:1]` (R344). -/
def bchEncode (data : BitVec 16) : BitVec 63 := data ++ bchParity data

/-- The codewords of the sixteen data words with one bit set, the most significant first: a basis of the code. -/
def bchRows : List (BitVec 63) :=
  (List.range 16).map fun i => bchEncode (BitVec.ofNat 16 (2 ^ (15 - i)))

/-- The first codeword within distance `t` of `r` among `c` plus the span of `rows`. -/
def nearest (t : Nat) (r : BitVec 63) : List (BitVec 63) → BitVec 63 → Option (BitVec 63)
  | [], c => if popcount (c ^^^ r) ≤ t then some c else none
  | row :: rows, c =>
    match nearest t r rows c with
    | some w => some w
    | none => nearest t r rows (c ^^^ row)

/-- The capability of the NID code in bit errors (R345). -/
def bchCapability : Nat := 11

/-- The codeword within 11 bit errors of a received word, if there is one (R344). Every codeword is the systematic
codeword of the received data bits plus a sum of rows, so all 2^16 codewords are tried, the one that agrees with the
received data bits first. -/
def bchDecode (r : BitVec 63) : Option (BitVec 63) :=
  nearest bchCapability r bchRows (bchEncode (r.extractLsb' 47 16))

/-- NID_DECODE: the NAC and the DUID after correction, or none. `nid[0]` is not checked (R344, R182). -/
def nidDecode (nid : Word64) : Option (BitVec 12 × BitVec 4) :=
  (bchDecode (nid.extractLsb' 1 63)).map fun c => (c.extractLsb' 51 12, c.extractLsb' 47 4)

/-- The NID of a NAC and a DUID: the codeword, then an even parity bit (R153, R344, 95_test_vectors.md V-F5). -/
def nidEncode (nac : BitVec 12) (duid : BitVec 4) : Word64 :=
  let c := bchEncode (nac ++ duid)
  c ++ BitVec.ofBool (popcount c % 2 == 1)

end Sys2Proof.Machine
end

