-- ==== Sys2Proof/Machine/Operands.lean ====
section
/-! DEFINITION. Operand assembly: the fields of a TSBK and of its arguments (30_encoding.md R155-R160), the
channel identifier (20_memory.md R108), and the gate of the arbiter (43_trunking.md R400). -/

namespace Sys2Proof.Machine

/-- LB, last block: `o[0][7]` (R155). -/
def tsbkLb (o : Octets12) : Bool := o.getLsbD 95

/-- P, protected: `o[0][6]` (R155). -/
def tsbkP (o : Octets12) : Bool := o.getLsbD 94

/-- OPC: `o[0][5:0]` (R155). -/
def tsbkOpc (o : Octets12) : BitVec 6 := o.extractLsb' 88 6

/-- MFID: `o[1]` (R155). -/
def tsbkMfid (o : Octets12) : BitVec 8 := o.extractLsb' 80 8

/-- ARGS: `A[63:0]`, octets 2-9 (R155). -/
def tsbkArgs (o : Octets12) : BitVec 64 := o.extractLsb' 16 64

/-- BTF of a PDU header: `o[6][6:0]` (R163). -/
def pduBtf (o : Octets12) : Nat := (o.extractLsb' 40 7).toNat

/-- MFID_STD: the manufacturer ids whose TSBKs are interpreted (00_scope.md section 4, D24). -/
def mfidStd (mfid : BitVec 8) : Bool := mfid == 0x00#8 || mfid == 0x01#8

/-- The opcodes that have a rule of their own (R175, D25). -/
def handledOpc (opc : BitVec 6) : Bool :=
  opc == 0x00#6 || opc == 0x02#6 || opc == 0x34#6 || opc == 0x3D#6

/-- `tsbk_gate(o)`: P = 0 and a standard MFID (R400). -/
def tsbkGate (o : Octets12) : Bool := !tsbkP o && mfidStd (tsbkMfid o)

/-- The band id of a channel identifier, `chan[15:12]` (R108). -/
def chanBand (chan : BitVec 16) : BitVec 4 := chan.extractLsb' 12 4

/-- The channel number of a channel identifier, `chan[11:0]` (R108). -/
def chanNumber (chan : BitVec 16) : BitVec 12 := chan.extractLsb' 0 12

end Sys2Proof.Machine
end

