-- ==== Sys2Proof/Syntax.lean ====
section
/-! DEFINITION. The operations of spec/opcode_table.json, one constructor per row (30_encoding.md R175). -/

namespace Sys2Proof

/-- The fifteen operations. Frame classes carry the NAC of the NID that selects them (R153). TSBK operations
carry LB, the manufacturer id and their argument fields (R155-R159); `tsbkOther` carries all of a TSBK's
fields. Commands carry the operand of their word (R170). -/
inductive Instr where
  /-- FRAME_HDU, DUID 0x0 (R348) -/
  | frameHdu (nac : BitVec 12)
  /-- FRAME_TDU, DUID 0x3 (R349) -/
  | frameTdu (nac : BitVec 12)
  /-- FRAME_LDU1, DUID 0x5 (R350) -/
  | frameLdu1 (nac : BitVec 12)
  /-- FRAME_TSDU, DUID 0x7 (R351) -/
  | frameTsdu (nac : BitVec 12)
  /-- FRAME_LDU2, DUID 0xA (R352) -/
  | frameLdu2 (nac : BitVec 12)
  /-- FRAME_PDU, DUID 0xC (R353) -/
  | framePdu (nac : BitVec 12)
  /-- FRAME_TDULC, DUID 0xF (R354) -/
  | frameTdulc (nac : BitVec 12)
  /-- GRP_V_CH_GRANT, OPC 0x00 (R156, R404) -/
  | grpVChGrant (lb : Bool) (mfid : BitVec 8) (svc : BitVec 8) (chan tg : BitVec 16) (src : BitVec 24)
  /-- GRP_V_CH_GRANT_UPDT, OPC 0x02 (R157, R407) -/
  | grpVChGrantUpdt (lb : Bool) (mfid : BitVec 8) (chanA tgA chanB tgB : BitVec 16)
  /-- IDEN_UP_VU, OPC 0x34 (R158, R406) -/
  | idenUpVu (lb : Bool) (mfid : BitVec 8) (iden bwvu : BitVec 4) (tx : BitVec 14) (spacing : BitVec 10) (base : BitVec 32)
  /-- IDEN_UP, OPC 0x3D (R159, R405) -/
  | idenUp (lb : Bool) (mfid : BitVec 8) (iden : BitVec 4) (bw tx : BitVec 9) (spacing : BitVec 10) (base : BitVec 32)
  /-- TSBK_OTHER: every other valid TSBK (R181, R408) -/
  | tsbkOther (lb p : Bool) (opc : BitVec 6) (mfid : BitVec 8) (args : BitVec 64)
  /-- SET_FREQ, code 0x01 (R501) -/
  | setFreq (freq : BitVec 56)
  /-- SET_GAIN, code 0x02 (R502) -/
  | setGain (gain : Gain)
  /-- SET_PPM, code 0x03 (R503) -/
  | setPpm (ppm : BitVec 32)
deriving DecidableEq, Repr

end Sys2Proof
end

