-- ==== Sys2Proof/Machine/State.lean ====
section
/-! DEFINITION. The state of P25RX-CORE (10_state.md S1-S26, K1-K13), the position of the agent step under way,
the outside world as plain data, and the state after reset. -/

namespace Sys2Proof.Machine

/-! ## Records of the pipeline -/

/-- A SampleBlock (R36). -/
structure SampleBlock where
  seq : Nat
  samples : List Cplx
deriving DecidableEq, Repr

/-- The kinds of DataUnit (R161). -/
inductive UnitKind where
  | headerUnit
  | logicalLinkUnit1
  | logicalLinkUnit2
  | trunkingSignalingBlock
  | packetDataUnit
  | terminator
deriving DecidableEq, Repr

/-- The kind-specific payload of a valid DataUnit (R161). -/
inductive Body where
  /-- HeaderUnit: the 120 header bits (R348) -/
  | header (hdr : BitVec 120)
  /-- LogicalLinkUnit1: nine voice frames and the link control word (R350) -/
  | ldu1 (frames : List (BitVec 88)) (lc : BitVec 72)
  /-- LogicalLinkUnit2: nine voice frames and the encryption sync word (R352) -/
  | ldu2 (frames : List (BitVec 88)) (es : BitVec 96)
  /-- TrunkingSignalingBlock: the twelve octets (R351) -/
  | tsbk (o : Octets12)
  /-- PacketDataUnit: the header, BTF, and the raw bits of the data blocks (R353, R296) -/
  | pdu (hdr : Octets12) (btf : Nat) (blocks : List Bool)
  /-- Terminator of a TDU, which has no body bits (R349) -/
  | tdu
  /-- Terminator of a TDULC: the link control word (R354) -/
  | tdulc (lc : BitVec 72)
deriving DecidableEq, Repr

/-- A DataUnit (R161). `body` is present only when `valid`. -/
structure DataUnit where
  kind : UnitKind
  valid : Bool
  time : Nat
  nac : BitVec 12
  body : Option Body
deriving DecidableEq, Repr

/-- The reason of a RetuneCommand (R162). No rule reads it. -/
inductive Reason where
  | grant | timeout | terminate | preempt
deriving DecidableEq, Repr

/-- A RetuneCommand (R162). -/
structure RetuneCommand where
  targetFrequency : Nat
  reason : Reason
deriving DecidableEq, Repr

/-- Which kind of LDU a voice record comes from (R171). -/
inductive LduKind where
  | ldu1 | ldu2
deriving DecidableEq, Repr

/-- A voice record on P_VOICE (R171). -/
structure VoiceRecord where
  kind : LduKind
  frames : List (BitVec 88)
  time : Nat
deriving DecidableEq, Repr

/-- Which Identifier-Update wrote a ChannelMap entry (R61). -/
inductive BandKind where
  | iden | idenVU
deriving DecidableEq, Repr

/-- A ChannelMap entry (R61). The raw fields are kept as received, extended with zeros to the wider format. -/
structure BandEntry where
  kind : BandKind
  baseHz : Nat
  spacingHz : Nat
  txOffsetRaw : BitVec 14
  bwRaw : BitVec 9
deriving DecidableEq, Repr

/-- S22, the TrunkingState: the role (R41). -/
inductive Role where
  | controlChannel
  | trafficChannel (frequency : Nat) (talkgroup : BitVec 16) (lastActivity : Nat)
deriving DecidableEq, Repr

/-- S12, the SyncState (R39). `locked pos`: the next dibit is position `pos` of the current frame. -/
inductive Sync where
  | searching
  | locked (pos : Nat)
deriving DecidableEq, Repr

/-! ## Errors (60_exceptions.md) -/

/-- The Source call that E5 reports (R545). -/
inductive SourceCall where
  | openCall | readCall
deriving DecidableEq, Repr

/-- The configuration field that E7 reports (R547). `spsBound` is condition 6, which the spec does not name (log entry 17). -/
inductive ConfigField where
  | initFreq | failLimit | timeoutSamples | queueCap | blockLen | fs | syncThresh
  | kp | ki | driftMax | mfTaps | spsBound | tgPolicy | gain | ppm
deriving DecidableEq, Repr

/-- The error classes E1-E8 with their info (R540-R548). No rule of the block raises E8 (R548). -/
inductive Error where
  /-- E1 SYNC_LOSS at a sample time -/
  | e1 (time : Nat)
  /-- E2 FEC_FAILURE of a unit -/
  | e2 (kind : UnitKind) (time : Nat)
  /-- E3 QUEUE_OVERFLOW of a block -/
  | e3 (seq : Nat)
  /-- E4 UNRESOLVED_CHANNEL -/
  | e4 (chan : BitVec 16)
  /-- E5 SOURCE_FAILURE -/
  | e5 (call : SourceCall)
  /-- E6 RETUNE_FAILURE -/
  | e6 (frequency : Nat)
  /-- E7 CONFIG_INVALID -/
  | e7 (field : ConfigField)
  /-- E8 SINK_BACKPRESSURE, raised by the audio side only -/
  | e8
deriving DecidableEq, Repr

/-- E5, E6 and E7 are fatal (R543). -/
def Error.fatal : Error → Bool
  | .e5 _ => true
  | .e6 _ => true
  | .e7 _ => true
  | _ => false

/-- S1 run_state (R35). R549 writes Fatal(E<n>), and that value is what the host observes (R509). DESIGN CHOICE (log entry 27):
`fatal` carries the error together with its info, for E5 and E6 as well as for E7. -/
inductive RunState where
  | booting
  | running
  | fatal (code : Error)
  | stopped
deriving DecidableEq, Repr

/-! ## The position of the step under way (R33, R230, R401) -/

/-- Who issued a RetuneCommand, and so where the Decode step goes on after it: the block-start tick (then the samples
follow) or the delivery of a DataUnit (then the Voice Router follows) (R460). -/
inductive TuneFrom where
  | tick | delivery
deriving DecidableEq, Repr

/-- Why a P_CMD word is being sent: one of the three words of boot (R591), or a retune (R462). -/
inductive SendFor where
  | bootPpm | bootGain | bootFreq
  | retune (source : TuneFrom)
deriving DecidableEq, Repr

/-- The operation that comes next. -/
inductive Stage where
  /-- no agent step is under way: the next outside event decides (log entry 2) -/
  | idle
  /-- `cmdWord` is being sent on P_CMD -/
  | send (reason : SendFor)
  /-- the word was accepted; what follows it comes next -/
  | sent (reason : SendFor)
  /-- the next sample of the block (R230) -/
  | sample
  /-- the next dibit of the run (R238) -/
  | dibit
  /-- a data dibit has been added to S14: `frame_progress` (R290) -/
  | frame
  /-- the DataUnit in flight is at the Trunking State Machine (R400) -/
  | tsm
  /-- the RetuneCommand in flight, if any, is at the Channel Tuner (R460) -/
  | tune (source : TuneFrom)
  /-- the DataUnit in flight is at the Voice Router (R480) -/
  | route
  /-- the end of a locked dibit step: advance the position or end the frame (R290) -/
  | advance
deriving DecidableEq, Repr

/-! ## The outside world -/

/-- The Sample Source's reply to a call (R504). -/
inductive Status where
  | ok | fail
deriving DecidableEq, Repr

/-- The result of `read_block()` (R500). -/
inductive ReadResult where
  | ok (samples : List Cplx)
  | fail
deriving DecidableEq, Repr

/-- What happens next between two agent steps (R30, R552): an action of the host, or an agent taking its step. An
Ingest step carries what `read_block()` answers; START and SHUTDOWN carry the reply to `open()` and `close()` (R505). -/
inductive Event where
  | start (config : StartConfig) (openReply : Status)
  | shutdown (closeReply : Status)
  | ingest (read : ReadResult)
  | decode
deriving DecidableEq, Repr

/-- A port action (R31, R505, R509). -/
inductive PortAction where
  | openSource (reply : Status)
  | command (w : Word64) (reply : Status)
  | voice (rec : VoiceRecord)
  | endOfStream
  | closeSource (reply : Status)
deriving DecidableEq, Repr

/-- Reasons the model stops with a fault. -/
inductive Fault where
  /-- Raised by an Ingest step whose `read_block()` answers a list that is no SampleBlock: its length is not BLOCK_LEN
  (R36, R500). The interface excludes it. Safe: the hardware never gets such an input (log entry 15). -/
  | notASampleBlock
deriving DecidableEq, Repr

/-- Reasons the model gives no meaning. -/
inductive Refusal where
  /-- An opcode-table row without a meaning yet; only arms of `exec` answer it. Safe. -/
  | notModelled (mnemonic : String)
  /-- Raised by a step that would send a P_CMD word with a reserved code or reserved bits set, which "the block never
  sends" (R170). Safe: no reachable state holds one (log entry 16). -/
  | reservedCommand
deriving DecidableEq, Repr

/-! ## The state -/

/-- The machine's state. S and K numbers are those of 10_state.md. -/
structure State where
  /-- S1 run_state -/
  runState : RunState
  /-- S2 next_seq -/
  nextSeq : Nat
  /-- S3 queue, head first -/
  queue : List SampleBlock
  /-- S4 last_seq -/
  lastSeq : Option Nat
  /-- S5 discard_left -/
  discardLeft : Nat
  /-- S6 z_prev -/
  zPrev : Cplx
  /-- S7 mf_hist, newest first -/
  mfHist : List Rat
  /-- S8 y_prev -/
  yPrev : Rat
  /-- S9 clk -/
  clk : Rat
  /-- S10 period -/
  period : Rat
  /-- S11 nac_cur -/
  nacCur : BitVec 12
  /-- S12 sync -/
  sync : Sync
  /-- S13 win, oldest first -/
  win : List (Option Dibit)
  /-- S14 fbits -/
  fbits : List Bool
  /-- S15 cur_len -/
  curLen : Option Nat
  /-- S16 last_len -/
  lastLen : Option Nat
  /-- S17 cls -/
  cls : Option FrameClass
  /-- S18 fail_count -/
  failCount : Nat
  /-- S19 frame_failed -/
  frameFailed : Bool
  /-- S20 tsbk_n -/
  tsbkN : Nat
  /-- S21 tsdu_end -/
  tsduEnd : Option Nat
  /-- S22 role -/
  role : Role
  /-- S23 chan_map -/
  chanMap : Vector (Option BandEntry) 16
  /-- S24 control_freq -/
  controlFreq : Nat
  /-- S25 tuned_freq -/
  tunedFreq : Nat
  /-- S26 pdu_hdr -/
  pduHdr : Option DataUnit
  /-- K1-K13 -/
  cfg : CoreConfig
  /-- the operation that comes next -/
  stage : Stage
  /-- sequence number of the block being processed (R33) -/
  curSeq : Nat
  /-- index of the next sample to process inside the block (R33) -/
  idx : Nat
  /-- samples of the block still to process (R230) -/
  todo : List Cplx
  /-- sample time (R34) -/
  now : Nat
  /-- dibits decided and not yet delivered, with their times (R230, R238) -/
  run : List (Dibit × Nat)
  /-- the DataUnit in flight (R401) -/
  unit : Option DataUnit
  /-- the RetuneCommand in flight (R401, R460) -/
  cmd : Option RetuneCommand
  /-- the word on P_CMD (R170) -/
  cmdWord : Word64
  /-- MODEL: outside events and agent steps still to come, in order (log entry 2) -/
  events : List Event
  /-- MODEL: replies to P_CMD words still to come, in order (log entry 2) -/
  replies : List Status
  /-- MODEL: port actions made, newest first (log entry 3) -/
  out : List PortAction
  /-- MODEL: errors raised, newest first (log entry 3) -/
  raised : List Error
deriving DecidableEq, Repr

/-- An empty sync window: SYNC_LEN entries `none` (R39). -/
def emptyWindow : List (Option Dibit) := List.replicate syncLen none

/-- The machine right after reset (70_reset_and_hazards.md R590). -/
def State.reset : State where
  runState := .booting
  nextSeq := 0
  queue := []
  lastSeq := none
  discardLeft := 0
  zPrev := ⟨1, 0⟩
  mfHist := List.replicate resetConfig.mfTaps.length 0
  yPrev := 0
  clk := 0
  period := (spsOf resetConfig : Rat)
  nacCur := 0#12
  sync := .searching
  win := emptyWindow
  fbits := []
  curLen := none
  lastLen := none
  cls := none
  failCount := 0
  frameFailed := false
  tsbkN := 0
  tsduEnd := none
  role := .controlChannel
  chanMap := Vector.replicate 16 none
  controlFreq := resetConfig.initFreq
  tunedFreq := resetConfig.initFreq
  pduHdr := none
  cfg := resetConfig
  stage := .idle
  curSeq := 0
  idx := 0
  todo := []
  now := 0
  run := []
  unit := none
  cmd := none
  cmdWord := 0#64
  events := []
  replies := []
  out := []
  raised := []

end Sys2Proof.Machine
end

