-- ==== Sys2Proof/Machine/Ops.lean ====
section
/-! DEFINITION. The operations that rules of several files share: sample time, the ChannelMap, raising an error,
resynchronisation, the sample queue, and a call on P_CMD. -/

namespace Sys2Proof.Machine

/-- An Outcome of the machine. -/
abbrev Result := Host.Outcome State Fault Refusal

/-- `t(s, i) = s * BLOCK_LEN + i` (R34). -/
def sampleTime (c : CoreConfig) (seq i : Nat) : Nat := seq * c.blockLen + i

/-! ## The ChannelMap (S23) -/

/-- `MapRead(b)` (R61, R109). -/
def mapRead (b : BitVec 4) (s : State) : Option BandEntry := s.chanMap[b.toNat]'b.isLt

/-- `MapWrite(b, e)`: a write replaces the whole entry (R61, R405). -/
def mapWrite (b : BitVec 4) (e : BandEntry) (s : State) : State :=
  { s with chanMap := s.chanMap.set b.toNat (some e) b.isLt }

/-- `resolve(chan)`: a channel identifier to a frequency, none where the band's entry is empty (R109). -/
def resolve (chan : BitVec 16) (s : State) : Option Nat :=
  (mapRead (chanBand chan) s).map fun e => e.baseHz + (chanNumber chan).toNat * e.spacingHz

/-! ## Taking an error (60_exceptions.md R549)

This is the whole of exception entry: nothing is saved, there is no vector, and the only change of mode is Fatal.
There is no return operation: after E1-E4 the raising rule goes on with its next statement (R550). -/

/-- `raise E<n>(info)`: E5, E6 and E7 set S1 to Fatal (log entry 27); E1-E4 write nothing (R549). The list of
raised errors is the model's own (log entry 3). -/
def raise (e : Error) (s : State) : State :=
  { s with runState := if e.fatal then .fatal e else s.runState, raised := e :: s.raised }

/-! ## Resynchronisation -/

/-- `force_search()` (R289). -/
def forceSearch (s : State) : State :=
  { s with
    sync := .searching, win := emptyWindow, fbits := [], curLen := none, lastLen := none, cls := none,
    failCount := 0, frameFailed := false, tsbkN := 0, tsduEnd := none, pduHdr := none }

/-- `demod_reset()` (R239): the reset values of R38 under the loaded configuration. -/
def demodReset (s : State) : State :=
  { s with
    zPrev := ⟨1, 0⟩, mfHist := List.replicate s.cfg.mfTaps.length 0, yPrev := 0, clk := 0,
    period := (spsOf s.cfg : Rat) }

/-! ## The sample queue -/

/-- `enqueue_or_drop(blk)`: a full queue drops the newest block and raises E3 (R112). -/
def enqueueOrDrop (blk : SampleBlock) (s : State) : State :=
  if s.queue.length < s.cfg.queueCap then { s with queue := s.queue ++ [blk] } else raise (.e3 blk.seq) s

/-- A sequence gap: the last processed number is known and the block's is not its successor (R111). -/
def isGap (lastSeq : Option Nat) (seq : Nat) : Bool :=
  match lastSeq with
  | none => false
  | some p => seq != p + 1

/-- `gap_check(blk)` (R111). -/
def gapCheck (seq : Nat) (s : State) : State :=
  { (if isGap s.lastSeq seq then demodReset (forceSearch s) else s) with lastSeq := some seq }

/-! ## Calls on P_CMD -/

/-- A call that sends `w` on P_CMD: the word and the Source's reply go on record, and a FAIL raises `onFail` (R504,
R549). Without a reply the call has not returned, and nothing happens yet (log entry 18). -/
def sendCommand (w : Word64) (onFail : Error) (s : State) : State :=
  match s.replies with
  | [] => s
  | .ok :: rest => { s with replies := rest, out := .command w .ok :: s.out }
  | .fail :: rest => raise onFail { s with replies := rest, out := .command w .fail :: s.out }

end Sys2Proof.Machine
end

