-- ==== Sys2Proof/Machine/Flags.lean ====
section
/-! DEFINITION. The flags of the block (10_state.md R43): it has no condition codes. Validity is the `valid` field of
a DataUnit; lock and window-open are views of S12 and S5. -/

namespace Sys2Proof.Machine

/-- Lock: S12 is `Locked(pos)` (R43). -/
def isLocked (s : State) : Bool :=
  match s.sync with
  | .locked _ => true
  | .searching => false

/-- Window open: S5 > 0 (R43). -/
def windowOpen (s : State) : Bool := 0 < s.discardLeft

/-- A DataUnit with its validity flag: a payload where its code decoded, and no body where it did not (R342, R161). -/
def mkUnit (kind : UnitKind) (time : Nat) (nac : BitVec 12) (body : Option Body) : DataUnit :=
  { kind := kind, valid := body.isSome, time := time, nac := nac, body := body }

end Sys2Proof.Machine
end

