-- ==== Sys2Proof/Machine/FecUnits.lean ====
section
/-! DEFINITION. The FEC Decoder by frame class (42_fec_decoder.md R348-R354): functions of the bits of one part of a frame,
the NAC and the time of the part's last dibit, with no state (R340). -/

namespace Sys2Proof.Machine

/-- `fec_body(HDU, b, nac, t)` (R348). -/
def fecHdu (b : List Bool) (nac : BitVec 12) (t : Nat) : DataUnit :=
  mkUnit .headerUnit t nac ((hduDecode b).map .header)

/-- `fec_tdu(nac, t)` (R349). -/
def fecTdu (nac : BitVec 12) (t : Nat) : DataUnit := mkUnit .terminator t nac (some .tdu)

/-- `fec_body(LDU1, b, nac, t)` (R350). -/
def fecLdu1 (b : List Bool) (nac : BitVec 12) (t : Nat) : DataUnit :=
  mkUnit .logicalLinkUnit1 t nac
    ((lduDecode Config.ldu1Order Config.rsLc b).map fun p => .ldu1 p.1 p.2)

/-- `fec_body(LDU2, b, nac, t)` (R352). -/
def fecLdu2 (b : List Bool) (nac : BitVec 12) (t : Nat) : DataUnit :=
  mkUnit .logicalLinkUnit2 t nac
    ((lduDecode Config.ldu2Order Config.rsEs b).map fun p => .ldu2 p.1 p.2)

/-- `fec_tsbk(b, nac, t)` (R351). -/
def fecTsbk (b : List Bool) (nac : BitVec 12) (t : Nat) : DataUnit :=
  let o := tsbkDecode b
  mkUnit .trunkingSignalingBlock t nac (if crcOk o then some (.tsbk o) else none)

/-- `fec_pdu_header(b, nac, t)` (R353). -/
def fecPduHeader (b : List Bool) (nac : BitVec 12) (t : Nat) : DataUnit :=
  let o := tsbkDecode b
  mkUnit .packetDataUnit t nac (if crcOk o then some (.pdu o (pduBtf o) []) else none)

/-- `fec_body(TDULC, b, nac, t)` (R354). -/
def fecTdulc (b : List Bool) (nac : BitVec 12) (t : Nat) : DataUnit :=
  mkUnit .terminator t nac ((tdulcDecode b).map .tdulc)

/-- The LB bit of a TSBK unit; false where there is no body to read it from (R295). -/
def unitLb (du : DataUnit) : Bool :=
  match du.body with
  | some (.tsbk o) => tsbkLb o
  | _ => false

/-- The BTF of a PDU header unit (R163, R296). -/
def unitBtf (du : DataUnit) : Nat :=
  match du.body with
  | some (.pdu _ btf _) => btf
  | _ => 0

/-- A PDU header unit with the raw bits of the data blocks attached (R296). -/
def attachBlocks (du : DataUnit) (blocks : List Bool) : DataUnit :=
  match du.body with
  | some (.pdu hdr btf _) => { du with body := some (.pdu hdr btf blocks) }
  | _ => du

end Sys2Proof.Machine
end

