-- ==== Sys2Proof/Machine/FrameSync.lean ====
section
/-! DEFINITION. The Frame Synchronizer (41_frame_sync.md): search and lock (R280, R281), the locked dibit step (R290-R292),
a NID that does not decode (R293), and the end of a frame (R297, R298). -/

namespace Sys2Proof.Machine

/-- One term of the correlation: an empty slot counts 0 (R280). -/
def corrTerm (w : Option Dibit) (sync : Dibit) : Int :=
  match w with
  | none => 0
  | some d => level d * level sync

/-- `corr(w)` (R280). -/
def corr (w : List (Option Dibit)) : Int := (List.zipWith corrTerm w syncDibits).sum

/-- `lock(t)` (R281). -/
def lock (s : State) : State :=
  { s with
    sync := .locked syncLen, fbits := [], curLen := none, lastLen := none, cls := none, failCount := 0,
    frameFailed := false, tsbkN := 0, tsduEnd := none, pduHdr := none }

/-- FS.SEARCH_STEP (R280). -/
def searchStep (d : Dibit) (s : State) : State :=
  let s1 := { s with win := s.win.drop 1 ++ [some d] }
  if s1.cfg.syncThresh < corr s1.win then lock s1 else s1

/-- A status dibit's position (R292). -/
def isStatusPos (pos : Nat) : Bool := pos % statusPeriod == statusPeriod - 1

/-- The first part of FS.LOCKED_STEP: status dibits and the sync field are skipped, a data dibit joins S14 and
`frame_progress` comes next (R290, R291). -/
def lockedStep (d : Dibit) (pos : Nat) (s : State) : State :=
  if isStatusPos pos then { s with stage := .advance }
  else if pos < syncLen then { s with stage := .advance }
  else { s with fbits := s.fbits ++ dibitBits d, stage := .frame }

/-- `fs_dibit(d, t)`, the time being `now` (R280, R290). -/
def fsDibit (d : Dibit) (s : State) : State :=
  match s.sync with
  | .searching => searchStep d s
  | .locked pos => lockedStep d pos s

/-- One turn of `deliver_run`: the next dibit of the run, or the end of the Decode step (R238). -/
def dibitStep (s : State) : State :=
  match s.run with
  | [] => { s with stage := .idle }
  | (d, t) :: rest => fsDibit d { s with run := rest, now := t }

/-- The prior frame's length is assumed, or the lock is given up when there is none (R293, R296). -/
def assumePriorLength (s : State) : State :=
  match s.lastLen with
  | some len => { s with curLen := some len, cls := some .unknown }
  | none => forceSearch s

/-- A NID that does not decode or has a reserved DUID: E1, and no DataUnit (R293, R540). -/
def nidFailed (s : State) : State :=
  { assumePriorLength { raise (.e1 s.now) s with frameFailed := true } with stage := .advance }

/-- `frame_end()` up to the failure streak (R297). -/
def closeFrame (s : State) : State :=
  { s with
    failCount := if s.frameFailed then s.failCount + 1 else 0
    lastLen := s.curLen
    fbits := [], curLen := none, cls := none, frameFailed := false, tsbkN := 0, tsduEnd := none, pduHdr := none
    sync := .locked 0 }

/-- `frame_end()`: a streak of FAIL_LIMIT failed frames raises E1 and forces Searching (R297, R298). -/
def frameEnd (s : State) : State :=
  let s1 := closeFrame s
  if s1.cfg.failLimit ≤ s1.failCount then forceSearch (raise (.e1 s1.now) s1) else s1

/-- The last part of FS.LOCKED_STEP: nothing after a forced Searching, else the frame ends or the position advances
(R290, R602). -/
def advanceStep (s : State) : State :=
  match s.sync with
  | .searching => { s with stage := .dibit }
  | .locked pos =>
    if s.curLen = some (pos + 1) then { frameEnd s with stage := .dibit }
    else { s with sync := .locked (pos + 1), stage := .dibit }

end Sys2Proof.Machine
end

