-- ==== Sys2Proof/Machine/Frames.lean ====
section
/-! DEFINITION. The meanings of the frame-class operations FRAME_HDU ... FRAME_TDULC. Each is one long operation that
`frame_progress` resumes at every data dibit of the frame (41_frame_sync.md R290; log entry 12): at the NID it takes up the
frame (R293), and when the bits of a part are complete it decodes the part and hands the DataUnit over (R294-R296). The
unit lies in `unit`; delivery follows (R401). -/

namespace Sys2Proof.Machine

/-- A decodable NID: the class, the NAC, and the length where the class fixes it (R293). -/
def frameStart (c : FrameClass) (nac : BitVec 12) (s : State) : State :=
  { s with
    cls := some c, nacCur := nac
    curLen := match fixedFrameLen c with
      | some len => some len
      | none => s.curLen }

/-- Hands a DataUnit over for delivery; an invalid one fails the frame and raises E2 (R294, R295, R541). -/
def handOver (du : DataUnit) (s : State) : State :=
  { (if du.valid then s else raise (.e2 du.kind du.time) { s with frameFailed := true }) with unit := some du }

/-- FS.BODY_FIXED for the class `c`, whose decoder is `fec` (R294). -/
def bodyFixed (c : FrameClass) (fec : List Bool → BitVec 12 → Nat → DataUnit) (s : State) : State :=
  if s.fbits.length = 64 + bodyBits c then handOver (fec (bitsAt 64 (bodyBits c) s.fbits) s.nacCur s.now) s else s

/-- A TSDU ends at an invalid TSBK, at LB = 1, or at the third TSBK (R295). -/
def tsduEnds (du : DataUnit) (n : Nat) : Bool := !du.valid || unitLb du || n == tsbkMax

/-- FS.TSBK (R295). -/
def tsduBlock (s : State) : State :=
  if s.tsduEnd = none ∧ s.fbits.length = 64 + 196 * (s.tsbkN + 1) then
    let du := fecTsbk (bitsAt (64 + 196 * s.tsbkN) 196 s.fbits) s.nacCur s.now
    let n := s.tsbkN + 1
    handOver du
      (if tsduEnds du n then
        { s with tsbkN := n, tsduEnd := some (tsduDibits n), curLen := some (paddedLen (tsduDibits n)) }
      else { s with tsbkN := n })
  else s

/-- FS.PDU, the header (R296). An invalid header is handed over after the writes that follow it in the rule, which no
component of its delivery reads (log entry 20). -/
def pduHeader (s : State) : State :=
  if s.curLen = none ∧ s.fbits.length = 64 + 196 then
    let h := fecPduHeader (bitsAt 64 196 s.fbits) s.nacCur s.now
    if h.valid then
      { s with pduHdr := some h, curLen := some (paddedLen (tsduDibits (1 + unitBtf h))) }
    else
      let s1 := handOver h s
      assumePriorLength (if s.lastLen = none then raise (.e1 s.now) s1 else s1)
  else s

/-- FS.PDU, the body: the header's unit with the raw data blocks, at the last block (R296). -/
def pduBody (s : State) : State :=
  match s.pduHdr with
  | none => s
  | some h =>
    if s.fbits.length = 64 + 196 * (1 + unitBtf h) then
      { handOver (attachBlocks h (s.fbits.drop 260)) s with pduHdr := none }
    else s

/-- FRAME_HDU (R293, R294, R348). -/
def execFrameHdu (nac : BitVec 12) (s : State) : Result :=
  match s.cls with
  | none => .next (frameStart .hdu nac s)
  | some _ => .next (bodyFixed .hdu fecHdu s)

/-- FRAME_TDU: a Terminator at the NID (R293, R349). -/
def execFrameTdu (nac : BitVec 12) (s : State) : Result :=
  match s.cls with
  | none => .next (handOver (fecTdu nac s.now) (frameStart .tdu nac s))
  | some _ => .next s

/-- FRAME_LDU1 (R293, R294, R350). -/
def execFrameLdu1 (nac : BitVec 12) (s : State) : Result :=
  match s.cls with
  | none => .next (frameStart .ldu1 nac s)
  | some _ => .next (bodyFixed .ldu1 fecLdu1 s)

/-- FRAME_TSDU (R293, R295, R351). -/
def execFrameTsdu (nac : BitVec 12) (s : State) : Result :=
  match s.cls with
  | none => .next (frameStart .tsdu nac s)
  | some _ => .next (tsduBlock s)

/-- FRAME_LDU2 (R293, R294, R352). -/
def execFrameLdu2 (nac : BitVec 12) (s : State) : Result :=
  match s.cls with
  | none => .next (frameStart .ldu2 nac s)
  | some _ => .next (bodyFixed .ldu2 fecLdu2 s)

/-- FRAME_PDU (R293, R296, R353). -/
def execFramePdu (nac : BitVec 12) (s : State) : Result :=
  match s.cls with
  | none => .next (frameStart .pdu nac s)
  | some _ => .next (pduBody (pduHeader s))

/-- FRAME_TDULC (R293, R294, R354). -/
def execFrameTdulc (nac : BitVec 12) (s : State) : Result :=
  match s.cls with
  | none => .next (frameStart .tdulc nac s)
  | some _ => .next (bodyFixed .tdulc fecTdulc s)

end Sys2Proof.Machine
end

