-- ==== Sys2Proof/Machine/Trunking.lean ====
section
/-! DEFINITION. The Trunking State Machine (43_trunking.md) and the meanings of the TSBK operations. Each leaves its decision,
none or one RetuneCommand, in `cmd`; the Channel Tuner applies it (R401). -/

namespace Sys2Proof.Machine

/-- The time of the DataUnit in flight (R161, R400); the sample time where none is in flight (log entry 24). -/
def unitTime (s : State) : Nat :=
  match s.unit with
  | some du => du.time
  | none => s.now

/-- `refresh(du)` for a valid unit of time `t`: in TrafficChannel role, `last_activity` (R413). -/
def refresh (t : Nat) (s : State) : State :=
  match s.role with
  | .controlChannel => s
  | .trafficChannel f tg _ => { s with role := .trafficChannel f tg t }

/-- `monitored(tg)` (R402). -/
def monitored (p : TgPolicy) (tg : BitVec 16) : Bool :=
  match p with
  | .all => true
  | .allowList tgs => tgs.contains tg.toNat

/-- `try_grant(chan, tg)`: E4 where the channel does not resolve; otherwise the frequency of a monitored talkgroup (R403). -/
def tryGrant (chan tg : BitVec 16) (s : State) : Option Nat × State :=
  match resolve chan s with
  | none => (none, raise (.e4 chan) s)
  | some f => (if monitored s.cfg.tgPolicy tg then some f else none, s)

/-- A grant in ControlChannel role (R404). -/
def controlGrant (chan tg : BitVec 16) (t : Nat) (s : State) : State :=
  match tryGrant chan tg s with
  | (none, s1) => { s1 with cmd := none }
  | (some f, s1) =>
    { s1 with controlFreq := s1.tunedFreq, role := .trafficChannel f tg t, cmd := some ⟨f, .grant⟩ }

/-- TSM.PREEMPT: a grant in TrafficChannel role, `current` being the talkgroup followed (R412). -/
def trafficGrant (current chan tg : BitVec 16) (t : Nat) (s : State) : State :=
  match s.cfg.grantPriority with
  | .ignore => { s with cmd := none }
  | .preempt =>
    if current = tg then { s with cmd := none }
    else
      match tryGrant chan tg s with
      | (none, s1) => { s1 with cmd := none }
      | (some f, s1) => { s1 with role := .trafficChannel f tg t, cmd := some ⟨f, .preempt⟩ }

/-- `grant_pair(chan, tg, t)`: a grant in either role (R404, R407, R409, R412). -/
def grantPair (chan tg : BitVec 16) (t : Nat) (s : State) : State :=
  match s.role with
  | .controlChannel => controlGrant chan tg t s
  | .trafficChannel _ current _ => trafficGrant current chan tg t s

/-- An Identifier-Update: the ChannelMap in ControlChannel role, nothing in TrafficChannel role (R405, R406, R409). -/
def identifierUpdate (band : BitVec 4) (e : BandEntry) (s : State) : State :=
  match s.role with
  | .controlChannel => { mapWrite band e s with cmd := none }
  | .trafficChannel _ _ _ => { s with cmd := none }

/-- GRP_V_CH_GRANT (R400, R404, R412). LB, MFID, the service options and the source address are not read (R182). -/
def execGrpVChGrant (chan tg : BitVec 16) (s : State) : Result :=
  .next (grantPair chan tg (unitTime s) (refresh (unitTime s) s))

/-- GRP_V_CH_GRANT_UPDT: pair B is tried only when pair A gave no command (R407). -/
def execGrpVChGrantUpdt (chanA tgA chanB tgB : BitVec 16) (s : State) : Result :=
  let t := unitTime s
  let s1 := grantPair chanA tgA t (refresh t s)
  .next (if s1.cmd = none then grantPair chanB tgB t s1 else s1)

/-- IDEN_UP_VU (R406, R409, R160). -/
def execIdenUpVu (iden bwvu : BitVec 4) (tx : BitVec 14) (spacing : BitVec 10) (base : BitVec 32) (s : State) : Result :=
  .next (identifierUpdate iden
    { kind := .idenVU, baseHz := base.toNat * 5, spacingHz := spacing.toNat * 125,
      txOffsetRaw := tx, bwRaw := bwvu.setWidth 9 } (refresh (unitTime s) s))

/-- IDEN_UP (R405, R409, R160). -/
def execIdenUp (iden : BitVec 4) (bw tx : BitVec 9) (spacing : BitVec 10) (base : BitVec 32) (s : State) : Result :=
  .next (identifierUpdate iden
    { kind := .iden, baseHz := base.toNat * 5, spacingHz := spacing.toNat * 125,
      txOffsetRaw := tx.setWidth 14, bwRaw := bw } (refresh (unitTime s) s))

/-- TSBK_OTHER: only the activity refresh (R408, R181). -/
def execTsbkOther (s : State) : Result := .next { refresh (unitTime s) s with cmd := none }

/-- TSM.TERMINATE for a valid Terminator: in TrafficChannel role back to the control frequency (R411, R416). -/
def terminate (s : State) : State :=
  match s.role with
  | .controlChannel => { s with cmd := none }
  | .trafficChannel _ _ _ => { s with role := .controlChannel, cmd := some ⟨s.controlFreq, .terminate⟩ }

/-- `tsm_step(du)` for a unit that is no valid TSBK (R400, R411, R413, R414, R416). -/
def tsmUnit (du : DataUnit) (s : State) : State :=
  if du.valid then
    let s1 := refresh du.time s
    if du.kind = .terminator then terminate s1 else { s1 with cmd := none }
  else { s with cmd := none }

/-- The activity timeout has run out at a block start (R410). The subtraction is in Int. -/
def timedOut (timeout now lastActivity : Nat) : Bool := decide ((timeout : Int) ≤ (now : Int) - (lastActivity : Int))

/-- `tsm_block_tick(now)`: the decision of TSM.TIMEOUT (R410). -/
def blockTick (s : State) : State :=
  match s.role with
  | .controlChannel => { s with cmd := none }
  | .trafficChannel _ _ la =>
    if timedOut s.cfg.timeoutSamples s.now la then
      { s with role := .controlChannel, cmd := some ⟨s.controlFreq, .timeout⟩ }
    else { s with cmd := none }

end Sys2Proof.Machine
end

