-- ==== Sys2Proof/WellFormed.lean ====
section
/-! DEFINITION. Which terms of Instr stand for an encoding: the fixed fields of R155-R159 and the priority of
the TSBK rows (spec/opcode_table.json, R181). -/

namespace Sys2Proof

/-- A handled TSBK row needs a standard manufacturer id; `tsbkOther` is every TSBK that no other row matches:
protected, of another manufacturer, or with another opcode (R181, R408). Every other term is an encoding. -/
def Instr.wf : Instr → Bool
  | .frameHdu _ => true
  | .frameTdu _ => true
  | .frameLdu1 _ => true
  | .frameTsdu _ => true
  | .frameLdu2 _ => true
  | .framePdu _ => true
  | .frameTdulc _ => true
  | .grpVChGrant _ mfid _ _ _ _ => Machine.mfidStd mfid
  | .grpVChGrantUpdt _ mfid _ _ _ _ => Machine.mfidStd mfid
  | .idenUpVu _ mfid _ _ _ _ _ => Machine.mfidStd mfid
  | .idenUp _ mfid _ _ _ _ _ => Machine.mfidStd mfid
  | .tsbkOther _ p opc mfid _ => p || !Machine.mfidStd mfid || !Machine.handledOpc opc
  | .setFreq _ => true
  | .setGain _ => true
  | .setPpm _ => true

end Sys2Proof
end

