-- ==== Sys2Proof/Decode.lean ====
section
/-! DEFINITION. The decoder on the three dispatch keys of 30_encoding.md R175, total on any word and rejecting by
name; after it the encoder, and the reading of a word numbered as spec/opcode_table.json numbers it. -/

namespace Sys2Proof

/-- A word of one of the three dispatch keys (R175): the NID of a frame as received, the twelve octets of a TSBK
after FEC, a P_CMD word. -/
inductive Key where
  | nid (w : Word64)
  | tsbk (o : Octets12)
  | cmd (w : Word64)
deriving DecidableEq, Repr

/-- Why a word is no instruction. -/
inductive DecodeError where
  /-- No codeword lies within the NID code's capability (R344). -/
  | nidUndecodable
  /-- The NID decodes, but its DUID is reserved (R180). -/
  | reservedDuid (duid : BitVec 4)
  /-- The TSBK's CRC16 does not hold: the unit is invalid (R347, R351). -/
  | crcFailed
  /-- A reserved command code, 0x00 or 0x04-0xFF (R170). -/
  | reservedCommand (code : BitVec 8)
  /-- A SET_GAIN or SET_PPM word with a bit set that its format keeps 0 (R170). -/
  | reservedBits (code : BitVec 8)
deriving DecidableEq, Repr

/-! ## Frame classes -/

/-- The operation a DUID selects (R154, R175); none of a reserved DUID (R180). -/
def dispatchDuid (nac : BitVec 12) (duid : BitVec 4) : Option Instr :=
  if duid = 0x0#4 then some (.frameHdu nac)
  else if duid = 0x3#4 then some (.frameTdu nac)
  else if duid = 0x5#4 then some (.frameLdu1 nac)
  else if duid = 0x7#4 then some (.frameTsdu nac)
  else if duid = 0xA#4 then some (.frameLdu2 nac)
  else if duid = 0xC#4 then some (.framePdu nac)
  else if duid = 0xF#4 then some (.frameTdulc nac)
  else none

/-- A received NID: NID_DECODE, then the DUID (R293). -/
def decodeNid (w : Word64) : Except DecodeError Instr :=
  match Machine.nidDecode w with
  | none => .error .nidUndecodable
  | some (nac, duid) =>
    match dispatchDuid nac duid with
    | none => .error (.reservedDuid duid)
    | some i => .ok i

/-! ## TSBK operations -/

/-- GRP_V_CH_GRANT's fields (R156). -/
def grantOf (lb : Bool) (mfid : BitVec 8) (a : BitVec 64) : Instr :=
  .grpVChGrant lb mfid (a.extractLsb' 56 8) (a.extractLsb' 40 16) (a.extractLsb' 24 16) (a.extractLsb' 0 24)

/-- GRP_V_CH_GRANT_UPDT's fields (R157). -/
def grantUpdtOf (lb : Bool) (mfid : BitVec 8) (a : BitVec 64) : Instr :=
  .grpVChGrantUpdt lb mfid (a.extractLsb' 48 16) (a.extractLsb' 32 16) (a.extractLsb' 16 16) (a.extractLsb' 0 16)

/-- IDEN_UP_VU's fields (R158). -/
def idenUpVuOf (lb : Bool) (mfid : BitVec 8) (a : BitVec 64) : Instr :=
  .idenUpVu lb mfid (a.extractLsb' 60 4) (a.extractLsb' 56 4) (a.extractLsb' 42 14) (a.extractLsb' 32 10)
    (a.extractLsb' 0 32)

/-- IDEN_UP's fields (R159). -/
def idenUpOf (lb : Bool) (mfid : BitVec 8) (a : BitVec 64) : Instr :=
  .idenUp lb mfid (a.extractLsb' 60 4) (a.extractLsb' 51 9) (a.extractLsb' 42 9) (a.extractLsb' 32 10)
    (a.extractLsb' 0 32)

/-- The operation of a valid TSBK, whose CRC is not looked at again: the gate, then the opcode; everything else is
TSBK_OTHER (R400, R181). -/
def dispatchTsbk (o : Octets12) : Instr :=
  let lb := Machine.tsbkLb o
  let mfid := Machine.tsbkMfid o
  let opc := Machine.tsbkOpc o
  let a := Machine.tsbkArgs o
  if Machine.tsbkGate o then
    if opc = 0x00#6 then grantOf lb mfid a
    else if opc = 0x02#6 then grantUpdtOf lb mfid a
    else if opc = 0x34#6 then idenUpVuOf lb mfid a
    else if opc = 0x3D#6 then idenUpOf lb mfid a
    else .tsbkOther lb (Machine.tsbkP o) opc mfid a
  else .tsbkOther lb (Machine.tsbkP o) opc mfid a

/-- The twelve octets of a TSBK: its CRC must hold (R351). -/
def decodeTsbk (o : Octets12) : Except DecodeError Instr :=
  if Machine.crcOk o then .ok (dispatchTsbk o) else .error .crcFailed

/-! ## Commands -/

/-- A P_CMD word (R170). The bits a format keeps 0 must be 0. -/
def decodeCmd (w : Word64) : Except DecodeError Instr :=
  let code := w.extractLsb' 56 8
  if code = 0x01#8 then .ok (.setFreq (w.extractLsb' 0 56))
  else if code = 0x02#8 then
    if w.getLsbD 55 then
      if w.extractLsb' 0 55 = 0#55 then .ok (.setGain .auto) else .error (.reservedBits code)
    else if w.extractLsb' 32 23 = 0#23 then .ok (.setGain (.manual (w.extractLsb' 0 32)))
    else .error (.reservedBits code)
  else if code = 0x03#8 then
    if w.extractLsb' 32 24 = 0#24 then .ok (.setPpm (w.extractLsb' 0 32)) else .error (.reservedBits code)
  else .error (.reservedCommand code)

/-- The decoder. -/
def decode : Key → Except DecodeError Instr
  | .nid w => decodeNid w
  | .tsbk o => decodeTsbk o
  | .cmd w => decodeCmd w

/-! ## The encoder -/

/-- SET_FREQ's word, `0x01 ++ f[55:0]` (R501). -/
def setFreqWord (freq : BitVec 56) : Word64 := 0x01#8 ++ freq

/-- SET_GAIN's word (R502). -/
def setGainWord : Gain → Word64
  | .auto => 0x02#8 ++ (1#1 ++ 0#55)
  | .manual g => 0x02#8 ++ (0#24 ++ g)

/-- SET_PPM's word (R503). -/
def setPpmWord (ppm : BitVec 32) : Word64 := 0x03#8 ++ (0#24 ++ ppm)

/-- A TSBK of its fields, with its CRC (R155, R347). -/
def tsbkWord (lb p : Bool) (opc : BitVec 6) (mfid : BitVec 8) (args : BitVec 64) : Octets12 :=
  Machine.withCrc (BitVec.ofBool lb ++ BitVec.ofBool p ++ opc ++ mfid ++ args)

/-- The word of an instruction, on the key it is dispatched on (R153, R155-R159, R170). -/
def encode : Instr → Key
  | .frameHdu nac => .nid (Machine.nidEncode nac 0x0#4)
  | .frameTdu nac => .nid (Machine.nidEncode nac 0x3#4)
  | .frameLdu1 nac => .nid (Machine.nidEncode nac 0x5#4)
  | .frameTsdu nac => .nid (Machine.nidEncode nac 0x7#4)
  | .frameLdu2 nac => .nid (Machine.nidEncode nac 0xA#4)
  | .framePdu nac => .nid (Machine.nidEncode nac 0xC#4)
  | .frameTdulc nac => .nid (Machine.nidEncode nac 0xF#4)
  | .grpVChGrant lb mfid svc chan tg src => .tsbk (tsbkWord lb false 0x00#6 mfid (svc ++ chan ++ tg ++ src))
  | .grpVChGrantUpdt lb mfid chanA tgA chanB tgB =>
    .tsbk (tsbkWord lb false 0x02#6 mfid (chanA ++ tgA ++ chanB ++ tgB))
  | .idenUpVu lb mfid iden bwvu tx spacing base =>
    .tsbk (tsbkWord lb false 0x34#6 mfid (iden ++ bwvu ++ tx ++ spacing ++ base))
  | .idenUp lb mfid iden bw tx spacing base =>
    .tsbk (tsbkWord lb false 0x3D#6 mfid (iden ++ bw ++ tx ++ spacing ++ base))
  | .tsbkOther lb p opc mfid args => .tsbk (tsbkWord lb p opc mfid args)
  | .setFreq freq => .cmd (setFreqWord freq)
  | .setGain gain => .cmd (setGainWord gain)
  | .setPpm ppm => .cmd (setPpmWord ppm)

/-! ## Words numbered as spec/opcode_table.json numbers them (log entry 10) -/

/-- The first twelve octets of 16-bit words numbered from the least significant word: word `k` of `w` holds octets
`2k` and `2k + 1`, the even one in its high half ("the 16 bits o[0]:o[1]"). Octets 10 and 11 are the CRC. -/
def tableTsbk (w : Nat) : Octets12 :=
  let word := fun k : Nat => BitVec.ofNat 16 (w / 2 ^ (16 * k))
  Machine.withCrc (word 0 ++ word 1 ++ word 2 ++ word 3 ++ word 4)

/-- The NID whose NAC and DUID are those of a table word: its parity is the code's. -/
def tableNid (w : Nat) : Word64 :=
  let x := BitVec.ofNat 64 w
  Machine.nidEncode (x.extractLsb' 52 12) (x.extractLsb' 48 4)

/-- A 64-bit word is read as a command where it is one, and as a NID otherwise; a shorter or longer one holds the
first octets of a TSBK. -/
def tableKey (nbits w : Nat) : Key :=
  if nbits = 64 then
    match decodeCmd (BitVec.ofNat 64 w) with
    | .ok _ => .cmd (BitVec.ofNat 64 w)
    | .error _ => .nid (tableNid w)
  else .tsbk (tableTsbk (w % 2 ^ nbits))

/-- The instruction the decoder reads from a table word. -/
def decodeTableWord (nbits w : Nat) : Option Instr :=
  match decode (tableKey nbits w) with
  | .ok i => some i
  | .error _ => none

end Sys2Proof
end

