-- ==== Sys2Proof/Machine/Tuner.lean ====
section
/-! DEFINITION. The Channel Tuner and the Voice Router (44_tuner_router.md), and the meanings of the command words SET_FREQ,
SET_GAIN and SET_PPM (45_host_interface.md R501-R503). -/

namespace Sys2Proof.Machine

/-- SET_FREQ: a FAIL is E6 (R501, R546). -/
def execSetFreq (freq : BitVec 56) (s : State) : Result := .next (sendCommand (setFreqWord freq) (.e6 freq.toNat) s)

/-- SET_GAIN: a FAIL is E7 (R502, R547). -/
def execSetGain (gain : Gain) (s : State) : Result := .next (sendCommand (setGainWord gain) (.e7 .gain) s)

/-- SET_PPM: a FAIL is E7 (R503, R547). -/
def execSetPpm (ppm : BitVec 32) (s : State) : Result := .next (sendCommand (setPpmWord ppm) (.e7 .ppm) s)

/-- Where the Decode step goes on after the Channel Tuner: the samples of the block, or the Voice Router (R401, R410). -/
def afterTune : TuneFrom → Stage
  | .tick => .sample
  | .delivery => .route

/-- `tune(c)` up to the call: no command and a command to the tuned frequency do nothing (R461); any other one sends
SET_FREQ (R460, R462). -/
def tuneStep (source : TuneFrom) (s : State) : State :=
  match s.cmd with
  | none => { s with stage := afterTune source }
  | some c =>
    if c.targetFrequency = s.tunedFreq then { s with cmd := none, stage := afterTune source }
    else { s with cmdWord := setFreqWord (BitVec.ofNat 56 c.targetFrequency), stage := .send (.retune source) }

/-- TUNER.APPLY after an accepted SET_FREQ, to its end, the retune point: the rest of the run is dropped (R462, R238). -/
def applyRetune (freq : Nat) (s : State) : State :=
  { demodReset (forceSearch { s with tunedFreq := freq, discardLeft := s.cfg.settleSamples }) with run := [], cmd := none }

/-- What follows an accepted SET_FREQ of a retune. -/
def retuneSent (source : TuneFrom) (s : State) : State :=
  match s.cmd with
  | none => { s with stage := afterTune source }
  | some c => { applyRetune c.targetFrequency s with stage := afterTune source }

/-- The voice record of a unit, where ROUTER.FORWARD sends one (R480). -/
def voiceRecord (role : Role) (tunedFreq : Nat) (du : DataUnit) : Option VoiceRecord :=
  match role with
  | .controlChannel => none
  | .trafficChannel f _ _ =>
    if du.valid ∧ tunedFreq = f then
      match du.kind, du.body with
      | .logicalLinkUnit1, some (.ldu1 frames _) => some ⟨.ldu1, frames, du.time⟩
      | .logicalLinkUnit2, some (.ldu2 frames _) => some ⟨.ldu2, frames, du.time⟩
      | _, _ => none
    else none

/-- `route(du)` on the snapshot after the tuner; every unit ends here (R480, R482). -/
def routeStep (s : State) : State :=
  match s.unit with
  | none => { s with stage := .advance }
  | some du =>
    match voiceRecord s.role s.tunedFreq du with
    | some rec => { s with unit := none, out := .voice rec :: s.out, stage := .advance }
    | none => { s with unit := none, stage := .advance }

end Sys2Proof.Machine
end

