-- ==== Sys2Proof/Machine/HostPort.lean ====
section
/-! DEFINITION. The ports of the host and of the Sample Source's sample path: START and boot (70_reset_and_hazards.md R591,
45_host_interface.md R506), SHUTDOWN (R507), the Ingest step (R500), and the start of a Decode step (20_memory.md R110,
40_demodulator.md R230). -/

namespace Sys2Proof.Machine

/-- The configuration START loads: absent optional fields take their defaults (R60, R591). -/
def loadConfig (c : StartConfig) : CoreConfig where
  initFreq := c.initFreq
  ppm := c.ppm.getD 0#32
  gain := c.gain.getD .auto
  tgPolicy := c.tgPolicy.getD .all
  grantPriority := c.grantPriority.getD .ignore
  failLimit := c.failLimit
  timeoutSamples := c.timeoutSamples
  settleSamples := c.settleSamples
  queueCap := c.queueCap
  blockLen := c.blockLen
  fs := c.fs
  syncThresh := c.syncThresh.getD 170
  cfoResidHz := c.cfoResidHz.getD 0
  mfTaps := c.mfTaps.getD (boxcar (c.fs / symbolRate))
  kp := c.kp.getD (1 / 8)
  ki := c.ki.getD (1 / 256)
  driftMax := c.driftMax.getD (1 / 100)
  sliceThreshHz := c.sliceThreshHz.getD 1200

/-- `FS = SPS * 4800` with `SPS >= 2` an integer (R547, condition 3). -/
def fsLegal (c : CoreConfig) : Bool := c.fs == spsOf c * symbolRate && decide (2 ≤ spsOf c)

/-- An AllowList holds only values below 2^16 (R547, condition 7). -/
def tgPolicyLegal : TgPolicy → Bool
  | .all => true
  | .allowList tgs => tgs.all fun tg => decide (tg < 2 ^ 16)

/-- The conditions of R547 in its order, each with the field it is about. -/
def configConditions (c : CoreConfig) : List (ConfigField × Bool) :=
  [(.initFreq, decide (0 < c.initFreq) && decide (c.initFreq < 2 ^ 56)),
   (.failLimit, decide (1 ≤ c.failLimit)),
   (.timeoutSamples, decide (1 ≤ c.timeoutSamples)),
   (.queueCap, decide (1 ≤ c.queueCap)),
   (.blockLen, decide (1 ≤ c.blockLen)),
   (.fs, fsLegal c),
   (.syncThresh, decide (0 ≤ c.syncThresh) && decide (c.syncThresh < 216)),
   (.kp, decide (0 < c.kp) && decide (c.kp < 1)),
   (.ki, decide (0 ≤ c.ki) && decide (c.ki < 1)),
   (.driftMax, decide (0 ≤ c.driftMax) && decide (c.driftMax < 1 / 2)),
   (.mfTaps, !c.mfTaps.isEmpty),
   (.spsBound, decide (1 < (spsOf c : Rat) * (1 - c.driftMax) * (1 - c.kp / 2))),
   (.tgPolicy, tgPolicyLegal c.tgPolicy)]

/-- The first failing field (R547). -/
def firstIllegal (c : CoreConfig) : Option ConfigField :=
  ((configConditions c).find? fun p => !p.2).map Prod.fst

/-- `START(config)` while Booting: load, validate, open; then SET_PPM is the first word to send (R506, R591). The
elements whose reset value depends on the configuration take it here (log entry 5). -/
def bootStart (c : StartConfig) (openReply : Status) (s : State) : State :=
  let s1 := demodReset { s with cfg := loadConfig c }
  match firstIllegal s1.cfg with
  | some field => raise (.e7 field) s1
  | none =>
    match openReply with
    | .fail => raise (.e5 .openCall) { s1 with out := .openSource .fail :: s1.out }
    | .ok =>
      { s1 with
        out := .openSource .ok :: s1.out, cmdWord := setPpmWord s1.cfg.ppm, stage := .send .bootPpm }

/-- The end of boot: INIT_FREQ is tuned, no window is open, both agents start (R591). -/
def bootDone (s : State) : State :=
  { s with
    tunedFreq := s.cfg.initFreq, controlFreq := s.cfg.initFreq, discardLeft := 0, runState := .running,
    stage := .idle }

/-- What follows an accepted command: the next word of boot, the end of boot, or the retune (R591, R462). -/
def afterCommand (reason : SendFor) (s : State) : State :=
  match reason with
  | .bootPpm => { s with cmdWord := setGainWord s.cfg.gain, stage := .send .bootGain }
  | .bootGain => { s with cmdWord := setFreqWord (BitVec.ofNat 56 s.cfg.initFreq), stage := .send .bootFreq }
  | .bootFreq => bootDone s
  | .retune source => retuneSent source s

/-- `shutdown()` (R507). The reply to `close()` is ignored (R505). -/
def shutdown (closeReply : Status) (s : State) : State :=
  { s with runState := .stopped, queue := [], out := .closeSource closeReply :: .endOfStream :: s.out }

/-- `ingest_step()` on a block: it is numbered, then enqueued or dropped (R500). -/
def ingestBlock (samples : List Cplx) (s : State) : State :=
  enqueueOrDrop ⟨s.nextSeq, samples⟩ { s with nextSeq := s.nextSeq + 1 }

/-- `ingest_step()`; a failed read is E5 (R500, R545). -/
def ingestStep (read : ReadResult) (s : State) : Result :=
  match read with
  | .fail => .next (raise (.e5 .readCall) s)
  | .ok samples => if samples.length = s.cfg.blockLen then .next (ingestBlock samples s) else .fault .notASampleBlock

/-- The start of `block_step(blk)`: the gap check, the position, and the timeout tick (R110, R111, R230, R410). -/
def beginBlock (blk : SampleBlock) (s : State) : State :=
  let s1 := gapCheck blk.seq s
  let s2 := { s1 with
    curSeq := blk.seq, idx := 0, todo := blk.samples, run := [], now := sampleTime s1.cfg blk.seq 0 }
  { blockTick s2 with stage := .tune .tick }

/-- A Decode step is enabled while a block is queued (R110). -/
def decodeStep (s : State) : State :=
  match s.queue with
  | [] => s
  | blk :: rest => beginBlock blk { s with queue := rest }

/-- The next outside event while no agent step is under way. START acts only while Booting, SHUTDOWN and the agents only
while Running; an event that does not act is ignored (R506, R507, R35; log entry 14). -/
def eventStep (s : State) : Result :=
  match s.events with
  | [] => .next s
  | e :: rest =>
    let s1 := { s with events := rest }
    match s.runState, e with
    | .booting, .start c openReply => .next (bootStart c openReply s1)
    | .running, .shutdown closeReply => .next (shutdown closeReply s1)
    | .running, .ingest read => ingestStep read s1
    | .running, .decode => .next (decodeStep s1)
    | _, _ => .next s1

end Sys2Proof.Machine
end

