-- ==== Sys2Proof/Machine/Dispatch.lean ====
section
/-! DEFINITION. One arm per operation of spec/opcode_table.json. -/

namespace Sys2Proof.Machine

def exec (i : Instr) (s : State) : Host.Outcome State Fault Refusal :=
  match i with
  -- frame classes (42_fec_decoder.md)
  | .frameHdu nac => Sys2Proof.Machine.execFrameHdu nac s
  | .frameTdu nac => Sys2Proof.Machine.execFrameTdu nac s
  | .frameLdu1 nac => Sys2Proof.Machine.execFrameLdu1 nac s
  | .frameTsdu nac => Sys2Proof.Machine.execFrameTsdu nac s
  | .frameLdu2 nac => Sys2Proof.Machine.execFrameLdu2 nac s
  | .framePdu nac => Sys2Proof.Machine.execFramePdu nac s
  | .frameTdulc nac => Sys2Proof.Machine.execFrameTdulc nac s
  -- TSBK operations (43_trunking.md)
  | .grpVChGrant _ _ _ chan tg _ => Sys2Proof.Machine.execGrpVChGrant chan tg s
  | .grpVChGrantUpdt _ _ chanA tgA chanB tgB => Sys2Proof.Machine.execGrpVChGrantUpdt chanA tgA chanB tgB s
  | .idenUpVu _ _ iden bwvu tx spacing base => Sys2Proof.Machine.execIdenUpVu iden bwvu tx spacing base s
  | .idenUp _ _ iden bw tx spacing base => Sys2Proof.Machine.execIdenUp iden bw tx spacing base s
  | .tsbkOther _ _ _ _ _ => Sys2Proof.Machine.execTsbkOther s
  -- P_CMD commands (45_host_interface.md)
  | .setFreq freq => Sys2Proof.Machine.execSetFreq freq s
  | .setGain gain => Sys2Proof.Machine.execSetGain gain s
  | .setPpm ppm => Sys2Proof.Machine.execSetPpm ppm s

end Sys2Proof.Machine
end

