-- ==== Sys2Proof/Machine/Numerics.lean ====
section
/-! DEFINITION. NUMERICS (40_demodulator.md R242): + - * / are those of the rationals, exactly. `arg`, `cos` and `sin`
are exact wherever their value is rational, and a free value within their octant or quadrant elsewhere (log
entries 6, 7, 8). -/

namespace Sys2Proof.Machine

/-- The complex product. -/
def cplxMul (a b : Cplx) : Cplx := ⟨a.re * b.re - a.im * b.im, a.re * b.im + a.im * b.re⟩

/-- The complex conjugate. -/
def cplxConj (a : Cplx) : Cplx := ⟨a.re, -a.im⟩

/-- A rational squeezed into (0, 1]; every rational of that interval is the image of one. -/
def intoUnit (x : Rat) : Rat := 1 / (1 + |x|)

/-- The angle in turns, in [0, 1/4], of the point (|re|, |im|) of the first quadrant, other than (0, 0). On the axes and
on the diagonal it is exact; elsewhere it is a free value in the octant. -/
def quadrantTurns (re im : Rat) : Rat :=
  if im = 0 then 0
  else if re = 0 then 1 / 4
  else if |im| = |re| then 1 / 8
  else if |im| < |re| then 1 / 8 * intoUnit (Config.argFree re im)
  else 1 / 4 - 1 / 8 * intoUnit (Config.argFree re im)

/-- `arg(p) / (2 pi)`, in (-1/2, 1/2]; `arg((0,0)) = 0` (R233). -/
def argTurns (p : Cplx) : Rat :=
  if p.re = 0 ∧ p.im = 0 then 0
  else
    let a := if 0 ≤ p.re then quadrantTurns p.re p.im else 1 / 2 - quadrantTurns p.re p.im
    if p.im < 0 then -a else a

/-- The fractional part. -/
def fracPart (x : Rat) : Rat := x - (x.floor : Rat)

/-- `cos` of an angle in turns (R232). -/
def cosTurns (turns : Rat) : Rat :=
  let x := fracPart turns
  if x = 0 then 1
  else if x = 1 / 6 ∨ x = 5 / 6 then 1 / 2
  else if x = 1 / 4 ∨ x = 3 / 4 then 0
  else if x = 1 / 3 ∨ x = 2 / 3 then -(1 / 2)
  else if x = 1 / 2 then -1
  else if x < 1 / 4 ∨ 3 / 4 < x then intoUnit (Config.cosFree turns)
  else -intoUnit (Config.cosFree turns)

/-- `sin` of an angle in turns (R232). -/
def sinTurns (turns : Rat) : Rat :=
  let x := fracPart turns
  if x = 0 ∨ x = 1 / 2 then 0
  else if x = 1 / 12 ∨ x = 5 / 12 then 1 / 2
  else if x = 1 / 4 then 1
  else if x = 7 / 12 ∨ x = 11 / 12 then -(1 / 2)
  else if x = 3 / 4 then -1
  else if x < 1 / 2 then intoUnit (Config.sinFree turns)
  else -intoUnit (Config.sinFree turns)

/-- `clamp(x, lo, hi)` (R235). -/
def clamp (x lo hi : Rat) : Rat := max lo (min x hi)

end Sys2Proof.Machine
end

