-- ==== Sys2Proof/Machine/Demod.lean ====
section
/-! DEFINITION. The Demodulator: the reference datapath of 40_demodulator.md (R231-R236, R239), one sample at a time. -/

namespace Sys2Proof.Machine

/-- DEMOD.CARRIER (R232). -/
def carrierCorrect (c : CoreConfig) (z : Cplx) (now : Nat) : Cplx :=
  if c.cfoResidHz = 0 then z
  else
    let turns := c.cfoResidHz * (now : Rat) / (c.fs : Rat)
    cplxMul z ⟨cosTurns turns, -sinTurns turns⟩

/-- DEMOD.DISCRIMINATE: the frequency, and S6 (R233). -/
def discriminate (z : Cplx) (s : State) : Rat × State :=
  ((s.cfg.fs : Rat) * argTurns (cplxMul z (cplxConj s.zPrev)), { s with zPrev := z })

/-- The FIR sum of R234. -/
def firSum (taps hist : List Rat) : Rat := (List.zipWith (· * ·) taps hist).sum

/-- DEMOD.MATCHED_FILTER: the filtered sample, and S7 (R234). -/
def matchedFilter (f : Rat) (s : State) : Rat × State :=
  let hist := f :: s.mfHist.take (s.cfg.mfTaps.length - 1)
  (firSum s.cfg.mfTaps hist, { s with mfHist := hist })

/-- A zero crossing between two samples: 0 counts as non-negative (R235). -/
def isCrossing (yPrev y : Rat) : Bool := (yPrev < 0 && 0 ≤ y) || (0 ≤ yPrev && y < 0)

/-- The timing error folded into half a period around 0 (R235). -/
def foldError (err period : Rat) : Rat :=
  if period / 2 ≤ err then err - period
  else if err < -(period / 2) then err + period
  else err

/-- The timing error of a crossing, `clk` being S9 before this sample (R235). -/
def crossingError (clk period yPrev y : Rat) : Rat :=
  foldError (clk + yPrev / (yPrev - y) - period / 2) period

/-- The bounds of the period: SPS * (1 - DRIFT_MAX) and SPS * (1 + DRIFT_MAX) (R235). -/
def periodLo (c : CoreConfig) : Rat := (spsOf c : Rat) * (1 - c.driftMax)

/-- See `periodLo`. -/
def periodHi (c : CoreConfig) : Rat := (spsOf c : Rat) * (1 + c.driftMax)

/-- DEMOD.TIMING_ERROR: S9 and S10 (R235). -/
def timingError (y : Rat) (s : State) : State :=
  if isCrossing s.yPrev y then
    let err := crossingError s.clk s.period s.yPrev y
    { s with
      clk := s.clk + 1 - s.cfg.kp * err
      period := clamp (s.period + s.cfg.ki * err) (periodLo s.cfg) (periodHi s.cfg) }
  else { s with clk := s.clk + 1 }

/-- The slicer (R236). -/
def slice (thresh y : Rat) : Dibit :=
  if thresh ≤ y then 1#2
  else if 0 ≤ y then 0#2
  else if -thresh ≤ y then 2#2
  else 3#2

/-- The deviation of a dibit in Hz: 600 Hz a level (R150). -/
def deviation (d : Dibit) : Rat := 600 * (level d : Rat)

/-- The CFO tolerance that R240 (4) has a model state (D47), in Hz, for the offset left after the correction of R232 and the
Source's PPM correction. DESIGN CHOICE (log entry 28): it is the largest bound under which the datapath keeps its dibits on
every stream of filtered samples, and that is 0, because the slicer's boundaries are sharp. -/
def cfoTolerance : Rat := 0

/-- The distance from the four deviations to the nearest boundary of the slicer, in Hz: 600 at the default threshold. A smaller
offset does not change the dibit of a sample at a deviation (R236). It is no tolerance of the datapath: an offset also moves the
zero crossings, and with them the symbol clock (log entry 28). -/
def sliceMargin (c : CoreConfig) : Rat := min 600 (min (c.sliceThreshHz - 600) (1800 - c.sliceThreshHz))

/-- DEMOD.DECIDE: a dibit once the clock has reached the period (R236). -/
def decideDibit (y : Rat) (s : State) : Option Dibit × State :=
  if s.period ≤ s.clk then (some (slice s.cfg.sliceThreshHz y), { s with clk := s.clk - s.period })
  else (none, s)

/-- The symbol clock on one filtered sample: R235, R236, then S8; a decided dibit joins the run with the sample's
time (R230). -/
def timingStep (y : Rat) (s : State) : State :=
  let (d, s1) := decideDibit y (timingError y s)
  let s2 := { s1 with yPrev := y }
  match d with
  | none => s2
  | some d => { s2 with run := s2.run ++ [(d, s2.now)] }

/-- One sample that is not discarded (R230). -/
def demodSample (x : Cplx) (s : State) : State :=
  let (f, s1) := discriminate (carrierCorrect s.cfg x s.now) s
  let (y, s2) := matchedFilter f s1
  timingStep y s2

/-- DEMOD.DISCARD (R231). -/
def discardSample (s : State) : State := { s with discardLeft := s.discardLeft - 1 }

/-- One turn of the sample loop of R230; when no sample is left the run is delivered. -/
def sampleStep (s : State) : State :=
  match s.todo with
  | [] => { s with stage := .dibit }
  | x :: rest =>
    let s1 := { s with todo := rest, now := sampleTime s.cfg s.curSeq s.idx, idx := s.idx + 1 }
    if 0 < s1.discardLeft then discardSample s1 else demodSample x s1

end Sys2Proof.Machine
end

