-- ==== Sys2Proof/Machine/Sequencer.lean ====
section
/-! DEFINITION. What a step does: where it fetches an operation of the opcode table (30_encoding.md R175), what it adds
around the operation's meaning, and the pipeline operations that have no encoding (R176). -/

namespace Sys2Proof.Machine

/-! ## Fetch -/

/-- What a state's next step is. -/
inductive Fetch where
  /-- an operation of the opcode table -/
  | instr (i : Instr)
  /-- a call on P_CMD has not returned (log entry 18) -/
  | wait
  /-- the word on P_CMD is no command of R170 -/
  | reserved
  /-- a pipeline operation, by the stage -/
  | pipeline
deriving DecidableEq, Repr

/-- The operation of a frame class; none of Unknown (R175). -/
def classInstr (c : FrameClass) (nac : BitVec 12) : Option Instr :=
  match c with
  | .hdu => some (.frameHdu nac)
  | .tdu => some (.frameTdu nac)
  | .ldu1 => some (.frameLdu1 nac)
  | .tsdu => some (.frameTsdu nac)
  | .ldu2 => some (.frameLdu2 nac)
  | .pdu => some (.framePdu nac)
  | .tdulc => some (.frameTdulc nac)
  | .unknown => none

/-- The NID is complete and has not been decoded yet (R293). -/
def nidDue (s : State) : Bool := s.cls.isNone && s.fbits.length == 64

/-- Dispatch key 1: the frame under way, or the NID just completed (R175, R293). -/
def fetchFrame (s : State) : Fetch :=
  match s.cls with
  | some c =>
    match classInstr c s.nacCur with
    | some i => .instr i
    | none => .pipeline
  | none =>
    if nidDue s then
      match decodeNid (bitsToBV 64 s.fbits) with
      | .ok i => .instr i
      | .error _ => .pipeline
    else .pipeline

/-- Dispatch key 2: the octets of the valid TSBK in flight (R175, R400). -/
def fetchTsm (s : State) : Fetch :=
  match s.unit with
  | some ⟨.trunkingSignalingBlock, true, _, _, some (.tsbk o)⟩ => .instr (dispatchTsbk o)
  | _ => .pipeline

/-- Dispatch key 3: the word on P_CMD, once the Source has answered it (R175, R504). -/
def fetchCmd (s : State) : Fetch :=
  match s.replies with
  | [] => .wait
  | _ :: _ =>
    match decodeCmd s.cmdWord with
    | .ok i => .instr i
    | .error _ => .reserved

/-- Fetch: boot sends words only; in Fatal and Stopped nothing is fetched (R35, R590). -/
def fetch (s : State) : Fetch :=
  match s.runState with
  | .running =>
    match s.stage with
    | .frame => fetchFrame s
    | .tsm => fetchTsm s
    | .send _ => fetchCmd s
    | _ => .pipeline
  | .booting =>
    match s.stage with
    | .send _ => fetchCmd s
    | _ => .pipeline
  | .fatal _ => .pipeline
  | .stopped => .pipeline

/-! ## What a step adds around an operation -/

/-- Moves the position past the operation that was fetched at stage `before`: an accepted word is followed up, a refused
one has stopped the block; a DataUnit made by a frame is delivered; the arbiter's decision goes to the tuner (R401). -/
def retire (before : Stage) (s : State) : State :=
  match before with
  | .send reason =>
    match s.runState with
    | .fatal _ => s
    | _ => { s with stage := .sent reason }
  | .frame => { s with stage := if s.unit.isSome then .tsm else .advance }
  | .tsm => { s with stage := .tune .delivery }
  | _ => s

/-! ## Pipeline operations -/

/-- `frame_progress` where there is no operation: a NID that failed, or nothing to do (R290, R293). -/
def framePipeline (s : State) : State := if nidDue s then nidFailed s else { s with stage := .advance }

/-- `tsm_step` of a unit that is no valid TSBK (R400). -/
def tsmPipeline (s : State) : State :=
  match s.unit with
  | none => { s with cmd := none, stage := .tune .delivery }
  | some du => { tsmUnit du s with stage := .tune .delivery }

/-- In Fatal and Stopped no agent steps and every event is ignored (R35, R549, R507; log entry 13). -/
def haltStep (s : State) : State := { s with events := s.events.drop 1 }

/-- The pipeline operation of a state's stage (R176). -/
def pipeline (s : State) : Result :=
  match s.runState with
  | .fatal _ => .next (haltStep s)
  | .stopped => .next (haltStep s)
  | .booting =>
    match s.stage with
    | .sent reason => .next (afterCommand reason s)
    | _ => eventStep s
  | .running =>
    match s.stage with
    | .idle => eventStep s
    | .send _ => .next s
    | .sent reason => .next (afterCommand reason s)
    | .sample => .next (sampleStep s)
    | .dibit => .next (dibitStep s)
    | .frame => .next (framePipeline s)
    | .tsm => .next (tsmPipeline s)
    | .tune source => .next (tuneStep source s)
    | .route => .next (routeStep s)
    | .advance => .next (advanceStep s)

/-! ## Placing a word where the next step fetches it (log entry 11) -/

/-- Why a command word would be sent: its place in boot (R591). -/
def sendReason (w : Word64) : SendFor :=
  match decodeCmd w with
  | .ok (.setPpm _) => .bootPpm
  | .ok (.setGain _) => .bootGain
  | _ => .bootFreq

/-- A state in which P_CMD may be used. -/
def activeState (r : RunState) : RunState :=
  match r with
  | .running => .running
  | _ => .booting

/-- A NID becomes the complete NID of a locked frame in a running block; a TSBK the valid unit at the arbiter of a running
block; a command the word on P_CMD with an OK reply. -/
def placeKey (k : Key) (s : State) : State :=
  match k with
  | .nid w => { s with runState := .running, sync := .locked 56, cls := none, fbits := bvToBits w, stage := .frame }
  | .tsbk o =>
    { s with
      runState := .running, stage := .tsm
      unit := some (mkUnit .trunkingSignalingBlock s.now s.nacCur (some (.tsbk o))) }
  | .cmd w =>
    { s with
      runState := activeState s.runState, stage := .send (sendReason w), cmdWord := w, replies := .ok :: s.replies }

end Sys2Proof.Machine
end

