-- ==== Sys2Proof/Machine/Step.lean ====
section
/-! DEFINITION. One step of the machine: it fetches and runs one operation of the opcode table, or runs one pipeline
operation, or waits for the outside (log entry 1). -/

namespace Sys2Proof.Machine

/-- One step. -/
def step (s : State) : Host.Outcome State Fault Refusal :=
  match fetch s with
  | .instr i =>
    match exec i s with
    | .next t => .next (retire s.stage t)
    | .fault r => .fault r
    | .refused r => .refused r
  | .wait => .next s
  | .reserved => .refused .reservedCommand
  | .pipeline => pipeline s

/-- The state whose next step fetches and runs the operation of a table word (log entry 11). -/
def State.withFetchWord (s : State) (nbits w : Nat) : State := placeKey (tableKey nbits w) s

end Sys2Proof.Machine
end

