-- ==== Sys2Proof/Safety.lean ====
section
/-! DEFINITION. What counts as a safe run, in the terms the statements use: runs of steps, what has left the block so far, and
the invariants of the machine. -/

namespace Sys2Proof.Machine

/-! ## Runs -/

/-- `t` is reached from `s` by steps that answer a next state. -/
inductive Reaches : State → State → Prop where
  | refl (s : State) : Reaches s s
  | tail {s t u : State} (h : Reaches s t) (hs : step t = .next u) : Reaches s u

/-- The state `n` steps later, where every one of them answers a next state. -/
def steps : Nat → State → Option State
  | 0, s => some s
  | n + 1, s =>
    match step s with
    | .next t => steps n t
    | .fault _ => none
    | .refused _ => none

/-- The state after a list of operations, where every one of them answers a next state. -/
def execSeq : List Instr → State → Option State
  | [], s => some s
  | i :: rest, s =>
    match exec i s with
    | .next t => execSeq rest t
    | .fault _ => none
    | .refused _ => none

/-- The band an identifier update writes; none for every other operation (R405, R406). -/
def idenBand : Instr → Option (BitVec 4)
  | .idenUpVu _ _ iden _ _ _ _ => some iden
  | .idenUp _ _ iden _ _ _ _ => some iden
  | _ => none

/-! ## What has left the block -/

/-- The P_CMD words sent so far, oldest first (R464, R509). -/
def sentWords (s : State) : List Word64 :=
  (s.out.filterMap fun a => match a with
    | .command w _ => some w
    | _ => none).reverse

/-- The voice records sent so far, oldest first (R480, R509). -/
def voiceSent (s : State) : List VoiceRecord :=
  (s.out.filterMap fun a => match a with
    | .voice r => some r
    | _ => none).reverse

/-- The block has stopped for good: Fatal or Stopped (R35). -/
def halted (s : State) : Bool :=
  match s.runState with
  | .fatal _ => true
  | .stopped => true
  | _ => false

/-- The state with another Trunking State Machine state, S22-S24. -/
def withTrunking (role : Role) (chanMap : Vector (Option BandEntry) 16) (controlFreq : Nat) (s : State) : State :=
  { s with role := role, chanMap := chanMap, controlFreq := controlFreq }

/-! ## Units and their codes -/

/-- The state with a valid unit of the frame under way in flight (R340). -/
def withValidUnit (kind : UnitKind) (body : Body) (s : State) : State :=
  { s with unit := some ⟨kind, true, s.now, s.nacCur, some body⟩ }

/-- The state with an invalid unit of the frame under way in flight: no body, E2, a failed frame (R294, R342, R541). -/
def withInvalidUnit (kind : UnitKind) (s : State) : State :=
  { s with
    frameFailed := true, raised := .e2 kind s.now :: s.raised, unit := some ⟨kind, false, s.now, s.nacCur, none⟩ }

/-- How many of `count` words of `n` bits, from position `start` on, were received with more than `t` bit errors (R345). -/
def wordsBeyond (t start n count : Nat) (sent received : List Bool) : Nat :=
  (List.range count).countP fun i =>
    decide (t < differences (bitsAt (start + n * i) n sent) (bitsAt (start + n * i) n received))

/-- The nine voice frames of an LDU's ordered bits as received: at most 3 errors in every Golay word and 1 in every Hamming
word (R345). -/
def voiceWithin (sent received : List Bool) : Prop :=
  ∀ j < 9, wordsBeyond 3 (144 * j) 23 4 sent received = 0 ∧ wordsBeyond 1 (144 * j + 92) 15 3 sent received = 0

/-- Voice frame `j` with the bit errors left in that lie in its last seven bits, which no code protects (R345). -/
def frameReceived (sent received : List Bool) (j : Nat) (f : BitVec 88) : BitVec 88 :=
  f ^^^ (bitsToBV 7 (bitsAt (144 * j + 137) 7 sent) ^^^ bitsToBV 7 (bitsAt (144 * j + 137) 7 received)).setWidth 88

/-! ## Invariants -/

/-- The queue and its numbers (R36, R112, R113): no longer than QUEUE_CAP, whole blocks, numbered upwards from after the last
block taken to before the next one read; empty before START and after SHUTDOWN. -/
def QueueOk (s : State) : Prop :=
  s.queue.length ≤ s.cfg.queueCap ∧
  (s.queue.map SampleBlock.seq).Pairwise (· < ·) ∧
  (∀ b ∈ s.queue, b.seq < s.nextSeq ∧ b.samples.length = s.cfg.blockLen) ∧
  (∀ p, s.lastSeq = some p → p < s.nextSeq ∧ ∀ b ∈ s.queue, p < b.seq) ∧
  (s.runState = .booting ∨ s.runState = .stopped → s.queue = [])

/-- The block runs, or boot has got as far as its commands: the configuration has been found legal (R591). -/
def configured (s : State) : Prop :=
  s.runState = .running ∨ s.runState = .booting ∧ ∃ r, s.stage = .send r ∨ s.stage = .sent r

/-- The Demodulator of a configured block (R38, R235): a legal configuration, a history as long as the filter, a clock that
is not negative, a period inside its clamp. -/
def DemodOk (s : State) : Prop :=
  configured s →
    firstIllegal s.cfg = none ∧ s.mfHist.length = s.cfg.mfTaps.length ∧ 0 ≤ s.clk ∧
      periodLo s.cfg ≤ s.period ∧ s.period ≤ periodHi s.cfg

/-- Data dibits of a frame before position `n`, the sync excluded (R291). -/
def dataDibits (n : Nat) : Nat := n - n / statusPeriod - syncLen

/-- 1 where the dibit at the frame position has been taken and the position has not advanced yet, else 0. -/
def dibitTaken : Stage → Nat
  | .frame => 1
  | .tsm => 1
  | .tune .delivery => 1
  | .send (.retune .delivery) => 1
  | .sent (.retune .delivery) => 1
  | .route => 1
  | .advance => 1
  | _ => 0

/-- The Frame Synchronizer (R39, R289, R291, R293): Searching holds nothing of a frame; Locked holds the data bits of the
positions taken, and the class from the NID's last bit on. -/
def FrameOk (s : State) : Prop :=
  (s.runState = .booting → s.sync = .searching) ∧
  match s.sync with
  | .searching =>
    s.fbits = [] ∧ s.curLen = none ∧ s.lastLen = none ∧ s.cls = none ∧ s.failCount = 0 ∧ s.frameFailed = false ∧
      s.tsbkN = 0 ∧ s.tsduEnd = none ∧ s.pduHdr = none
  | .locked pos =>
    s.fbits.length = 2 * dataDibits (pos + dibitTaken s.stage) ∧
      (s.cls = none → s.fbits.length < 64 ∨ s.fbits.length = 64 ∧ s.stage = .frame) ∧
      (s.cls ≠ none → 64 ≤ s.fbits.length)

/-- A DataUnit has a body exactly when it is valid, and one of its kind; a signaling block's CRC holds (R161, R342). -/
def unitOk (du : DataUnit) : Bool :=
  du.valid == du.body.isSome &&
    match du.kind, du.body with
    | _, none => true
    | .headerUnit, some (.header _) => true
    | .logicalLinkUnit1, some (.ldu1 frames _) => frames.length == 9
    | .logicalLinkUnit2, some (.ldu2 frames _) => frames.length == 9
    | .trunkingSignalingBlock, some (.tsbk o) => crcOk o
    | .packetDataUnit, some (.pdu hdr btf _) => crcOk hdr && btf == pduBtf hdr
    | .terminator, some .tdu => true
    | .terminator, some (.tdulc _) => true
    | _, some _ => false

/-- Every DataUnit the machine holds is well formed, and every voice record sent has nine frames (R161, R171, R296). -/
def UnitsOk (s : State) : Prop :=
  (∀ du, s.unit = some du → unitOk du = true) ∧
  (∀ h, s.pduHdr = some h → unitOk h = true ∧ h.kind = .packetDataUnit ∧ h.valid = true) ∧
  ∀ r, PortAction.voice r ∈ s.out → r.frames.length = 9

/-- The frequency the block is tuned to, or is about to tune to for the command in flight. -/
def headingFor (s : State) : Nat :=
  match s.stage, s.cmd with
  | .tune _, some c => c.targetFrequency
  | .send (.retune _), some c => c.targetFrequency
  | .sent (.retune _), some c => c.targetFrequency
  | _, _ => s.tunedFreq

/-- A stage of boot. -/
def bootStage : Stage → Bool
  | .send .bootPpm => true
  | .send .bootGain => true
  | .send .bootFreq => true
  | .sent .bootPpm => true
  | .sent .bootGain => true
  | .sent .bootFreq => true
  | _ => false

/-- The tuned frequency follows the role: the granted frequency in TrafficChannel role, the control frequency in
ControlChannel role (R404, R410, R411, R412, R462, R591). -/
def TunedToRole (s : State) : Prop :=
  (match s.role with
    | .controlChannel => headingFor s = s.controlFreq
    | .trafficChannel f _ _ => headingFor s = f) ∧
  (s.runState = .booting → s.role = .controlChannel ∧ s.tunedFreq = s.controlFreq) ∧
  (bootStage s.stage = true → s.role = .controlChannel)

/-- The talkgroup followed is a monitored one (R402, R404, R412). -/
def FollowsMonitored (s : State) : Prop :=
  (∀ f tg la, s.role = .trafficChannel f tg la → monitored s.cfg.tgPolicy tg = true) ∧
  (s.runState = .booting → s.role = .controlChannel)

/-- The word that is sent for a reason (R462, R591). -/
def wordFor (s : State) (r : SendFor) (w : Word64) : Prop :=
  match r with
  | .bootPpm => w = setPpmWord s.cfg.ppm
  | .bootGain => w = setGainWord s.cfg.gain
  | .bootFreq => w = setFreqWord (BitVec.ofNat 56 s.cfg.initFreq)
  | .retune _ => ∃ c, s.cmd = some c ∧ w = setFreqWord (BitVec.ofNat 56 c.targetFrequency)

/-- The word on P_CMD is the one its reason asks for, and every frequency fits its operand (R464, R501, R547). -/
def CommandOk (s : State) : Prop :=
  (∀ r, s.stage = .send r → wordFor s r s.cmdWord) ∧
  (∀ c, s.cmd = some c → c.targetFrequency < 2 ^ 56) ∧
  s.controlFreq < 2 ^ 56 ∧ s.tunedFreq < 2 ^ 56 ∧
  (∀ f tg la, s.role = .trafficChannel f tg la → f < 2 ^ 56) ∧
  (∀ b e, mapRead b s = some e → e.baseHz ≤ (2 ^ 32 - 1) * 5 ∧ e.spacingHz ≤ 1023 * 125) ∧
  (configured s → s.cfg.initFreq < 2 ^ 56)

/-- The start time of the block after the last one taken. -/
def nextBlockTime (s : State) : Nat :=
  match s.lastSeq with
  | none => 0
  | some p => (p + 1) * s.cfg.blockLen

/-- Every time the machine holds lies before the next block's start (R34, R410). -/
def ClockOk (s : State) : Prop :=
  (∀ f tg la, s.role = .trafficChannel f tg la → la < nextBlockTime s) ∧
  (∀ p ∈ s.run, p.2 < nextBlockTime s) ∧
  (∀ du, s.unit = some du → du.time < nextBlockTime s) ∧
  (∀ h, s.pduHdr = some h → h.time < nextBlockTime s) ∧
  (s.stage = .frame → s.now < nextBlockTime s) ∧
  (s.todo ≠ [] → s.lastSeq = some s.curSeq ∧ s.idx + s.todo.length ≤ s.cfg.blockLen) ∧
  (s.runState = .booting →
    s.role = .controlChannel ∧ s.run = [] ∧ s.unit = none ∧ s.pduHdr = none ∧ s.todo = [] ∧ s.stage ≠ .frame ∧
      s.lastSeq = none)

end Sys2Proof.Machine
end

