-- ==== Sys2Proof/Certificates/Slice0/Obligations.lean ====
section
/-! DEFINITION. The statements for the provers. -/

open Sys2Proof Sys2Proof.Machine

/-! ## Encodings and codes -/

/-- Decoding the word of a well-formed instruction gives it back: all fifteen operations, on their three dispatch keys
(R153, R155-R159, R170, R175). -/
def Obligations.DecodeEncode : Prop :=
  ∀ i : Instr, i.wf = true → decode (encode i) = .ok i

/-- A TSBK or a P_CMD word that decodes has one meaning: it is the word of the instruction it decodes to, which is well
formed (R155-R159, R170, R347). -/
def Obligations.EncodeDecode : Prop :=
  ∀ (k : Key) (i : Instr), (∀ w, k ≠ .nid w) → decode k = .ok i → encode i = k ∧ i.wf = true

/-- Words written out in 42_fec_decoder.md and 95_test_vectors.md decode to the operations they stand for. -/
def Obligations.SampleWordsDecode : Prop :=
  decode (.tsbk 0x80000000050064123456_1588#96) = .ok (.grpVChGrant true 0x00#8 0x00#8 0x0005#16 100#16 0x123456#24) ∧
  decode (.tsbk 0x8200000500640007012C_7F73#96) = .ok (.grpVChGrantUpdt true 0x00#8 0x0005#16 100#16 0x0007#16 300#16) ∧
  decode (.tsbk 0xB400250000640A2510A2_2B2F#96) = .ok (.idenUpVu true 0x00#8 2#4 5#4 0#14 100#10 170201250#32) ∧
  decode (.tsbk 0xBD000322D0640A251584_E472#96) = .ok (.idenUp true 0x00#8 0#4 100#9 0x0B4#9 100#10 170202500#32) ∧
  decode (.tsbk 0xBA000000000000000000_2291#96) = .ok (.tsbkOther true false 0x3A#6 0x00#8 0#64) ∧
  decode (.tsbk 0x80000000050064123456_1589#96) = .error .crcFailed ∧
  decode (.cmd 0x0100000032BA5FB8#64) = .ok (.setFreq 851075000#56) ∧
  decode (.cmd 0x02000000000001F0#64) = .ok (.setGain (.manual 496#32)) ∧
  decode (.cmd 0x03000000FFFFFFFD#64) = .ok (.setPpm (-3#32)) ∧
  decode (.nid 0x2937F88514ABAECC#64) = .ok (.frameTsdu 0x293#12) ∧
  decode (.nid 0x29333977728CED6F#64) = .ok (.frameTdu 0x293#12)

/-- NID_DECODE finds the NAC and the DUID of a word exactly when their codeword lies within 11 bit errors of its upper 63
bits; so it answers none exactly where no codeword does, and repairs every pattern of up to 11 errors (R344, R345, R342). -/
def Obligations.NidDecodesWithinEleven : Prop :=
  ∀ (nid : Word64) (nac : BitVec 12) (duid : BitVec 4),
    nidDecode nid = some (nac, duid) ↔ popcount (bchEncode (nac ++ duid) ^^^ nid.extractLsb' 1 63) ≤ 11

/-- The trellis decoder's inputs end with the flush dibit 0 and have the least metric of all such inputs; among those of the
same metric they are the least in lexicographic order (R346). -/
def Obligations.TrellisDecodeOptimal : Prop :=
  ∀ pts : List (BitVec 4), pts ≠ [] →
    (trellisDecode pts).length = pts.length ∧ (trellisDecode pts).getLast? = some 0#2 ∧
      ∀ ins : List Dibit, ins.length = pts.length → ins.getLast? = some 0#2 →
        pathMetric 0#2 (trellisDecode pts) pts < pathMetric 0#2 ins pts ∨
          pathMetric 0#2 (trellisDecode pts) pts = pathMetric 0#2 ins pts ∧
            (trellisDecode pts = ins ∨ trellisDecode pts < ins)

/-- What a transmitter sends for twelve octets, interleaved and trellis coded, TSBK_DECODE turns back into them (R343,
R346: "an encode followed by this decode returns the input"). -/
def Obligations.TsbkDecodeEncode : Prop :=
  ∀ o : Octets12, tsbkDecode (tsbkEncode o) = o

/-- DEINT takes coded dibit `i` from air dibit `DEINT[i]`, is the row and column map of R343, and is undone by the
transmitter's interleaving. -/
def Obligations.DeintIsRowColumnMap : Prop :=
  (∀ (air : List Dibit) (i : Nat), i < 98 → (deinterleave air).getD i 0#2 = air.getD (deint.getD i 0) 0#2) ∧
  (∀ p < 49,
    let r := if p < 13 then 0 else 1 + (p - 13) / 12
    let c := if p < 13 then p else (p - 13) % 12
    deint.getD (2 * p) 0 = 2 * (4 * c + r) ∧ deint.getD (2 * p + 1) 0 = 2 * (4 * c + r) + 1) ∧
  deint.Perm (List.range 98) ∧
  ∀ coded : List Dibit, coded.length = 98 →
    deinterleave (interleave coded) = coded ∧ interleave (deinterleave coded) = coded

/-! ## A step runs the decoded operation -/

/-- At the last bit of a NID, and at every later data dibit of the frame, the step of a running block runs the frame's
operation and moves on: to the arbiter where it made a DataUnit, else to the end of the dibit (R175, R290, R293). -/
def Obligations.StepRunsFrameInstr : Prop :=
  ∀ (s : State) (i : Instr), s.runState = .running → s.stage = .frame →
    (s.cls = none ∧ s.fbits.length = 64 ∧ decode (.nid (bitsToBV 64 s.fbits)) = .ok i) ∨
      (∃ c, s.cls = some c ∧ classInstr c s.nacCur = some i) →
    i.wf = true ∧
      ∃ t, exec i s = .next t ∧ step s = .next { t with stage := if t.unit.isSome then .tsm else .advance }

/-- With a valid TSBK in flight at the arbiter, the step of a running block runs the operation its octets decode to, and
goes on to the Channel Tuner (R175, R400, R401). -/
def Obligations.StepRunsTsbkInstr : Prop :=
  ∀ (s : State) (time : Nat) (nac : BitVec 12) (o : Octets12) (i : Instr), s.runState = .running → s.stage = .tsm →
    s.unit = some ⟨.trunkingSignalingBlock, true, time, nac, some (.tsbk o)⟩ → decode (.tsbk o) = .ok i →
    i.wf = true ∧ ∃ t, exec i s = .next t ∧ step s = .next { t with stage := .tune .delivery }

/-- With a word on P_CMD and a reply to it, the step of a booting or running block runs the command the word decodes to;
it goes on to what follows an accepted command, and stays where it is when the block has stopped (R170, R504). Without
a reply the step waits (the model's choice, log entry 18). -/
def Obligations.StepRunsCommandInstr : Prop :=
  ∀ (s : State) (r : SendFor) (i : Instr), s.runState = .running ∨ s.runState = .booting → s.stage = .send r →
    decode (.cmd s.cmdWord) = .ok i →
    (s.replies ≠ [] →
      i.wf = true ∧
        ∃ t, exec i s = .next t ∧ step s = .next (if halted t then t else { t with stage := .sent r })) ∧
    (s.replies = [] → step s = .next s)

/-! ## Frame-class operations -/

/-- At its NID each frame-class operation takes up the frame: S17, S11, and S15 where the class fixes the length; a TDU also
makes its Terminator, which has no body (R293, R154, R349). Nothing else changes. -/
def Obligations.FrameTakenUpAtNid : Prop :=
  ∀ (nac : BitVec 12) (s : State), s.cls = none →
    exec (.frameHdu nac) s = .next { s with cls := some .hdu, nacCur := nac, curLen := some 396 } ∧
    exec (.frameLdu1 nac) s = .next { s with cls := some .ldu1, nacCur := nac, curLen := some 864 } ∧
    exec (.frameLdu2 nac) s = .next { s with cls := some .ldu2, nacCur := nac, curLen := some 864 } ∧
    exec (.frameTdulc nac) s = .next { s with cls := some .tdulc, nacCur := nac, curLen := some 216 } ∧
    exec (.frameTsdu nac) s = .next { s with cls := some .tsdu, nacCur := nac } ∧
    exec (.framePdu nac) s = .next { s with cls := some .pdu, nacCur := nac } ∧
    exec (.frameTdu nac) s =
      .next { s with
        cls := some .tdu, nacCur := nac, curLen := some 72
        unit := some ⟨.terminator, true, s.now, nac, some .tdu⟩ }

/-- In a frame taken up, HDU, TDULC, LDU1 and LDU2 wait for the last bit of their body; there they hand over its DataUnit: valid
with the decoded payload, or invalid with no body, E2 and a failed frame (R294, R348, R350, R352, R354). A TDU does
nothing more. Nothing else changes. How a payload is packed is the model's (log entry 9). -/
def Obligations.FixedBodyDecoded : Prop :=
  ∀ (nac : BitVec 12) (s : State) (c : FrameClass), s.cls = some c →
    (exec (.frameTdu nac) s = .next s) ∧
    (s.fbits.length ≠ 712 → exec (.frameHdu nac) s = .next s) ∧
    (s.fbits.length = 712 → exec (.frameHdu nac) s = .next
      (match hduDecode (bitsAt 64 648 s.fbits) with
        | some m => { s with unit := some ⟨.headerUnit, true, s.now, s.nacCur, some (.header m)⟩ }
        | none =>
          { s with
            frameFailed := true, raised := .e2 .headerUnit s.now :: s.raised
            unit := some ⟨.headerUnit, false, s.now, s.nacCur, none⟩ })) ∧
    (s.fbits.length ≠ 352 → exec (.frameTdulc nac) s = .next s) ∧
    (s.fbits.length = 352 → exec (.frameTdulc nac) s = .next
      (match tdulcDecode (bitsAt 64 288 s.fbits) with
        | some m => { s with unit := some ⟨.terminator, true, s.now, s.nacCur, some (.tdulc m)⟩ }
        | none =>
          { s with
            frameFailed := true, raised := .e2 .terminator s.now :: s.raised
            unit := some ⟨.terminator, false, s.now, s.nacCur, none⟩ })) ∧
    (s.fbits.length ≠ 1632 → exec (.frameLdu1 nac) s = .next s) ∧
    (s.fbits.length = 1632 → exec (.frameLdu1 nac) s = .next
      (match lduDecode Config.ldu1Order Config.rsLc (bitsAt 64 1568 s.fbits) with
        | some (frames, lc) =>
          { s with unit := some ⟨.logicalLinkUnit1, true, s.now, s.nacCur, some (.ldu1 frames lc)⟩ }
        | none =>
          { s with
            frameFailed := true, raised := .e2 .logicalLinkUnit1 s.now :: s.raised
            unit := some ⟨.logicalLinkUnit1, false, s.now, s.nacCur, none⟩ })) ∧
    (s.fbits.length ≠ 1632 → exec (.frameLdu2 nac) s = .next s) ∧
    (s.fbits.length = 1632 → exec (.frameLdu2 nac) s = .next
      (match lduDecode Config.ldu2Order Config.rsEs (bitsAt 64 1568 s.fbits) with
        | some (frames, es) =>
          { s with unit := some ⟨.logicalLinkUnit2, true, s.now, s.nacCur, some (.ldu2 frames es)⟩ }
        | none =>
          { s with
            frameFailed := true, raised := .e2 .logicalLinkUnit2 s.now :: s.raised
            unit := some ⟨.logicalLinkUnit2, false, s.now, s.nacCur, none⟩ }))

/-- A body sent through its class's codes is handed over as a valid unit with the payload sent when every word was received
within its code's capability: 3 bit errors a Golay word, 1 a Hamming word (R342 (a), R345, R294). No code protects the last seven
bits of a voice frame: errors there stay in the frame, which is as sent where those bits are. When further words are beyond
their code, no more than the Reed-Solomon code repairs - 8 hexbits of an HDU, 6 of a link control word, of which a Golay word
of a TDULC holds two, 4 of an encryption sync word - the unit has that payload too, unless one of those words does not decode:
then, and only then, it is invalid. Conversely a valid unit's payload is one that explains the bits received: they lie within
the codes' capabilities of its coded body; so where no payload's coded body does, the unit is invalid (R342 (b), C9). Four errors
in one Golay word of an HDU or a TDULC are always found, because the distance of these codes is 8 (R345). The low-speed data
of an LDU do not matter (D20). How the words lie in a body is the model's (log entry 9). -/
def Obligations.BodyRestoredWithinCapability : Prop :=
  ∀ (nac : BitVec 12) (s : State) (c : FrameClass) (sent received : List Bool), s.cls = some c →
    (∀ m : BitVec 120, s.fbits.length = 712 → sent = Config.hduOrder.collect (hduEncode m) →
      received = Config.hduOrder.collect (s.fbits.drop 64) →
      (wordsBeyond 3 0 18 36 sent received = 0 →
        exec (.frameHdu nac) s = .next (withValidUnit .headerUnit (.header m) s)) ∧
      (wordsBeyond 3 0 18 36 sent received ≤ 8 →
        exec (.frameHdu nac) s = .next
          (match decodeWords Config.golay18 0 36 received with
            | none => withInvalidUnit .headerUnit s
            | some _ => withValidUnit .headerUnit (.header m) s)) ∧
      (exec (.frameHdu nac) s = .next (withValidUnit .headerUnit (.header m) s) →
        wordsBeyond 3 0 18 36 sent received ≤ 8) ∧
      ∀ i < 36, differences (bitsAt (18 * i) 18 sent) (bitsAt (18 * i) 18 received) = 4 →
        exec (.frameHdu nac) s = .next (withInvalidUnit .headerUnit s)) ∧
    (∀ m : BitVec 72, s.fbits.length = 352 → sent = Config.tdulcOrder.collect (tdulcEncode m) →
      received = Config.tdulcOrder.collect (s.fbits.drop 64) →
      (wordsBeyond 3 0 24 12 sent received = 0 →
        exec (.frameTdulc nac) s = .next (withValidUnit .terminator (.tdulc m) s)) ∧
      (wordsBeyond 3 0 24 12 sent received ≤ 3 →
        exec (.frameTdulc nac) s = .next
          (match decodeWords Config.golay24 0 12 received with
            | none => withInvalidUnit .terminator s
            | some _ => withValidUnit .terminator (.tdulc m) s)) ∧
      (exec (.frameTdulc nac) s = .next (withValidUnit .terminator (.tdulc m) s) →
        wordsBeyond 3 0 24 12 sent received ≤ 6) ∧
      ∀ i < 12, differences (bitsAt (24 * i) 24 sent) (bitsAt (24 * i) 24 received) = 4 →
        exec (.frameTdulc nac) s = .next (withInvalidUnit .terminator s)) ∧
    (∀ (frames : List (BitVec 88)) (lc : BitVec 72) (lowSpeed : BitVec 32), frames.length = 9 →
      s.fbits.length = 1632 →
      sent = Config.ldu1Order.collect (lduEncode Config.ldu1Order Config.rsLc frames lc lowSpeed) →
      received = Config.ldu1Order.collect (s.fbits.drop 64) →
      (voiceWithin sent received → wordsBeyond 1 1296 10 24 sent received = 0 →
        exec (.frameLdu1 nac) s =
          .next (withValidUnit .logicalLinkUnit1 (.ldu1 (frames.mapIdx (frameReceived sent received)) lc) s)) ∧
      (voiceWithin sent received → wordsBeyond 1 1296 10 24 sent received ≤ 6 →
        exec (.frameLdu1 nac) s = .next
          (match decodeWords Config.hamming10 1296 24 received with
            | none => withInvalidUnit .logicalLinkUnit1 s
            | some _ => withValidUnit .logicalLinkUnit1 (.ldu1 (frames.mapIdx (frameReceived sent received)) lc) s)) ∧
      (exec (.frameLdu1 nac) s = .next (withValidUnit .logicalLinkUnit1 (.ldu1 frames lc) s) →
        voiceWithin sent received ∧ wordsBeyond 1 1296 10 24 sent received ≤ 6)) ∧
    (∀ (frames : List (BitVec 88)) (es : BitVec 96) (lowSpeed : BitVec 32), frames.length = 9 →
      s.fbits.length = 1632 →
      sent = Config.ldu2Order.collect (lduEncode Config.ldu2Order Config.rsEs frames es lowSpeed) →
      received = Config.ldu2Order.collect (s.fbits.drop 64) →
      (voiceWithin sent received → wordsBeyond 1 1296 10 24 sent received = 0 →
        exec (.frameLdu2 nac) s =
          .next (withValidUnit .logicalLinkUnit2 (.ldu2 (frames.mapIdx (frameReceived sent received)) es) s)) ∧
      (voiceWithin sent received → wordsBeyond 1 1296 10 24 sent received ≤ 4 →
        exec (.frameLdu2 nac) s = .next
          (match decodeWords Config.hamming10 1296 24 received with
            | none => withInvalidUnit .logicalLinkUnit2 s
            | some _ => withValidUnit .logicalLinkUnit2 (.ldu2 (frames.mapIdx (frameReceived sent received)) es) s)) ∧
      (exec (.frameLdu2 nac) s = .next (withValidUnit .logicalLinkUnit2 (.ldu2 frames es) s) →
        voiceWithin sent received ∧ wordsBeyond 1 1296 10 24 sent received ≤ 4))

/-- FRAME_TSDU at the last bit of TSBK number S20 + 1: the unit made from the block, S20, and, at an invalid block, at LB = 1 or at
the third block, S21 and S15; an invalid block also fails the frame and raises E2. Between blocks, and after the
last one, nothing changes (R295, R351). -/
def Obligations.TsbkOfTsdu : Prop :=
  ∀ (nac : BitVec 12) (s : State) (c : FrameClass), s.cls = some c →
    (s.tsduEnd ≠ none ∨ s.fbits.length ≠ 64 + 196 * (s.tsbkN + 1) → exec (.frameTsdu nac) s = .next s) ∧
    ∀ o, s.tsduEnd = none → s.fbits.length = 64 + 196 * (s.tsbkN + 1) →
      o = tsbkDecode ((s.fbits.drop (64 + 196 * s.tsbkN)).take 196) →
      (crcOk o = false → exec (.frameTsdu nac) s =
        .next { s with
          tsbkN := s.tsbkN + 1, frameFailed := true, tsduEnd := some (56 + 98 * (s.tsbkN + 1))
          curLen := some (36 * ((56 + 98 * (s.tsbkN + 1) + 34) / 35))
          raised := .e2 .trunkingSignalingBlock s.now :: s.raised
          unit := some ⟨.trunkingSignalingBlock, false, s.now, s.nacCur, none⟩ }) ∧
      (crcOk o = true → o.getLsbD 95 = true ∨ s.tsbkN + 1 = 3 → exec (.frameTsdu nac) s =
        .next { s with
          tsbkN := s.tsbkN + 1, tsduEnd := some (56 + 98 * (s.tsbkN + 1))
          curLen := some (36 * ((56 + 98 * (s.tsbkN + 1) + 34) / 35))
          unit := some ⟨.trunkingSignalingBlock, true, s.now, s.nacCur, some (.tsbk o)⟩ }) ∧
      (crcOk o = true → o.getLsbD 95 = false → s.tsbkN + 1 ≠ 3 → exec (.frameTsdu nac) s =
        .next { s with
          tsbkN := s.tsbkN + 1, unit := some ⟨.trunkingSignalingBlock, true, s.now, s.nacCur, some (.tsbk o)⟩ })

/-- FRAME_PDU at the last bit of its header: a valid header is held in S26 and fixes the length; one with BTF = 0 is handed over at
once; an invalid one is handed over, fails the frame (E2) and takes the prior length, or forces Searching (E1) where
there is none. At the last bit of the last block the held header is handed over with the raw blocks. Before the header
is complete, between the blocks, and after the unit was handed over, nothing changes (R296, R353, R163). -/
def Obligations.PduHeaderAndBody : Prop :=
  ∀ (nac : BitVec 12) (s : State) (c : FrameClass), s.cls = some c →
    (∀ o, s.curLen = none → s.pduHdr = none → s.fbits.length = 260 → o = tsbkDecode (s.fbits.drop 64) →
      (crcOk o = true → (o.extractLsb' 40 7).toNat ≠ 0 → exec (.framePdu nac) s =
        .next { s with
          pduHdr := some ⟨.packetDataUnit, true, s.now, s.nacCur, some (.pdu o (o.extractLsb' 40 7).toNat [])⟩
          curLen := some (36 * ((56 + 98 * (1 + (o.extractLsb' 40 7).toNat) + 34) / 35)) }) ∧
      (crcOk o = true → (o.extractLsb' 40 7).toNat = 0 → exec (.framePdu nac) s =
        .next { s with
          curLen := some 180
          unit := some ⟨.packetDataUnit, true, s.now, s.nacCur, some (.pdu o 0 [])⟩ }) ∧
      (∀ len, crcOk o = false → s.lastLen = some len → exec (.framePdu nac) s =
        .next { s with
          frameFailed := true, curLen := some len, cls := some .unknown
          raised := .e2 .packetDataUnit s.now :: s.raised
          unit := some ⟨.packetDataUnit, false, s.now, s.nacCur, none⟩ }) ∧
      (crcOk o = false → s.lastLen = none → exec (.framePdu nac) s =
        .next { s with
          sync := .searching, win := List.replicate 24 none, fbits := [], curLen := none, lastLen := none
          cls := none, failCount := 0, frameFailed := false, tsbkN := 0, tsduEnd := none, pduHdr := none
          raised := .e1 s.now :: .e2 .packetDataUnit s.now :: s.raised
          unit := some ⟨.packetDataUnit, false, s.now, s.nacCur, none⟩ })) ∧
    (∀ len time hnac o btf bs, s.curLen = some len →
      s.pduHdr = some ⟨.packetDataUnit, true, time, hnac, some (.pdu o btf bs)⟩ →
      (s.fbits.length = 64 + 196 * (1 + btf) → exec (.framePdu nac) s =
        .next { s with
          pduHdr := none
          unit := some ⟨.packetDataUnit, true, time, hnac, some (.pdu o btf (s.fbits.drop 260))⟩ }) ∧
      (s.fbits.length ≠ 64 + 196 * (1 + btf) → exec (.framePdu nac) s = .next s)) ∧
    (s.pduHdr = none → s.curLen ≠ none ∨ s.fbits.length ≠ 260 → exec (.framePdu nac) s = .next s)

/-! ## TSBK operations -/

/-- GRP_V_CH_GRANT in ControlChannel role: E4 and nothing else where the band is unknown; nothing for a talkgroup that is not
monitored; else the control frequency, the role and the command (R404, R403, R402, R109). -/
def Obligations.GrantInControlRole : Prop :=
  ∀ (lb : Bool) (mfid svc : BitVec 8) (chan tg : BitVec 16) (src : BitVec 24) (s : State) (du : DataUnit),
    s.role = .controlChannel → s.unit = some du →
    (mapRead (chan.extractLsb' 12 4) s = none →
      exec (.grpVChGrant lb mfid svc chan tg src) s = .next { s with raised := .e4 chan :: s.raised, cmd := none }) ∧
    (∀ e, mapRead (chan.extractLsb' 12 4) s = some e →
      ¬(s.cfg.tgPolicy = .all ∨ ∃ l, s.cfg.tgPolicy = .allowList l ∧ tg.toNat ∈ l) →
      exec (.grpVChGrant lb mfid svc chan tg src) s = .next { s with cmd := none }) ∧
    (∀ e f, mapRead (chan.extractLsb' 12 4) s = some e →
      (s.cfg.tgPolicy = .all ∨ ∃ l, s.cfg.tgPolicy = .allowList l ∧ tg.toNat ∈ l) →
      f = e.baseHz + (chan.extractLsb' 0 12).toNat * e.spacingHz →
      exec (.grpVChGrant lb mfid svc chan tg src) s =
        .next { s with controlFreq := s.tunedFreq, role := .trafficChannel f tg du.time, cmd := some ⟨f, .grant⟩ })

/-- GRP_V_CH_GRANT in TrafficChannel role: activity is refreshed; under Ignore, and for the talkgroup already followed,
nothing else; under Preempt as in R412, with the control frequency left as it is (R412, R403). -/
def Obligations.GrantInTrafficRole : Prop :=
  ∀ (lb : Bool) (mfid svc : BitVec 8) (chan tg cur : BitVec 16) (src : BitVec 24) (s : State) (du : DataUnit)
    (f0 la : Nat), s.role = .trafficChannel f0 cur la → s.unit = some du →
    (s.cfg.grantPriority = .ignore ∨ cur = tg →
      exec (.grpVChGrant lb mfid svc chan tg src) s =
        .next { s with role := .trafficChannel f0 cur du.time, cmd := none }) ∧
    (s.cfg.grantPriority = .preempt → cur ≠ tg → mapRead (chan.extractLsb' 12 4) s = none →
      exec (.grpVChGrant lb mfid svc chan tg src) s =
        .next { s with
          role := .trafficChannel f0 cur du.time, raised := .e4 chan :: s.raised, cmd := none }) ∧
    (∀ e, s.cfg.grantPriority = .preempt → cur ≠ tg → mapRead (chan.extractLsb' 12 4) s = some e →
      ¬(s.cfg.tgPolicy = .all ∨ ∃ l, s.cfg.tgPolicy = .allowList l ∧ tg.toNat ∈ l) →
      exec (.grpVChGrant lb mfid svc chan tg src) s =
        .next { s with role := .trafficChannel f0 cur du.time, cmd := none }) ∧
    (∀ e f, s.cfg.grantPriority = .preempt → cur ≠ tg → mapRead (chan.extractLsb' 12 4) s = some e →
      (s.cfg.tgPolicy = .all ∨ ∃ l, s.cfg.tgPolicy = .allowList l ∧ tg.toNat ∈ l) →
      f = e.baseHz + (chan.extractLsb' 0 12).toNat * e.spacingHz →
      exec (.grpVChGrant lb mfid svc chan tg src) s =
        .next { s with role := .trafficChannel f tg du.time, cmd := some ⟨f, .preempt⟩ })

/-- GRP_V_CH_GRANT_UPDT, in either role, is a grant of pair A and then, where that gave no command, a grant of pair B. In
ControlChannel role: A acts and B is not tried; B acts after A's E4; both channels unknown raise E4 for A, then for B
(R407). -/
def Obligations.GrantUpdateTriesAThenB : Prop :=
  ∀ (lb : Bool) (mfid svc : BitVec 8) (chanA tgA chanB tgB : BitVec 16) (src : BitVec 24) (s : State) (du : DataUnit),
    s.unit = some du →
    (∃ a, exec (.grpVChGrant lb mfid svc chanA tgA src) s = .next a ∧
      exec (.grpVChGrantUpdt lb mfid chanA tgA chanB tgB) s =
        if a.cmd = none then exec (.grpVChGrant lb mfid svc chanB tgB src) a else .next a) ∧
    (∀ e, s.role = .controlChannel → mapRead (chanA.extractLsb' 12 4) s = some e → s.cfg.tgPolicy = .all →
      exec (.grpVChGrantUpdt lb mfid chanA tgA chanB tgB) s =
        .next { s with
          controlFreq := s.tunedFreq
          role := .trafficChannel (e.baseHz + (chanA.extractLsb' 0 12).toNat * e.spacingHz) tgA du.time
          cmd := some ⟨e.baseHz + (chanA.extractLsb' 0 12).toNat * e.spacingHz, .grant⟩ }) ∧
    (∀ e, s.role = .controlChannel → mapRead (chanA.extractLsb' 12 4) s = none →
      mapRead (chanB.extractLsb' 12 4) s = some e → s.cfg.tgPolicy = .all →
      exec (.grpVChGrantUpdt lb mfid chanA tgA chanB tgB) s =
        .next { s with
          raised := .e4 chanA :: s.raised, controlFreq := s.tunedFreq
          role := .trafficChannel (e.baseHz + (chanB.extractLsb' 0 12).toNat * e.spacingHz) tgB du.time
          cmd := some ⟨e.baseHz + (chanB.extractLsb' 0 12).toNat * e.spacingHz, .grant⟩ }) ∧
    (s.role = .controlChannel → mapRead (chanA.extractLsb' 12 4) s = none →
      mapRead (chanB.extractLsb' 12 4) s = none →
      exec (.grpVChGrantUpdt lb mfid chanA tgA chanB tgB) s =
        .next { s with raised := .e4 chanB :: .e4 chanA :: s.raised, cmd := none })

/-- IDEN_UP and IDEN_UP_VU in ControlChannel role replace the band's entry, with the base in units of 5 Hz and the spacing in
units of 125 Hz; in TrafficChannel role they only refresh activity (R405, R406, R409, R160). -/
def Obligations.IdentifierUpdates : Prop :=
  ∀ (lb : Bool) (mfid : BitVec 8) (iden bwvu : BitVec 4) (bw tx : BitVec 9) (txvu : BitVec 14) (spacing : BitVec 10)
    (base : BitVec 32) (s : State) (du : DataUnit), s.unit = some du →
    (s.role = .controlChannel →
      exec (.idenUp lb mfid iden bw tx spacing base) s =
        .next { s with
          chanMap := s.chanMap.set iden.toNat
            (some ⟨.iden, base.toNat * 5, spacing.toNat * 125, tx.setWidth 14, bw⟩) iden.isLt
          cmd := none } ∧
      exec (.idenUpVu lb mfid iden bwvu txvu spacing base) s =
        .next { s with
          chanMap := s.chanMap.set iden.toNat
            (some ⟨.idenVU, base.toNat * 5, spacing.toNat * 125, txvu, bwvu.setWidth 9⟩) iden.isLt
          cmd := none }) ∧
    (∀ f tg la, s.role = .trafficChannel f tg la →
      exec (.idenUp lb mfid iden bw tx spacing base) s =
        .next { s with role := .trafficChannel f tg du.time, cmd := none } ∧
      exec (.idenUpVu lb mfid iden bwvu txvu spacing base) s =
        .next { s with role := .trafficChannel f tg du.time, cmd := none })

/-- Every other valid TSBK changes nothing in ControlChannel role and only the last activity in TrafficChannel role (R408,
R181). -/
def Obligations.OtherTsbkOnlyRefreshes : Prop :=
  ∀ (lb p : Bool) (opc : BitVec 6) (mfid : BitVec 8) (args : BitVec 64) (s : State) (du : DataUnit), s.unit = some du →
    (s.role = .controlChannel → exec (.tsbkOther lb p opc mfid args) s = .next { s with cmd := none }) ∧
    (∀ f tg la, s.role = .trafficChannel f tg la →
      exec (.tsbkOther lb p opc mfid args) s =
        .next { s with role := .trafficChannel f tg du.time, cmd := none })

/-- In ControlChannel role, identifier updates followed by a grant that refers to one of them, of a monitored talkgroup:
the grant's command is to the base and spacing of that band's last update (R417, R109). -/
def Obligations.GrantAfterIdentifierUpdates : Prop :=
  ∀ (s : State) (du : DataUnit) (pre post : List Instr) (upd : Instr) (lb lb' : Bool) (mfid mfid' svc : BitVec 8)
    (iden bwvu : BitVec 4) (bw tx : BitVec 9) (txvu : BitVec 14) (spacing : BitVec 10) (base : BitVec 32)
    (chan tg : BitVec 16) (src : BitVec 24) (f : Nat),
    s.role = .controlChannel → s.unit = some du → monitored s.cfg.tgPolicy tg = true →
    (∀ i ∈ pre, idenBand i ≠ none) → (∀ i ∈ post, ∃ b, idenBand i = some b ∧ b ≠ iden) →
    upd = .idenUp lb mfid iden bw tx spacing base ∨ upd = .idenUpVu lb mfid iden bwvu txvu spacing base →
    chan.extractLsb' 12 4 = iden →
    f = base.toNat * 5 + (chan.extractLsb' 0 12).toNat * (spacing.toNat * 125) →
    ∃ t, execSeq (pre ++ upd :: post ++ [.grpVChGrant lb' mfid' svc chan tg src]) s = some t ∧
      t.cmd = some ⟨f, .grant⟩ ∧ t.role = .trafficChannel f tg du.time ∧ t.controlFreq = s.tunedFreq ∧
      t.raised = s.raised

/-! ## Commands -/

/-- SET_FREQ, SET_GAIN and SET_PPM send their word and take the Source's reply: OK changes nothing else; FAIL is the fatal E6,
E7(gain) or E7(ppm) (R501, R502, R503, R504). That Fatal carries the info of E6, the frequency, is the model's choice: log
entry 27. -/
def Obligations.CommandsAnswered : Prop :=
  ∀ (freq : BitVec 56) (g ppm : BitVec 32) (s : State) (rest : List Status),
    (s.replies = .ok :: rest →
      exec (.setFreq freq) s = .next { s with replies := rest, out := .command (0x01#8 ++ freq) .ok :: s.out } ∧
      exec (.setGain .auto) s =
        .next { s with replies := rest, out := .command 0x0280000000000000#64 .ok :: s.out } ∧
      exec (.setGain (.manual g)) s =
        .next { s with replies := rest, out := .command (0x02000000#32 ++ g) .ok :: s.out } ∧
      exec (.setPpm ppm) s =
        .next { s with replies := rest, out := .command (0x03000000#32 ++ ppm) .ok :: s.out }) ∧
    (s.replies = .fail :: rest →
      exec (.setFreq freq) s =
        .next { s with
          replies := rest, out := .command (0x01#8 ++ freq) .fail :: s.out
          runState := .fatal (.e6 freq.toNat), raised := .e6 freq.toNat :: s.raised } ∧
      exec (.setGain .auto) s =
        .next { s with
          replies := rest, out := .command 0x0280000000000000#64 .fail :: s.out
          runState := .fatal (.e7 .gain), raised := .e7 .gain :: s.raised } ∧
      exec (.setGain (.manual g)) s =
        .next { s with
          replies := rest, out := .command (0x02000000#32 ++ g) .fail :: s.out
          runState := .fatal (.e7 .gain), raised := .e7 .gain :: s.raised } ∧
      exec (.setPpm ppm) s =
        .next { s with
          replies := rest, out := .command (0x03000000#32 ++ ppm) .fail :: s.out
          runState := .fatal (.e7 .ppm), raised := .e7 .ppm :: s.raised })

/-! ## Reset and boot -/

/-- Reset: every state element in the reset column of its table (R590). -/
def Obligations.ResetState : Prop :=
  let s := State.reset
  s.runState = .booting ∧ s.nextSeq = 0 ∧ s.queue = [] ∧ s.lastSeq = none ∧ s.discardLeft = 0 ∧ s.zPrev = ⟨1, 0⟩ ∧
  s.mfHist = List.replicate s.cfg.mfTaps.length 0 ∧ s.yPrev = 0 ∧ s.clk = 0 ∧ s.period = (spsOf s.cfg : Rat) ∧
  s.nacCur = 0#12 ∧ s.sync = .searching ∧ s.win = List.replicate 24 none ∧ s.fbits = [] ∧ s.curLen = none ∧
  s.lastLen = none ∧ s.cls = none ∧ s.failCount = 0 ∧ s.frameFailed = false ∧ s.tsbkN = 0 ∧ s.tsduEnd = none ∧
  s.pduHdr = none ∧ s.role = .controlChannel ∧ (∀ b, mapRead b s = none)

/-- The configuration is accepted exactly when every condition of R547 holds. -/
def Obligations.LegalConfigurations : Prop :=
  ∀ c : CoreConfig, firstIllegal c = none ↔
    0 < c.initFreq ∧ c.initFreq < 2 ^ 56 ∧
    1 ≤ c.failLimit ∧ 1 ≤ c.timeoutSamples ∧ 1 ≤ c.queueCap ∧ 1 ≤ c.blockLen ∧
    (∃ sps, 2 ≤ sps ∧ c.fs = sps * 4800) ∧
    0 ≤ c.syncThresh ∧ c.syncThresh < 216 ∧
    0 < c.kp ∧ c.kp < 1 ∧ 0 ≤ c.ki ∧ c.ki < 1 ∧ 0 ≤ c.driftMax ∧ c.driftMax < 1 / 2 ∧ c.mfTaps ≠ [] ∧
    1 < ((c.fs / 4800 : Nat) : Rat) * (1 - c.driftMax) * (1 - c.kp / 2) ∧
    ∀ l, c.tgPolicy = .allowList l → ∀ tg ∈ l, tg < 2 ^ 16

/-- BOOT: on START(config) the configuration is loaded - the fields given as given, every absent optional field at its
default - and checked (E7), the Source is opened (E5), and SET_PPM (E7), SET_GAIN (E7) and SET_FREQ (E6) are sent in this
order; each failure is final. When all go well the block runs, tuned to INIT_FREQ, with no settle window (R60, R506, R591).
That Fatal carries the info of E5, the open call, and of E6, the frequency, is the model's choice: log entry 27. -/
def Obligations.BootSequence : Prop :=
  ∀ (s : State) (c : StartConfig) (openReply : Status) (es : List Event) (rest : List Status) (cfg : CoreConfig)
    (p g f : Word64), s.runState = .booting → s.stage = .idle → s.events = .start c openReply :: es →
    cfg =
      { initFreq := c.initFreq, ppm := c.ppm.getD 0#32, gain := c.gain.getD .auto, tgPolicy := c.tgPolicy.getD .all
        grantPriority := c.grantPriority.getD .ignore, failLimit := c.failLimit, timeoutSamples := c.timeoutSamples
        settleSamples := c.settleSamples, queueCap := c.queueCap, blockLen := c.blockLen, fs := c.fs
        syncThresh := c.syncThresh.getD 170, cfoResidHz := c.cfoResidHz.getD 0
        mfTaps := c.mfTaps.getD (List.replicate (c.fs / 4800) (1 / ((c.fs / 4800 : Nat) : Rat)))
        kp := c.kp.getD (1 / 8), ki := c.ki.getD (1 / 256), driftMax := c.driftMax.getD (1 / 100)
        sliceThreshHz := c.sliceThreshHz.getD 1200 } →
    p = 0x03000000#32 ++ cfg.ppm → g = setGainWord cfg.gain →
    f = 0x01#8 ++ BitVec.ofNat 56 cfg.initFreq →
    (∀ field, firstIllegal cfg = some field →
      ∃ t, steps 1 s = some t ∧ t.runState = .fatal (.e7 field) ∧ t.out = s.out ∧ t.cfg = cfg) ∧
    (firstIllegal cfg = none → openReply = .fail →
      ∃ t, steps 1 s = some t ∧ t.runState = .fatal (.e5 .openCall) ∧ t.out = .openSource .fail :: s.out) ∧
    (firstIllegal cfg = none → openReply = .ok → s.replies = .fail :: rest →
      ∃ t, steps 2 s = some t ∧ t.runState = .fatal (.e7 .ppm) ∧
        t.out = .command p .fail :: .openSource .ok :: s.out) ∧
    (firstIllegal cfg = none → openReply = .ok → s.replies = .ok :: .fail :: rest →
      ∃ t, steps 4 s = some t ∧ t.runState = .fatal (.e7 .gain) ∧
        t.out = .command g .fail :: .command p .ok :: .openSource .ok :: s.out) ∧
    (firstIllegal cfg = none → openReply = .ok → s.replies = .ok :: .ok :: .fail :: rest →
      ∃ t, steps 6 s = some t ∧ t.runState = .fatal (.e6 cfg.initFreq) ∧
        t.out = .command f .fail :: .command g .ok :: .command p .ok :: .openSource .ok :: s.out) ∧
    (firstIllegal cfg = none → openReply = .ok → s.replies = .ok :: .ok :: .ok :: rest →
      ∃ t, steps 7 s = some t ∧ t.runState = .running ∧ t.stage = .idle ∧ t.cfg = cfg ∧
        t.tunedFreq = cfg.initFreq ∧ t.controlFreq = cfg.initFreq ∧ t.discardLeft = 0 ∧ t.replies = rest ∧
        t.events = es ∧
        t.out = .command f .ok :: .command g .ok :: .command p .ok :: .openSource .ok :: s.out)

/-! ## The agents' steps -/

/-- INGEST.STEP: a block read is numbered and enqueued, or dropped with E3 where the queue is full; a failed read is the fatal
E5 (R500, R112). That Fatal carries the info of E5, the read call, is the model's choice: log entry 27. -/
def Obligations.IngestStep : Prop :=
  ∀ (s : State) (samples : List Cplx) (es : List Event), s.runState = .running → s.stage = .idle →
    (s.events = .ingest (.ok samples) :: es → samples.length = s.cfg.blockLen → s.queue.length < s.cfg.queueCap →
      step s =
        .next { s with events := es, nextSeq := s.nextSeq + 1, queue := s.queue ++ [⟨s.nextSeq, samples⟩] }) ∧
    (s.events = .ingest (.ok samples) :: es → samples.length = s.cfg.blockLen → s.cfg.queueCap ≤ s.queue.length →
      step s = .next { s with events := es, nextSeq := s.nextSeq + 1, raised := .e3 s.nextSeq :: s.raised }) ∧
    (s.events = .ingest .fail :: es →
      step s =
        .next { s with events := es, runState := .fatal (.e5 .readCall), raised := .e5 .readCall :: s.raised })

/-- A Decode step takes the head of the queue. Where its number is not the successor of the last one, the gap check forces
Searching and resets the Demodulator; otherwise it does not. Then comes the timeout tick, with or without a gap: nothing in
ControlChannel role; in TrafficChannel role the return to ControlChannel with a command to the control frequency exactly when
TIMEOUT_SAMPLES have passed since the last activity, so that a long overflow can end in a timeout (R110, R111, R230, R239,
R289, R410). What the tuner then does with the command is RetuneApplied. -/
def Obligations.GapResynchronizes : Prop :=
  ∀ (s : State) (blk : SampleBlock) (rest : List SampleBlock) (es : List Event) (started checked : State),
    s.runState = .running → s.stage = .idle → s.events = .decode :: es → s.queue = blk :: rest →
    started =
      { s with
        events := es, queue := rest, lastSeq := some blk.seq
        curSeq := blk.seq, idx := 0, todo := blk.samples, run := [], now := blk.seq * s.cfg.blockLen
        cmd := none, stage := .tune .tick } →
    ((s.lastSeq = none ∨ ∃ p, s.lastSeq = some p ∧ blk.seq = p + 1) ∧ checked = started ∨
      (∃ p, s.lastSeq = some p ∧ blk.seq ≠ p + 1) ∧
        checked =
          { started with
            sync := .searching, win := List.replicate 24 none, fbits := [], curLen := none, lastLen := none
            cls := none, failCount := 0, frameFailed := false, tsbkN := 0, tsduEnd := none, pduHdr := none
            zPrev := ⟨1, 0⟩, mfHist := List.replicate s.cfg.mfTaps.length 0, yPrev := 0, clk := 0
            period := (spsOf s.cfg : Rat) }) →
    (s.role = .controlChannel → step s = .next checked) ∧
    ∀ f tg la, s.role = .trafficChannel f tg la →
      (la + s.cfg.timeoutSamples ≤ blk.seq * s.cfg.blockLen →
        step s = .next { checked with role := .controlChannel, cmd := some ⟨s.controlFreq, .timeout⟩ }) ∧
      (blk.seq * s.cfg.blockLen < la + s.cfg.timeoutSamples → step s = .next checked)

/-- TSM.TIMEOUT: at the start of a block in TrafficChannel role, the role returns to ControlChannel with a command to the control
frequency exactly when at least TIMEOUT_SAMPLES have passed since the last activity (R410, R604). Here without a
sequence gap; GapResynchronizes has the tick after a gap. -/
def Obligations.TimeoutAtBlockStart : Prop :=
  ∀ (s : State) (blk : SampleBlock) (rest : List SampleBlock) (es : List Event) (p f la : Nat) (tg : BitVec 16),
    s.runState = .running → s.stage = .idle → s.events = .decode :: es → s.queue = blk :: rest →
    s.lastSeq = some p → blk.seq = p + 1 → s.role = .trafficChannel f tg la →
    (la + s.cfg.timeoutSamples ≤ blk.seq * s.cfg.blockLen →
      step s =
        .next { s with
          events := es, queue := rest, lastSeq := some blk.seq
          curSeq := blk.seq, idx := 0, todo := blk.samples, run := [], now := blk.seq * s.cfg.blockLen
          role := .controlChannel, cmd := some ⟨s.controlFreq, .timeout⟩, stage := .tune .tick }) ∧
    (blk.seq * s.cfg.blockLen < la + s.cfg.timeoutSamples →
      step s =
        .next { s with
          events := es, queue := rest, lastSeq := some blk.seq
          curSeq := blk.seq, idx := 0, todo := blk.samples, run := [], now := blk.seq * s.cfg.blockLen
          cmd := none, stage := .tune .tick })

/-- SHUTDOWN of a running block between two steps: S1 Stopped, the queue discarded, end-of-stream, close, whose reply is ignored. A
SHUTDOWN while Booting and a START while Running are ignored (R507, R505, R506). -/
def Obligations.ShutdownTeardown : Prop :=
  ∀ (s : State) (r : Status) (c : StartConfig) (es : List Event), s.stage = .idle →
    (s.runState = .running → s.events = .shutdown r :: es →
      step s =
        .next { s with
          events := es, runState := .stopped, queue := [], out := .closeSource r :: .endOfStream :: s.out }) ∧
    (s.runState = .booting → s.events = .shutdown r :: es → step s = .next { s with events := es }) ∧
    (s.runState = .running → s.events = .start c r :: es → step s = .next { s with events := es })

/-- In Fatal and in Stopped events are dropped from the front and nothing else ever changes: no agent steps, no port acts (R35,
R549, R507). -/
def Obligations.HaltedForGood : Prop :=
  ∀ (s t : State), halted s = true → Reaches s t → ∃ n, t = { s with events := s.events.drop n }

/-! ## The Demodulator -/

/-- DEMOD.BLOCK's loop. Samples inside the settle window are dropped: S5 counts them, no dibit is decided, S6-S10 stay; that is
all of them where the window covers the rest of the block, and just the first S5 of them where it ends inside the block. A
sample outside the window goes, with its sample time, through carrier correction, discriminator, matched filter and symbol clock
in this order. After the last sample the run is delivered (R230, R231, R462). -/
def Obligations.SettleWindowDiscards : Prop :=
  ∀ s : State, s.runState = .running → s.stage = .sample →
    (s.todo.length ≤ s.discardLeft →
      ∃ t, steps (s.todo.length + 1) s = some t ∧ t.stage = .dibit ∧ t.todo = [] ∧
        t.discardLeft = s.discardLeft - s.todo.length ∧ t.run = s.run ∧ t.zPrev = s.zPrev ∧ t.mfHist = s.mfHist ∧
        t.yPrev = s.yPrev ∧ t.clk = s.clk ∧ t.period = s.period ∧ t.sync = s.sync ∧ t.win = s.win) ∧
    (0 < s.discardLeft → s.discardLeft < s.todo.length →
      steps s.discardLeft s =
        some { s with
          todo := s.todo.drop s.discardLeft, discardLeft := 0, idx := s.idx + s.discardLeft
          now := s.curSeq * s.cfg.blockLen + (s.idx + s.discardLeft - 1) }) ∧
    (∀ x rest taken z filterInput filtered, s.todo = x :: rest → s.discardLeft = 0 →
      taken = { s with todo := rest, now := s.curSeq * s.cfg.blockLen + s.idx, idx := s.idx + 1 } →
      z = carrierCorrect s.cfg x (s.curSeq * s.cfg.blockLen + s.idx) → filterInput = discriminate z taken →
      filtered = matchedFilter filterInput.1 filterInput.2 →
      step s = .next (timingStep filtered.1 filtered.2)) ∧
    (s.todo = [] → step s = .next { s with stage := .dibit })

/-- The datapath before the symbol clock. DEMOD.CARRIER is the identity at CFO_RESID_HZ = 0, and where the correction is a quarter
turn it turns the sample back by it (R232). DEMOD.DISCRIMINATE: the output lies in (-FS/2, FS/2]; a zero sample or a zero S6
gives 0; a phase step of exactly pi gives FS/2; a quarter turn gives FS/4 or -FS/4; S6 becomes the sample, and nothing else
changes (R233). DEMOD.MATCHED_FILTER puts its input in front of S7, drops what is beyond the filter's length, and answers the sum
of the products of taps and history, the newest sample with the first tap; nothing else changes (R234). -/
def Obligations.DiscriminatorRange : Prop :=
  ∀ (z : Cplx) (f : Rat) (now : Nat) (s : State), 0 < s.cfg.fs →
    (s.cfg.cfoResidHz = 0 → carrierCorrect s.cfg z now = z) ∧
    (∀ n : Int, s.cfg.cfoResidHz * (now : Rat) / (s.cfg.fs : Rat) = (n : Rat) + 1 / 4 →
      carrierCorrect s.cfg z now = ⟨z.im, -z.re⟩) ∧
    (discriminate z s).2 = { s with zPrev := z } ∧
    -((s.cfg.fs : Rat) / 2) < (discriminate z s).1 ∧ (discriminate z s).1 ≤ (s.cfg.fs : Rat) / 2 ∧
    (z = ⟨0, 0⟩ ∨ s.zPrev = ⟨0, 0⟩ → (discriminate z s).1 = 0) ∧
    (∀ k : Rat, 0 < k → s.zPrev ≠ ⟨0, 0⟩ → z = ⟨-k * s.zPrev.re, -k * s.zPrev.im⟩ →
      (discriminate z s).1 = (s.cfg.fs : Rat) / 2) ∧
    (∀ k : Rat, 0 < k → s.zPrev ≠ ⟨0, 0⟩ → z = ⟨-k * s.zPrev.im, k * s.zPrev.re⟩ →
      (discriminate z s).1 = (s.cfg.fs : Rat) / 4) ∧
    (∀ k : Rat, 0 < k → s.zPrev ≠ ⟨0, 0⟩ → z = ⟨k * s.zPrev.im, -k * s.zPrev.re⟩ →
      (discriminate z s).1 = -((s.cfg.fs : Rat) / 4)) ∧
    (matchedFilter f s).2 = { s with mfHist := f :: s.mfHist.take (s.cfg.mfTaps.length - 1) } ∧
    (matchedFilter f s).1 =
      ((List.range s.cfg.mfTaps.length).map fun k => s.cfg.mfTaps.getD k 0 * (f :: s.mfHist).getD k 0).sum

/-- The symbol clock. On each filtered sample: where it and S8 lie on different sides of zero, 0 counting as positive, S9 and S10
take the folded timing error times KP and KI, S10 clamped to SPS * (1 - DRIFT_MAX) and SPS * (1 + DRIFT_MAX); where S9 has reached
S10, S9 falls by S10 and the slicer's dibit joins the run with the sample's time; S8 becomes the sample (R235, R236). Between zero
crossings this decides exactly one dibit for every period that elapses, drops none and repeats none (R240 point 3). The
tolerance that the model states is exact: a frequency offset leaves the dibits of every stream as they are when and only when it
lies within the tolerance (R240 point 4; that the tolerance is 0 is the model's choice, log entry 28). Between zero crossings,
and for samples at the four deviations, every offset within the slicer's margin does so. -/
def Obligations.OneDibitPerPeriod : Prop :=
  (∀ (s : State) (y err folded clk period lo hi : Rat) (d : Dibit),
    err = s.clk + s.yPrev / (s.yPrev - y) - s.period / 2 →
    folded = (if s.period / 2 ≤ err then err - s.period else if err < -(s.period / 2) then err + s.period else err) →
    lo = ((s.cfg.fs / 4800 : Nat) : Rat) * (1 - s.cfg.driftMax) →
    hi = ((s.cfg.fs / 4800 : Nat) : Rat) * (1 + s.cfg.driftMax) →
    ((s.yPrev < 0 ∧ 0 ≤ y ∨ 0 ≤ s.yPrev ∧ y < 0) ∧ clk = s.clk + 1 - s.cfg.kp * folded ∧
        period = max lo (min (s.period + s.cfg.ki * folded) hi) ∨
      (s.yPrev < 0 ∧ y < 0 ∨ 0 ≤ s.yPrev ∧ 0 ≤ y) ∧ clk = s.clk + 1 ∧ period = s.period) →
    d =
      (if s.cfg.sliceThreshHz ≤ y then 1#2 else if 0 ≤ y then 0#2 else if -s.cfg.sliceThreshHz ≤ y then 2#2
        else 3#2) →
    timingStep y s =
      if period ≤ clk then
        { s with yPrev := y, clk := clk - period, period := period, run := s.run ++ [(d, s.now)] }
      else { s with yPrev := y, clk := clk, period := period }) ∧
  (∀ (s t : State) (ys : List Rat),
    (0 ≤ s.yPrev ∧ (∀ y ∈ ys, 0 ≤ y)) ∨ (s.yPrev < 0 ∧ ∀ y ∈ ys, y < 0) →
    0 ≤ s.clk → s.clk < s.period → 1 ≤ s.period → t = ys.foldl (fun u y => timingStep y u) s →
    ((t.run.length : Int) = (s.run.length : Int) + ((s.clk + (ys.length : Rat)) / s.period).floor) ∧
    t.period = s.period ∧ 0 ≤ t.clk ∧ t.clk < t.period ∧ s.run <+: t.run) ∧
  (∀ (c : CoreConfig) (offset : Rat), 0 < c.sliceThreshHz →
    (|offset| ≤ cfoTolerance ↔
      ∀ (s : State) (ys : List Rat), s.cfg = c → 0 ≤ s.clk → s.clk < s.period →
        (ys.foldl (fun v y => timingStep (y + offset) v) s).run = (ys.foldl (fun v y => timingStep y v) s).run)) ∧
  ∀ (s t u : State) (ys : List Rat) (offset : Rat), |offset| < sliceMargin s.cfg →
    (∀ y ∈ ys, ∃ d, y = deviation d) →
    (0 ≤ s.yPrev ∧ (∀ y ∈ ys, 0 ≤ y)) ∨ (s.yPrev < 0 ∧ ∀ y ∈ ys, y < 0) →
    t = ys.foldl (fun v y => timingStep y v) s → u = ys.foldl (fun v y => timingStep (y + offset) v) s →
    u.run = t.run ∧ u.clk = t.clk ∧ u.period = t.period

/-! ## The Frame Synchronizer -/

/-- The correlation of a window of 24 entries is the sum of the products of the entries' levels and those of the sync word, an
empty entry counting 0 (R280). It lies in [-216, 216], is at most 9 for every dibit received, and is 216 exactly for the sync
word (R280, R152). -/
def Obligations.CorrelationBounds : Prop :=
  ∀ w : List (Option Dibit), w.length = 24 →
    corr w =
      (List.zipWith
        (fun (e : Option Dibit) (k : Int) => match e with
          | none => 0
          | some 1#2 => 3 * k
          | some 0#2 => k
          | some 2#2 => -k
          | some _ => -3 * k)
        w [3, 3, 3, 3, 3, -3, 3, 3, -3, -3, 3, 3, -3, -3, -3, -3, 3, -3, 3, -3, -3, -3, -3, -3]).sum ∧
    -216 ≤ corr w ∧ corr w ≤ 216 ∧ corr w ≤ 9 * ((w.filter Option.isSome).length : Int) ∧
      (corr w = 216 ↔ w = syncDibits.map some)

/-- FS.SEARCH_STEP: each dibit in Searching drops the oldest entry of S13 and joins it; where the correlation of the new window is
above SYNC_THRESH the synchronizer locks at frame position 24 with an empty frame, else nothing more changes. So a sync-aligned
run, in which no earlier window exceeds SYNC_THRESH, locks on its 24th dibit, with the rest of the run still to come
(R280, R281, R300). -/
def Obligations.LockOnAlignedSync : Prop :=
  (∀ (s : State) (d : Dibit) (t : Nat) (rest : List (Dibit × Nat)), s.runState = .running → s.stage = .dibit →
    s.sync = .searching → s.run = (d, t) :: rest →
    (s.cfg.syncThresh < corr (s.win.drop 1 ++ [some d]) →
      step s =
        .next { s with
          run := rest, now := t, win := s.win.drop 1 ++ [some d], sync := .locked 24
          fbits := [], curLen := none, lastLen := none, cls := none
          failCount := 0, frameFailed := false, tsbkN := 0, tsduEnd := none, pduHdr := none }) ∧
    (corr (s.win.drop 1 ++ [some d]) ≤ s.cfg.syncThresh →
      step s = .next { s with run := rest, now := t, win := s.win.drop 1 ++ [some d] })) ∧
  ∀ (s : State) (times : List Nat) (rest : List (Dibit × Nat)), s.runState = .running → s.stage = .dibit →
    s.sync = .searching → s.win.length = 24 → s.cfg.syncThresh < 216 → times.length = 24 →
    s.run = syncDibits.zip times ++ rest →
    (∀ k < 24, corr (s.win.drop k ++ (syncDibits.take k).map some) ≤ s.cfg.syncThresh) →
    ∃ t, steps 24 s = some t ∧ t.sync = .locked 24 ∧ t.fbits = [] ∧ t.run = rest ∧ t.stage = .dibit ∧
      t.failCount = 0 ∧ t.lastLen = none

/-- FS.LOCKED_STEP: a status dibit and a dibit of the sync field are dropped without being read; a data dibit adds its two bits,
the first-sent first (R290, R291, R292). -/
def Obligations.LockedDibit : Prop :=
  ∀ (s : State) (d : Dibit) (t pos : Nat) (rest : List (Dibit × Nat)), s.runState = .running → s.stage = .dibit →
    s.sync = .locked pos → s.run = (d, t) :: rest →
    (pos % 36 = 35 ∨ pos < 24 → step s = .next { s with run := rest, now := t, stage := .advance }) ∧
    (pos % 36 ≠ 35 → 24 ≤ pos →
      step s =
        .next { s with
          run := rest, now := t, fbits := s.fbits ++ [d.getLsbD 1, d.getLsbD 0], stage := .frame })

/-- FS.NID: at the 64th bit, a NID that decodes to one of the seven DUIDs takes up its frame, a TDU with its Terminator; one that does
not decode or has a reserved DUID raises E1 and makes no unit: the frame takes the prior length as Unknown, or
Searching is forced where there is none. At a data dibit before the 64th bit, and in an Unknown frame, the dibit only ends: the
bits are kept, no unit is made (R290, R293, R540, R180). -/
def Obligations.NidStep : Prop :=
  ∀ s : State, s.runState = .running → s.stage = .frame →
    (s.cls = none ∧ s.fbits.length ≠ 64 ∨ s.cls = some .unknown → step s = .next { s with stage := .advance }) ∧
    (s.cls = none → s.fbits.length = 64 → s.unit = none →
      (∀ nac duid c len, nidDecode (bitsToBV 64 s.fbits) = some (nac, duid) →
        (duid, c, len) ∈
          [(0x0#4, FrameClass.hdu, some 396), (0x5#4, .ldu1, some 864), (0x7#4, .tsdu, s.curLen),
            (0xA#4, .ldu2, some 864), (0xC#4, .pdu, s.curLen), (0xF#4, .tdulc, some 216)] →
        step s = .next { s with cls := some c, nacCur := nac, curLen := len, stage := .advance }) ∧
      (∀ nac, nidDecode (bitsToBV 64 s.fbits) = some (nac, 0x3#4) →
        step s =
          .next { s with
            cls := some .tdu, nacCur := nac, curLen := some 72
            unit := some ⟨.terminator, true, s.now, nac, some .tdu⟩, stage := .tsm }) ∧
      (nidDecode (bitsToBV 64 s.fbits) = none ∨
          (∃ nac duid, nidDecode (bitsToBV 64 s.fbits) = some (nac, duid) ∧
            duid ∉ [0x0#4, 0x3#4, 0x5#4, 0x7#4, 0xA#4, 0xC#4, 0xF#4]) →
        (∀ len, s.lastLen = some len →
          step s =
            .next { s with
              raised := .e1 s.now :: s.raised, frameFailed := true, curLen := some len, cls := some .unknown
              stage := .advance }) ∧
        (s.lastLen = none →
          step s =
            .next { s with
              raised := .e1 s.now :: s.raised
              sync := .searching, win := List.replicate 24 none, fbits := [], curLen := none, lastLen := none
              cls := none, failCount := 0, frameFailed := false, tsbkN := 0, tsduEnd := none, pduHdr := none
              stage := .advance })))

/-- FS.FRAME_END at position L - 1: the failure streak counts or clears, the length becomes the prior length, the next frame begins at
its sync; a streak of FAIL_LIMIT failed frames raises E1 and forces Searching. At every other position the
position advances by one. Where the dibit's own delivery forced Searching, the dibit ends there: no position and no lock
(R297, R298, R290, R602). -/
def Obligations.FrameEnd : Prop :=
  ∀ s : State, s.runState = .running → s.stage = .advance →
    (s.sync = .searching → step s = .next { s with stage := .dibit }) ∧
    ∀ pos streak : Nat, s.sync = .locked pos → streak = (if s.frameFailed then s.failCount + 1 else 0) →
      (s.curLen = some (pos + 1) → streak < s.cfg.failLimit →
        step s =
          .next { s with
            failCount := streak, lastLen := some (pos + 1), fbits := [], curLen := none, cls := none
            frameFailed := false, tsbkN := 0, tsduEnd := none, pduHdr := none, sync := .locked 0, stage := .dibit }) ∧
      (s.curLen = some (pos + 1) → s.cfg.failLimit ≤ streak →
        step s =
          .next { s with
            sync := .searching, win := List.replicate 24 none, fbits := [], curLen := none, lastLen := none
            cls := none, failCount := 0, frameFailed := false, tsbkN := 0, tsduEnd := none, pduHdr := none
            raised := .e1 s.now :: s.raised, stage := .dibit }) ∧
      (s.curLen ≠ some (pos + 1) → step s = .next { s with sync := .locked (pos + 1), stage := .dibit })

/-- The Frame Synchronizer reads no Trunking State Machine state: with another role, another ChannelMap and another control frequency,
every one of its steps does the same, and leaves them as they are (R299). -/
def Obligations.SyncIgnoresTrunking : Prop :=
  ∀ (s : State) (role : Role) (chanMap : Vector (Option BandEntry) 16) (controlFreq : Nat), s.runState = .running →
    s.stage = .dibit ∨ s.stage = .frame ∨ s.stage = .advance →
    ∃ t, step s = .next t ∧
      step (withTrunking role chanMap controlFreq s) = .next (withTrunking role chanMap controlFreq t)

/-! ## The arbiter, the tuner and the router -/

/-- A unit at the arbiter that is no TSBK, or is invalid: an invalid unit changes no Trunking State Machine state and yields no command;
a valid Terminator in TrafficChannel role returns to ControlChannel with a command to the control frequency; every
other valid unit only refreshes activity in TrafficChannel role; in ControlChannel role none has an effect (R411,
R413, R414, R416). -/
def Obligations.UnitsAtTheArbiter : Prop :=
  ∀ (s : State) (du : DataUnit), s.runState = .running → s.stage = .tsm → s.unit = some du →
    (du.valid = false → step s = .next { s with cmd := none, stage := .tune .delivery }) ∧
    (du.valid = true → du.kind ≠ .trunkingSignalingBlock → s.role = .controlChannel →
      step s = .next { s with cmd := none, stage := .tune .delivery }) ∧
    (∀ f tg la, du.valid = true → du.kind = .terminator → s.role = .trafficChannel f tg la →
      step s =
        .next { s with role := .controlChannel, cmd := some ⟨s.controlFreq, .terminate⟩, stage := .tune .delivery }) ∧
    (∀ f tg la, du.valid = true → du.kind ≠ .trunkingSignalingBlock → du.kind ≠ .terminator →
      s.role = .trafficChannel f tg la →
      step s = .next { s with role := .trafficChannel f tg du.time, cmd := none, stage := .tune .delivery })

/-- TUNER.IDEMPOTENT: a command to the tuned frequency sends no word, opens no window and keeps the lock, the position and the rest of
the run; it is consumed (R461, R460). Without a command the tuner changes nothing. Either way the Decode step goes on: after
the timeout tick to the samples, after a delivery to the Voice Router (R230, R401). -/
def Obligations.RetuneIdempotent : Prop :=
  ∀ (s : State) (source : TuneFrom) (next : Stage), s.runState = .running → s.stage = .tune source →
    source = .tick ∧ next = .sample ∨ source = .delivery ∧ next = .route →
    (∀ c, s.cmd = some c → c.targetFrequency = s.tunedFreq → step s = .next { s with cmd := none, stage := next }) ∧
    (s.cmd = none → step s = .next { s with stage := next })

/-- TUNER.APPLY and TUNER.FAIL: a command to another frequency sends SET_FREQ. On OK the frequency is tuned, the settle window opens
at SETTLE_SAMPLES whatever it was, Searching is forced, the Demodulator is reset and the rest of the run is dropped.
On FAIL the block stops with E6, with the old frequency and no window opened (R462, R238). That Fatal carries the info of E6,
the frequency, is the model's choice: log entry 27. -/
def Obligations.RetuneApplied : Prop :=
  ∀ (s : State) (source : TuneFrom) (c : RetuneCommand) (rest : List Status) (w : Word64), s.runState = .running →
    s.stage = .tune source → s.cmd = some c → c.targetFrequency ≠ s.tunedFreq → c.targetFrequency < 2 ^ 56 →
    w = 0x01#8 ++ BitVec.ofNat 56 c.targetFrequency →
    (s.replies = .ok :: rest →
      steps 3 s =
        some { s with
          replies := rest, out := .command w .ok :: s.out, cmdWord := w
          tunedFreq := c.targetFrequency, discardLeft := s.cfg.settleSamples
          sync := .searching, win := List.replicate 24 none, fbits := [], curLen := none, lastLen := none, cls := none
          failCount := 0, frameFailed := false, tsbkN := 0, tsduEnd := none, pduHdr := none
          zPrev := ⟨1, 0⟩, mfHist := List.replicate s.cfg.mfTaps.length 0, yPrev := 0, clk := 0
          period := (spsOf s.cfg : Rat)
          run := [], cmd := none
          stage := match source with
            | .tick => .sample
            | .delivery => .route }) ∧
    (s.replies = .fail :: rest →
      ∃ t, steps 2 s = some t ∧ t.runState = .fatal (.e6 c.targetFrequency) ∧ t.tunedFreq = s.tunedFreq ∧
        t.discardLeft = s.discardLeft ∧ t.role = s.role ∧ t.out = .command w .fail :: s.out)

/-- ROUTER.FORWARD and ROUTER.DROP: a valid voice unit on the followed frequency sends its frames and time on P_VOICE; every other
unit is dropped; a unit ends here either way (R480, R482, R171). -/
def Obligations.VoiceForwardedOrDropped : Prop :=
  ∀ (s : State) (du : DataUnit), s.runState = .running → s.stage = .route → s.unit = some du →
    (∀ frames lc tg la, du.kind = .logicalLinkUnit1 → du.valid = true → du.body = some (.ldu1 frames lc) →
      s.role = .trafficChannel s.tunedFreq tg la →
      step s = .next { s with unit := none, out := .voice ⟨.ldu1, frames, du.time⟩ :: s.out, stage := .advance }) ∧
    (∀ frames es tg la, du.kind = .logicalLinkUnit2 → du.valid = true → du.body = some (.ldu2 frames es) →
      s.role = .trafficChannel s.tunedFreq tg la →
      step s = .next { s with unit := none, out := .voice ⟨.ldu2, frames, du.time⟩ :: s.out, stage := .advance }) ∧
    (¬((du.kind = .logicalLinkUnit1 ∨ du.kind = .logicalLinkUnit2) ∧ du.valid = true ∧
        ∃ tg la, s.role = .trafficChannel s.tunedFreq tg la) →
      step s = .next { s with unit := none, stage := .advance })

/-! ## The whole machine -/

/-- A step sends at most one voice record, and only for a valid voice unit at the router, in TrafficChannel role, with the role's
frequency tuned, at the unit's time (R480, R482, R481). -/
def Obligations.VoiceOnlyOnFollowedFrequency : Prop :=
  ∀ s t : State, step s = .next t →
    voiceSent t = voiceSent s ∨
      ∃ du tg la rec, s.runState = .running ∧ s.stage = .route ∧ s.unit = some du ∧ du.valid = true ∧
        (du.kind = .logicalLinkUnit1 ∨ du.kind = .logicalLinkUnit2) ∧ s.role = .trafficChannel s.tunedFreq tg la ∧
        rec.time = du.time ∧ t.unit = none ∧ voiceSent t = voiceSent s ++ [rec]

/-- S1 changes only as R553 lists: to Running at the end of boot, to Fatal by a fatal error that the step raises, to Stopped by a
SHUTDOWN of a running block; Fatal and Stopped are never left (R553, R35, R549). -/
def Obligations.RunStateTransitions : Prop :=
  ∀ s t : State, step s = .next t → t.runState ≠ s.runState →
    halted s = false ∧
    ((s.runState = .booting ∧ s.stage = .sent .bootFreq ∧ t.runState = .running) ∨
      (∃ e, e.fatal = true ∧ t.runState = .fatal e ∧ t.raised = e :: s.raised) ∨
      (s.runState = .running ∧ s.stage = .idle ∧ t.runState = .stopped ∧
        ∃ r es, s.events = .shutdown r :: es))

/-- S22 changes only as R553 lists: at a block start by the timeout; at the arbiter, for a valid unit, by its refresh, by a
Terminator, or by a grant. So loss of lock, failed frames and dropped blocks never change the role (R553, R415,
R410-R413). -/
def Obligations.RoleTransitions : Prop :=
  ∀ s t : State, step s = .next t → t.role ≠ s.role →
    s.runState = .running ∧
    ((s.stage = .idle ∧ t.role = .controlChannel ∧
        ∃ f tg la blk rest, s.role = .trafficChannel f tg la ∧ s.queue = blk :: rest ∧
          la + s.cfg.timeoutSamples ≤ blk.seq * s.cfg.blockLen) ∨
      (s.stage = .tsm ∧ ∃ du, s.unit = some du ∧ du.valid = true ∧
        ((∃ f tg la, s.role = .trafficChannel f tg la ∧ t.role = .trafficChannel f tg du.time) ∨
          (du.kind = .terminator ∧ t.role = .controlChannel) ∨
          (du.kind = .trunkingSignalingBlock ∧ ∃ f tg, t.role = .trafficChannel f tg du.time))))

/-- A ChannelMap entry changes only by a TSBK at the arbiter in ControlChannel role, and no entry is ever removed (R61, R405, R406,
R409). -/
def Obligations.ChannelMapOnlyGrows : Prop :=
  ∀ (s t : State) (b : BitVec 4), step s = .next t →
    mapRead b t = mapRead b s ∨
      (s.runState = .running ∧ s.stage = .tsm ∧ s.role = .controlChannel ∧ mapRead b t ≠ none ∧
        ∃ i, fetch s = .instr i ∧ idenBand i = some b)

/-- The configuration is loaded by START while Booting, and nothing writes it otherwise (R60, R506). -/
def Obligations.ConfigurationFixed : Prop :=
  ∀ s t : State, step s = .next t →
    t.cfg = s.cfg ∨
      (s.runState = .booting ∧ ∃ c r es, s.events = .start c r :: es ∧ t.cfg = loadConfig c)

/-- A step sends at most one word on P_CMD: in a state whose word is the one due, that is the boot word in its place or SET_FREQ to
exactly the frequency of the RetuneCommand, with its reply taken (R464, R501, R504). -/
def Obligations.CommandsInOrder : Prop :=
  ∀ s t : State, CommandOk s → step s = .next t →
    sentWords t = sentWords s ∨
      ∃ r, s.stage = .send r ∧ sentWords t = sentWords s ++ [s.cmdWord] ∧ t.replies.length + 1 = s.replies.length ∧
        ((r = .bootPpm ∧ s.cmdWord = setPpmWord s.cfg.ppm) ∨ (r = .bootGain ∧ s.cmdWord = setGainWord s.cfg.gain) ∨
          (r = .bootFreq ∧ s.cmdWord.extractLsb' 56 8 = 0x01#8 ∧
            (s.cmdWord.extractLsb' 0 56).toNat = s.cfg.initFreq) ∨
          (∃ source c, r = .retune source ∧ s.cmd = some c ∧ s.cmdWord.extractLsb' 56 8 = 0x01#8 ∧
            (s.cmdWord.extractLsb' 0 56).toNat = c.targetFrequency))

/-- The machine never refuses a step where the word on P_CMD is the one due, and faults only on a read that answers no SampleBlock
(the model's own stops, log entries 15 and 16; R170, R36). -/
def Obligations.StopsOnlyOnMalformedRead : Prop :=
  ∀ s : State, CommandOk s →
    (∃ t, step s = .next t) ∨
      (step s = .fault .notASampleBlock ∧ s.runState = .running ∧
        ∃ samples es, s.events = .ingest (.ok samples) :: es ∧ samples.length ≠ s.cfg.blockLen)

/-- Every Decode step ends: with two replies at hand, a running block that takes its head block is idle again, or has stopped with
E6, after a number of steps linear in the block's length. So at most two retunes happen in it (R114, R230, R238, R460). That
Fatal carries the info of E6 is the model's choice: log entry 27. -/
def Obligations.DecodeStepCompletes : Prop :=
  ∀ (s : State) (blk : SampleBlock) (rest : List SampleBlock) (es : List Event), s.runState = .running →
    s.stage = .idle → s.unit = none → s.events = .decode :: es → s.queue = blk :: rest → 2 ≤ s.replies.length →
    ∃ n t, n ≤ 9 * blk.samples.length + 8 ∧ steps n s = some t ∧ t.events = es ∧ t.queue = rest ∧
      ((t.runState = .running ∧ t.stage = .idle ∧ t.run = [] ∧ t.todo = [] ∧ s.replies.length ≤ t.replies.length + 2) ∨
        ∃ f, t.runState = .fatal (.e6 f))

/-! ## Invariants -/

/-- The invariants hold at reset. -/
def Obligations.InvariantsAtReset : Prop :=
  QueueOk State.reset ∧ DemodOk State.reset ∧ FrameOk State.reset ∧ UnitsOk State.reset ∧ TunedToRole State.reset ∧
    FollowsMonitored State.reset ∧ CommandOk State.reset ∧ ClockOk State.reset

/-- Every step keeps the queue within QUEUE_CAP, in order, with whole blocks, between the last block taken and the next one read; and no
sequence position moves backwards (R36, R112, R113, R33). -/
def Obligations.QueueKept : Prop :=
  ∀ s t : State, QueueOk s → step s = .next t →
    QueueOk t ∧ s.nextSeq ≤ t.nextSeq ∧ ∀ p, s.lastSeq = some p → ∃ q, t.lastSeq = some q ∧ p ≤ q

/-- Every step keeps the Demodulator sound: a legal configuration, a history of the filter's length, a clock that is not negative, a
period inside its clamp (R38, R235, R547). -/
def Obligations.DemodulatorKept : Prop :=
  ∀ s t : State, DemodOk s → step s = .next t → DemodOk t

/-- Every step keeps the frame position and the bits held in step, and Searching empty (R291, R289, R290, R293). -/
def Obligations.FramePositionKept : Prop :=
  ∀ s t : State, FrameOk s → step s = .next t → FrameOk t

/-- Every step keeps every DataUnit well formed: no invalid unit ever has a body, and no voice record has other than nine frames
(R161, R342, R355, R171). -/
def Obligations.UnitsKept : Prop :=
  ∀ s t : State, UnitsOk s → step s = .next t → UnitsOk t

/-- Every step keeps the tuned frequency with the role (R404, R410, R411, R412, R462). -/
def Obligations.TuningFollowsRole : Prop :=
  ∀ s t : State, TunedToRole s → step s = .next t → TunedToRole t

/-- Every step keeps the followed talkgroup a monitored one (R402, R404, R412). -/
def Obligations.OnlyMonitoredFollowed : Prop :=
  ∀ s t : State, FollowsMonitored s → step s = .next t → FollowsMonitored t

/-- Every step keeps the word on P_CMD the one due, and every frequency below 2^56 (R464, R501, R109, R547). -/
def Obligations.CommandsKept : Prop :=
  ∀ s t : State, CommandOk s → step s = .next t → CommandOk t

/-- Every step keeps all times before the next block's start; so at a timeout tick the last activity always lies before the tick
(R34, R410). -/
def Obligations.ClockKept : Prop :=
  (∀ s t : State, QueueOk s → ClockOk s → step s = .next t → ClockOk t) ∧
  ∀ (s : State) (blk : SampleBlock) (rest : List SampleBlock) (f la : Nat) (tg : BitVec 16), QueueOk s → ClockOk s →
    s.queue = blk :: rest → s.role = .trafficChannel f tg la → la < blk.seq * s.cfg.blockLen
end

