-- ==== Sys2Proof/Laws/State.lean ====
section
/-! SUPPORT. One lemma per field of State per shared update: what the field is after it. All are true by definition. -/

namespace Sys2Proof.Machine

/-! ## raise -/

@[simp] theorem raise_runState (e : Error) (s : State) :
    (raise e s).runState = if e.fatal then .fatal e else s.runState := rfl
@[simp] theorem raise_nextSeq (e : Error) (s : State) : (raise e s).nextSeq = s.nextSeq := rfl
@[simp] theorem raise_queue (e : Error) (s : State) : (raise e s).queue = s.queue := rfl
@[simp] theorem raise_lastSeq (e : Error) (s : State) : (raise e s).lastSeq = s.lastSeq := rfl
@[simp] theorem raise_discardLeft (e : Error) (s : State) : (raise e s).discardLeft = s.discardLeft := rfl
@[simp] theorem raise_zPrev (e : Error) (s : State) : (raise e s).zPrev = s.zPrev := rfl
@[simp] theorem raise_mfHist (e : Error) (s : State) : (raise e s).mfHist = s.mfHist := rfl
@[simp] theorem raise_yPrev (e : Error) (s : State) : (raise e s).yPrev = s.yPrev := rfl
@[simp] theorem raise_clk (e : Error) (s : State) : (raise e s).clk = s.clk := rfl
@[simp] theorem raise_period (e : Error) (s : State) : (raise e s).period = s.period := rfl
@[simp] theorem raise_nacCur (e : Error) (s : State) : (raise e s).nacCur = s.nacCur := rfl
@[simp] theorem raise_sync (e : Error) (s : State) : (raise e s).sync = s.sync := rfl
@[simp] theorem raise_win (e : Error) (s : State) : (raise e s).win = s.win := rfl
@[simp] theorem raise_fbits (e : Error) (s : State) : (raise e s).fbits = s.fbits := rfl
@[simp] theorem raise_curLen (e : Error) (s : State) : (raise e s).curLen = s.curLen := rfl
@[simp] theorem raise_lastLen (e : Error) (s : State) : (raise e s).lastLen = s.lastLen := rfl
@[simp] theorem raise_cls (e : Error) (s : State) : (raise e s).cls = s.cls := rfl
@[simp] theorem raise_failCount (e : Error) (s : State) : (raise e s).failCount = s.failCount := rfl
@[simp] theorem raise_frameFailed (e : Error) (s : State) : (raise e s).frameFailed = s.frameFailed := rfl
@[simp] theorem raise_tsbkN (e : Error) (s : State) : (raise e s).tsbkN = s.tsbkN := rfl
@[simp] theorem raise_tsduEnd (e : Error) (s : State) : (raise e s).tsduEnd = s.tsduEnd := rfl
@[simp] theorem raise_role (e : Error) (s : State) : (raise e s).role = s.role := rfl
@[simp] theorem raise_chanMap (e : Error) (s : State) : (raise e s).chanMap = s.chanMap := rfl
@[simp] theorem raise_controlFreq (e : Error) (s : State) : (raise e s).controlFreq = s.controlFreq := rfl
@[simp] theorem raise_tunedFreq (e : Error) (s : State) : (raise e s).tunedFreq = s.tunedFreq := rfl
@[simp] theorem raise_pduHdr (e : Error) (s : State) : (raise e s).pduHdr = s.pduHdr := rfl
@[simp] theorem raise_cfg (e : Error) (s : State) : (raise e s).cfg = s.cfg := rfl
@[simp] theorem raise_stage (e : Error) (s : State) : (raise e s).stage = s.stage := rfl
@[simp] theorem raise_curSeq (e : Error) (s : State) : (raise e s).curSeq = s.curSeq := rfl
@[simp] theorem raise_idx (e : Error) (s : State) : (raise e s).idx = s.idx := rfl
@[simp] theorem raise_todo (e : Error) (s : State) : (raise e s).todo = s.todo := rfl
@[simp] theorem raise_now (e : Error) (s : State) : (raise e s).now = s.now := rfl
@[simp] theorem raise_run (e : Error) (s : State) : (raise e s).run = s.run := rfl
@[simp] theorem raise_unit (e : Error) (s : State) : (raise e s).unit = s.unit := rfl
@[simp] theorem raise_cmd (e : Error) (s : State) : (raise e s).cmd = s.cmd := rfl
@[simp] theorem raise_cmdWord (e : Error) (s : State) : (raise e s).cmdWord = s.cmdWord := rfl
@[simp] theorem raise_events (e : Error) (s : State) : (raise e s).events = s.events := rfl
@[simp] theorem raise_replies (e : Error) (s : State) : (raise e s).replies = s.replies := rfl
@[simp] theorem raise_out (e : Error) (s : State) : (raise e s).out = s.out := rfl
@[simp] theorem raise_raised (e : Error) (s : State) : (raise e s).raised = e :: s.raised := rfl

/-! ## forceSearch -/

@[simp] theorem forceSearch_runState (s : State) : (forceSearch s).runState = s.runState := rfl
@[simp] theorem forceSearch_nextSeq (s : State) : (forceSearch s).nextSeq = s.nextSeq := rfl
@[simp] theorem forceSearch_queue (s : State) : (forceSearch s).queue = s.queue := rfl
@[simp] theorem forceSearch_lastSeq (s : State) : (forceSearch s).lastSeq = s.lastSeq := rfl
@[simp] theorem forceSearch_discardLeft (s : State) : (forceSearch s).discardLeft = s.discardLeft := rfl
@[simp] theorem forceSearch_zPrev (s : State) : (forceSearch s).zPrev = s.zPrev := rfl
@[simp] theorem forceSearch_mfHist (s : State) : (forceSearch s).mfHist = s.mfHist := rfl
@[simp] theorem forceSearch_yPrev (s : State) : (forceSearch s).yPrev = s.yPrev := rfl
@[simp] theorem forceSearch_clk (s : State) : (forceSearch s).clk = s.clk := rfl
@[simp] theorem forceSearch_period (s : State) : (forceSearch s).period = s.period := rfl
@[simp] theorem forceSearch_nacCur (s : State) : (forceSearch s).nacCur = s.nacCur := rfl
@[simp] theorem forceSearch_sync (s : State) : (forceSearch s).sync = .searching := rfl
@[simp] theorem forceSearch_win (s : State) : (forceSearch s).win = emptyWindow := rfl
@[simp] theorem forceSearch_fbits (s : State) : (forceSearch s).fbits = [] := rfl
@[simp] theorem forceSearch_curLen (s : State) : (forceSearch s).curLen = none := rfl
@[simp] theorem forceSearch_lastLen (s : State) : (forceSearch s).lastLen = none := rfl
@[simp] theorem forceSearch_cls (s : State) : (forceSearch s).cls = none := rfl
@[simp] theorem forceSearch_failCount (s : State) : (forceSearch s).failCount = 0 := rfl
@[simp] theorem forceSearch_frameFailed (s : State) : (forceSearch s).frameFailed = false := rfl
@[simp] theorem forceSearch_tsbkN (s : State) : (forceSearch s).tsbkN = 0 := rfl
@[simp] theorem forceSearch_tsduEnd (s : State) : (forceSearch s).tsduEnd = none := rfl
@[simp] theorem forceSearch_role (s : State) : (forceSearch s).role = s.role := rfl
@[simp] theorem forceSearch_chanMap (s : State) : (forceSearch s).chanMap = s.chanMap := rfl
@[simp] theorem forceSearch_controlFreq (s : State) : (forceSearch s).controlFreq = s.controlFreq := rfl
@[simp] theorem forceSearch_tunedFreq (s : State) : (forceSearch s).tunedFreq = s.tunedFreq := rfl
@[simp] theorem forceSearch_pduHdr (s : State) : (forceSearch s).pduHdr = none := rfl
@[simp] theorem forceSearch_cfg (s : State) : (forceSearch s).cfg = s.cfg := rfl
@[simp] theorem forceSearch_stage (s : State) : (forceSearch s).stage = s.stage := rfl
@[simp] theorem forceSearch_curSeq (s : State) : (forceSearch s).curSeq = s.curSeq := rfl
@[simp] theorem forceSearch_idx (s : State) : (forceSearch s).idx = s.idx := rfl
@[simp] theorem forceSearch_todo (s : State) : (forceSearch s).todo = s.todo := rfl
@[simp] theorem forceSearch_now (s : State) : (forceSearch s).now = s.now := rfl
@[simp] theorem forceSearch_run (s : State) : (forceSearch s).run = s.run := rfl
@[simp] theorem forceSearch_unit (s : State) : (forceSearch s).unit = s.unit := rfl
@[simp] theorem forceSearch_cmd (s : State) : (forceSearch s).cmd = s.cmd := rfl
@[simp] theorem forceSearch_cmdWord (s : State) : (forceSearch s).cmdWord = s.cmdWord := rfl
@[simp] theorem forceSearch_events (s : State) : (forceSearch s).events = s.events := rfl
@[simp] theorem forceSearch_replies (s : State) : (forceSearch s).replies = s.replies := rfl
@[simp] theorem forceSearch_out (s : State) : (forceSearch s).out = s.out := rfl
@[simp] theorem forceSearch_raised (s : State) : (forceSearch s).raised = s.raised := rfl

/-! ## demodReset -/

@[simp] theorem demodReset_runState (s : State) : (demodReset s).runState = s.runState := rfl
@[simp] theorem demodReset_nextSeq (s : State) : (demodReset s).nextSeq = s.nextSeq := rfl
@[simp] theorem demodReset_queue (s : State) : (demodReset s).queue = s.queue := rfl
@[simp] theorem demodReset_lastSeq (s : State) : (demodReset s).lastSeq = s.lastSeq := rfl
@[simp] theorem demodReset_discardLeft (s : State) : (demodReset s).discardLeft = s.discardLeft := rfl
@[simp] theorem demodReset_zPrev (s : State) : (demodReset s).zPrev = ⟨1, 0⟩ := rfl
@[simp] theorem demodReset_mfHist (s : State) : (demodReset s).mfHist = List.replicate s.cfg.mfTaps.length 0 := rfl
@[simp] theorem demodReset_yPrev (s : State) : (demodReset s).yPrev = 0 := rfl
@[simp] theorem demodReset_clk (s : State) : (demodReset s).clk = 0 := rfl
@[simp] theorem demodReset_period (s : State) : (demodReset s).period = (spsOf s.cfg : Rat) := rfl
@[simp] theorem demodReset_nacCur (s : State) : (demodReset s).nacCur = s.nacCur := rfl
@[simp] theorem demodReset_sync (s : State) : (demodReset s).sync = s.sync := rfl
@[simp] theorem demodReset_win (s : State) : (demodReset s).win = s.win := rfl
@[simp] theorem demodReset_fbits (s : State) : (demodReset s).fbits = s.fbits := rfl
@[simp] theorem demodReset_curLen (s : State) : (demodReset s).curLen = s.curLen := rfl
@[simp] theorem demodReset_lastLen (s : State) : (demodReset s).lastLen = s.lastLen := rfl
@[simp] theorem demodReset_cls (s : State) : (demodReset s).cls = s.cls := rfl
@[simp] theorem demodReset_failCount (s : State) : (demodReset s).failCount = s.failCount := rfl
@[simp] theorem demodReset_frameFailed (s : State) : (demodReset s).frameFailed = s.frameFailed := rfl
@[simp] theorem demodReset_tsbkN (s : State) : (demodReset s).tsbkN = s.tsbkN := rfl
@[simp] theorem demodReset_tsduEnd (s : State) : (demodReset s).tsduEnd = s.tsduEnd := rfl
@[simp] theorem demodReset_role (s : State) : (demodReset s).role = s.role := rfl
@[simp] theorem demodReset_chanMap (s : State) : (demodReset s).chanMap = s.chanMap := rfl
@[simp] theorem demodReset_controlFreq (s : State) : (demodReset s).controlFreq = s.controlFreq := rfl
@[simp] theorem demodReset_tunedFreq (s : State) : (demodReset s).tunedFreq = s.tunedFreq := rfl
@[simp] theorem demodReset_pduHdr (s : State) : (demodReset s).pduHdr = s.pduHdr := rfl
@[simp] theorem demodReset_cfg (s : State) : (demodReset s).cfg = s.cfg := rfl
@[simp] theorem demodReset_stage (s : State) : (demodReset s).stage = s.stage := rfl
@[simp] theorem demodReset_curSeq (s : State) : (demodReset s).curSeq = s.curSeq := rfl
@[simp] theorem demodReset_idx (s : State) : (demodReset s).idx = s.idx := rfl
@[simp] theorem demodReset_todo (s : State) : (demodReset s).todo = s.todo := rfl
@[simp] theorem demodReset_now (s : State) : (demodReset s).now = s.now := rfl
@[simp] theorem demodReset_run (s : State) : (demodReset s).run = s.run := rfl
@[simp] theorem demodReset_unit (s : State) : (demodReset s).unit = s.unit := rfl
@[simp] theorem demodReset_cmd (s : State) : (demodReset s).cmd = s.cmd := rfl
@[simp] theorem demodReset_cmdWord (s : State) : (demodReset s).cmdWord = s.cmdWord := rfl
@[simp] theorem demodReset_events (s : State) : (demodReset s).events = s.events := rfl
@[simp] theorem demodReset_replies (s : State) : (demodReset s).replies = s.replies := rfl
@[simp] theorem demodReset_out (s : State) : (demodReset s).out = s.out := rfl
@[simp] theorem demodReset_raised (s : State) : (demodReset s).raised = s.raised := rfl

/-! ## mapWrite -/

@[simp] theorem mapWrite_runState (b : BitVec 4) (e : BandEntry) (s : State) :
    (mapWrite b e s).runState = s.runState := rfl
@[simp] theorem mapWrite_nextSeq (b : BitVec 4) (e : BandEntry) (s : State) :
    (mapWrite b e s).nextSeq = s.nextSeq := rfl
@[simp] theorem mapWrite_queue (b : BitVec 4) (e : BandEntry) (s : State) : (mapWrite b e s).queue = s.queue := rfl
@[simp] theorem mapWrite_lastSeq (b : BitVec 4) (e : BandEntry) (s : State) :
    (mapWrite b e s).lastSeq = s.lastSeq := rfl
@[simp] theorem mapWrite_discardLeft (b : BitVec 4) (e : BandEntry) (s : State) :
    (mapWrite b e s).discardLeft = s.discardLeft := rfl
@[simp] theorem mapWrite_zPrev (b : BitVec 4) (e : BandEntry) (s : State) : (mapWrite b e s).zPrev = s.zPrev := rfl
@[simp] theorem mapWrite_mfHist (b : BitVec 4) (e : BandEntry) (s : State) : (mapWrite b e s).mfHist = s.mfHist := rfl
@[simp] theorem mapWrite_yPrev (b : BitVec 4) (e : BandEntry) (s : State) : (mapWrite b e s).yPrev = s.yPrev := rfl
@[simp] theorem mapWrite_clk (b : BitVec 4) (e : BandEntry) (s : State) : (mapWrite b e s).clk = s.clk := rfl
@[simp] theorem mapWrite_period (b : BitVec 4) (e : BandEntry) (s : State) : (mapWrite b e s).period = s.period := rfl
@[simp] theorem mapWrite_nacCur (b : BitVec 4) (e : BandEntry) (s : State) : (mapWrite b e s).nacCur = s.nacCur := rfl
@[simp] theorem mapWrite_sync (b : BitVec 4) (e : BandEntry) (s : State) : (mapWrite b e s).sync = s.sync := rfl
@[simp] theorem mapWrite_win (b : BitVec 4) (e : BandEntry) (s : State) : (mapWrite b e s).win = s.win := rfl
@[simp] theorem mapWrite_fbits (b : BitVec 4) (e : BandEntry) (s : State) : (mapWrite b e s).fbits = s.fbits := rfl
@[simp] theorem mapWrite_curLen (b : BitVec 4) (e : BandEntry) (s : State) : (mapWrite b e s).curLen = s.curLen := rfl
@[simp] theorem mapWrite_lastLen (b : BitVec 4) (e : BandEntry) (s : State) :
    (mapWrite b e s).lastLen = s.lastLen := rfl
@[simp] theorem mapWrite_cls (b : BitVec 4) (e : BandEntry) (s : State) : (mapWrite b e s).cls = s.cls := rfl
@[simp] theorem mapWrite_failCount (b : BitVec 4) (e : BandEntry) (s : State) :
    (mapWrite b e s).failCount = s.failCount := rfl
@[simp] theorem mapWrite_frameFailed (b : BitVec 4) (e : BandEntry) (s : State) :
    (mapWrite b e s).frameFailed = s.frameFailed := rfl
@[simp] theorem mapWrite_tsbkN (b : BitVec 4) (e : BandEntry) (s : State) : (mapWrite b e s).tsbkN = s.tsbkN := rfl
@[simp] theorem mapWrite_tsduEnd (b : BitVec 4) (e : BandEntry) (s : State) :
    (mapWrite b e s).tsduEnd = s.tsduEnd := rfl
@[simp] theorem mapWrite_role (b : BitVec 4) (e : BandEntry) (s : State) : (mapWrite b e s).role = s.role := rfl
@[simp] theorem mapWrite_chanMap (b : BitVec 4) (e : BandEntry) (s : State) :
    (mapWrite b e s).chanMap = s.chanMap.set b.toNat (some e) b.isLt := rfl
@[simp] theorem mapWrite_controlFreq (b : BitVec 4) (e : BandEntry) (s : State) :
    (mapWrite b e s).controlFreq = s.controlFreq := rfl
@[simp] theorem mapWrite_tunedFreq (b : BitVec 4) (e : BandEntry) (s : State) :
    (mapWrite b e s).tunedFreq = s.tunedFreq := rfl
@[simp] theorem mapWrite_pduHdr (b : BitVec 4) (e : BandEntry) (s : State) : (mapWrite b e s).pduHdr = s.pduHdr := rfl
@[simp] theorem mapWrite_cfg (b : BitVec 4) (e : BandEntry) (s : State) : (mapWrite b e s).cfg = s.cfg := rfl
@[simp] theorem mapWrite_stage (b : BitVec 4) (e : BandEntry) (s : State) : (mapWrite b e s).stage = s.stage := rfl
@[simp] theorem mapWrite_curSeq (b : BitVec 4) (e : BandEntry) (s : State) : (mapWrite b e s).curSeq = s.curSeq := rfl
@[simp] theorem mapWrite_idx (b : BitVec 4) (e : BandEntry) (s : State) : (mapWrite b e s).idx = s.idx := rfl
@[simp] theorem mapWrite_todo (b : BitVec 4) (e : BandEntry) (s : State) : (mapWrite b e s).todo = s.todo := rfl
@[simp] theorem mapWrite_now (b : BitVec 4) (e : BandEntry) (s : State) : (mapWrite b e s).now = s.now := rfl
@[simp] theorem mapWrite_run (b : BitVec 4) (e : BandEntry) (s : State) : (mapWrite b e s).run = s.run := rfl
@[simp] theorem mapWrite_unit (b : BitVec 4) (e : BandEntry) (s : State) : (mapWrite b e s).unit = s.unit := rfl
@[simp] theorem mapWrite_cmd (b : BitVec 4) (e : BandEntry) (s : State) : (mapWrite b e s).cmd = s.cmd := rfl
@[simp] theorem mapWrite_cmdWord (b : BitVec 4) (e : BandEntry) (s : State) :
    (mapWrite b e s).cmdWord = s.cmdWord := rfl
@[simp] theorem mapWrite_events (b : BitVec 4) (e : BandEntry) (s : State) : (mapWrite b e s).events = s.events := rfl
@[simp] theorem mapWrite_replies (b : BitVec 4) (e : BandEntry) (s : State) :
    (mapWrite b e s).replies = s.replies := rfl
@[simp] theorem mapWrite_out (b : BitVec 4) (e : BandEntry) (s : State) : (mapWrite b e s).out = s.out := rfl
@[simp] theorem mapWrite_raised (b : BitVec 4) (e : BandEntry) (s : State) : (mapWrite b e s).raised = s.raised := rfl

/-! ## lock -/

@[simp] theorem lock_runState (s : State) : (lock s).runState = s.runState := rfl
@[simp] theorem lock_nextSeq (s : State) : (lock s).nextSeq = s.nextSeq := rfl
@[simp] theorem lock_queue (s : State) : (lock s).queue = s.queue := rfl
@[simp] theorem lock_lastSeq (s : State) : (lock s).lastSeq = s.lastSeq := rfl
@[simp] theorem lock_discardLeft (s : State) : (lock s).discardLeft = s.discardLeft := rfl
@[simp] theorem lock_zPrev (s : State) : (lock s).zPrev = s.zPrev := rfl
@[simp] theorem lock_mfHist (s : State) : (lock s).mfHist = s.mfHist := rfl
@[simp] theorem lock_yPrev (s : State) : (lock s).yPrev = s.yPrev := rfl
@[simp] theorem lock_clk (s : State) : (lock s).clk = s.clk := rfl
@[simp] theorem lock_period (s : State) : (lock s).period = s.period := rfl
@[simp] theorem lock_nacCur (s : State) : (lock s).nacCur = s.nacCur := rfl
@[simp] theorem lock_sync (s : State) : (lock s).sync = .locked syncLen := rfl
@[simp] theorem lock_win (s : State) : (lock s).win = s.win := rfl
@[simp] theorem lock_fbits (s : State) : (lock s).fbits = [] := rfl
@[simp] theorem lock_curLen (s : State) : (lock s).curLen = none := rfl
@[simp] theorem lock_lastLen (s : State) : (lock s).lastLen = none := rfl
@[simp] theorem lock_cls (s : State) : (lock s).cls = none := rfl
@[simp] theorem lock_failCount (s : State) : (lock s).failCount = 0 := rfl
@[simp] theorem lock_frameFailed (s : State) : (lock s).frameFailed = false := rfl
@[simp] theorem lock_tsbkN (s : State) : (lock s).tsbkN = 0 := rfl
@[simp] theorem lock_tsduEnd (s : State) : (lock s).tsduEnd = none := rfl
@[simp] theorem lock_role (s : State) : (lock s).role = s.role := rfl
@[simp] theorem lock_chanMap (s : State) : (lock s).chanMap = s.chanMap := rfl
@[simp] theorem lock_controlFreq (s : State) : (lock s).controlFreq = s.controlFreq := rfl
@[simp] theorem lock_tunedFreq (s : State) : (lock s).tunedFreq = s.tunedFreq := rfl
@[simp] theorem lock_pduHdr (s : State) : (lock s).pduHdr = none := rfl
@[simp] theorem lock_cfg (s : State) : (lock s).cfg = s.cfg := rfl
@[simp] theorem lock_stage (s : State) : (lock s).stage = s.stage := rfl
@[simp] theorem lock_curSeq (s : State) : (lock s).curSeq = s.curSeq := rfl
@[simp] theorem lock_idx (s : State) : (lock s).idx = s.idx := rfl
@[simp] theorem lock_todo (s : State) : (lock s).todo = s.todo := rfl
@[simp] theorem lock_now (s : State) : (lock s).now = s.now := rfl
@[simp] theorem lock_run (s : State) : (lock s).run = s.run := rfl
@[simp] theorem lock_unit (s : State) : (lock s).unit = s.unit := rfl
@[simp] theorem lock_cmd (s : State) : (lock s).cmd = s.cmd := rfl
@[simp] theorem lock_cmdWord (s : State) : (lock s).cmdWord = s.cmdWord := rfl
@[simp] theorem lock_events (s : State) : (lock s).events = s.events := rfl
@[simp] theorem lock_replies (s : State) : (lock s).replies = s.replies := rfl
@[simp] theorem lock_out (s : State) : (lock s).out = s.out := rfl
@[simp] theorem lock_raised (s : State) : (lock s).raised = s.raised := rfl

/-! ## closeFrame -/

@[simp] theorem closeFrame_runState (s : State) : (closeFrame s).runState = s.runState := rfl
@[simp] theorem closeFrame_nextSeq (s : State) : (closeFrame s).nextSeq = s.nextSeq := rfl
@[simp] theorem closeFrame_queue (s : State) : (closeFrame s).queue = s.queue := rfl
@[simp] theorem closeFrame_lastSeq (s : State) : (closeFrame s).lastSeq = s.lastSeq := rfl
@[simp] theorem closeFrame_discardLeft (s : State) : (closeFrame s).discardLeft = s.discardLeft := rfl
@[simp] theorem closeFrame_zPrev (s : State) : (closeFrame s).zPrev = s.zPrev := rfl
@[simp] theorem closeFrame_mfHist (s : State) : (closeFrame s).mfHist = s.mfHist := rfl
@[simp] theorem closeFrame_yPrev (s : State) : (closeFrame s).yPrev = s.yPrev := rfl
@[simp] theorem closeFrame_clk (s : State) : (closeFrame s).clk = s.clk := rfl
@[simp] theorem closeFrame_period (s : State) : (closeFrame s).period = s.period := rfl
@[simp] theorem closeFrame_nacCur (s : State) : (closeFrame s).nacCur = s.nacCur := rfl
@[simp] theorem closeFrame_sync (s : State) : (closeFrame s).sync = .locked 0 := rfl
@[simp] theorem closeFrame_win (s : State) : (closeFrame s).win = s.win := rfl
@[simp] theorem closeFrame_fbits (s : State) : (closeFrame s).fbits = [] := rfl
@[simp] theorem closeFrame_curLen (s : State) : (closeFrame s).curLen = none := rfl
@[simp] theorem closeFrame_lastLen (s : State) : (closeFrame s).lastLen = s.curLen := rfl
@[simp] theorem closeFrame_cls (s : State) : (closeFrame s).cls = none := rfl
@[simp] theorem closeFrame_failCount (s : State) :
    (closeFrame s).failCount = if s.frameFailed then s.failCount + 1 else 0 := rfl
@[simp] theorem closeFrame_frameFailed (s : State) : (closeFrame s).frameFailed = false := rfl
@[simp] theorem closeFrame_tsbkN (s : State) : (closeFrame s).tsbkN = 0 := rfl
@[simp] theorem closeFrame_tsduEnd (s : State) : (closeFrame s).tsduEnd = none := rfl
@[simp] theorem closeFrame_role (s : State) : (closeFrame s).role = s.role := rfl
@[simp] theorem closeFrame_chanMap (s : State) : (closeFrame s).chanMap = s.chanMap := rfl
@[simp] theorem closeFrame_controlFreq (s : State) : (closeFrame s).controlFreq = s.controlFreq := rfl
@[simp] theorem closeFrame_tunedFreq (s : State) : (closeFrame s).tunedFreq = s.tunedFreq := rfl
@[simp] theorem closeFrame_pduHdr (s : State) : (closeFrame s).pduHdr = none := rfl
@[simp] theorem closeFrame_cfg (s : State) : (closeFrame s).cfg = s.cfg := rfl
@[simp] theorem closeFrame_stage (s : State) : (closeFrame s).stage = s.stage := rfl
@[simp] theorem closeFrame_curSeq (s : State) : (closeFrame s).curSeq = s.curSeq := rfl
@[simp] theorem closeFrame_idx (s : State) : (closeFrame s).idx = s.idx := rfl
@[simp] theorem closeFrame_todo (s : State) : (closeFrame s).todo = s.todo := rfl
@[simp] theorem closeFrame_now (s : State) : (closeFrame s).now = s.now := rfl
@[simp] theorem closeFrame_run (s : State) : (closeFrame s).run = s.run := rfl
@[simp] theorem closeFrame_unit (s : State) : (closeFrame s).unit = s.unit := rfl
@[simp] theorem closeFrame_cmd (s : State) : (closeFrame s).cmd = s.cmd := rfl
@[simp] theorem closeFrame_cmdWord (s : State) : (closeFrame s).cmdWord = s.cmdWord := rfl
@[simp] theorem closeFrame_events (s : State) : (closeFrame s).events = s.events := rfl
@[simp] theorem closeFrame_replies (s : State) : (closeFrame s).replies = s.replies := rfl
@[simp] theorem closeFrame_out (s : State) : (closeFrame s).out = s.out := rfl
@[simp] theorem closeFrame_raised (s : State) : (closeFrame s).raised = s.raised := rfl

/-! ## discardSample -/

@[simp] theorem discardSample_runState (s : State) : (discardSample s).runState = s.runState := rfl
@[simp] theorem discardSample_nextSeq (s : State) : (discardSample s).nextSeq = s.nextSeq := rfl
@[simp] theorem discardSample_queue (s : State) : (discardSample s).queue = s.queue := rfl
@[simp] theorem discardSample_lastSeq (s : State) : (discardSample s).lastSeq = s.lastSeq := rfl
@[simp] theorem discardSample_discardLeft (s : State) : (discardSample s).discardLeft = s.discardLeft - 1 := rfl
@[simp] theorem discardSample_zPrev (s : State) : (discardSample s).zPrev = s.zPrev := rfl
@[simp] theorem discardSample_mfHist (s : State) : (discardSample s).mfHist = s.mfHist := rfl
@[simp] theorem discardSample_yPrev (s : State) : (discardSample s).yPrev = s.yPrev := rfl
@[simp] theorem discardSample_clk (s : State) : (discardSample s).clk = s.clk := rfl
@[simp] theorem discardSample_period (s : State) : (discardSample s).period = s.period := rfl
@[simp] theorem discardSample_nacCur (s : State) : (discardSample s).nacCur = s.nacCur := rfl
@[simp] theorem discardSample_sync (s : State) : (discardSample s).sync = s.sync := rfl
@[simp] theorem discardSample_win (s : State) : (discardSample s).win = s.win := rfl
@[simp] theorem discardSample_fbits (s : State) : (discardSample s).fbits = s.fbits := rfl
@[simp] theorem discardSample_curLen (s : State) : (discardSample s).curLen = s.curLen := rfl
@[simp] theorem discardSample_lastLen (s : State) : (discardSample s).lastLen = s.lastLen := rfl
@[simp] theorem discardSample_cls (s : State) : (discardSample s).cls = s.cls := rfl
@[simp] theorem discardSample_failCount (s : State) : (discardSample s).failCount = s.failCount := rfl
@[simp] theorem discardSample_frameFailed (s : State) : (discardSample s).frameFailed = s.frameFailed := rfl
@[simp] theorem discardSample_tsbkN (s : State) : (discardSample s).tsbkN = s.tsbkN := rfl
@[simp] theorem discardSample_tsduEnd (s : State) : (discardSample s).tsduEnd = s.tsduEnd := rfl
@[simp] theorem discardSample_role (s : State) : (discardSample s).role = s.role := rfl
@[simp] theorem discardSample_chanMap (s : State) : (discardSample s).chanMap = s.chanMap := rfl
@[simp] theorem discardSample_controlFreq (s : State) : (discardSample s).controlFreq = s.controlFreq := rfl
@[simp] theorem discardSample_tunedFreq (s : State) : (discardSample s).tunedFreq = s.tunedFreq := rfl
@[simp] theorem discardSample_pduHdr (s : State) : (discardSample s).pduHdr = s.pduHdr := rfl
@[simp] theorem discardSample_cfg (s : State) : (discardSample s).cfg = s.cfg := rfl
@[simp] theorem discardSample_stage (s : State) : (discardSample s).stage = s.stage := rfl
@[simp] theorem discardSample_curSeq (s : State) : (discardSample s).curSeq = s.curSeq := rfl
@[simp] theorem discardSample_idx (s : State) : (discardSample s).idx = s.idx := rfl
@[simp] theorem discardSample_todo (s : State) : (discardSample s).todo = s.todo := rfl
@[simp] theorem discardSample_now (s : State) : (discardSample s).now = s.now := rfl
@[simp] theorem discardSample_run (s : State) : (discardSample s).run = s.run := rfl
@[simp] theorem discardSample_unit (s : State) : (discardSample s).unit = s.unit := rfl
@[simp] theorem discardSample_cmd (s : State) : (discardSample s).cmd = s.cmd := rfl
@[simp] theorem discardSample_cmdWord (s : State) : (discardSample s).cmdWord = s.cmdWord := rfl
@[simp] theorem discardSample_events (s : State) : (discardSample s).events = s.events := rfl
@[simp] theorem discardSample_replies (s : State) : (discardSample s).replies = s.replies := rfl
@[simp] theorem discardSample_out (s : State) : (discardSample s).out = s.out := rfl
@[simp] theorem discardSample_raised (s : State) : (discardSample s).raised = s.raised := rfl

/-! ## applyRetune -/

@[simp] theorem applyRetune_runState (freq : Nat) (s : State) : (applyRetune freq s).runState = s.runState := rfl
@[simp] theorem applyRetune_nextSeq (freq : Nat) (s : State) : (applyRetune freq s).nextSeq = s.nextSeq := rfl
@[simp] theorem applyRetune_queue (freq : Nat) (s : State) : (applyRetune freq s).queue = s.queue := rfl
@[simp] theorem applyRetune_lastSeq (freq : Nat) (s : State) : (applyRetune freq s).lastSeq = s.lastSeq := rfl
@[simp] theorem applyRetune_discardLeft (freq : Nat) (s : State) :
    (applyRetune freq s).discardLeft = s.cfg.settleSamples := rfl
@[simp] theorem applyRetune_zPrev (freq : Nat) (s : State) : (applyRetune freq s).zPrev = ⟨1, 0⟩ := rfl
@[simp] theorem applyRetune_mfHist (freq : Nat) (s : State) :
    (applyRetune freq s).mfHist = List.replicate s.cfg.mfTaps.length 0 := rfl
@[simp] theorem applyRetune_yPrev (freq : Nat) (s : State) : (applyRetune freq s).yPrev = 0 := rfl
@[simp] theorem applyRetune_clk (freq : Nat) (s : State) : (applyRetune freq s).clk = 0 := rfl
@[simp] theorem applyRetune_period (freq : Nat) (s : State) : (applyRetune freq s).period = (spsOf s.cfg : Rat) := rfl
@[simp] theorem applyRetune_nacCur (freq : Nat) (s : State) : (applyRetune freq s).nacCur = s.nacCur := rfl
@[simp] theorem applyRetune_sync (freq : Nat) (s : State) : (applyRetune freq s).sync = .searching := rfl
@[simp] theorem applyRetune_win (freq : Nat) (s : State) : (applyRetune freq s).win = emptyWindow := rfl
@[simp] theorem applyRetune_fbits (freq : Nat) (s : State) : (applyRetune freq s).fbits = [] := rfl
@[simp] theorem applyRetune_curLen (freq : Nat) (s : State) : (applyRetune freq s).curLen = none := rfl
@[simp] theorem applyRetune_lastLen (freq : Nat) (s : State) : (applyRetune freq s).lastLen = none := rfl
@[simp] theorem applyRetune_cls (freq : Nat) (s : State) : (applyRetune freq s).cls = none := rfl
@[simp] theorem applyRetune_failCount (freq : Nat) (s : State) : (applyRetune freq s).failCount = 0 := rfl
@[simp] theorem applyRetune_frameFailed (freq : Nat) (s : State) : (applyRetune freq s).frameFailed = false := rfl
@[simp] theorem applyRetune_tsbkN (freq : Nat) (s : State) : (applyRetune freq s).tsbkN = 0 := rfl
@[simp] theorem applyRetune_tsduEnd (freq : Nat) (s : State) : (applyRetune freq s).tsduEnd = none := rfl
@[simp] theorem applyRetune_role (freq : Nat) (s : State) : (applyRetune freq s).role = s.role := rfl
@[simp] theorem applyRetune_chanMap (freq : Nat) (s : State) : (applyRetune freq s).chanMap = s.chanMap := rfl
@[simp] theorem applyRetune_controlFreq (freq : Nat) (s : State) :
    (applyRetune freq s).controlFreq = s.controlFreq := rfl
@[simp] theorem applyRetune_tunedFreq (freq : Nat) (s : State) : (applyRetune freq s).tunedFreq = freq := rfl
@[simp] theorem applyRetune_pduHdr (freq : Nat) (s : State) : (applyRetune freq s).pduHdr = none := rfl
@[simp] theorem applyRetune_cfg (freq : Nat) (s : State) : (applyRetune freq s).cfg = s.cfg := rfl
@[simp] theorem applyRetune_stage (freq : Nat) (s : State) : (applyRetune freq s).stage = s.stage := rfl
@[simp] theorem applyRetune_curSeq (freq : Nat) (s : State) : (applyRetune freq s).curSeq = s.curSeq := rfl
@[simp] theorem applyRetune_idx (freq : Nat) (s : State) : (applyRetune freq s).idx = s.idx := rfl
@[simp] theorem applyRetune_todo (freq : Nat) (s : State) : (applyRetune freq s).todo = s.todo := rfl
@[simp] theorem applyRetune_now (freq : Nat) (s : State) : (applyRetune freq s).now = s.now := rfl
@[simp] theorem applyRetune_run (freq : Nat) (s : State) : (applyRetune freq s).run = [] := rfl
@[simp] theorem applyRetune_unit (freq : Nat) (s : State) : (applyRetune freq s).unit = s.unit := rfl
@[simp] theorem applyRetune_cmd (freq : Nat) (s : State) : (applyRetune freq s).cmd = none := rfl
@[simp] theorem applyRetune_cmdWord (freq : Nat) (s : State) : (applyRetune freq s).cmdWord = s.cmdWord := rfl
@[simp] theorem applyRetune_events (freq : Nat) (s : State) : (applyRetune freq s).events = s.events := rfl
@[simp] theorem applyRetune_replies (freq : Nat) (s : State) : (applyRetune freq s).replies = s.replies := rfl
@[simp] theorem applyRetune_out (freq : Nat) (s : State) : (applyRetune freq s).out = s.out := rfl
@[simp] theorem applyRetune_raised (freq : Nat) (s : State) : (applyRetune freq s).raised = s.raised := rfl

/-! ## bootDone -/

@[simp] theorem bootDone_runState (s : State) : (bootDone s).runState = .running := rfl
@[simp] theorem bootDone_nextSeq (s : State) : (bootDone s).nextSeq = s.nextSeq := rfl
@[simp] theorem bootDone_queue (s : State) : (bootDone s).queue = s.queue := rfl
@[simp] theorem bootDone_lastSeq (s : State) : (bootDone s).lastSeq = s.lastSeq := rfl
@[simp] theorem bootDone_discardLeft (s : State) : (bootDone s).discardLeft = 0 := rfl
@[simp] theorem bootDone_zPrev (s : State) : (bootDone s).zPrev = s.zPrev := rfl
@[simp] theorem bootDone_mfHist (s : State) : (bootDone s).mfHist = s.mfHist := rfl
@[simp] theorem bootDone_yPrev (s : State) : (bootDone s).yPrev = s.yPrev := rfl
@[simp] theorem bootDone_clk (s : State) : (bootDone s).clk = s.clk := rfl
@[simp] theorem bootDone_period (s : State) : (bootDone s).period = s.period := rfl
@[simp] theorem bootDone_nacCur (s : State) : (bootDone s).nacCur = s.nacCur := rfl
@[simp] theorem bootDone_sync (s : State) : (bootDone s).sync = s.sync := rfl
@[simp] theorem bootDone_win (s : State) : (bootDone s).win = s.win := rfl
@[simp] theorem bootDone_fbits (s : State) : (bootDone s).fbits = s.fbits := rfl
@[simp] theorem bootDone_curLen (s : State) : (bootDone s).curLen = s.curLen := rfl
@[simp] theorem bootDone_lastLen (s : State) : (bootDone s).lastLen = s.lastLen := rfl
@[simp] theorem bootDone_cls (s : State) : (bootDone s).cls = s.cls := rfl
@[simp] theorem bootDone_failCount (s : State) : (bootDone s).failCount = s.failCount := rfl
@[simp] theorem bootDone_frameFailed (s : State) : (bootDone s).frameFailed = s.frameFailed := rfl
@[simp] theorem bootDone_tsbkN (s : State) : (bootDone s).tsbkN = s.tsbkN := rfl
@[simp] theorem bootDone_tsduEnd (s : State) : (bootDone s).tsduEnd = s.tsduEnd := rfl
@[simp] theorem bootDone_role (s : State) : (bootDone s).role = s.role := rfl
@[simp] theorem bootDone_chanMap (s : State) : (bootDone s).chanMap = s.chanMap := rfl
@[simp] theorem bootDone_controlFreq (s : State) : (bootDone s).controlFreq = s.cfg.initFreq := rfl
@[simp] theorem bootDone_tunedFreq (s : State) : (bootDone s).tunedFreq = s.cfg.initFreq := rfl
@[simp] theorem bootDone_pduHdr (s : State) : (bootDone s).pduHdr = s.pduHdr := rfl
@[simp] theorem bootDone_cfg (s : State) : (bootDone s).cfg = s.cfg := rfl
@[simp] theorem bootDone_stage (s : State) : (bootDone s).stage = .idle := rfl
@[simp] theorem bootDone_curSeq (s : State) : (bootDone s).curSeq = s.curSeq := rfl
@[simp] theorem bootDone_idx (s : State) : (bootDone s).idx = s.idx := rfl
@[simp] theorem bootDone_todo (s : State) : (bootDone s).todo = s.todo := rfl
@[simp] theorem bootDone_now (s : State) : (bootDone s).now = s.now := rfl
@[simp] theorem bootDone_run (s : State) : (bootDone s).run = s.run := rfl
@[simp] theorem bootDone_unit (s : State) : (bootDone s).unit = s.unit := rfl
@[simp] theorem bootDone_cmd (s : State) : (bootDone s).cmd = s.cmd := rfl
@[simp] theorem bootDone_cmdWord (s : State) : (bootDone s).cmdWord = s.cmdWord := rfl
@[simp] theorem bootDone_events (s : State) : (bootDone s).events = s.events := rfl
@[simp] theorem bootDone_replies (s : State) : (bootDone s).replies = s.replies := rfl
@[simp] theorem bootDone_out (s : State) : (bootDone s).out = s.out := rfl
@[simp] theorem bootDone_raised (s : State) : (bootDone s).raised = s.raised := rfl

/-! ## shutdown -/

@[simp] theorem shutdown_runState (r : Status) (s : State) : (shutdown r s).runState = .stopped := rfl
@[simp] theorem shutdown_nextSeq (r : Status) (s : State) : (shutdown r s).nextSeq = s.nextSeq := rfl
@[simp] theorem shutdown_queue (r : Status) (s : State) : (shutdown r s).queue = [] := rfl
@[simp] theorem shutdown_lastSeq (r : Status) (s : State) : (shutdown r s).lastSeq = s.lastSeq := rfl
@[simp] theorem shutdown_discardLeft (r : Status) (s : State) : (shutdown r s).discardLeft = s.discardLeft := rfl
@[simp] theorem shutdown_zPrev (r : Status) (s : State) : (shutdown r s).zPrev = s.zPrev := rfl
@[simp] theorem shutdown_mfHist (r : Status) (s : State) : (shutdown r s).mfHist = s.mfHist := rfl
@[simp] theorem shutdown_yPrev (r : Status) (s : State) : (shutdown r s).yPrev = s.yPrev := rfl
@[simp] theorem shutdown_clk (r : Status) (s : State) : (shutdown r s).clk = s.clk := rfl
@[simp] theorem shutdown_period (r : Status) (s : State) : (shutdown r s).period = s.period := rfl
@[simp] theorem shutdown_nacCur (r : Status) (s : State) : (shutdown r s).nacCur = s.nacCur := rfl
@[simp] theorem shutdown_sync (r : Status) (s : State) : (shutdown r s).sync = s.sync := rfl
@[simp] theorem shutdown_win (r : Status) (s : State) : (shutdown r s).win = s.win := rfl
@[simp] theorem shutdown_fbits (r : Status) (s : State) : (shutdown r s).fbits = s.fbits := rfl
@[simp] theorem shutdown_curLen (r : Status) (s : State) : (shutdown r s).curLen = s.curLen := rfl
@[simp] theorem shutdown_lastLen (r : Status) (s : State) : (shutdown r s).lastLen = s.lastLen := rfl
@[simp] theorem shutdown_cls (r : Status) (s : State) : (shutdown r s).cls = s.cls := rfl
@[simp] theorem shutdown_failCount (r : Status) (s : State) : (shutdown r s).failCount = s.failCount := rfl
@[simp] theorem shutdown_frameFailed (r : Status) (s : State) : (shutdown r s).frameFailed = s.frameFailed := rfl
@[simp] theorem shutdown_tsbkN (r : Status) (s : State) : (shutdown r s).tsbkN = s.tsbkN := rfl
@[simp] theorem shutdown_tsduEnd (r : Status) (s : State) : (shutdown r s).tsduEnd = s.tsduEnd := rfl
@[simp] theorem shutdown_role (r : Status) (s : State) : (shutdown r s).role = s.role := rfl
@[simp] theorem shutdown_chanMap (r : Status) (s : State) : (shutdown r s).chanMap = s.chanMap := rfl
@[simp] theorem shutdown_controlFreq (r : Status) (s : State) : (shutdown r s).controlFreq = s.controlFreq := rfl
@[simp] theorem shutdown_tunedFreq (r : Status) (s : State) : (shutdown r s).tunedFreq = s.tunedFreq := rfl
@[simp] theorem shutdown_pduHdr (r : Status) (s : State) : (shutdown r s).pduHdr = s.pduHdr := rfl
@[simp] theorem shutdown_cfg (r : Status) (s : State) : (shutdown r s).cfg = s.cfg := rfl
@[simp] theorem shutdown_stage (r : Status) (s : State) : (shutdown r s).stage = s.stage := rfl
@[simp] theorem shutdown_curSeq (r : Status) (s : State) : (shutdown r s).curSeq = s.curSeq := rfl
@[simp] theorem shutdown_idx (r : Status) (s : State) : (shutdown r s).idx = s.idx := rfl
@[simp] theorem shutdown_todo (r : Status) (s : State) : (shutdown r s).todo = s.todo := rfl
@[simp] theorem shutdown_now (r : Status) (s : State) : (shutdown r s).now = s.now := rfl
@[simp] theorem shutdown_run (r : Status) (s : State) : (shutdown r s).run = s.run := rfl
@[simp] theorem shutdown_unit (r : Status) (s : State) : (shutdown r s).unit = s.unit := rfl
@[simp] theorem shutdown_cmd (r : Status) (s : State) : (shutdown r s).cmd = s.cmd := rfl
@[simp] theorem shutdown_cmdWord (r : Status) (s : State) : (shutdown r s).cmdWord = s.cmdWord := rfl
@[simp] theorem shutdown_events (r : Status) (s : State) : (shutdown r s).events = s.events := rfl
@[simp] theorem shutdown_replies (r : Status) (s : State) : (shutdown r s).replies = s.replies := rfl
@[simp] theorem shutdown_out (r : Status) (s : State) :
    (shutdown r s).out = .closeSource r :: .endOfStream :: s.out := rfl
@[simp] theorem shutdown_raised (r : Status) (s : State) : (shutdown r s).raised = s.raised := rfl

/-! ## frameStart -/

@[simp] theorem frameStart_runState (c : FrameClass) (nac : BitVec 12) (s : State) :
    (frameStart c nac s).runState = s.runState := rfl
@[simp] theorem frameStart_nextSeq (c : FrameClass) (nac : BitVec 12) (s : State) :
    (frameStart c nac s).nextSeq = s.nextSeq := rfl
@[simp] theorem frameStart_queue (c : FrameClass) (nac : BitVec 12) (s : State) :
    (frameStart c nac s).queue = s.queue := rfl
@[simp] theorem frameStart_lastSeq (c : FrameClass) (nac : BitVec 12) (s : State) :
    (frameStart c nac s).lastSeq = s.lastSeq := rfl
@[simp] theorem frameStart_discardLeft (c : FrameClass) (nac : BitVec 12) (s : State) :
    (frameStart c nac s).discardLeft = s.discardLeft := rfl
@[simp] theorem frameStart_zPrev (c : FrameClass) (nac : BitVec 12) (s : State) :
    (frameStart c nac s).zPrev = s.zPrev := rfl
@[simp] theorem frameStart_mfHist (c : FrameClass) (nac : BitVec 12) (s : State) :
    (frameStart c nac s).mfHist = s.mfHist := rfl
@[simp] theorem frameStart_yPrev (c : FrameClass) (nac : BitVec 12) (s : State) :
    (frameStart c nac s).yPrev = s.yPrev := rfl
@[simp] theorem frameStart_clk (c : FrameClass) (nac : BitVec 12) (s : State) :
    (frameStart c nac s).clk = s.clk := rfl
@[simp] theorem frameStart_period (c : FrameClass) (nac : BitVec 12) (s : State) :
    (frameStart c nac s).period = s.period := rfl
@[simp] theorem frameStart_nacCur (c : FrameClass) (nac : BitVec 12) (s : State) :
    (frameStart c nac s).nacCur = nac := rfl
@[simp] theorem frameStart_sync (c : FrameClass) (nac : BitVec 12) (s : State) :
    (frameStart c nac s).sync = s.sync := rfl
@[simp] theorem frameStart_win (c : FrameClass) (nac : BitVec 12) (s : State) :
    (frameStart c nac s).win = s.win := rfl
@[simp] theorem frameStart_fbits (c : FrameClass) (nac : BitVec 12) (s : State) :
    (frameStart c nac s).fbits = s.fbits := rfl
@[simp] theorem frameStart_curLen (c : FrameClass) (nac : BitVec 12) (s : State) : (frameStart c nac s).curLen =
    (match fixedFrameLen c with
      | some len => some len
      | none => s.curLen) := rfl
@[simp] theorem frameStart_lastLen (c : FrameClass) (nac : BitVec 12) (s : State) :
    (frameStart c nac s).lastLen = s.lastLen := rfl
@[simp] theorem frameStart_cls (c : FrameClass) (nac : BitVec 12) (s : State) :
    (frameStart c nac s).cls = some c := rfl
@[simp] theorem frameStart_failCount (c : FrameClass) (nac : BitVec 12) (s : State) :
    (frameStart c nac s).failCount = s.failCount := rfl
@[simp] theorem frameStart_frameFailed (c : FrameClass) (nac : BitVec 12) (s : State) :
    (frameStart c nac s).frameFailed = s.frameFailed := rfl
@[simp] theorem frameStart_tsbkN (c : FrameClass) (nac : BitVec 12) (s : State) :
    (frameStart c nac s).tsbkN = s.tsbkN := rfl
@[simp] theorem frameStart_tsduEnd (c : FrameClass) (nac : BitVec 12) (s : State) :
    (frameStart c nac s).tsduEnd = s.tsduEnd := rfl
@[simp] theorem frameStart_role (c : FrameClass) (nac : BitVec 12) (s : State) :
    (frameStart c nac s).role = s.role := rfl
@[simp] theorem frameStart_chanMap (c : FrameClass) (nac : BitVec 12) (s : State) :
    (frameStart c nac s).chanMap = s.chanMap := rfl
@[simp] theorem frameStart_controlFreq (c : FrameClass) (nac : BitVec 12) (s : State) :
    (frameStart c nac s).controlFreq = s.controlFreq := rfl
@[simp] theorem frameStart_tunedFreq (c : FrameClass) (nac : BitVec 12) (s : State) :
    (frameStart c nac s).tunedFreq = s.tunedFreq := rfl
@[simp] theorem frameStart_pduHdr (c : FrameClass) (nac : BitVec 12) (s : State) :
    (frameStart c nac s).pduHdr = s.pduHdr := rfl
@[simp] theorem frameStart_cfg (c : FrameClass) (nac : BitVec 12) (s : State) :
    (frameStart c nac s).cfg = s.cfg := rfl
@[simp] theorem frameStart_stage (c : FrameClass) (nac : BitVec 12) (s : State) :
    (frameStart c nac s).stage = s.stage := rfl
@[simp] theorem frameStart_curSeq (c : FrameClass) (nac : BitVec 12) (s : State) :
    (frameStart c nac s).curSeq = s.curSeq := rfl
@[simp] theorem frameStart_idx (c : FrameClass) (nac : BitVec 12) (s : State) :
    (frameStart c nac s).idx = s.idx := rfl
@[simp] theorem frameStart_todo (c : FrameClass) (nac : BitVec 12) (s : State) :
    (frameStart c nac s).todo = s.todo := rfl
@[simp] theorem frameStart_now (c : FrameClass) (nac : BitVec 12) (s : State) :
    (frameStart c nac s).now = s.now := rfl
@[simp] theorem frameStart_run (c : FrameClass) (nac : BitVec 12) (s : State) :
    (frameStart c nac s).run = s.run := rfl
@[simp] theorem frameStart_unit (c : FrameClass) (nac : BitVec 12) (s : State) :
    (frameStart c nac s).unit = s.unit := rfl
@[simp] theorem frameStart_cmd (c : FrameClass) (nac : BitVec 12) (s : State) :
    (frameStart c nac s).cmd = s.cmd := rfl
@[simp] theorem frameStart_cmdWord (c : FrameClass) (nac : BitVec 12) (s : State) :
    (frameStart c nac s).cmdWord = s.cmdWord := rfl
@[simp] theorem frameStart_events (c : FrameClass) (nac : BitVec 12) (s : State) :
    (frameStart c nac s).events = s.events := rfl
@[simp] theorem frameStart_replies (c : FrameClass) (nac : BitVec 12) (s : State) :
    (frameStart c nac s).replies = s.replies := rfl
@[simp] theorem frameStart_out (c : FrameClass) (nac : BitVec 12) (s : State) :
    (frameStart c nac s).out = s.out := rfl
@[simp] theorem frameStart_raised (c : FrameClass) (nac : BitVec 12) (s : State) :
    (frameStart c nac s).raised = s.raised := rfl

end Sys2Proof.Machine
end

