-- ==== Sys2Proof/Laws/Ops.lean ====
section
/-! SUPPORT. One lemma per shared operation and case: what it answers. Later proofs cite these and do not unfold the
operations. -/

namespace Sys2Proof.Machine

/-! ## The ChannelMap -/

@[simp] theorem mapRead_mapWrite_self (b : BitVec 4) (e : BandEntry) (s : State) :
    mapRead b (mapWrite b e s) = some e := by
  simp [mapRead, mapWrite]

theorem mapRead_mapWrite_of_ne {b b' : BitVec 4} (h : b' ≠ b) (e : BandEntry) (s : State) :
    mapRead b' (mapWrite b e s) = mapRead b' s := by
  have hn : b.toNat ≠ b'.toNat := fun hc => h (BitVec.eq_of_toNat_eq hc.symm)
  simp [mapRead, mapWrite, hn]

theorem mapRead_congr {s t : State} (h : t.chanMap = s.chanMap) (b : BitVec 4) : mapRead b t = mapRead b s := by
  simp [mapRead, h]

theorem resolve_congr {s t : State} (h : t.chanMap = s.chanMap) (chan : BitVec 16) : resolve chan t = resolve chan s := by
  simp [resolve, mapRead_congr h]

theorem resolve_eq_some {chan : BitVec 16} {s : State} {f : Nat} :
    resolve chan s = some f ↔
      ∃ e, mapRead (chanBand chan) s = some e ∧ e.baseHz + (chanNumber chan).toNat * e.spacingHz = f := by
  simp [resolve]

theorem resolve_eq_none {chan : BitVec 16} {s : State} : resolve chan s = none ↔ mapRead (chanBand chan) s = none := by
  simp [resolve]

/-! ## Errors -/

theorem raise_of_fatal {e : Error} (h : e.fatal = true) (s : State) :
    raise e s = { s with runState := .fatal e, raised := e :: s.raised } := by
  simp [raise, h]

theorem raise_of_not_fatal {e : Error} (h : e.fatal = false) (s : State) :
    raise e s = { s with raised := e :: s.raised } := by
  simp [raise, h]

/-! ## The queue and the sequence gap -/

theorem enqueueOrDrop_of_room {blk : SampleBlock} {s : State} (h : s.queue.length < s.cfg.queueCap) :
    enqueueOrDrop blk s = { s with queue := s.queue ++ [blk] } := by
  simp [enqueueOrDrop, h]

theorem enqueueOrDrop_of_full {blk : SampleBlock} {s : State} (h : s.cfg.queueCap ≤ s.queue.length) :
    enqueueOrDrop blk s = { s with raised := .e3 blk.seq :: s.raised } := by
  simp [enqueueOrDrop, Nat.not_lt.mpr h, raise, Error.fatal]

theorem isGap_eq_true {last : Option Nat} {seq : Nat} : isGap last seq = true ↔ ∃ p, last = some p ∧ seq ≠ p + 1 := by
  cases last <;> simp [isGap]

theorem gapCheck_of_gap {seq : Nat} {s : State} (h : isGap s.lastSeq seq = true) :
    gapCheck seq s = { demodReset (forceSearch s) with lastSeq := some seq } := by
  simp [gapCheck, h]

theorem gapCheck_of_no_gap {seq : Nat} {s : State} (h : isGap s.lastSeq seq = false) :
    gapCheck seq s = { s with lastSeq := some seq } := by
  simp [gapCheck, h]

/-! ## Calls on P_CMD -/

theorem sendCommand_of_nil {w : Word64} {e : Error} {s : State} (h : s.replies = []) : sendCommand w e s = s := by
  simp [sendCommand, h]

theorem sendCommand_of_ok {w : Word64} {e : Error} {s : State} {rest : List Status} (h : s.replies = .ok :: rest) :
    sendCommand w e s = { s with replies := rest, out := .command w .ok :: s.out } := by
  simp [sendCommand, h]

theorem sendCommand_of_fail {w : Word64} {e : Error} {s : State} {rest : List Status} (h : s.replies = .fail :: rest) :
    sendCommand w e s = raise e { s with replies := rest, out := .command w .fail :: s.out } := by
  simp [sendCommand, h]

/-! ## The arbiter -/

theorem tryGrant_of_unresolved {chan tg : BitVec 16} {s : State} (h : resolve chan s = none) :
    tryGrant chan tg s = (none, { s with raised := .e4 chan :: s.raised }) := by
  simp [tryGrant, h, raise, Error.fatal]

theorem tryGrant_of_resolved {chan tg : BitVec 16} {s : State} {f : Nat} (h : resolve chan s = some f) :
    tryGrant chan tg s = (if monitored s.cfg.tgPolicy tg then some f else none, s) := by
  simp [tryGrant, h]

theorem refresh_of_control {t : Nat} {s : State} (h : s.role = .controlChannel) : refresh t s = s := by
  simp [refresh, h]

theorem refresh_of_traffic {t f la : Nat} {tg : BitVec 16} {s : State} (h : s.role = .trafficChannel f tg la) :
    refresh t s = { s with role := .trafficChannel f tg t } := by
  simp [refresh, h]

theorem grantPair_of_control {chan tg : BitVec 16} {t : Nat} {s : State} (h : s.role = .controlChannel) :
    grantPair chan tg t s = controlGrant chan tg t s := by
  simp [grantPair, h]

theorem grantPair_of_traffic {chan tg cur : BitVec 16} {t f la : Nat} {s : State}
    (h : s.role = .trafficChannel f cur la) : grantPair chan tg t s = trafficGrant cur chan tg t s := by
  simp [grantPair, h]

/-! ## Frames -/

theorem handOver_of_valid {du : DataUnit} {s : State} (h : du.valid = true) :
    handOver du s = { s with unit := some du } := by
  simp [handOver, h]

theorem handOver_of_invalid {du : DataUnit} {s : State} (h : du.valid = false) :
    handOver du s =
      { s with frameFailed := true, raised := .e2 du.kind du.time :: s.raised, unit := some du } := by
  simp [handOver, h, raise, Error.fatal]

/-- A unit made by `mkUnit` is valid exactly when it has a body (R342, R161). -/
@[simp] theorem mkUnit_valid (k : UnitKind) (t : Nat) (nac : BitVec 12) (b : Option Body) :
    (mkUnit k t nac b).valid = b.isSome := rfl

@[simp] theorem mkUnit_body (k : UnitKind) (t : Nat) (nac : BitVec 12) (b : Option Body) :
    (mkUnit k t nac b).body = b := rfl

@[simp] theorem mkUnit_kind (k : UnitKind) (t : Nat) (nac : BitVec 12) (b : Option Body) :
    (mkUnit k t nac b).kind = k := rfl

@[simp] theorem mkUnit_time (k : UnitKind) (t : Nat) (nac : BitVec 12) (b : Option Body) :
    (mkUnit k t nac b).time = t := rfl

/-! ## The Channel Tuner -/

theorem tuneStep_of_none {src : TuneFrom} {s : State} (h : s.cmd = none) :
    tuneStep src s = { s with stage := afterTune src } := by
  simp [tuneStep, h]

theorem tuneStep_of_same {src : TuneFrom} {s : State} {c : RetuneCommand} (h : s.cmd = some c)
    (hf : c.targetFrequency = s.tunedFreq) : tuneStep src s = { s with cmd := none, stage := afterTune src } := by
  simp [tuneStep, h, hf]

theorem tuneStep_of_new {src : TuneFrom} {s : State} {c : RetuneCommand} (h : s.cmd = some c)
    (hf : c.targetFrequency ≠ s.tunedFreq) :
    tuneStep src s =
      { s with cmdWord := setFreqWord (BitVec.ofNat 56 c.targetFrequency), stage := .send (.retune src) } := by
  simp [tuneStep, h, hf]

end Sys2Proof.Machine
end

