-- ==== Sys2Proof/Laws/Demod.lean ====
section
/-! SUPPORT. What the Demodulator's operations answer, case by case, and the fields they leave alone. -/

namespace Sys2Proof.Machine

theorem sampleStep_of_nil {s : State} (h : s.todo = []) : sampleStep s = { s with stage := .dibit } := by
  simp [sampleStep, h]

/-- A sample inside the settle window changes S5 and the position, nothing else (R231). -/
theorem sampleStep_of_window {s : State} {x : Cplx} {rest : List Cplx} (h : s.todo = x :: rest) (hw : 0 < s.discardLeft) :
    sampleStep s =
      { s with
        todo := rest, now := sampleTime s.cfg s.curSeq s.idx, idx := s.idx + 1, discardLeft := s.discardLeft - 1 } := by
  simp [sampleStep, h, hw, discardSample]

theorem sampleStep_of_open {s : State} {x : Cplx} {rest : List Cplx} (h : s.todo = x :: rest) (hw : s.discardLeft = 0) :
    sampleStep s =
      demodSample x { s with todo := rest, now := sampleTime s.cfg s.curSeq s.idx, idx := s.idx + 1 } := by
  simp [sampleStep, h, hw]

theorem timingError_of_crossing {y : Rat} {s : State} (h : isCrossing s.yPrev y = true) :
    timingError y s =
      { s with
        clk := s.clk + 1 - s.cfg.kp * crossingError s.clk s.period s.yPrev y
        period := clamp (s.period + s.cfg.ki * crossingError s.clk s.period s.yPrev y)
          (periodLo s.cfg) (periodHi s.cfg) } := by
  simp [timingError, h]

theorem timingError_of_no_crossing {y : Rat} {s : State} (h : isCrossing s.yPrev y = false) :
    timingError y s = { s with clk := s.clk + 1 } := by
  simp [timingError, h]

theorem decideDibit_of_due {y : Rat} {s : State} (h : s.period ≤ s.clk) :
    decideDibit y s = (some (slice s.cfg.sliceThreshHz y), { s with clk := s.clk - s.period }) := by
  simp [decideDibit, h]

theorem decideDibit_of_early {y : Rat} {s : State} (h : s.clk < s.period) : decideDibit y s = (none, s) := by
  simp [decideDibit, not_le.mpr h]

theorem timingError_frame (y : Rat) (s : State) :
    ∃ clk period, timingError y s = { s with clk := clk, period := period } := by
  cases hc : isCrossing s.yPrev y with
  | true => exact ⟨_, _, timingError_of_crossing hc⟩
  | false => exact ⟨_, s.period, timingError_of_no_crossing hc⟩

theorem decideDibit_frame (y : Rat) (s : State) : ∃ d clk, decideDibit y s = (d, { s with clk := clk }) := by
  by_cases h : s.period ≤ s.clk
  · exact ⟨_, _, decideDibit_of_due h⟩
  · exact ⟨none, s.clk, decideDibit_of_early (not_le.mp h)⟩

theorem timingStep_of_due {y : Rat} {s : State} (h : (timingError y s).period ≤ (timingError y s).clk) :
    timingStep y s =
      { timingError y s with
        yPrev := y, clk := (timingError y s).clk - (timingError y s).period
        run := (timingError y s).run ++ [(slice (timingError y s).cfg.sliceThreshHz y, (timingError y s).now)] } := by
  unfold timingStep
  simp only [decideDibit_of_due h]

theorem timingStep_of_early {y : Rat} {s : State} (h : (timingError y s).clk < (timingError y s).period) :
    timingStep y s = { timingError y s with yPrev := y } := by
  unfold timingStep
  simp only [decideDibit_of_early h]

/-- The symbol clock changes S8, S9, S10 and the run, and the run only by one dibit at the sample's time. -/
theorem timingStep_frame (y : Rat) (s : State) :
    ∃ clk period run,
      timingStep y s = { s with yPrev := y, clk := clk, period := period, run := run } ∧
        (run = s.run ∨ ∃ d, run = s.run ++ [(d, s.now)]) := by
  obtain ⟨c1, p1, h1⟩ := timingError_frame y s
  obtain ⟨d, c2, h2⟩ := decideDibit_frame y { s with clk := c1, period := p1 }
  unfold timingStep
  rw [h1, h2]
  cases d with
  | none => exact ⟨c2, p1, s.run, rfl, .inl rfl⟩
  | some d => exact ⟨c2, p1, _, rfl, .inr ⟨d, rfl⟩⟩

/-- A demodulated sample changes S6-S10 and the run, and nothing else. -/
theorem demodSample_frame (x : Cplx) (s : State) :
    ∃ z hist y clk period run,
      demodSample x s =
        { s with zPrev := z, mfHist := hist, yPrev := y, clk := clk, period := period, run := run } ∧
      hist.length = min (s.cfg.mfTaps.length - 1) s.mfHist.length + 1 ∧
        (run = s.run ∨ ∃ d, run = s.run ++ [(d, s.now)]) := by
  simp only [demodSample, discriminate, matchedFilter]
  generalize carrierCorrect s.cfg x s.now = z
  generalize ((s.cfg.fs : Rat) * argTurns (cplxMul z (cplxConj s.zPrev))) = f
  obtain ⟨clk, period, run, h, hr⟩ := timingStep_frame
    (firSum s.cfg.mfTaps (f :: List.take (s.cfg.mfTaps.length - 1) s.mfHist))
    { s with zPrev := z, mfHist := f :: List.take (s.cfg.mfTaps.length - 1) s.mfHist }
  exact ⟨z, _, _, clk, period, run, h, by simp, hr⟩

end Sys2Proof.Machine
end

