-- ==== Sys2Proof/Laws/FrameSync.lean ====
section
/-! SUPPORT. What the Frame Synchronizer's operations and the frame-class operations answer, case by case. -/

namespace Sys2Proof.Machine

theorem fsDibit_of_searching {d : Dibit} {s : State} (h : s.sync = .searching) : fsDibit d s = searchStep d s := by
  simp [fsDibit, h]

theorem fsDibit_of_locked {d : Dibit} {s : State} {pos : Nat} (h : s.sync = .locked pos) :
    fsDibit d s = lockedStep d pos s := by
  simp [fsDibit, h]

theorem searchStep_of_match {d : Dibit} {s : State} (h : s.cfg.syncThresh < corr (s.win.drop 1 ++ [some d])) :
    searchStep d s = lock { s with win := s.win.drop 1 ++ [some d] } := by
  simp only [searchStep, if_pos h]

theorem searchStep_of_no_match {d : Dibit} {s : State} (h : corr (s.win.drop 1 ++ [some d]) ≤ s.cfg.syncThresh) :
    searchStep d s = { s with win := s.win.drop 1 ++ [some d] } := by
  simp only [searchStep, if_neg (not_lt.mpr h)]

theorem lockedStep_of_skip {d : Dibit} {pos : Nat} {s : State} (h : isStatusPos pos = true ∨ pos < syncLen) :
    lockedStep d pos s = { s with stage := .advance } := by
  rcases h with h | h
  · simp [lockedStep, h]
  · simp [lockedStep, h]

theorem lockedStep_of_data {d : Dibit} {pos : Nat} {s : State} (h : isStatusPos pos = false) (hp : syncLen ≤ pos) :
    lockedStep d pos s = { s with fbits := s.fbits ++ dibitBits d, stage := .frame } := by
  simp [lockedStep, h, Nat.not_lt.mpr hp]

theorem assumePriorLength_of_some {s : State} {len : Nat} (h : s.lastLen = some len) :
    assumePriorLength s = { s with curLen := some len, cls := some .unknown } := by
  simp [assumePriorLength, h]

theorem assumePriorLength_of_none {s : State} (h : s.lastLen = none) : assumePriorLength s = forceSearch s := by
  simp [assumePriorLength, h]

theorem frameEnd_of_streak {s : State} (h : s.cfg.failLimit ≤ (closeFrame s).failCount) :
    frameEnd s = forceSearch { closeFrame s with raised := .e1 s.now :: s.raised } := by
  have h' : (closeFrame s).cfg.failLimit ≤ (closeFrame s).failCount := h
  simp only [frameEnd, if_pos h', raise_of_not_fatal (e := .e1 (closeFrame s).now) rfl]
  rfl

theorem frameEnd_of_no_streak {s : State} (h : (closeFrame s).failCount < s.cfg.failLimit) :
    frameEnd s = closeFrame s := by
  have h' : ¬(closeFrame s).cfg.failLimit ≤ (closeFrame s).failCount := Nat.not_le.mpr h
  simp only [frameEnd, if_neg h']

theorem advanceStep_of_searching {s : State} (h : s.sync = .searching) :
    advanceStep s = { s with stage := .dibit } := by
  simp [advanceStep, h]

theorem advanceStep_of_end {s : State} {pos : Nat} (h : s.sync = .locked pos) (hl : s.curLen = some (pos + 1)) :
    advanceStep s = { frameEnd s with stage := .dibit } := by
  simp [advanceStep, h, hl]

theorem advanceStep_of_more {s : State} {pos : Nat} (h : s.sync = .locked pos) (hl : s.curLen ≠ some (pos + 1)) :
    advanceStep s = { s with sync := .locked (pos + 1), stage := .dibit } := by
  simp [advanceStep, h, hl]

theorem bodyFixed_of_complete {c : FrameClass} {fec : List Bool → BitVec 12 → Nat → DataUnit} {s : State}
    (h : s.fbits.length = 64 + bodyBits c) :
    bodyFixed c fec s = handOver (fec (bitsAt 64 (bodyBits c) s.fbits) s.nacCur s.now) s := by
  simp [bodyFixed, h]

theorem bodyFixed_of_incomplete {c : FrameClass} {fec : List Bool → BitVec 12 → Nat → DataUnit} {s : State}
    (h : s.fbits.length ≠ 64 + bodyBits c) : bodyFixed c fec s = s := by
  simp [bodyFixed, h]

theorem tsduBlock_of_incomplete {s : State} (h : s.tsduEnd ≠ none ∨ s.fbits.length ≠ 64 + 196 * (s.tsbkN + 1)) :
    tsduBlock s = s := by
  unfold tsduBlock
  rw [if_neg]
  tauto

theorem tsduBlock_of_more {s : State} (he : s.tsduEnd = none) (hl : s.fbits.length = 64 + 196 * (s.tsbkN + 1))
    (hm : tsduEnds (fecTsbk (bitsAt (64 + 196 * s.tsbkN) 196 s.fbits) s.nacCur s.now) (s.tsbkN + 1) = false) :
    tsduBlock s =
      handOver (fecTsbk (bitsAt (64 + 196 * s.tsbkN) 196 s.fbits) s.nacCur s.now) { s with tsbkN := s.tsbkN + 1 } := by
  unfold tsduBlock
  rw [if_pos ⟨he, hl⟩]
  simp [hm]

theorem tsduBlock_of_last {s : State} (he : s.tsduEnd = none) (hl : s.fbits.length = 64 + 196 * (s.tsbkN + 1))
    (hm : tsduEnds (fecTsbk (bitsAt (64 + 196 * s.tsbkN) 196 s.fbits) s.nacCur s.now) (s.tsbkN + 1) = true) :
    tsduBlock s =
      handOver (fecTsbk (bitsAt (64 + 196 * s.tsbkN) 196 s.fbits) s.nacCur s.now)
        { s with
          tsbkN := s.tsbkN + 1, tsduEnd := some (tsduDibits (s.tsbkN + 1))
          curLen := some (paddedLen (tsduDibits (s.tsbkN + 1))) } := by
  unfold tsduBlock
  rw [if_pos ⟨he, hl⟩]
  simp [hm]

theorem pduBody_of_none {s : State} (h : s.pduHdr = none) : pduBody s = s := by
  simp [pduBody, h]

end Sys2Proof.Machine
end

