-- ==== Sys2Proof/Laws/HostPort.lean ====
section
/-! SUPPORT. What boot, the Ingest step and the start of a Decode step answer, case by case. -/

namespace Sys2Proof.Machine

theorem eventStep_of_nil {s : State} (h : s.events = []) : eventStep s = .next s := by
  simp [eventStep, h]

theorem ingestStep_of_fail (s : State) : ingestStep .fail s = .next (raise (.e5 .readCall) s) := rfl

theorem ingestStep_of_block {samples : List Cplx} {s : State} (h : samples.length = s.cfg.blockLen) :
    ingestStep (.ok samples) s = .next (ingestBlock samples s) := by
  simp [ingestStep, h]

theorem ingestBlock_of_room {samples : List Cplx} {s : State} (h : s.queue.length < s.cfg.queueCap) :
    ingestBlock samples s = { s with nextSeq := s.nextSeq + 1, queue := s.queue ++ [⟨s.nextSeq, samples⟩] } := by
  exact enqueueOrDrop_of_room (s := { s with nextSeq := s.nextSeq + 1 }) h

theorem ingestBlock_of_full {samples : List Cplx} {s : State} (h : s.cfg.queueCap ≤ s.queue.length) :
    ingestBlock samples s = { s with nextSeq := s.nextSeq + 1, raised := .e3 s.nextSeq :: s.raised } := by
  exact enqueueOrDrop_of_full (s := { s with nextSeq := s.nextSeq + 1 }) h

theorem decodeStep_of_nil {s : State} (h : s.queue = []) : decodeStep s = s := by
  simp [decodeStep, h]

theorem decodeStep_of_cons {s : State} {blk : SampleBlock} {rest : List SampleBlock} (h : s.queue = blk :: rest) :
    decodeStep s = beginBlock blk { s with queue := rest } := by
  simp [decodeStep, h]

theorem blockTick_of_control {s : State} (h : s.role = .controlChannel) : blockTick s = { s with cmd := none } := by
  simp [blockTick, h]

theorem blockTick_of_timeout {s : State} {f la : Nat} {tg : BitVec 16} (h : s.role = .trafficChannel f tg la)
    (ht : timedOut s.cfg.timeoutSamples s.now la = true) :
    blockTick s = { s with role := .controlChannel, cmd := some ⟨s.controlFreq, .timeout⟩ } := by
  simp [blockTick, h, ht]

theorem blockTick_of_active {s : State} {f la : Nat} {tg : BitVec 16} (h : s.role = .trafficChannel f tg la)
    (ht : timedOut s.cfg.timeoutSamples s.now la = false) : blockTick s = { s with cmd := none } := by
  simp [blockTick, h, ht]

theorem timedOut_eq_true {timeout now la : Nat} : timedOut timeout now la = true ↔ la + timeout ≤ now := by
  simp only [timedOut, decide_eq_true_eq]
  omega

end Sys2Proof.Machine
end

