-- ==== Sys2Proof/Laws/Step.lean ====
section
/-! SUPPORT. What one step can do, said once. -/

namespace Sys2Proof.Machine

/-- Every meaning answers a next state: no operation of the table stops the machine. -/
theorem exec_next (i : Instr) (s : State) : ∃ t, exec i s = .next t := by
  cases i with
  | frameHdu nac => simp only [exec, execFrameHdu]; split <;> exact ⟨_, rfl⟩
  | frameTdu nac => simp only [exec, execFrameTdu]; split <;> exact ⟨_, rfl⟩
  | frameLdu1 nac => simp only [exec, execFrameLdu1]; split <;> exact ⟨_, rfl⟩
  | frameTsdu nac => simp only [exec, execFrameTsdu]; split <;> exact ⟨_, rfl⟩
  | frameLdu2 nac => simp only [exec, execFrameLdu2]; split <;> exact ⟨_, rfl⟩
  | framePdu nac => simp only [exec, execFramePdu]; split <;> exact ⟨_, rfl⟩
  | frameTdulc nac => simp only [exec, execFrameTdulc]; split <;> exact ⟨_, rfl⟩
  | grpVChGrant _ _ _ _ _ _ => exact ⟨_, rfl⟩
  | grpVChGrantUpdt _ _ _ _ _ _ => exact ⟨_, rfl⟩
  | idenUpVu _ _ _ _ _ _ _ => exact ⟨_, rfl⟩
  | idenUp _ _ _ _ _ _ _ => exact ⟨_, rfl⟩
  | tsbkOther _ _ _ _ _ => exact ⟨_, rfl⟩
  | setFreq _ => exact ⟨_, rfl⟩
  | setGain _ => exact ⟨_, rfl⟩
  | setPpm _ => exact ⟨_, rfl⟩

theorem step_of_instr {s t : State} {i : Instr} (hf : fetch s = .instr i) (he : exec i s = .next t) :
    step s = .next (retire s.stage t) := by
  simp [step, hf, he]

theorem step_of_wait {s : State} (hf : fetch s = .wait) : step s = .next s := by simp [step, hf]

theorem step_of_reserved {s : State} (hf : fetch s = .reserved) : step s = .refused .reservedCommand := by
  simp [step, hf]

theorem step_of_pipeline {s : State} (hf : fetch s = .pipeline) : step s = pipeline s := by simp [step, hf]

/-- The only refusal of a step is a reserved word on P_CMD. -/
theorem step_refused {s : State} {r : Refusal} (h : step s = .refused r) :
    r = .reservedCommand ∧ (fetch s = .reserved ∨ pipeline s = .refused r) := by
  cases hf : fetch s with
  | instr i =>
    obtain ⟨t, ht⟩ := exec_next i s
    simp [step_of_instr hf ht] at h
  | wait => simp [step_of_wait hf] at h
  | reserved => simp [step_of_reserved hf] at h; exact ⟨h.symm, .inl rfl⟩
  | pipeline =>
    rw [step_of_pipeline hf] at h
    refine ⟨?_, .inr h⟩
    simp only [pipeline, eventStep, ingestStep] at h
    repeat' split at h
    all_goals simp_all

theorem fetchCmd_ne_pipeline (s : State) : fetchCmd s ≠ .pipeline := by
  unfold fetchCmd
  (repeat' split) <;> simp

/-- A word on P_CMD is never left to the pipeline. -/
theorem fetch_pipeline_not_send {s : State} (hf : fetch s = .pipeline)
    (hr : s.runState = .booting ∨ s.runState = .running) (r : SendFor) : s.stage ≠ .send r := by
  intro hs
  rcases hr with hr | hr <;> simp only [fetch, hr, hs] at hf <;> exact fetchCmd_ne_pipeline s hf

/-- What the pipeline does at each position of a running block. -/
inductive RunningCase (s : State) : State → Prop where
  | event {t : State} (hs : s.stage = .idle) (h : eventStep s = .next t) : RunningCase s t
  | sending (r : SendFor) (hs : s.stage = .send r) : RunningCase s s
  | sent (r : SendFor) (hs : s.stage = .sent r) : RunningCase s (afterCommand r s)
  | sample (hs : s.stage = .sample) : RunningCase s (sampleStep s)
  | dibit (hs : s.stage = .dibit) : RunningCase s (dibitStep s)
  | frame (hs : s.stage = .frame) : RunningCase s (framePipeline s)
  | tsm (hs : s.stage = .tsm) : RunningCase s (tsmPipeline s)
  | tune (src : TuneFrom) (hs : s.stage = .tune src) : RunningCase s (tuneStep src s)
  | route (hs : s.stage = .route) : RunningCase s (routeStep s)
  | advance (hs : s.stage = .advance) : RunningCase s (advanceStep s)

/-- Everything a step can do. -/
inductive StepCase (s : State) : State → Prop where
  /-- an operation of the table -/
  | instr (i : Instr) (t : State) (hf : fetch s = .instr i) (he : exec i s = .next t) : StepCase s (retire s.stage t)
  /-- a call has not returned -/
  | wait (hf : fetch s = .wait) : StepCase s s
  /-- the block has stopped for good -/
  | halt (h : halted s = true) : StepCase s (haltStep s)
  /-- boot, between its words -/
  | bootSent (r : SendFor) (hr : s.runState = .booting) (hs : s.stage = .sent r) : StepCase s (afterCommand r s)
  /-- before START, or an event while booting -/
  | bootEvent {t : State} (hr : s.runState = .booting) (hn : ∀ r, s.stage ≠ .sent r) (hw : ∀ r, s.stage ≠ .send r)
      (h : eventStep s = .next t) : StepCase s t
  /-- a pipeline operation of a running block -/
  | running {t : State} (hr : s.runState = .running) (hf : fetch s = .pipeline) (h : RunningCase s t) : StepCase s t

/-- The inversion of `step`. -/
theorem step_cases {s t : State} (h : step s = .next t) : StepCase s t := by
  cases hf : fetch s with
  | instr i =>
    obtain ⟨u, hu⟩ := exec_next i s
    rw [step_of_instr hf hu] at h
    cases h
    exact .instr i u hf hu
  | wait =>
    rw [step_of_wait hf] at h
    cases h
    exact .wait hf
  | reserved => simp [step_of_reserved hf] at h
  | pipeline =>
    rw [step_of_pipeline hf] at h
    cases hr : s.runState with
    | fatal e =>
      simp only [pipeline, hr] at h
      cases h
      exact .halt (by simp [halted, hr])
    | stopped =>
      simp only [pipeline, hr] at h
      cases h
      exact .halt (by simp [halted, hr])
    | booting =>
      cases hs : s.stage with
      | sent r =>
        simp only [pipeline, hr, hs] at h
        cases h
        exact .bootSent r hr hs
      | _ =>
        simp only [pipeline, hr, hs] at h
        exact .bootEvent hr (by simp [hs]) (fun r => fetch_pipeline_not_send hf (.inl hr) r) h
    | running =>
      refine .running hr hf ?_
      cases hs : s.stage with
      | idle => simp only [pipeline, hr, hs] at h; exact .event hs h
      | send r => simp only [pipeline, hr, hs] at h; cases h; exact .sending r hs
      | sent r => simp only [pipeline, hr, hs] at h; cases h; exact .sent r hs
      | sample => simp only [pipeline, hr, hs] at h; cases h; exact .sample hs
      | dibit => simp only [pipeline, hr, hs] at h; cases h; exact .dibit hs
      | frame => simp only [pipeline, hr, hs] at h; cases h; exact .frame hs
      | tsm => simp only [pipeline, hr, hs] at h; cases h; exact .tsm hs
      | tune src => simp only [pipeline, hr, hs] at h; cases h; exact .tune src hs
      | route => simp only [pipeline, hr, hs] at h; cases h; exact .route hs
      | advance => simp only [pipeline, hr, hs] at h; cases h; exact .advance hs

/-- What holds at reset and is kept by every step holds of every state reached. -/
theorem reaches_induct {P : State → Prop} {s t : State} (h : Reaches s t) (h0 : P s)
    (hk : ∀ u v, P u → step u = .next v → P v) : P t := by
  induction h with
  | refl => exact h0
  | tail _ hs ih => exact hk _ _ ih hs

end Sys2Proof.Machine
end

