-- ==== Sys2Proof/Laws/Effects.lean ====
section
/-! SUPPORT. Which fields each kind of operation can write, said once; and what a fetched operation says about the state it
was fetched in. -/

namespace Sys2Proof.Machine

/-! ## Fetch -/

/-- A frame-class operation. -/
def isFrameInstr : Instr → Bool
  | .frameHdu _ => true
  | .frameTdu _ => true
  | .frameLdu1 _ => true
  | .frameTsdu _ => true
  | .frameLdu2 _ => true
  | .framePdu _ => true
  | .frameTdulc _ => true
  | _ => false

/-- A TSBK operation. -/
def isTsbkInstr : Instr → Bool
  | .grpVChGrant _ _ _ _ _ _ => true
  | .grpVChGrantUpdt _ _ _ _ _ _ => true
  | .idenUpVu _ _ _ _ _ _ _ => true
  | .idenUp _ _ _ _ _ _ _ => true
  | .tsbkOther _ _ _ _ _ => true
  | _ => false

/-- A command. -/
def isCmdInstr : Instr → Bool
  | .setFreq _ => true
  | .setGain _ => true
  | .setPpm _ => true
  | _ => false

theorem dispatchDuid_frame {nac : BitVec 12} {duid : BitVec 4} {i : Instr} (h : dispatchDuid nac duid = some i) :
    isFrameInstr i = true := by
  unfold dispatchDuid at h
  repeat' split at h
  all_goals first | (cases h; rfl) | cases h

theorem decodeNid_frame {w : Word64} {i : Instr} (h : decodeNid w = .ok i) : isFrameInstr i = true := by
  unfold decodeNid at h
  repeat' split at h
  all_goals cases h
  exact dispatchDuid_frame ‹_›

theorem dispatchTsbk_tsbk (o : Octets12) : isTsbkInstr (dispatchTsbk o) = true := by
  simp only [dispatchTsbk]
  repeat' split
  all_goals rfl

theorem decodeCmd_cmd {w : Word64} {i : Instr} (h : decodeCmd w = .ok i) : isCmdInstr i = true := by
  simp only [decodeCmd] at h
  repeat' split at h
  all_goals first | (cases h; rfl) | cases h

/-- Where an operation was fetched. -/
inductive FetchCase (s : State) (i : Instr) : Prop where
  /-- a frame-class operation, at a data dibit of a running block -/
  | frame (hr : s.runState = .running) (hs : s.stage = .frame) (hi : isFrameInstr i = true)
      (hc : (s.cls = none ∧ s.fbits.length = 64 ∧ decodeNid (bitsToBV 64 s.fbits) = .ok i) ∨
        ∃ c, s.cls = some c ∧ classInstr c s.nacCur = some i)
  /-- a TSBK operation, with a valid signaling block at the arbiter of a running block -/
  | tsbk (time : Nat) (nac : BitVec 12) (o : Octets12) (hr : s.runState = .running) (hs : s.stage = .tsm)
      (hu : s.unit = some ⟨.trunkingSignalingBlock, true, time, nac, some (.tsbk o)⟩) (hi : i = dispatchTsbk o)
  /-- a command, with a word on P_CMD and a reply to it -/
  | cmd (r : SendFor) (hr : s.runState = .running ∨ s.runState = .booting) (hs : s.stage = .send r)
      (hp : s.replies ≠ []) (hd : decodeCmd s.cmdWord = .ok i)

theorem fetchFrame_instr {s : State} {i : Instr} (h : fetchFrame s = .instr i) :
    isFrameInstr i = true ∧
      ((s.cls = none ∧ s.fbits.length = 64 ∧ decodeNid (bitsToBV 64 s.fbits) = .ok i) ∨
        ∃ c, s.cls = some c ∧ classInstr c s.nacCur = some i) := by
  unfold fetchFrame at h
  split at h
  · rename_i c hc
    split at h
    · rename_i j hj
      cases h
      refine ⟨?_, .inr ⟨c, hc, hj⟩⟩
      cases c <;> simp [classInstr] at hj <;> subst hj <;> rfl
    · cases h
  · rename_i hc
    split at h
    · rename_i hd
      split at h
      · rename_i j hj
        cases h
        refine ⟨decodeNid_frame hj, .inl ⟨hc, ?_, hj⟩⟩
        simp only [nidDue, Bool.and_eq_true, beq_iff_eq] at hd
        exact hd.2
      · cases h
    · cases h

theorem fetchTsm_instr {s : State} {i : Instr} (h : fetchTsm s = .instr i) :
    ∃ time nac o, s.unit = some ⟨.trunkingSignalingBlock, true, time, nac, some (.tsbk o)⟩ ∧ i = dispatchTsbk o := by
  unfold fetchTsm at h
  split at h
  · rename_i time nac o hu
    cases h
    exact ⟨time, nac, o, hu, rfl⟩
  · cases h

theorem fetchCmd_instr {s : State} {i : Instr} (h : fetchCmd s = .instr i) :
    s.replies ≠ [] ∧ decodeCmd s.cmdWord = .ok i := by
  unfold fetchCmd at h
  split at h
  · cases h
  · rename_i hr
    split at h
    · rename_i j hj
      cases h
      exact ⟨by simp [hr], hj⟩
    · cases h

theorem fetch_instr {s : State} {i : Instr} (h : fetch s = .instr i) : FetchCase s i := by
  unfold fetch at h
  split at h
  · rename_i hr
    split at h
    · rename_i hs
      obtain ⟨hi, hc⟩ := fetchFrame_instr h
      exact .frame hr hs hi hc
    · rename_i hs
      obtain ⟨time, nac, o, hu, hi⟩ := fetchTsm_instr h
      exact .tsbk time nac o hr hs hu hi
    · rename_i r hs
      obtain ⟨hp, hd⟩ := fetchCmd_instr h
      exact .cmd r (.inl hr) hs hp hd
    · cases h
  · rename_i hr
    split at h
    · rename_i r hs
      obtain ⟨hp, hd⟩ := fetchCmd_instr h
      exact .cmd r (.inr hr) hs hp hd
    · cases h
  · cases h
  · cases h

/-! ## What an operation can write -/

/-- A frame-class operation writes the Frame Synchronizer's elements, the DataUnit in flight and the list of errors. -/
theorem exec_frame_effect {i : Instr} {s t : State} (hi : isFrameInstr i = true) (h : exec i s = .next t) :
    ∃ sync win fbits curLen lastLen cls failCount frameFailed tsbkN tsduEnd pduHdr nacCur unit raised,
      t = { s with
        sync := sync, win := win, fbits := fbits, curLen := curLen, lastLen := lastLen, cls := cls
        failCount := failCount, frameFailed := frameFailed, tsbkN := tsbkN, tsduEnd := tsduEnd, pduHdr := pduHdr
        nacCur := nacCur, unit := unit, raised := raised } := by
  have hand : ∀ du u, ∃ ff un ra, handOver du u = { u with frameFailed := ff, unit := un, raised := ra } := by
    intro du u
    cases hv : du.valid with
    | true => exact ⟨u.frameFailed, _, u.raised, handOver_of_valid hv⟩
    | false => exact ⟨_, _, _, handOver_of_invalid hv⟩
  cases i with
  | frameHdu nac =>
    simp only [exec, execFrameHdu] at h
    split at h <;> cases h
    · exact ⟨_, _, _, _, _, _, _, _, _, _, _, _, _, _, rfl⟩
    · unfold bodyFixed
      split
      · obtain ⟨a, b, c, e⟩ := hand (fecHdu (bitsAt 64 (bodyBits .hdu) s.fbits) s.nacCur s.now) s
        rw [e]
        exact ⟨_, _, _, _, _, _, _, _, _, _, _, _, _, _, rfl⟩
      · exact ⟨_, _, _, _, _, _, _, _, _, _, _, _, _, _, rfl⟩
  | frameTdu nac =>
    simp only [exec, execFrameTdu] at h
    split at h <;> cases h
    · obtain ⟨a, b, c, e⟩ := hand (fecTdu nac s.now) (frameStart .tdu nac s)
      rw [e]
      exact ⟨_, _, _, _, _, _, _, _, _, _, _, _, _, _, rfl⟩
    · exact ⟨_, _, _, _, _, _, _, _, _, _, _, _, _, _, rfl⟩
  | frameLdu1 nac =>
    simp only [exec, execFrameLdu1] at h
    split at h <;> cases h
    · exact ⟨_, _, _, _, _, _, _, _, _, _, _, _, _, _, rfl⟩
    · unfold bodyFixed
      split
      · obtain ⟨a, b, c, e⟩ := hand (fecLdu1 (bitsAt 64 (bodyBits .ldu1) s.fbits) s.nacCur s.now) s
        rw [e]
        exact ⟨_, _, _, _, _, _, _, _, _, _, _, _, _, _, rfl⟩
      · exact ⟨_, _, _, _, _, _, _, _, _, _, _, _, _, _, rfl⟩
  | frameLdu2 nac =>
    simp only [exec, execFrameLdu2] at h
    split at h <;> cases h
    · exact ⟨_, _, _, _, _, _, _, _, _, _, _, _, _, _, rfl⟩
    · unfold bodyFixed
      split
      · obtain ⟨a, b, c, e⟩ := hand (fecLdu2 (bitsAt 64 (bodyBits .ldu2) s.fbits) s.nacCur s.now) s
        rw [e]
        exact ⟨_, _, _, _, _, _, _, _, _, _, _, _, _, _, rfl⟩
      · exact ⟨_, _, _, _, _, _, _, _, _, _, _, _, _, _, rfl⟩
  | frameTdulc nac =>
    simp only [exec, execFrameTdulc] at h
    split at h <;> cases h
    · exact ⟨_, _, _, _, _, _, _, _, _, _, _, _, _, _, rfl⟩
    · unfold bodyFixed
      split
      · obtain ⟨a, b, c, e⟩ := hand (fecTdulc (bitsAt 64 (bodyBits .tdulc) s.fbits) s.nacCur s.now) s
        rw [e]
        exact ⟨_, _, _, _, _, _, _, _, _, _, _, _, _, _, rfl⟩
      · exact ⟨_, _, _, _, _, _, _, _, _, _, _, _, _, _, rfl⟩
  | frameTsdu nac =>
    simp only [exec, execFrameTsdu] at h
    split at h <;> cases h
    · exact ⟨_, _, _, _, _, _, _, _, _, _, _, _, _, _, rfl⟩
    · simp only [tsduBlock]
      split
      · split
        · obtain ⟨a, b, c, e⟩ := hand (fecTsbk (bitsAt (64 + 196 * s.tsbkN) 196 s.fbits) s.nacCur s.now)
            { s with
              tsbkN := s.tsbkN + 1, tsduEnd := some (tsduDibits (s.tsbkN + 1))
              curLen := some (paddedLen (tsduDibits (s.tsbkN + 1))) }
          rw [e]
          exact ⟨_, _, _, _, _, _, _, _, _, _, _, _, _, _, rfl⟩
        · obtain ⟨a, b, c, e⟩ := hand (fecTsbk (bitsAt (64 + 196 * s.tsbkN) 196 s.fbits) s.nacCur s.now)
            { s with tsbkN := s.tsbkN + 1 }
          rw [e]
          exact ⟨_, _, _, _, _, _, _, _, _, _, _, _, _, _, rfl⟩
      · exact ⟨_, _, _, _, _, _, _, _, _, _, _, _, _, _, rfl⟩
  | framePdu nac =>
    simp only [exec, execFramePdu] at h
    split at h <;> cases h
    · exact ⟨_, _, _, _, _, _, _, _, _, _, _, _, _, _, rfl⟩
    · have body : ∀ u : State, ∃ ff un ra ph,
          pduBody u = { u with frameFailed := ff, unit := un, raised := ra, pduHdr := ph } := by
        intro u
        unfold pduBody
        split
        · exact ⟨_, _, _, _, rfl⟩
        · split
          · rename_i hd _ _
            obtain ⟨a, b, c, e⟩ := hand (attachBlocks hd (u.fbits.drop 260)) u
            rw [e]
            exact ⟨_, _, _, _, rfl⟩
          · exact ⟨_, _, _, _, rfl⟩
      obtain ⟨a, b, c, d, e⟩ := body (pduHeader s)
      rw [e]
      simp only [pduHeader]
      split
      · split
        · exact ⟨_, _, _, _, _, _, _, _, _, _, _, _, _, _, rfl⟩
        · obtain ⟨a', b', c', e'⟩ := hand (fecPduHeader (bitsAt 64 196 s.fbits) s.nacCur s.now) s
          rw [e']
          unfold assumePriorLength
          split <;> split <;> exact ⟨_, _, _, _, _, _, _, _, _, _, _, _, _, _, rfl⟩
      · exact ⟨_, _, _, _, _, _, _, _, _, _, _, _, _, _, rfl⟩
  | _ => cases hi

theorem controlGrant_effect (chan tg : BitVec 16) (t : Nat) (s : State) :
    ∃ role controlFreq cmd raised,
      controlGrant chan tg t s =
        { s with role := role, controlFreq := controlFreq, cmd := cmd, raised := raised } := by
  unfold controlGrant
  cases hr : resolve chan s with
  | none => rw [tryGrant_of_unresolved hr]; exact ⟨_, _, _, _, rfl⟩
  | some f => rw [tryGrant_of_resolved hr]; cases monitored s.cfg.tgPolicy tg <;> exact ⟨_, _, _, _, rfl⟩

theorem trafficGrant_effect (cur chan tg : BitVec 16) (t : Nat) (s : State) :
    ∃ role cmd raised, trafficGrant cur chan tg t s = { s with role := role, cmd := cmd, raised := raised } := by
  unfold trafficGrant
  split
  · exact ⟨_, _, _, rfl⟩
  · split
    · exact ⟨_, _, _, rfl⟩
    · cases hr : resolve chan s with
      | none => rw [tryGrant_of_unresolved hr]; exact ⟨_, _, _, rfl⟩
      | some f => rw [tryGrant_of_resolved hr]; cases monitored s.cfg.tgPolicy tg <;> exact ⟨_, _, _, rfl⟩

theorem grantPair_effect (chan tg : BitVec 16) (t : Nat) (s : State) :
    ∃ role controlFreq cmd raised,
      grantPair chan tg t s =
        { s with role := role, controlFreq := controlFreq, cmd := cmd, raised := raised } := by
  unfold grantPair
  split
  · exact controlGrant_effect chan tg t s
  · obtain ⟨a, b, c, h⟩ := trafficGrant_effect ‹_› chan tg t s
    exact ⟨a, s.controlFreq, b, c, h⟩

theorem refresh_effect (t : Nat) (s : State) : ∃ role, refresh t s = { s with role := role } := by
  unfold refresh
  split <;> exact ⟨_, rfl⟩

theorem identifierUpdate_effect (b : BitVec 4) (e : BandEntry) (s : State) :
    ∃ chanMap, identifierUpdate b e s = { s with chanMap := chanMap, cmd := none } := by
  unfold identifierUpdate
  split <;> exact ⟨_, rfl⟩

/-- A TSBK operation writes the Trunking State Machine's elements, its command and the list of errors. -/
theorem exec_tsbk_effect {i : Instr} {s t : State} (hi : isTsbkInstr i = true) (h : exec i s = .next t) :
    ∃ role chanMap controlFreq cmd raised,
      t = { s with role := role, chanMap := chanMap, controlFreq := controlFreq, cmd := cmd, raised := raised } := by
  obtain ⟨r, hr⟩ := refresh_effect (unitTime s) s
  cases i with
  | grpVChGrant lb mfid svc chan tg src =>
    simp only [exec, execGrpVChGrant, hr] at h
    cases h
    obtain ⟨a, b, c, d, e⟩ := grantPair_effect chan tg (unitTime s) { s with role := r }
    rw [e]
    exact ⟨_, _, _, _, _, rfl⟩
  | grpVChGrantUpdt lb mfid chanA tgA chanB tgB =>
    simp only [exec, execGrpVChGrantUpdt, hr] at h
    obtain ⟨a, b, c, d, e⟩ := grantPair_effect chanA tgA (unitTime s) { s with role := r }
    rw [e] at h
    split at h <;> cases h
    · obtain ⟨a', b', c', d', e'⟩ := grantPair_effect chanB tgB (unitTime s)
        { s with role := a, controlFreq := b, cmd := c, raised := d }
      rw [e']
      exact ⟨_, _, _, _, _, rfl⟩
    · exact ⟨_, _, _, _, _, rfl⟩
  | idenUpVu lb mfid iden bwvu tx spacing base =>
    simp only [exec, execIdenUpVu, hr] at h
    cases h
    obtain ⟨m, e⟩ := identifierUpdate_effect iden
      { kind := .idenVU, baseHz := base.toNat * 5, spacingHz := spacing.toNat * 125,
        txOffsetRaw := tx, bwRaw := bwvu.setWidth 9 } { s with role := r }
    rw [e]
    exact ⟨_, _, _, _, _, rfl⟩
  | idenUp lb mfid iden bw tx spacing base =>
    simp only [exec, execIdenUp, hr] at h
    cases h
    obtain ⟨m, e⟩ := identifierUpdate_effect iden
      { kind := .iden, baseHz := base.toNat * 5, spacingHz := spacing.toNat * 125,
        txOffsetRaw := tx.setWidth 14, bwRaw := bw } { s with role := r }
    rw [e]
    exact ⟨_, _, _, _, _, rfl⟩
  | tsbkOther lb p opc mfid args =>
    simp only [exec, execTsbkOther, hr] at h
    cases h
    exact ⟨_, _, _, _, _, rfl⟩
  | _ => cases hi

/-- A command takes the reply and puts the word and the reply on record; an OK changes nothing else, a FAIL is a fatal
error. -/
theorem exec_cmd_effect {i : Instr} {s t : State} (hi : isCmdInstr i = true) (hp : s.replies ≠ [])
    (h : exec i s = .next t) :
    ∃ w rest,
      encode i = .cmd w ∧
        ((s.replies = .ok :: rest ∧ t = { s with replies := rest, out := .command w .ok :: s.out }) ∨
          ∃ e, e.fatal = true ∧ s.replies = .fail :: rest ∧
            t = { s with
              replies := rest, out := .command w .fail :: s.out, runState := .fatal e, raised := e :: s.raised }) := by
  have send : ∀ (w : Word64) (e : Error), e.fatal = true → sendCommand w e s = t →
      ∃ rest, (s.replies = .ok :: rest ∧ t = { s with replies := rest, out := .command w .ok :: s.out }) ∨
          ∃ e, e.fatal = true ∧ s.replies = .fail :: rest ∧
            t = { s with
              replies := rest, out := .command w .fail :: s.out, runState := .fatal e, raised := e :: s.raised } := by
    intro w e he ht
    cases hr : s.replies with
    | nil => exact absurd hr hp
    | cons q rest =>
      cases q with
      | ok => rw [sendCommand_of_ok hr] at ht; exact ⟨rest, .inl ⟨rfl, ht.symm⟩⟩
      | fail =>
        rw [sendCommand_of_fail hr, raise_of_fatal he] at ht
        exact ⟨rest, .inr ⟨e, he, rfl, ht.symm⟩⟩
  cases i with
  | setFreq freq =>
    simp only [exec, execSetFreq, Host.Outcome.next.injEq] at h
    obtain ⟨rest, hx⟩ := send _ _ rfl h
    exact ⟨_, rest, rfl, hx⟩
  | setGain gain =>
    simp only [exec, execSetGain, Host.Outcome.next.injEq] at h
    obtain ⟨rest, hx⟩ := send _ _ rfl h
    exact ⟨_, rest, rfl, hx⟩
  | setPpm ppm =>
    simp only [exec, execSetPpm, Host.Outcome.next.injEq] at h
    obtain ⟨rest, hx⟩ := send _ _ rfl h
    exact ⟨_, rest, rfl, hx⟩
  | _ => cases hi

end Sys2Proof.Machine
end

