-- ==== Sys2Proof/Laws/Pipeline.lean ====
section
/-! SUPPORT. Which fields each pipeline operation can write, and what an outside event can do, said once. -/

namespace Sys2Proof.Machine

theorem retire_effect (b : Stage) (t : State) : ∃ st, retire b t = { t with stage := st } := by
  unfold retire
  (repeat' split) <;> exact ⟨_, rfl⟩

/-- A turn of the sample loop writes the Demodulator's elements, S5, the run and the position. -/
theorem sampleStep_effect (s : State) :
    ∃ z hist y clk period run todo now idx left st,
      sampleStep s =
        { s with
          zPrev := z, mfHist := hist, yPrev := y, clk := clk, period := period, run := run, todo := todo, now := now
          idx := idx, discardLeft := left, stage := st } := by
  cases h : s.todo with
  | nil => rw [sampleStep_of_nil h]; exact ⟨_, _, _, _, _, _, _, _, _, _, _, rfl⟩
  | cons x rest =>
    by_cases hw : 0 < s.discardLeft
    · rw [sampleStep_of_window h hw]; exact ⟨_, _, _, _, _, _, _, _, _, _, _, rfl⟩
    · rw [sampleStep_of_open h (by omega)]
      obtain ⟨a, b, c, d, e, f, h1, _, _⟩ := demodSample_frame x
        { s with todo := rest, now := sampleTime s.cfg s.curSeq s.idx, idx := s.idx + 1 }
      rw [h1]
      exact ⟨_, _, _, _, _, _, _, _, _, _, _, rfl⟩

/-- A dibit step writes the Frame Synchronizer's elements, the run and the time. -/
theorem dibitStep_effect (s : State) :
    ∃ sync win fbits curLen lastLen cls failCount frameFailed tsbkN tsduEnd pduHdr run now st,
      dibitStep s =
        { s with
          sync := sync, win := win, fbits := fbits, curLen := curLen, lastLen := lastLen, cls := cls
          failCount := failCount, frameFailed := frameFailed, tsbkN := tsbkN, tsduEnd := tsduEnd, pduHdr := pduHdr
          run := run, now := now, stage := st } := by
  unfold dibitStep
  split
  · exact ⟨_, _, _, _, _, _, _, _, _, _, _, _, _, _, rfl⟩
  · unfold fsDibit
    split
    · simp only [searchStep, lock]
      split <;> exact ⟨_, _, _, _, _, _, _, _, _, _, _, _, _, _, rfl⟩
    · unfold lockedStep
      (repeat' split) <;> exact ⟨_, _, _, _, _, _, _, _, _, _, _, _, _, _, rfl⟩

/-- A NID that failed, or no operation: the Frame Synchronizer's elements and the list of errors. -/
theorem framePipeline_effect (s : State) :
    ∃ sync win fbits curLen lastLen cls failCount frameFailed tsbkN tsduEnd pduHdr raised,
      framePipeline s =
        { s with
          sync := sync, win := win, fbits := fbits, curLen := curLen, lastLen := lastLen, cls := cls
          failCount := failCount, frameFailed := frameFailed, tsbkN := tsbkN, tsduEnd := tsduEnd, pduHdr := pduHdr
          raised := raised, stage := .advance } := by
  unfold framePipeline nidFailed
  rw [raise_of_not_fatal rfl]
  unfold assumePriorLength forceSearch
  (repeat' split) <;> exact ⟨_, _, _, _, _, _, _, _, _, _, _, _, rfl⟩

/-- The end of a dibit step: the Frame Synchronizer's elements and the list of errors. -/
theorem advanceStep_effect (s : State) :
    ∃ sync win fbits curLen lastLen cls failCount frameFailed tsbkN tsduEnd pduHdr raised,
      advanceStep s =
        { s with
          sync := sync, win := win, fbits := fbits, curLen := curLen, lastLen := lastLen, cls := cls
          failCount := failCount, frameFailed := frameFailed, tsbkN := tsbkN, tsduEnd := tsduEnd, pduHdr := pduHdr
          raised := raised, stage := .dibit } := by
  unfold advanceStep
  split
  · exact ⟨_, _, _, _, _, _, _, _, _, _, _, _, rfl⟩
  · split
    · by_cases h : s.cfg.failLimit ≤ (closeFrame s).failCount
      · rw [frameEnd_of_streak h]; exact ⟨_, _, _, _, _, _, _, _, _, _, _, _, rfl⟩
      · rw [frameEnd_of_no_streak (Nat.not_le.mp h)]; exact ⟨_, _, _, _, _, _, _, _, _, _, _, _, rfl⟩
    · exact ⟨_, _, _, _, _, _, _, _, _, _, _, _, rfl⟩

/-- The arbiter on a unit that is no valid TSBK: the role and the command. -/
theorem tsmPipeline_effect (s : State) :
    ∃ role cmd, tsmPipeline s = { s with role := role, cmd := cmd, stage := .tune .delivery } := by
  unfold tsmPipeline tsmUnit refresh terminate
  simp only []
  (repeat' split) <;> exact ⟨_, _, rfl⟩

/-- The tuner up to its call: the command and the word. -/
theorem tuneStep_effect (src : TuneFrom) (s : State) :
    ∃ cmd w st, tuneStep src s = { s with cmd := cmd, cmdWord := w, stage := st } := by
  unfold tuneStep
  (repeat' split) <;> exact ⟨_, _, _, rfl⟩

/-- The router ends the unit and may send one record. -/
theorem routeStep_effect (s : State) :
    ∃ un out, routeStep s = { s with unit := un, out := out, stage := .advance } := by
  unfold routeStep
  (repeat' split) <;> exact ⟨_, _, rfl⟩

/-- The retune point: the tuner's, the Demodulator's and the Frame Synchronizer's elements, the run and the command. -/
theorem retuneSent_effect (src : TuneFrom) (s : State) :
    ∃ sync win fbits curLen lastLen cls failCount frameFailed tsbkN tsduEnd pduHdr tuned left z hist y clk period run cmd,
      retuneSent src s =
        { s with
          sync := sync, win := win, fbits := fbits, curLen := curLen, lastLen := lastLen, cls := cls
          failCount := failCount, frameFailed := frameFailed, tsbkN := tsbkN, tsduEnd := tsduEnd, pduHdr := pduHdr
          tunedFreq := tuned, discardLeft := left, zPrev := z, mfHist := hist, yPrev := y, clk := clk
          period := period, run := run, cmd := cmd, stage := afterTune src } := by
  unfold retuneSent applyRetune demodReset forceSearch
  split <;> exact ⟨_, _, _, _, _, _, _, _, _, _, _, _, _, _, _, _, _, _, _, _, rfl⟩

/-! ## Outside events -/

/-- Everything the next outside event can do. -/
inductive EventCase (s : State) : State → Prop where
  | none (he : s.events = []) : EventCase s s
  | start (c : StartConfig) (r : Status) (es : List Event) (hr : s.runState = .booting)
      (he : s.events = .start c r :: es) : EventCase s (bootStart c r { s with events := es })
  | shutdown (r : Status) (es : List Event) (hr : s.runState = .running) (he : s.events = .shutdown r :: es) :
      EventCase s (shutdown r { s with events := es })
  | readFail (es : List Event) (hr : s.runState = .running) (he : s.events = .ingest .fail :: es) :
      EventCase s (raise (.e5 .readCall) { s with events := es })
  | block (samples : List Cplx) (es : List Event) (hr : s.runState = .running)
      (he : s.events = .ingest (.ok samples) :: es) (hl : samples.length = s.cfg.blockLen) :
      EventCase s (ingestBlock samples { s with events := es })
  | decodeEmpty (es : List Event) (hr : s.runState = .running) (he : s.events = .decode :: es) (hq : s.queue = []) :
      EventCase s { s with events := es }
  | decode (blk : SampleBlock) (rest : List SampleBlock) (es : List Event) (hr : s.runState = .running)
      (he : s.events = .decode :: es) (hq : s.queue = blk :: rest) :
      EventCase s (beginBlock blk { s with events := es, queue := rest })
  | ignored (e : Event) (es : List Event) (he : s.events = e :: es) : EventCase s { s with events := es }

/-- The inversion of `eventStep`. -/
theorem eventStep_cases {s t : State} (h : eventStep s = .next t) : EventCase s t := by
  cases he : s.events with
  | nil =>
    rw [eventStep_of_nil he] at h
    cases h
    exact .none he
  | cons e es =>
    simp only [eventStep, he] at h
    cases hr : s.runState with
    | booting =>
      cases e with
      | start c r => simp only [hr] at h; cases h; rw [← hr]; exact .start c r es hr he
      | _ => simp only [hr] at h; cases h; rw [← hr]; exact .ignored _ es he
    | running =>
      cases e with
      | start c r => simp only [hr] at h; cases h; rw [← hr]; exact .ignored _ es he
      | shutdown r => simp only [hr] at h; cases h; rw [← hr]; exact .shutdown r es hr he
      | ingest read =>
        cases read with
        | fail => simp only [hr, ingestStep_of_fail] at h; cases h; rw [← hr]; exact .readFail es hr he
        | ok samples =>
          simp only [hr] at h
          by_cases hl : samples.length = s.cfg.blockLen
          · rw [ingestStep_of_block (by exact hl)] at h
            cases h
            rw [← hr]
            exact .block samples es hr he hl
          · simp [ingestStep, hl] at h
      | decode =>
        simp only [hr] at h
        cases h
        rw [← hr]
        obtain hq | ⟨blk, rest, hq⟩ : s.queue = [] ∨ ∃ blk rest, s.queue = blk :: rest := by cases s.queue <;> simp
        · rw [decodeStep_of_nil (s := { s with events := es }) hq]; exact .decodeEmpty es hr he hq
        · rw [decodeStep_of_cons (s := { s with events := es }) hq]; exact .decode blk rest es hr he hq
    | fatal f => simp only [hr] at h; cases h; rw [← hr]; exact .ignored _ es he
    | stopped => simp only [hr] at h; cases h; rw [← hr]; exact .ignored _ es he

/-- START: the configuration, the Demodulator's reset, the word, the stage, S1 and the histories. -/
theorem bootStart_effect (c : StartConfig) (r : Status) (s : State) :
    ∃ runState w st out raised,
      bootStart c r s =
        { demodReset { s with cfg := loadConfig c } with
          runState := runState, cmdWord := w, stage := st, out := out, raised := raised } := by
  simp only [bootStart]
  (repeat' split) <;> exact ⟨_, _, _, _, _, rfl⟩

/-- The gap check writes S4, and on a gap the Frame Synchronizer's and the Demodulator's elements. -/
theorem gapCheck_effect (seq : Nat) (s : State) :
    ∃ sync win fbits curLen lastLen cls failCount frameFailed tsbkN tsduEnd pduHdr z hist y clk period,
      gapCheck seq s =
        { s with
          lastSeq := some seq, sync := sync, win := win, fbits := fbits, curLen := curLen, lastLen := lastLen, cls := cls
          failCount := failCount, frameFailed := frameFailed, tsbkN := tsbkN, tsduEnd := tsduEnd, pduHdr := pduHdr
          zPrev := z, mfHist := hist, yPrev := y, clk := clk, period := period } := by
  simp only [gapCheck, demodReset, forceSearch]
  split <;> exact ⟨_, _, _, _, _, _, _, _, _, _, _, _, _, _, _, _, rfl⟩

/-- The start of a Decode step on the head of the queue. -/
theorem beginBlock_effect (blk : SampleBlock) (s : State) :
    ∃ role cmd, beginBlock blk s =
      { gapCheck blk.seq s with
        curSeq := blk.seq, idx := 0, todo := blk.samples, run := [], now := sampleTime s.cfg blk.seq 0
        role := role, cmd := cmd, stage := .tune .tick } := by
  have hc : (gapCheck blk.seq s).cfg = s.cfg := by
    simp only [gapCheck]
    split <;> rfl
  simp only [beginBlock, blockTick, hc]
  (repeat' split) <;> exact ⟨_, _, rfl⟩

/-- A block read: the number, and the queue or the list of errors. -/
theorem ingestBlock_effect (samples : List Cplx) (s : State) :
    ∃ queue raised,
      ingestBlock samples s = { s with nextSeq := s.nextSeq + 1, queue := queue, raised := raised } ∧
        (queue = s.queue ∨
          queue = s.queue ++ [⟨s.nextSeq, samples⟩] ∧ s.queue.length < s.cfg.queueCap) := by
  by_cases h : s.queue.length < s.cfg.queueCap
  · exact ⟨_, _, ingestBlock_of_room h, .inr ⟨rfl, h⟩⟩
  · exact ⟨_, _, ingestBlock_of_full (Nat.not_lt.mp h), .inl rfl⟩

end Sys2Proof.Machine
end

