-- ==== Sys2Proof/Laws/Arbiter.lean ====
section
/-! SUPPORT. What a TSBK operation can decide, said once: no command, with the role only refreshed and at most one ChannelMap
entry written; or a grant taken. -/

namespace Sys2Proof.Machine

/-- A grant of one pair: no command, or the role and the command of a resolved channel and a monitored talkgroup (R404,
R412). -/
theorem grantPair_cases (chan tg : BitVec 16) (t : Nat) (s : State) :
    (∃ raised, grantPair chan tg t s = { s with cmd := none, raised := raised }) ∨
    ∃ f reason, resolve chan s = some f ∧ monitored s.cfg.tgPolicy tg = true ∧
      ((s.role = .controlChannel ∧ grantPair chan tg t s =
          { s with role := .trafficChannel f tg t, controlFreq := s.tunedFreq, cmd := some ⟨f, reason⟩ }) ∨
        (s.role ≠ .controlChannel ∧ grantPair chan tg t s =
          { s with role := .trafficChannel f tg t, cmd := some ⟨f, reason⟩ })) := by
  unfold grantPair
  split
  · rename_i hrole
    unfold controlGrant
    cases hr : resolve chan s with
    | none => rw [tryGrant_of_unresolved hr]; exact .inl ⟨_, rfl⟩
    | some f =>
      rw [tryGrant_of_resolved hr]
      cases hm : monitored s.cfg.tgPolicy tg with
      | false => exact .inl ⟨s.raised, rfl⟩
      | true => exact .inr ⟨f, _, rfl, rfl, .inl ⟨hrole, rfl⟩⟩
  · rename_i f0 cur la hrole
    unfold trafficGrant
    split
    · exact .inl ⟨s.raised, rfl⟩
    · split
      · exact .inl ⟨s.raised, rfl⟩
      · cases hr : resolve chan s with
        | none => rw [tryGrant_of_unresolved hr]; exact .inl ⟨_, rfl⟩
        | some f =>
          rw [tryGrant_of_resolved hr]
          cases hm : monitored s.cfg.tgPolicy tg with
          | false => exact .inl ⟨s.raised, rfl⟩
          | true => exact .inr ⟨f, _, rfl, rfl, .inr ⟨by simp [hrole], rfl⟩⟩

/-- The entry an Identifier-Update can write: its fields come from a 32-bit base and a 10-bit spacing (R160). -/
def entryBounds (e : BandEntry) : Prop := e.baseHz ≤ (2 ^ 32 - 1) * 5 ∧ e.spacingHz ≤ 1023 * 125

/-- Everything a TSBK operation can do to the state. -/
inductive TsbkCase (i : Instr) (s : State) : State → Prop where
  /-- no command: the role is refreshed, E4 may be raised -/
  | nothing (raised : List Error) :
      TsbkCase i s { refresh (unitTime s) s with cmd := none, raised := raised }
  /-- an Identifier-Update in ControlChannel role -/
  | update (b : BitVec 4) (e : BandEntry) (hi : idenBand i = some b) (hr : s.role = .controlChannel)
      (he : entryBounds e) : TsbkCase i s { mapWrite b e s with cmd := none }
  /-- a grant taken in ControlChannel role -/
  | grant (chan tg : BitVec 16) (f : Nat) (reason : Reason) (raised : List Error) (hr : s.role = .controlChannel)
      (hf : resolve chan s = some f) (hm : monitored s.cfg.tgPolicy tg = true) :
      TsbkCase i s
        { s with
          role := .trafficChannel f tg (unitTime s), controlFreq := s.tunedFreq, cmd := some ⟨f, reason⟩
          raised := raised }
  /-- a grant taken in TrafficChannel role -/
  | preempt (chan tg : BitVec 16) (f : Nat) (reason : Reason) (raised : List Error) (hr : s.role ≠ .controlChannel)
      (hf : resolve chan s = some f) (hm : monitored s.cfg.tgPolicy tg = true) :
      TsbkCase i s
        { s with role := .trafficChannel f tg (unitTime s), cmd := some ⟨f, reason⟩, raised := raised }

theorem idenUpdate_case {i : Instr} {b : BitVec 4} {e : BandEntry} (hi : idenBand i = some b) (he : entryBounds e)
    (s : State) : TsbkCase i s (identifierUpdate b e (refresh (unitTime s) s)) := by
  cases hr : s.role with
  | controlChannel =>
    rw [refresh_of_control hr]
    simp only [identifierUpdate, hr]
    exact .update b e hi hr he
  | trafficChannel f tg la =>
    simp only [identifierUpdate, refresh_of_traffic hr]
    have h := TsbkCase.nothing (i := i) (s := s) s.raised
    rw [refresh_of_traffic hr] at h
    exact h

/-- A pair tried after the refresh. -/
theorem grantPair_case (i : Instr) (chan tg : BitVec 16) (s : State) :
    TsbkCase i s (grantPair chan tg (unitTime s) (refresh (unitTime s) s)) := by
  cases hr : s.role with
  | controlChannel =>
    rw [refresh_of_control hr]
    rcases grantPair_cases chan tg (unitTime s) s with ⟨ra, h⟩ | ⟨f, reason, hf, hm, ⟨_, h⟩ | ⟨hn, _⟩⟩
    · rw [h]
      have hx := TsbkCase.nothing (i := i) (s := s) ra
      rwa [refresh_of_control hr] at hx
    · rw [h]
      exact .grant chan tg f reason s.raised hr hf hm
    · exact absurd hr hn
  | trafficChannel f0 cur la =>
    have hn : s.role ≠ .controlChannel := by simp [hr]
    rw [refresh_of_traffic hr]
    rcases grantPair_cases chan tg (unitTime s) { s with role := .trafficChannel f0 cur (unitTime s) } with
      ⟨ra, h⟩ | ⟨f, reason, hf, hm, ⟨hc, _⟩ | ⟨_, h⟩⟩
    · rw [h]
      have hx := TsbkCase.nothing (i := i) (s := s) ra
      rwa [refresh_of_traffic hr] at hx
    · exact absurd hc (by simp)
    · rw [h]
      exact .preempt chan tg f reason s.raised hn hf hm

/-- The inversion of the TSBK operations. -/
theorem exec_tsbk_cases {i : Instr} {s t : State} (hi : isTsbkInstr i = true) (h : exec i s = .next t) :
    TsbkCase i s t := by
  cases i with
  | grpVChGrant lb mfid svc chan tg src =>
    simp only [exec, execGrpVChGrant] at h
    cases h
    exact grantPair_case _ chan tg s
  | grpVChGrantUpdt lb mfid chanA tgA chanB tgB =>
    simp only [exec, execGrpVChGrantUpdt, Host.Outcome.next.injEq] at h
    have ha := grantPair_case (.grpVChGrantUpdt lb mfid chanA tgA chanB tgB) chanA tgA s
    revert h
    generalize hA : grantPair chanA tgA (unitTime s) (refresh (unitTime s) s) = a
    rw [hA] at ha
    intro h
    cases ha with
    | nothing ra =>
      simp only [if_true] at h
      subst h
      cases hr : s.role with
      | controlChannel =>
        rw [refresh_of_control hr]
        rcases grantPair_cases chanB tgB (unitTime s) { s with cmd := none, raised := ra } with
          ⟨rb, h⟩ | ⟨f, reason, hf, hm, ⟨_, h⟩ | ⟨hn, _⟩⟩
        · rw [h]
          have hx := TsbkCase.nothing (i := .grpVChGrantUpdt lb mfid chanA tgA chanB tgB) (s := s) rb
          rwa [refresh_of_control hr] at hx
        · rw [h]
          exact .grant chanB tgB f reason ra hr hf hm
        · exact absurd hr hn
      | trafficChannel f0 cur la =>
        have hn : s.role ≠ .controlChannel := by simp [hr]
        rw [refresh_of_traffic hr]
        rcases grantPair_cases chanB tgB (unitTime s)
            { s with role := .trafficChannel f0 cur (unitTime s), cmd := none, raised := ra } with
          ⟨rb, h⟩ | ⟨f, reason, hf, hm, ⟨hc, _⟩ | ⟨_, h⟩⟩
        · rw [h]
          have hx := TsbkCase.nothing (i := .grpVChGrantUpdt lb mfid chanA tgA chanB tgB) (s := s) rb
          rwa [refresh_of_traffic hr] at hx
        · exact absurd hc (by simp)
        · rw [h]
          exact .preempt chanB tgB f reason ra hn hf hm
    | update b e hi' hr he => cases hi'
    | grant chan tg f reason ra hr hf hm =>
      simp only [reduceCtorEq, if_false] at h
      subst h
      exact .grant chan tg f reason ra hr hf hm
    | preempt chan tg f reason ra hr hf hm =>
      simp only [reduceCtorEq, if_false] at h
      subst h
      exact .preempt chan tg f reason ra hr hf hm
  | idenUpVu lb mfid iden bwvu tx spacing base =>
    simp only [exec, execIdenUpVu] at h
    cases h
    exact idenUpdate_case rfl ⟨by simp only; omega, by simp only; omega⟩ s
  | idenUp lb mfid iden bw tx spacing base =>
    simp only [exec, execIdenUp] at h
    cases h
    exact idenUpdate_case rfl ⟨by simp only; omega, by simp only; omega⟩ s
  | tsbkOther lb p opc mfid args =>
    simp only [exec, execTsbkOther] at h
    cases h
    have hx := TsbkCase.nothing (i := .tsbkOther lb p opc mfid args) (s := s) s.raised
    obtain ⟨r, hr⟩ := refresh_effect (unitTime s) s
    rw [hr] at hx ⊢
    exact hx
  | _ => cases hi

end Sys2Proof.Machine
end

