-- ==== Sys2Proof/Laws/BodyCodes.lean ====
section
/-! SUPPORT. What the decoders of the configured codes answer: an order undone, words within their code's capability restored,
nine frames. -/

namespace Sys2Proof.Machine

/-! ## Bits -/

@[simp] theorem length_bvToBits {n : Nat} (x : BitVec n) : (bvToBits x).length = n := by simp [bvToBits]

theorem bitsToNat_append (a : List Bool) (b : Bool) : bitsToNat (a ++ [b]) = 2 * bitsToNat a + b.toNat := by
  simp [bitsToNat, List.foldl_append]

theorem bitsToNat_bits (f : Nat → Bool) (n x : Nat) (h : ∀ i < n, f i = x.testBit (n - 1 - i)) :
    bitsToNat ((List.range n).map f) = x % 2 ^ n := by
  induction n generalizing x with
  | zero => simp [bitsToNat, Nat.mod_one]
  | succ n ih =>
    rw [List.range_succ, List.map_append, List.map_singleton, bitsToNat_append,
      ih (x / 2) (fun i hi => by rw [h i (by omega), Nat.testBit_div_two]; congr 1; omega), h n (by omega)]
    have h0 : n + 1 - 1 - n = 0 := by omega
    rw [h0, Nat.testBit_zero, Nat.pow_succ']
    have h2 : x % (2 * 2 ^ n) = x % 2 + 2 * (x / 2 % 2 ^ n) := Nat.mod_mul
    rcases Nat.mod_two_eq_zero_or_one x with h1 | h1 <;> simp [h1] at h2 ⊢ <;> omega

@[simp] theorem bitsToBV_bvToBits {n : Nat} (x : BitVec n) : bitsToBV n (bvToBits x) = x := by
  apply BitVec.eq_of_toNat_eq
  rw [bitsToBV, bvToBits, bitsToNat_bits _ n x.toNat (fun i hi => ?_), BitVec.toNat_ofNat, Nat.mod_mod,
    Nat.mod_eq_of_lt x.isLt]
  simp [BitVec.getMsbD, hi, BitVec.getLsbD]

theorem bitsToNat_lt (b : List Bool) : bitsToNat b < 2 ^ b.length := by
  induction b using List.reverseRecOn with
  | nil => simp [bitsToNat]
  | append_singleton a x ih =>
    rw [bitsToNat_append, List.length_append, List.length_singleton, Nat.pow_succ']
    have := Bool.toNat_le x
    omega

theorem testBit_bitsToNat (b : List Bool) (i : Nat) (h : i < b.length) :
    (bitsToNat b).testBit (b.length - 1 - i) = b[i] := by
  induction b using List.reverseRecOn with
  | nil => simp at h
  | append_singleton a x ih =>
    rw [bitsToNat_append, List.length_append, List.length_singleton]
    by_cases hi : i < a.length
    · have hs : a.length + 1 - 1 - i = (a.length - 1 - i) + 1 := by omega
      rw [hs, Nat.testBit_succ, List.getElem_append_left hi, ← ih hi]
      congr 1
      have := Bool.toNat_le x
      omega
    · have hi' : i = a.length := by simp at h; omega
      subst hi'
      have hs : a.length + 1 - 1 - a.length = 0 := by omega
      rw [hs, Nat.testBit_zero]
      cases x <;> simp

@[simp] theorem bvToBits_bitsToBV {n : Nat} {b : List Bool} (h : b.length = n) : bvToBits (bitsToBV n b) = b := by
  subst h
  apply List.ext_getElem (by simp)
  intro i h1 h2
  have hb := testBit_bitsToNat b i h2
  simp [bvToBits, bitsToBV, BitVec.getMsbD, BitVec.getLsbD, h2, Nat.mod_eq_of_lt (bitsToNat_lt b), hb]

/-! ## Orders -/

@[simp] theorem BitOrder.length_collect {n : Nat} (o : BitOrder n) (air : List Bool) : (o.collect air).length = n := by
  rw [BitOrder.collect, List.length_map, o.perm.length_eq, List.length_range]

@[simp] theorem BitOrder.length_spread {n : Nat} (o : BitOrder n) (bits : List Bool) : (o.spread bits).length = n := by
  simp [BitOrder.spread]

/-- The order undoes the interleaving (R341). -/
theorem BitOrder.collect_spread {n : Nat} (o : BitOrder n) {bits : List Bool} (h : bits.length = n) :
    o.collect (o.spread bits) = bits := by
  apply List.ext_getElem (by simp [h])
  intro i h1 h2
  have hl : i < o.order.length := by rw [o.perm.length_eq, List.length_range]; omega
  have hm : o.order[i] < n := by
    have := (o.perm.mem_iff (a := o.order[i])).mp (List.getElem_mem hl)
    simpa using this
  have hd : o.order.Nodup := o.perm.nodup_iff.mpr List.nodup_range
  simp [BitOrder.collect, BitOrder.spread, hm, hd.idxOf_getElem i hl, h2]

/-! ## Words -/

@[simp] theorem allSome_map_some {α : Type} (xs : List α) : allSome (xs.map some) = some xs := by
  induction xs with
  | nil => rfl
  | cons x xs ih => rw [List.map_cons, allSome, ih]

theorem allSome_eq_some {α : Type} {os : List (Option α)} {xs : List α} : allSome os = some xs ↔ os = xs.map some := by
  induction os generalizing xs with
  | nil => cases xs <;> simp [allSome]
  | cons o os ih =>
    cases o with
    | none => cases xs <;> simp [allSome]
    | some y =>
      rw [allSome]
      cases ho : allSome os with
      | none =>
        cases xs with
        | nil => simp
        | cons x xs =>
          simp only [List.map_cons, List.cons.injEq]
          refine ⟨fun h => (by cases h), fun h => ?_⟩
          rw [← ih, ho] at h
          cases h.2
      | some ys =>
        cases xs with
        | nil => simp
        | cons x xs => simp [← ih, ho]

theorem length_of_allSome {α : Type} {os : List (Option α)} {xs : List α} (h : allSome os = some xs) :
    xs.length = os.length := by rw [allSome_eq_some.mp h, List.length_map]

@[simp] theorem length_wordsAt (start n count : Nat) (b : List Bool) : (wordsAt start n count b).length = count := by
  simp [wordsAt]

theorem length_decodeWords {k n d t : Nat} {c : WordCode k n d t} {start count : Nat} {b : List Bool} {xs : List (BitVec k)}
    (h : decodeWords c start count b = some xs) : xs.length = count := by
  simpa using length_of_allSome h

@[simp] theorem length_encodeWords {k n d t : Nat} (c : WordCode k n d t) (ms : List (BitVec k)) :
    (encodeWords c ms).length = n * ms.length := by
  induction ms with
  | nil => rfl
  | cons m ms ih =>
    simp only [encodeWords, List.flatMap_cons, List.length_append, length_bvToBits] at ih ⊢
    rw [ih, List.length_cons, Nat.mul_add, Nat.mul_one, Nat.add_comm]

/-- What decoding words gives: data whose codewords each lie within the code's capability of the word received, and nothing else
(R342, C9). -/
theorem decodeWords_eq_some {k n d t : Nat} {c : WordCode k n d t} {start count : Nat} {b : List Bool} {ms : List (BitVec k)} :
    decodeWords c start count b = some ms ↔
      ms.length = count ∧
        ∀ i (hi : i < ms.length), bitErrors (c.encode ms[i]) (bitsToBV n (bitsAt (start + n * i) n b)) ≤ t := by
  refine ⟨fun h => ⟨length_decodeWords h, fun i hi => ?_⟩, fun ⟨hl, h⟩ => ?_⟩
  · have hl := length_decodeWords h
    rw [decodeWords, allSome_eq_some] at h
    have := congrArg (fun l => l[i]?) h
    exact (c.decode_eq_some _ _).mp (by simpa [wordsAt, hl ▸ hi, hi] using this)
  · rw [decodeWords, allSome_eq_some]
    apply List.ext_getElem (by simp [hl])
    intro i h1 h2
    have hi : i < ms.length := by simpa using h2
    simpa [wordsAt] using (c.decode_eq_some _ _).mpr (h i hi)

/-- More errors than the code repairs, few enough for its distance, are detected (R342 (b)). -/
theorem decode_eq_none_of_detected {k n d t : Nat} (c : WordCode k n d t) {m : BitVec k} {r : BitVec n}
    (hb : t < bitErrors (c.encode m) r) (hd : bitErrors (c.encode m) r + t < d) : c.decode r = none := by
  cases h : c.decode r with
  | none => rfl
  | some x =>
    have hx := (c.decode_eq_some x r).mp h
    have hne : m ≠ x := by rintro rfl; omega
    have h1 := c.distance m x hne
    have h2 := bitErrors_triangle (c.encode m) r (c.encode x)
    have h3 : bitErrors r (c.encode x) = bitErrors (c.encode x) r := differences_comm _ _
    omega

/-- One word that does not decode and none of them do (R345). -/
theorem decodeWords_eq_none {k n d t : Nat} {c : WordCode k n d t} {start count i : Nat} {b : List Bool} (hi : i < count)
    (h : c.decode (bitsToBV n (bitsAt (start + n * i) n b)) = none) : decodeWords c start count b = none := by
  cases hd : decodeWords c start count b with
  | none => rfl
  | some xs =>
    obtain ⟨hl, hx⟩ := decodeWords_eq_some.mp hd
    rw [(c.decode_eq_some _ _).mpr (hx i (by omega))] at h
    cases h

theorem bitsAt_append_left {start len : Nat} {a b : List Bool} (h : start + len ≤ a.length) :
    bitsAt start len (a ++ b) = bitsAt start len a := by
  rw [bitsAt, bitsAt, List.drop_append_of_le_length (by omega), List.take_append_of_le_length (by simp; omega)]

theorem bitsAt_append_right {start len : Nat} {a b : List Bool} (h : a.length ≤ start) :
    bitsAt start len (a ++ b) = bitsAt (start - a.length) len b := by
  rw [bitsAt, bitsAt, List.drop_append, List.drop_eq_nil_of_le h, List.nil_append]

theorem bitsAt_zero_of_length {len : Nat} {a : List Bool} (h : a.length = len) : bitsAt 0 len a = a := by
  rw [bitsAt, List.drop_zero, ← h, List.take_length]

theorem bitsAt_drop (start len k : Nat) (a : List Bool) : bitsAt start len (a.drop k) = bitsAt (k + start) len a := by
  rw [bitsAt, bitsAt, List.drop_drop]

@[simp] theorem length_bitsAt (start len : Nat) (a : List Bool) : (bitsAt start len a).length = min len (a.length - start) := by
  simp [bitsAt]

/-- The word at its place among the words sent. -/
theorem bitsAt_encodeWords {k n d t : Nat} (c : WordCode k n d t) (ms : List (BitVec k)) (i : Nat) (hi : i < ms.length) :
    bitsAt (n * i) n (encodeWords c ms) = bvToBits (c.encode ms[i]) := by
  induction ms generalizing i with
  | nil => simp at hi
  | cons m ms ih =>
    have hc : encodeWords c (m :: ms) = bvToBits (c.encode m) ++ encodeWords c ms := by simp [encodeWords]
    rw [hc]
    cases i with
    | zero =>
      rw [Nat.mul_zero, bitsAt_append_left (by simp), bitsAt_zero_of_length (by simp)]
      rfl
    | succ i =>
      rw [bitsAt_append_right (by rw [length_bvToBits, Nat.mul_succ]; omega), length_bvToBits]
      have : n * (i + 1) - n = n * i := by rw [Nat.mul_succ]; omega
      rw [this, ih i (by simpa using hi)]
      rfl

theorem differences_le_countP {α : Type} [DecidableEq α] (xs ys : List α) (p : Nat → Bool) (hl : xs.length = ys.length)
    (h : ∀ i (hi : i < xs.length), p i = false → xs[i] = ys[i]) : differences xs ys ≤ (List.range xs.length).countP p := by
  induction xs generalizing ys p with
  | nil => simp [differences]
  | cons x xs ih =>
    match ys, hl with
    | y :: ys, hl =>
      rw [differences, List.length_cons, List.range_succ_eq_map, List.countP_cons, List.countP_map]
      have hr := ih ys (p ∘ Nat.succ) (by simpa using hl) fun i hi hp => h (i + 1) (by simpa using hi) hp
      cases hp : p 0 with
      | true => split <;> simp <;> omega
      | false => simpa [show x = y from h 0 (by simp) hp] using hr

theorem countP_le_differences {α : Type} [DecidableEq α] (xs ys : List α) (p : Nat → Bool) (hl : xs.length = ys.length)
    (h : ∀ i (hi : i < xs.length), p i = true → xs[i] ≠ ys[i]) : (List.range xs.length).countP p ≤ differences xs ys := by
  induction xs generalizing ys p with
  | nil => simp
  | cons x xs ih =>
    match ys, hl with
    | y :: ys, hl =>
      rw [differences, List.length_cons, List.range_succ_eq_map, List.countP_cons, List.countP_map]
      have hr := ih ys (p ∘ Nat.succ) (by simpa using hl) fun i hi hp => h (i + 1) (by simpa using hi) hp
      cases hp : p 0 with
      | true => rw [if_neg (show x ≠ y from h 0 (by simp) hp), if_pos rfl]; omega
      | false => simp only [Bool.false_eq_true, if_false]; omega

/-- Decoding the words received for `ms`: with every word within the code's capability it gives `ms`; where it gives anything,
that differs from `ms` in exactly the words beyond it (R342, R345). -/
theorem decodeWords_sent {k n d t : Nat} {c : WordCode k n d t} {start count : Nat} {sent b : List Bool} {ms : List (BitVec k)}
    (hl : ms.length = count)
    (hs : ∀ i (hi : i < ms.length), bitsAt (start + n * i) n sent = bvToBits (c.encode ms[i]))
    (hb : start + n * count ≤ b.length) :
    (wordsBeyond t start n count sent b = 0 → decodeWords c start count b = some ms) ∧
      ∀ xs, decodeWords c start count b = some xs → differences ms xs = wordsBeyond t start n count sent b := by
  have hw : ∀ i (hi : i < ms.length), bitErrors (c.encode ms[i]) (bitsToBV n (bitsAt (start + n * i) n b)) =
      differences (bitsAt (start + n * i) n sent) (bitsAt (start + n * i) n b) := by
    intro i hi
    have hn : n * (i + 1) ≤ n * count := Nat.mul_le_mul_left _ (by omega)
    rw [Nat.mul_succ] at hn
    rw [bitErrors, bvToBits_bitsToBV (by simp; omega), ← hs i hi]
  refine ⟨fun h0 => decodeWords_eq_some.mpr ⟨hl, fun i hi => ?_⟩, fun xs hx => ?_⟩
  · rw [wordsBeyond, List.countP_eq_zero] at h0
    rw [hw i hi]
    simpa using h0 i (by simp; omega)
  · obtain ⟨hlx, hx⟩ := decodeWords_eq_some.mp hx
    rw [wordsBeyond, ← hl]
    refine le_antisymm (differences_le_countP _ _ _ (by omega) fun i hi hp => ?_)
      (countP_le_differences _ _ _ (by omega) fun i hi hp he => ?_)
    · have h1 := (c.decode_eq_some _ _).mpr ((hw i hi).trans_le (by simpa using hp))
      have h2 := (c.decode_eq_some _ _).mpr (hx i (by omega))
      exact Option.some.inj (h1.symm.trans h2)
    · have h1 := hx i (by omega)
      rw [← he, hw i hi] at h1
      simp at hp
      omega

theorem length_joinHexbits (n : Nat) (hs : List Hexbit) (h : hs.length = 2 * n) : (joinHexbits hs).length = n := by
  induction n generalizing hs with
  | zero => simp at h; simp [h, joinHexbits]
  | succ n ih =>
    match hs, h with
    | a :: b :: rest, h => rw [joinHexbits, List.length_cons, ih rest (by simp at h; omega)]

/-- A Golay word of a TDULC holds two hexbits (R345). -/
theorem joinHexbits_split (n : Nat) (hs : List Hexbit) (h : hs.length = 2 * n) : (joinHexbits hs).flatMap hexbitPair = hs := by
  induction n generalizing hs with
  | zero => simp at h; simp [h, joinHexbits]
  | succ n ih =>
    match hs, h with
    | a :: b :: rest, h =>
      have hh : (a ++ b).extractLsb' 6 6 = a := BitVec.eq_of_getLsbD_eq fun i hi => by
        rw [BitVec.getLsbD_extractLsb', BitVec.getLsbD_append]
        simp [hi]
      have hl : (a ++ b).extractLsb' 0 6 = b := BitVec.eq_of_getLsbD_eq fun i hi => by
        rw [BitVec.getLsbD_extractLsb', BitVec.getLsbD_append]
        simp [hi]
      rw [joinHexbits, List.flatMap_cons, ih rest (by simp at h; omega), hexbitPair, hh, hl]
      rfl

theorem differences_hexbitPairs (xs ys : List (BitVec 12)) :
    differences (xs.flatMap hexbitPair) (ys.flatMap hexbitPair) ≤ 2 * differences xs ys := by
  induction xs generalizing ys with
  | nil => cases ys <;> simp [differences]
  | cons x xs ih =>
    cases ys with
    | nil => simp [differences, hexbitPair]
    | cons y ys =>
      have := ih ys
      simp only [List.flatMap_cons, hexbitPair, List.cons_append, List.nil_append, differences] at this ⊢
      by_cases h : x = y
      · subst h
        simpa using this
      · rw [if_neg h]
        split <;> split <;> omega

/-! ## Voice -/

theorem zipWith_xor_self (a m : List Bool) (h : a.length ≤ m.length) :
    List.zipWith xor (List.zipWith xor a m) m = a := by
  induction a generalizing m with
  | nil => simp
  | cons x xs ih =>
    cases m with
    | nil => simp at h
    | cons y ys => simp [ih ys (by simpa using h)]

/-- The mask taken away after it was added. -/
theorem maskVoice_maskVoice (first : BitVec 12) {rest : List Bool} (h : rest.length = 121) :
    maskVoice first (maskVoice first rest) = rest := zipWith_xor_self _ _ (by simp [h])

theorem bitsAt_maskVoice (first : BitVec 12) (start len : Nat) (rest : List Bool) :
    bitsAt start len (maskVoice first rest) =
      List.zipWith xor (bitsAt start len rest) (bitsAt start len (bvToBits (Config.voiceMask first))) := by
  simp [maskVoice, bitsAt, List.drop_zipWith, List.take_zipWith]

theorem differences_zipWith_xor (a b m : List Bool) (ha : a.length ≤ m.length) (hb : b.length ≤ m.length) :
    differences (List.zipWith xor a m) (List.zipWith xor b m) = differences a b := by
  induction a generalizing b m with
  | nil => cases b <;> cases m <;> simp_all [differences]
  | cons x xs ih =>
    cases m with
    | nil => simp at ha
    | cons z m =>
      cases b with
      | nil => rfl
      | cons y ys =>
        simp only [List.zipWith_cons_cons, differences, ih ys m (by simpa using ha) (by simpa using hb)]
        cases x <;> cases y <;> cases z <;> rfl

theorem bvToBits_append {m n : Nat} (x : BitVec m) (y : BitVec n) : bvToBits (x ++ y) = bvToBits x ++ bvToBits y := by
  apply List.ext_getElem (by simp)
  intro i h1 h2
  by_cases h : i < m
  · simp [bvToBits, BitVec.getMsbD_append, h]
  · simp [bvToBits, List.getElem_append, BitVec.getMsbD_append, h]

/-- The voice frame sent, taken apart: the four Golay vectors, the three Hamming vectors and the seven bits. -/
theorem voiceBits_join (f : BitVec 88) :
    bvToBits (f.extractLsb' 76 12) ++
          [f.extractLsb' 64 12, f.extractLsb' 52 12, f.extractLsb' 40 12].flatMap bvToBits ++
        [f.extractLsb' 29 11, f.extractLsb' 18 11, f.extractLsb' 7 11].flatMap bvToBits ++ bvToBits (f.extractLsb' 0 7) =
      bvToBits f := by
  have h : f =
      f.extractLsb' 76 12 ++ (f.extractLsb' 64 12 ++ (f.extractLsb' 52 12 ++ (f.extractLsb' 40 12 ++
        (f.extractLsb' 29 11 ++ (f.extractLsb' 18 11 ++ (f.extractLsb' 7 11 ++ f.extractLsb' 0 7)))))) := by
    apply BitVec.eq_of_getLsbD_eq
    intro i hi
    simp only [BitVec.getLsbD_append, BitVec.getLsbD_extractLsb']
    have hb : ∀ (a m k : Nat), a < m → k = i → f.getLsbD i = (decide (a < m) && f.getLsbD k) := by
      rintro a m k h rfl
      simp [h]
    split_ifs <;> exact hb _ _ _ (by omega) (by omega)
  conv_rhs => rw [h]
  simp only [bvToBits_append, List.flatMap_cons, List.flatMap_nil, List.append_nil, List.append_assoc]

theorem bitsAt_bitsAt (start len p n : Nat) (a : List Bool) (h : p + n ≤ len) :
    bitsAt p n (bitsAt start len a) = bitsAt (start + p) n a := by
  rw [bitsAt, bitsAt, bitsAt, List.drop_take, List.take_take, List.drop_drop, Nat.min_eq_left (by omega)]

/-- Words that are part of a longer string, counted there. -/
theorem wordsBeyond_bitsAt (t start len p n count : Nat) (sent b : List Bool) (h : p + n * count ≤ len) :
    wordsBeyond t p n count (bitsAt start len sent) (bitsAt start len b) = wordsBeyond t (start + p) n count sent b := by
  unfold wordsBeyond
  refine List.countP_congr fun i hi => ?_
  have hn : n * (i + 1) ≤ n * count := Nat.mul_le_mul_left _ (by simpa using hi)
  rw [Nat.mul_succ] at hn
  rw [bitsAt_bitsAt _ _ _ _ _ (by omega), bitsAt_bitsAt _ _ _ _ _ (by omega), Nat.add_assoc]

theorem wordsBeyond_eq_zero {t start n count : Nat} {sent b : List Bool} :
    wordsBeyond t start n count sent b = 0 ↔
      ∀ i < count, differences (bitsAt (start + n * i) n sent) (bitsAt (start + n * i) n b) ≤ t := by
  simp [wordsBeyond, List.countP_eq_zero]

theorem wordsBeyond_drop (t k start n count : Nat) (sent b : List Bool) :
    wordsBeyond t start n count (sent.drop k) (b.drop k) = wordsBeyond t (k + start) n count sent b := by
  simp only [wordsBeyond, bitsAt_drop, Nat.add_assoc]

@[simp] theorem length_maskVoice (first : BitVec 12) (rest : List Bool) :
    (maskVoice first rest).length = min rest.length 121 := by
  simp [maskVoice]

/-- Taking the mask away moves no error. -/
theorem wordsBeyond_maskVoice (first : BitVec 12) (t start n count : Nat) {sent b : List Bool} (h : start + n * count ≤ 121) :
    wordsBeyond t start n count (maskVoice first sent) (maskVoice first b) = wordsBeyond t start n count sent b := by
  unfold wordsBeyond
  refine List.countP_congr fun i hi => ?_
  have hn : n * (i + 1) ≤ n * count := Nat.mul_le_mul_left _ (by simpa using hi)
  rw [Nat.mul_succ] at hn
  rw [bitsAt_maskVoice, bitsAt_maskVoice, differences_zipWith_xor _ _ _ (by simp; omega) (by simp; omega)]

@[simp] theorem length_voiceEncode (f : BitVec 88) : (voiceEncode f).length = 144 := by simp [voiceEncode]

/-- A voice frame received within the capability of its codes is restored (R342 (a), R345). -/
theorem voiceDecode_of_within {f : BitVec 88} {b : List Bool} (hl : b.length = 144)
    (hg : wordsBeyond 3 0 23 4 (voiceEncode f) b = 0) (hh : wordsBeyond 1 92 15 3 (voiceEncode f) b = 0)
    (hu : bitsAt 137 7 b = bitsAt 137 7 (voiceEncode f)) : voiceDecode b = some f := by
  obtain ⟨first, hfirst⟩ : ∃ x, x = f.extractLsb' 76 12 := ⟨_, rfl⟩
  obtain ⟨gs, hgs⟩ : ∃ x, x = [f.extractLsb' 64 12, f.extractLsb' 52 12, f.extractLsb' 40 12] := ⟨_, rfl⟩
  obtain ⟨hs, hhs⟩ : ∃ x, x = [f.extractLsb' 29 11, f.extractLsb' 18 11, f.extractLsb' 7 11] := ⟨_, rfl⟩
  obtain ⟨plain, hplain⟩ : ∃ x, x = encodeWords Config.golay23 gs ++ encodeWords Config.hamming15 hs ++
    bvToBits (f.extractLsb' 0 7) := ⟨_, rfl⟩
  have lg : gs.length = 3 := by rw [hgs]; rfl
  have lh : hs.length = 3 := by rw [hhs]; rfl
  have lp : plain.length = 121 := by simp [hplain, lg, lh]
  have he : voiceEncode f = bvToBits (Config.golay23.encode first) ++ maskVoice first plain := by
    rw [hplain, hgs, hhs, hfirst]
    rfl
  have hd : (voiceEncode f).drop 23 = maskVoice first plain := by rw [he, List.drop_left' (by simp)]
  -- the first vector
  have h0 : Config.golay23.decode (bitsToBV 23 (bitsAt 0 23 b)) = some first := by
    refine (Config.golay23.decode_eq_some _ _).mpr ?_
    have := wordsBeyond_eq_zero.mp hg 0 (by omega)
    rw [Nat.mul_zero, Nat.add_zero, he, bitsAt_append_left (by simp), bitsAt_zero_of_length (by simp)] at this
    rwa [bitErrors, bvToBits_bitsToBV (by simp [hl])]
  -- the others, with the mask taken away
  have unmask : ∀ t start n count, start + n * count ≤ 121 →
      wordsBeyond t start n count plain (maskVoice first (b.drop 23)) =
        wordsBeyond t (23 + start) n count (voiceEncode f) b := by
    intro t start n count h
    rw [← wordsBeyond_drop, hd, ← wordsBeyond_maskVoice first t start n count h,
      maskVoice_maskVoice first (rest := b.drop 23) (by simp [hl])]
  have hG : decodeWords Config.golay23 0 3 (maskVoice first (b.drop 23)) = some gs := by
    refine (decodeWords_sent (sent := plain) lg (fun i hi => ?_) (by simp [hl])).1 ?_
    · rw [hplain, Nat.zero_add, List.append_assoc,
        bitsAt_append_left (by simp [lg]; omega), bitsAt_encodeWords _ _ _ hi]
    · rw [unmask _ _ _ _ (by omega), wordsBeyond_eq_zero]
      intro i hi
      have := wordsBeyond_eq_zero.mp hg (i + 1) (by omega)
      rwa [show 0 + 23 * (i + 1) = 23 + 0 + 23 * i by omega] at this
  have hH : decodeWords Config.hamming15 69 3 (maskVoice first (b.drop 23)) = some hs := by
    refine (decodeWords_sent (sent := plain) lh (fun i hi => ?_) (by simp [hl])).1 ?_
    · rw [hplain, List.append_assoc, bitsAt_append_right (by simp [lg]),
        show 69 + 15 * i - (encodeWords Config.golay23 gs).length = 15 * i by simp [lg],
        bitsAt_append_left (by simp [lh]; omega), bitsAt_encodeWords _ _ _ hi]
    · rwa [unmask _ _ _ _ (by omega)]
  have hU : bitsAt 114 7 (maskVoice first (b.drop 23)) = bvToBits (f.extractLsb' 0 7) := by
    have h1 : bitsAt 114 7 (maskVoice first (b.drop 23)) = bitsAt 114 7 (maskVoice first (maskVoice first plain)) := by
      rw [bitsAt_maskVoice, bitsAt_maskVoice, ← hd, bitsAt_drop, bitsAt_drop, hu]
    rw [h1, maskVoice_maskVoice first lp, hplain, bitsAt_append_right (by simp [lg, lh]),
      show 114 - (encodeWords Config.golay23 gs ++ encodeWords Config.hamming15 hs).length = 0 by simp [lg, lh],
      bitsAt_zero_of_length (by simp)]
  unfold voiceDecode
  simp only [h0, hG, hH, hU]
  rw [hfirst, hgs, hhs, voiceBits_join, bitsToBV_bvToBits]

theorem triple {α : Type} {xs : List α} (h : xs.length = 3) : ∃ a b c, xs = [a, b, c] := by
  match xs, h with
  | [a, b, c], _ => exact ⟨a, b, c, rfl⟩

theorem bvToBits_injective {n : Nat} {x y : BitVec n} (h : bvToBits x = bvToBits y) : x = y := by
  rw [← bitsToBV_bvToBits x, h, bitsToBV_bvToBits]

/-- The words of a voice frame that was put together of its vectors. -/
theorem voiceBits_split {f : BitVec 88} {first : BitVec 12} {gs : List (BitVec 12)} {hs : List (BitVec 11)} {u : List Bool}
    (hg : gs.length = 3) (hh : hs.length = 3)
    (h : bvToBits f = bvToBits first ++ gs.flatMap bvToBits ++ hs.flatMap bvToBits ++ u) :
    f.extractLsb' 76 12 = first ∧ [f.extractLsb' 64 12, f.extractLsb' 52 12, f.extractLsb' 40 12] = gs ∧
      [f.extractLsb' 29 11, f.extractLsb' 18 11, f.extractLsb' 7 11] = hs ∧ bvToBits (f.extractLsb' 0 7) = u := by
  obtain ⟨g1, g2, g3, rfl⟩ := triple hg
  obtain ⟨h1, h2, h3, rfl⟩ := triple hh
  rw [← voiceBits_join f] at h
  simp only [List.flatMap_cons, List.flatMap_nil, List.append_nil, List.append_assoc] at h
  obtain ⟨e0, h⟩ := List.append_inj h (by simp)
  obtain ⟨e1, h⟩ := List.append_inj h (by simp)
  obtain ⟨e2, h⟩ := List.append_inj h (by simp)
  obtain ⟨e3, h⟩ := List.append_inj h (by simp)
  obtain ⟨e4, h⟩ := List.append_inj h (by simp)
  obtain ⟨e5, h⟩ := List.append_inj h (by simp)
  obtain ⟨e6, h⟩ := List.append_inj h (by simp)
  exact ⟨bvToBits_injective e0,
    by rw [bvToBits_injective e1, bvToBits_injective e2, bvToBits_injective e3],
    by rw [bvToBits_injective e4, bvToBits_injective e5, bvToBits_injective e6], h⟩

/-- A voice frame that decodes explains the bits received: they lie within the capability of its codes, and its unprotected bits
are those received (R342, R345). -/
theorem voiceDecode_within {f : BitVec 88} {b : List Bool} (hl : b.length = 144) (h : voiceDecode b = some f) :
    wordsBeyond 3 0 23 4 (voiceEncode f) b = 0 ∧ wordsBeyond 1 92 15 3 (voiceEncode f) b = 0 ∧
      bitsAt 137 7 b = bitsAt 137 7 (voiceEncode f) := by
  unfold voiceDecode at h
  cases h0 : Config.golay23.decode (bitsToBV 23 (bitsAt 0 23 b)) with
  | none => simp [h0] at h
  | some first =>
    simp only [h0] at h
    cases hG : decodeWords Config.golay23 0 3 (maskVoice first (b.drop 23)) with
    | none => simp [hG] at h
    | some gs =>
      cases hH : decodeWords Config.hamming15 69 3 (maskVoice first (b.drop 23)) with
      | none => simp [hG, hH] at h
      | some hs =>
        simp only [hG, hH, Option.some.injEq] at h
        have lg := length_decodeWords hG
        have lh := length_decodeWords hH
        obtain ⟨g1, g2, g3, hgs⟩ := triple lg
        obtain ⟨h1, h2, h3, hhs⟩ := triple lh
        have hf := congrArg bvToBits h
        rw [bvToBits_bitsToBV (by simp [hgs, hhs, hl])] at hf
        obtain ⟨ef, eg, eh, eu⟩ := voiceBits_split lg lh hf.symm
        have lm : (maskVoice first (b.drop 23)).length = 121 := by simp [hl]
        -- what is sent, the mask taken away
        obtain ⟨plain, hplain⟩ : ∃ x, x = encodeWords Config.golay23 gs ++ encodeWords Config.hamming15 hs ++
          bvToBits (f.extractLsb' 0 7) := ⟨_, rfl⟩
        have lp : plain.length = 121 := by simp [hplain, lg, lh]
        have he : voiceEncode f = bvToBits (Config.golay23.encode first) ++ maskVoice first plain := by
          rw [hplain, ← eg, ← eh, ← ef]
          rfl
        have hd : (voiceEncode f).drop 23 = maskVoice first plain := by rw [he, List.drop_left' (by simp)]
        have unmask : ∀ t start n count, start + n * count ≤ 121 →
            wordsBeyond t start n count plain (maskVoice first (b.drop 23)) =
              wordsBeyond t (23 + start) n count (voiceEncode f) b := by
          intro t start n count hc
          rw [← wordsBeyond_drop, hd, ← wordsBeyond_maskVoice first t start n count hc,
            maskVoice_maskVoice first (rest := b.drop 23) (by simp [hl])]
        have hg := (decodeWords_sent (sent := plain) (b := maskVoice first (b.drop 23)) lg (fun i hi => by
          rw [hplain, Nat.zero_add, List.append_assoc, bitsAt_append_left (by simp [lg]; omega),
            bitsAt_encodeWords _ _ _ hi]) (by omega)).2 gs hG
        have hh := (decodeWords_sent (sent := plain) (b := maskVoice first (b.drop 23)) lh (fun i hi => by
          rw [hplain, List.append_assoc, bitsAt_append_right (by simp [lg]),
            show 69 + 15 * i - (encodeWords Config.golay23 gs).length = 15 * i by simp [lg],
            bitsAt_append_left (by simp [lh]; omega), bitsAt_encodeWords _ _ _ hi]) (by omega)).2 hs hH
        rw [differences_self, unmask _ _ _ _ (by omega)] at hg hh
        refine ⟨wordsBeyond_eq_zero.mpr fun i hi => ?_, hh.symm, ?_⟩
        · cases i with
          | zero =>
            have := (Config.golay23.decode_eq_some _ _).mp h0
            rw [bitErrors, bvToBits_bitsToBV (by simp [hl])] at this
            rw [Nat.mul_zero, Nat.add_zero, he, bitsAt_append_left (by simp), bitsAt_zero_of_length (by simp)]
            exact this
          | succ i =>
            have := wordsBeyond_eq_zero.mp hg.symm i (by omega)
            rwa [show 0 + 23 * (i + 1) = 23 + 0 + 23 * i by omega]
        · have hm : maskVoice first (maskVoice first (b.drop 23)) = b.drop 23 := maskVoice_maskVoice first (by simp [hl])
          have e1 : bitsAt 114 7 plain = bitsAt 114 7 (maskVoice first (b.drop 23)) := by
            rw [← eu, hplain, bitsAt_append_right (by simp [lg, lh]),
              show 114 - (encodeWords Config.golay23 gs ++ encodeWords Config.hamming15 hs).length = 0 by simp [lg, lh],
              bitsAt_zero_of_length (by simp)]
          have e2 := bitsAt_drop 114 7 23 b
          have e3 := bitsAt_drop 114 7 23 (voiceEncode f)
          rw [← hm, bitsAt_maskVoice, ← e1, ← bitsAt_maskVoice, ← hd, e3] at e2
          exact e2.symm

/-- What decoding a voice frame gives. -/
theorem voiceDecode_eq_some {f : BitVec 88} {b : List Bool} (hl : b.length = 144) :
    voiceDecode b = some f ↔
      wordsBeyond 3 0 23 4 (voiceEncode f) b = 0 ∧ wordsBeyond 1 92 15 3 (voiceEncode f) b = 0 ∧
        bitsAt 137 7 b = bitsAt 137 7 (voiceEncode f) :=
  ⟨voiceDecode_within hl, fun ⟨hg, hh, hu⟩ => voiceDecode_of_within hl hg hh hu⟩

/-- An LDU that decodes has nine voice frames (R350). -/
theorem length_voiceFrames {b : List Bool} {frames : List (BitVec 88)} (h : voiceFrames b = some frames) :
    frames.length = 9 := by simpa using length_of_allSome h

theorem lduDecode_eq_some {k d t : Nat} {o : BitOrder 1568} {rs : SymbolCode k 24 d t} {b : List Bool}
    {frames : List (BitVec 88)} {word : BitVec k} :
    lduDecode o rs b = some (frames, word) ↔
      voiceFrames (o.collect b) = some frames ∧
        ∃ hexbits, decodeWords Config.hamming10 1296 24 (o.collect b) = some hexbits ∧
          rs.decode hexbits = some word := by
  simp only [lduDecode]
  cases voiceFrames (o.collect b) with
  | none => simp
  | some f =>
    cases decodeWords Config.hamming10 1296 24 (o.collect b) with
    | none => simp
    | some x =>
      cases h : rs.decode x with
      | none => simp [h]
      | some w => simp [h]

/-! ## What is sent decodes -/

theorem decodeWords_at {k n d t : Nat} {c : WordCode k n d t} {start count : Nat} {b : List Bool} {ms : List (BitVec k)}
    (hl : ms.length = count)
    (h : ∀ i (hi : i < ms.length), bitsAt (start + n * i) n b = bvToBits (c.encode ms[i])) :
    decodeWords c start count b = some ms := by
  refine decodeWords_eq_some.mpr ⟨hl, fun i hi => ?_⟩
  rw [h i hi, bitsToBV_bvToBits, bitErrors, differences_self]
  omega

theorem collect_hduEncode (m : BitVec 120) :
    Config.hduOrder.collect (hduEncode m) = encodeWords Config.golay18 (Config.rsHdu.encode m) :=
  Config.hduOrder.collect_spread (by simp [Config.rsHdu.length_encode])

theorem collect_tdulcEncode (m : BitVec 72) :
    Config.tdulcOrder.collect (tdulcEncode m) = encodeWords Config.golay24 (joinHexbits (Config.rsLc.encode m)) :=
  Config.tdulcOrder.collect_spread (by simp [length_joinHexbits 12 _ (Config.rsLc.length_encode m)])

theorem length_voiceBits (frames : List (BitVec 88)) : (frames.flatMap voiceEncode).length = 144 * frames.length := by
  induction frames with
  | nil => rfl
  | cons f fs ih => rw [List.flatMap_cons, List.length_append, ih, length_voiceEncode, List.length_cons]; omega

theorem collect_lduEncode {k d t : Nat} (o : BitOrder 1568) (rs : SymbolCode k 24 d t) {frames : List (BitVec 88)}
    (hf : frames.length = 9) (word : BitVec k) (lowSpeed : BitVec 32) :
    o.collect (lduEncode o rs frames word lowSpeed) =
      frames.flatMap voiceEncode ++ encodeWords Config.hamming10 (rs.encode word) ++ bvToBits lowSpeed :=
  o.collect_spread (by simp [hf, rs.length_encode])

/-- A voice frame at its place among the frames sent. -/
theorem bitsAt_voiceBits (frames : List (BitVec 88)) (j : Nat) (hj : j < frames.length) :
    bitsAt (144 * j) 144 (frames.flatMap voiceEncode) = voiceEncode frames[j] := by
  induction frames generalizing j with
  | nil => simp at hj
  | cons f fs ih =>
    rw [List.flatMap_cons]
    cases j with
    | zero => rw [bitsAt_append_left (by simp), Nat.mul_zero, bitsAt_zero_of_length (by simp)]; rfl
    | succ j =>
      rw [bitsAt_append_right (by simp), length_voiceEncode, show 144 * (j + 1) - 144 = 144 * j by omega,
        ih j (by simpa using hj)]
      rfl

theorem hduDecode_hduEncode (m : BitVec 120) : hduDecode (hduEncode m) = some m := by
  rw [hduDecode, collect_hduEncode, decodeWords_at (Config.rsHdu.length_encode m) fun i hi => by
    rw [Nat.zero_add, bitsAt_encodeWords _ _ _ hi]]
  refine (Config.rsHdu.decode_eq_some m _ (Config.rsHdu.length_encode m)).mpr ?_
  rw [differences_self]
  omega

theorem tdulcDecode_tdulcEncode (m : BitVec 72) : tdulcDecode (tdulcEncode m) = some m := by
  have hl := Config.rsLc.length_encode m
  rw [tdulcDecode, collect_tdulcEncode, decodeWords_at (length_joinHexbits 12 _ hl) fun i hi => by
    rw [Nat.zero_add, bitsAt_encodeWords _ _ _ hi]]
  refine (Config.rsLc.decode_eq_some m _ (by rw [joinHexbits_split 12 _ hl, hl])).mpr ?_
  rw [joinHexbits_split 12 _ hl, differences_self]
  omega

theorem lduDecode_lduEncode {k d t : Nat} (o : BitOrder 1568) (rs : SymbolCode k 24 d t) {frames : List (BitVec 88)}
    (hf : frames.length = 9) (word : BitVec k) (lowSpeed : BitVec 32) :
    lduDecode o rs (lduEncode o rs frames word lowSpeed) = some (frames, word) := by
  have hl := rs.length_encode word
  have hv := length_voiceBits frames
  rw [lduDecode_eq_some, collect_lduEncode o rs hf]
  refine ⟨?_, rs.encode word, decodeWords_at hl fun i hi => ?_, (rs.decode_eq_some _ _ hl).mpr ?_⟩
  · rw [voiceFrames, allSome_eq_some]
    apply List.ext_getElem (by simp [hf])
    intro j h1 h2
    have hj : j < 9 := by simpa using h1
    have hb : bitsAt (144 * j) 144 (frames.flatMap voiceEncode ++ encodeWords Config.hamming10 (rs.encode word) ++
        bvToBits lowSpeed) = voiceEncode (frames[j]'(by omega)) := by
      rw [List.append_assoc, bitsAt_append_left (by omega), bitsAt_voiceBits]
    simp only [List.getElem_map, List.getElem_range, hb]
    refine voiceDecode_of_within (by simp) ?_ ?_ rfl <;> rw [wordsBeyond_eq_zero] <;> intro i _ <;>
      rw [differences_self] <;> omega
  · rw [List.append_assoc, bitsAt_append_right (by omega), hv, hf, Nat.add_sub_cancel_left,
      bitsAt_append_left (by simp; omega), bitsAt_encodeWords _ _ _ hi]
  · rw [differences_self]
    omega

end Sys2Proof.Machine
end

