-- ==== Sys2Proof/Laws/PerInstr.lean ====
section
/-! SUPPORT. A law of the syntax, instruction by instruction: the word `encode` gives an instruction has the fixed bits that
spec/opcode_table.json gives the instruction's row. -/

namespace Sys2Proof.Laws.EncodeFitsTable

open Sys2Proof.Machine

/-- The bits a row's match and mask apply to: the NID, the 16 bits o[0]:o[1] of a TSBK, the P_CMD word. -/
def head : Key → BitVec 64
  | .nid w => w
  | .tsbk o => (o.extractLsb' 80 16).setWidth 64
  | .cmd w => w

/-- The mask and the match of an instruction's row. -/
def row : Instr → BitVec 64 × BitVec 64
  | .frameHdu _ => (0x000F000000000000#64, 0x0000000000000000#64)
  | .frameTdu _ => (0x000F000000000000#64, 0x0003000000000000#64)
  | .frameLdu1 _ => (0x000F000000000000#64, 0x0005000000000000#64)
  | .frameTsdu _ => (0x000F000000000000#64, 0x0007000000000000#64)
  | .frameLdu2 _ => (0x000F000000000000#64, 0x000A000000000000#64)
  | .framePdu _ => (0x000F000000000000#64, 0x000C000000000000#64)
  | .frameTdulc _ => (0x000F000000000000#64, 0x000F000000000000#64)
  | .grpVChGrant _ _ _ _ _ _ => (0x7FFE#64, 0x0000#64)
  | .grpVChGrantUpdt _ _ _ _ _ _ => (0x7FFE#64, 0x0200#64)
  | .idenUpVu _ _ _ _ _ _ _ => (0x7FFE#64, 0x3400#64)
  | .idenUp _ _ _ _ _ _ _ => (0x7FFE#64, 0x3D00#64)
  | .tsbkOther _ _ _ _ _ => (0x0000#64, 0x0000#64)
  | .setFreq _ => (0xFF00000000000000#64, 0x0100000000000000#64)
  | .setGain _ => (0xFF00000000000000#64, 0x0200000000000000#64)
  | .setPpm _ => (0xFF00000000000000#64, 0x0300000000000000#64)

/-- A well-formed instruction's word has its row's fixed bits. -/
def Statement (i : Instr) : Prop := i.wf = true → head (encode i) &&& (row i).1 = (row i).2

/-- The DUID field of a NID under the mask of the frame rows. -/
theorem nidEncode_mask (nac : BitVec 12) (duid : BitVec 4) :
    nidEncode nac duid &&& 0x000F000000000000#64 = 0#12 ++ duid ++ 0#48 := by
  simp only [nidEncode, bchEncode]
  generalize bchParity (nac ++ duid) = p
  generalize BitVec.ofBool _ = q
  apply BitVec.eq_of_getLsbD_eq
  intro i hi
  simp only [BitVec.getLsbD_and, BitVec.getLsbD_append]
  interval_cases i <;> simp

/-- The first two octets of a TSBK word. -/
theorem tsbkWord_head (lb p : Bool) (opc : BitVec 6) (mfid : BitVec 8) (args : BitVec 64) :
    (tsbkWord lb p opc mfid args).extractLsb' 80 16 = BitVec.ofBool lb ++ BitVec.ofBool p ++ opc ++ mfid := by
  simp only [tsbkWord, withCrc]
  generalize crc16 _ = c
  apply BitVec.eq_of_getLsbD_eq
  intro i hi
  simp only [BitVec.getLsbD_extractLsb', BitVec.getLsbD_append]
  interval_cases i <;> simp

/-- The head of a standard, unprotected TSBK under the mask of the TSBK rows. -/
theorem tsbk_mask (lb : Bool) (opc : BitVec 6) (mfid : BitVec 8) (args : BitVec 64) (h : mfidStd mfid = true) :
    ((tsbkWord lb false opc mfid args).extractLsb' 80 16).setWidth 64 &&& 0x7FFE#64 = 0#50 ++ opc ++ 0#8 := by
  rw [tsbkWord_head]
  simp only [mfidStd, Bool.or_eq_true, beq_iff_eq] at h
  apply BitVec.eq_of_getLsbD_eq
  intro i hi
  rcases h with rfl | rfl <;> simp only [BitVec.getLsbD_and, BitVec.getLsbD_append, BitVec.getLsbD_setWidth] <;>
    interval_cases i <;> simp

/-- The code of a command word under the mask of the command rows. -/
theorem code_mask (code : BitVec 8) (x : BitVec 56) :
    (code ++ x) &&& 0xFF00000000000000#64 = code ++ 0#56 := by
  apply BitVec.eq_of_getLsbD_eq
  intro i hi
  simp only [BitVec.getLsbD_and, BitVec.getLsbD_append]
  interval_cases i <;> simp

theorem frameHdu (nac : BitVec 12) : Statement (.frameHdu nac) := fun _ => by
  simpa [head, encode, row] using nidEncode_mask nac 0x0#4

theorem frameTdu (nac : BitVec 12) : Statement (.frameTdu nac) := fun _ => by
  simpa [head, encode, row] using nidEncode_mask nac 0x3#4

theorem frameLdu1 (nac : BitVec 12) : Statement (.frameLdu1 nac) := fun _ => by
  simpa [head, encode, row] using nidEncode_mask nac 0x5#4

theorem frameTsdu (nac : BitVec 12) : Statement (.frameTsdu nac) := fun _ => by
  simpa [head, encode, row] using nidEncode_mask nac 0x7#4

theorem frameLdu2 (nac : BitVec 12) : Statement (.frameLdu2 nac) := fun _ => by
  simpa [head, encode, row] using nidEncode_mask nac 0xA#4

theorem framePdu (nac : BitVec 12) : Statement (.framePdu nac) := fun _ => by
  simpa [head, encode, row] using nidEncode_mask nac 0xC#4

theorem frameTdulc (nac : BitVec 12) : Statement (.frameTdulc nac) := fun _ => by
  simpa [head, encode, row] using nidEncode_mask nac 0xF#4

theorem grpVChGrant (lb : Bool) (mfid svc : BitVec 8) (chan tg : BitVec 16) (src : BitVec 24) :
    Statement (.grpVChGrant lb mfid svc chan tg src) := fun h => by
  simpa [head, encode, row] using tsbk_mask lb 0x00#6 mfid (svc ++ chan ++ tg ++ src) h

theorem grpVChGrantUpdt (lb : Bool) (mfid : BitVec 8) (chanA tgA chanB tgB : BitVec 16) :
    Statement (.grpVChGrantUpdt lb mfid chanA tgA chanB tgB) := fun h => by
  simpa [head, encode, row] using tsbk_mask lb 0x02#6 mfid (chanA ++ tgA ++ chanB ++ tgB) h

theorem idenUpVu (lb : Bool) (mfid : BitVec 8) (iden bwvu : BitVec 4) (tx : BitVec 14) (spacing : BitVec 10)
    (base : BitVec 32) : Statement (.idenUpVu lb mfid iden bwvu tx spacing base) := fun h => by
  simpa [head, encode, row] using tsbk_mask lb 0x34#6 mfid (iden ++ bwvu ++ tx ++ spacing ++ base) h

theorem idenUp (lb : Bool) (mfid : BitVec 8) (iden : BitVec 4) (bw tx : BitVec 9) (spacing : BitVec 10)
    (base : BitVec 32) : Statement (.idenUp lb mfid iden bw tx spacing base) := fun h => by
  simpa [head, encode, row] using tsbk_mask lb 0x3D#6 mfid (iden ++ bw ++ tx ++ spacing ++ base) h

theorem tsbkOther (lb p : Bool) (opc : BitVec 6) (mfid : BitVec 8) (args : BitVec 64) :
    Statement (.tsbkOther lb p opc mfid args) := fun _ => by
  simp [head, encode, row]

theorem setFreq (freq : BitVec 56) : Statement (.setFreq freq) := fun _ => by
  simpa [head, encode, row, setFreqWord] using code_mask 0x01#8 freq

theorem setGain (gain : Gain) : Statement (.setGain gain) := fun _ => by
  cases gain with
  | auto => simp [head, encode, row, setGainWord]
  | manual g => simpa [head, encode, row, setGainWord] using code_mask 0x02#8 (0#24 ++ g)

theorem setPpm (ppm : BitVec 32) : Statement (.setPpm ppm) := fun _ => by
  simpa [head, encode, row, setPpmWord] using code_mask 0x03#8 (0#24 ++ ppm)

end Sys2Proof.Laws.EncodeFitsTable
end

