-- ==== Sys2Proof/Tests/Slice0.lean ====
section
/-! SUPPORT. Tests: ill-formed terms, words written out from the encodings, single steps on the vectors of 95_test_vectors.md, and for
every statement with hypotheses a witness that meets them. -/

namespace Sys2Proof.Tests

set_option Elab.async false

open Sys2Proof.Machine

/-! ## Helpers -/

/-- The outcome is a next state. -/
def isNext (r : Result) : Bool :=
  match r with
  | .next _ => true
  | _ => false

/-- A property of the next state; false of a stop. -/
def onNext (p : State → Bool) (r : Result) : Bool :=
  match r with
  | .next t => p t
  | _ => false

/-- The start state of 95_test_vectors.md: right after a boot to 851012500 Hz. -/
def start0 : State :=
  { State.reset with
    cfg := { resetConfig with initFreq := 851012500 }
    runState := .running, controlFreq := 851012500, tunedFreq := 851012500 }

/-- A bit string of zeros. -/
def zeros (n : Nat) : List Bool := List.replicate n false

/-- A running block at a data dibit of a frame of class `c`, with the bits `b`. -/
def inFrame (c : FrameClass) (b : List Bool) : State :=
  { start0 with stage := .frame, sync := .locked 56, cls := some c, nacCur := 0x293#12, fbits := b, now := 1000 }

/-- IDEN0's entry. -/
def entry0 : BandEntry := ⟨.iden, 851012500, 12500, 0x0B4#14, 100#9⟩

/-- A valid signaling block of octets `o`. -/
def tsbkUnit (o : Octets12) : DataUnit := ⟨.trunkingSignalingBlock, true, 2000, 0x293#12, some (.tsbk o)⟩

/-- G100 of 95_test_vectors.md. -/
def g100 : Octets12 := 0x800000000500641234561588#96

/-- A valid signaling block at the arbiter of a running block that knows band 0. -/
def atArbiter (role : Role) : State :=
  { start0 with
    stage := .tsm, unit := some (tsbkUnit g100), role := role
    chanMap := (Vector.replicate 16 none).set 0 (some entry0) }

/-- The traffic role of the vectors. -/
def traffic100 : Role := .trafficChannel 851075000 100#16 1000

/-! ## Ill-formed terms -/

theorem test_wf_refuses_grant_mfid : (Instr.grpVChGrant true 0x90#8 0#8 5#16 100#16 0#24).wf = false := by decide
theorem test_wf_refuses_updt_mfid : (Instr.grpVChGrantUpdt true 0x02#8 5#16 100#16 7#16 300#16).wf = false := by decide
theorem test_wf_refuses_idenVu_mfid : (Instr.idenUpVu true 0xFF#8 2#4 5#4 0#14 100#10 0#32).wf = false := by decide
theorem test_wf_refuses_iden_mfid : (Instr.idenUp true 0x90#8 0#4 0#9 0#9 100#10 0#32).wf = false := by decide
theorem test_wf_refuses_other_handled : (Instr.tsbkOther true false 0x3D#6 0x01#8 0#64).wf = false := by decide
theorem test_wf_accepts_other :
    (Instr.tsbkOther true true 0x00#6 0x00#8 0#64).wf = true ∧ (Instr.tsbkOther true false 0x00#6 0x90#8 0#64).wf = true ∧
      (Instr.tsbkOther true false 0x3A#6 0x00#8 0#64).wf = true := by decide

/-! ## Decoding of words written out from the encodings -/

/-- V-FS9 to V-FS11. -/
theorem test_decode_nid_vectors :
    decode (.nid 0x2937F88514ABAECC#64) = .ok (.frameTsdu 0x293#12) ∧
      decode (.nid 0x293555EF2C653436#64) = .ok (.frameLdu1 0x293#12) ∧
      decode (.nid 0x29333977728CED6F#64) = .ok (.frameTdu 0x293#12) := by decide +kernel

/-- Eleven errors in the parity bits are repaired (R344). -/
theorem test_decode_nid_eleven_errors : decode (.nid (0x29333977728CED6F#64 ^^^ 0xFFE#64)) = .ok (.frameTdu 0x293#12) := by
  decide +kernel

/-- G100 and G100_M01, R156: service options, channel, group, source. -/
theorem test_decode_grant :
    decode (.tsbk g100) = .ok (.grpVChGrant true 0x00#8 0x00#8 0x0005#16 100#16 0x123456#24) ∧
      decode (.tsbk 0x80010000050064123456FEAB#96) =
        .ok (.grpVChGrant true 0x01#8 0x00#8 0x0005#16 100#16 0x123456#24) := by decide +kernel

/-- UPDT, R157. -/
theorem test_decode_updt :
    decode (.tsbk 0x8200000500640007012C7F73#96) =
      .ok (.grpVChGrantUpdt true 0x00#8 0x0005#16 100#16 0x0007#16 300#16) := by decide +kernel

/-- IDENVU2, R158; and IDEN0_LB0 and IDEN1, R159. -/
theorem test_decode_iden :
    decode (.tsbk 0xB400250000640A2510A22B2F#96) = .ok (.idenUpVu true 0x00#8 2#4 5#4 0#14 100#10 170201250#32) ∧
      decode (.tsbk 0x3D000322D0640A2515840046#96) = .ok (.idenUp false 0x00#8 0#4 100#9 0x0B4#9 100#10 170202500#32) ∧
      decode (.tsbk 0xBD001192D032057BCF00C662#96) = .ok (.idenUp true 0x00#8 1#4 50#9 0x0B4#9 50#10 92000000#32) := by
  decide +kernel

/-- OPC3A, G100_P1 and G100_M90 are TSBK_OTHER; G100_BAD fails its CRC (R181, R347). -/
theorem test_decode_other :
    decode (.tsbk 0xBA0000000000000000002291#96) = .ok (.tsbkOther true false 0x3A#6 0x00#8 0#64) ∧
      decode (.tsbk 0xC00000000500641234566792#96) = .ok (.tsbkOther true true 0x00#6 0x00#8 0x0000050064123456#64) ∧
      decode (.tsbk 0x80900000050064123456F9C4#96) = .ok (.tsbkOther true false 0x00#6 0x90#8 0x0000050064123456#64) ∧
      decode (.tsbk 0x800000000500641234561589#96) = .error .crcFailed := by decide +kernel

/-- The words of R170 and R501-R503, and reserved ones. -/
theorem test_decode_cmd :
    decode (.cmd 0x0100000032BA5FB8#64) = .ok (.setFreq 851075000#56) ∧
      decode (.cmd 0x02000000000001F0#64) = .ok (.setGain (.manual 496#32)) ∧
      decode (.cmd 0x0280000000000000#64) = .ok (.setGain .auto) ∧
      decode (.cmd 0x03000000FFFFFFFD#64) = .ok (.setPpm (-3#32)) ∧
      decode (.cmd 0x0280000000000001#64) = .error (.reservedBits 0x02#8) ∧
      decode (.cmd 0x0300000100000000#64) = .error (.reservedBits 0x03#8) ∧
      decode (.cmd 0x0400000000000000#64) = .error (.reservedCommand 0x04#8) := by decide +kernel

/-- Every frame-class row's word, and its first step from reset. -/
theorem test_table_frames :
    decodeTableWord 64 0x0000000000000000 = some (.frameHdu 0#12) ∧
      decodeTableWord 64 0x0003000000000000 = some (.frameTdu 0#12) ∧
      decodeTableWord 64 0x0005000000000000 = some (.frameLdu1 0#12) ∧
      decodeTableWord 64 0x0007000000000000 = some (.frameTsdu 0#12) ∧
      decodeTableWord 64 0x000A000000000000 = some (.frameLdu2 0#12) ∧
      decodeTableWord 64 0x000C000000000000 = some (.framePdu 0#12) ∧
      decodeTableWord 64 0x000F000000000000 = some (.frameTdulc 0#12) ∧
      onNext (fun t => t.cls == some .pdu) (step (State.reset.withFetchWord 64 0x000C000000000000)) = true := by
  decide +kernel

/-- Every TSBK and command row's word, and two of their first steps from reset. -/
theorem test_table_others :
    decodeTableWord 16 0x0000 = some (.grpVChGrant false 0#8 0#8 0#16 0#16 0#24) ∧
      decodeTableWord 16 0x0200 = some (.grpVChGrantUpdt false 0#8 0#16 0#16 0#16 0#16) ∧
      decodeTableWord 16 0x3400 = some (.idenUpVu false 0#8 0#4 0#4 0#14 0#10 0#32) ∧
      decodeTableWord 16 0x3D00 = some (.idenUp false 0#8 0#4 0#9 0#9 0#10 0#32) ∧
      decodeTableWord 16 0x3A00 = some (.tsbkOther false false 0x3A#6 0#8 0#64) ∧
      decodeTableWord 64 0x0100000000000000 = some (.setFreq 0#56) ∧
      decodeTableWord 64 0x0200000000000000 = some (.setGain (.manual 0#32)) ∧
      decodeTableWord 64 0x0300000000000000 = some (.setPpm 0#32) ∧
      onNext (fun t => mapRead 0#4 t == some ⟨.iden, 0, 0, 0#14, 0#9⟩) (step (State.reset.withFetchWord 16 0x3D00)) = true ∧
      onNext (fun t => sentWords t == [0x0100000000000000#64])
        (step (State.reset.withFetchWord 64 0x0100000000000000)) = true := by decide +kernel

/-! ## Single steps -/

/-- V-FS10, and R154's lengths: each frame class is taken up at its NID. -/
theorem test_frames_taken_up :
    onNext (fun t => t.curLen == some 396 && t.cls == some .hdu) (exec (.frameHdu 0x293#12) start0) = true ∧
      onNext (fun t => t.curLen == some 864 && t.cls == some .ldu1) (exec (.frameLdu1 0x293#12) start0) = true ∧
      onNext (fun t => t.curLen == some 864 && t.cls == some .ldu2) (exec (.frameLdu2 0x293#12) start0) = true ∧
      onNext (fun t => t.curLen == some 216 && t.nacCur == 0x293#12) (exec (.frameTdulc 0x293#12) start0) = true ∧
      onNext (fun t => t.curLen == none && t.cls == some .pdu) (exec (.framePdu 0x293#12) start0) = true ∧
      onNext (fun t => t.curLen == some 72 && t.unit == some ⟨.terminator, true, 0, 0x293#12, some .tdu⟩)
        (exec (.frameTdu 0x293#12) start0) = true := by decide +kernel

/-- V-FS9 and R351: the TSDU that carries G100 alone is 180 dibits long and hands the block over. -/
theorem test_tsdu_block :
    onNext (fun t => t.curLen == some 180 && t.unit == some ⟨.trunkingSignalingBlock, true, 1000, 0x293#12, some (.tsbk g100)⟩)
      (exec (.frameTsdu 0x293#12) (inFrame .tsdu (zeros 64 ++ tsbkEncode g100))) = true := by decide +kernel

/-- R346: G100's block with two dibit errors is restored (as in V-F3). -/
theorem test_tsdu_block_corrected :
    tsbkDecode ((tsbkEncode g100).set 20 true |>.set 130 true) = g100 := by decide +kernel

/-- V-S1: G100 tunes to 851075000 Hz. -/
theorem test_grant :
    onNext (fun t => t.role == .trafficChannel 851075000 100#16 2000 && t.controlFreq == 851012500 &&
        t.cmd == some ⟨851075000, .grant⟩)
      (exec (.grpVChGrant true 0#8 0#8 0x0005#16 100#16 0x123456#24) (atArbiter .controlChannel)) = true := by decide +kernel

/-- UPDT_A1: band 1 is unknown, so pair B acts after E4 (R407). -/
theorem test_grant_updt :
    onNext (fun t => t.role == .trafficChannel 851100000 300#16 2000 && t.raised == [.e4 0x1005#16])
      (exec (.grpVChGrantUpdt true 0#8 0x1005#16 100#16 0x0007#16 300#16) (atArbiter .controlChannel)) = true := by
  decide +kernel

/-- IDENVU2 and IDEN0 write their entries (R405, R406). -/
theorem test_identifier_updates :
    onNext (fun t => mapRead 2#4 t == some ⟨.idenVU, 851006250, 12500, 0#14, 5#9⟩ && mapRead 0#4 t == some entry0)
        (exec (.idenUpVu true 0#8 2#4 5#4 0#14 100#10 170201250#32) (atArbiter .controlChannel)) = true ∧
      onNext (fun t => mapRead 0#4 t == some entry0)
        (exec (.idenUp true 0#8 0#4 100#9 0x0B4#9 100#10 170202500#32) { start0 with unit := some (tsbkUnit g100) }) = true := by
  decide +kernel

/-- OPC3A only refreshes activity (R408). -/
theorem test_other :
    onNext (fun t => t.role == .trafficChannel 851075000 100#16 2000 && t.cmd == none)
      (exec (.tsbkOther true false 0x3A#6 0#8 0#64) (atArbiter traffic100)) = true := by decide +kernel

/-- R501 to R503: the words sent, and a FAIL. -/
theorem test_commands :
    onNext (fun t => sentWords t == [0x0100000032BA5FB8#64] && t.runState == .running)
        (exec (.setFreq 851075000#56) { start0 with replies := [.ok] }) = true ∧
      onNext (fun t => sentWords t == [0x02000000000001F0#64] && t.runState == .fatal (.e7 .gain))
        (exec (.setGain (.manual 496#32)) { start0 with replies := [.fail] }) = true ∧
      onNext (fun t => sentWords t == [0x03000000FFFFFFFD#64] && t.runState == .fatal (.e7 .ppm))
        (exec (.setPpm (-3#32)) { start0 with replies := [.fail] }) = true := by decide +kernel

/-- V-D2 to V-D5. -/
theorem test_discriminate :
    (discriminate ⟨0, 1⟩ start0).1 = 12000 ∧ (discriminate ⟨-1, 0⟩ start0).1 = 24000 ∧
      (discriminate ⟨0, -1⟩ start0).1 = -12000 ∧ (discriminate ⟨0, 0⟩ start0).1 = 0 := by decide +kernel

/-- V-D7, V-D8 and V-D13. -/
theorem test_symbol_clock :
    let s7 := timingStep (-600) { start0 with clk := 4, yPrev := 600 }
    let s8 := timingStep (-900) { start0 with clk := 49 / 5, yPrev := 100 }
    (s7.clk = 81 / 16 ∧ s7.period = 5119 / 512 ∧ s7.run = []) ∧
      (s8.clk = 431 / 2560 ∧ s8.period = 25649 / 2560 ∧ s8.run = [(2#2, 0)]) ∧
      ([1200, 1199, 0, -1, -1200, -1201].map (slice 1200)) = [1#2, 0#2, 0#2, 2#2, 2#2, 3#2] := by decide +kernel

/-- V-FS1 to V-FS4. -/
theorem test_corr :
    corr (syncDibits.map some) = 216 ∧ corr (((syncDibits.set 4 3#2).set 7 3#2).map some) = 180 ∧
      corr ((syncDibits.set 0 0#2).map some) = 210 := by decide +kernel

/-! ## Witnesses: concrete states and operands that meet the hypotheses of the statements, clause by clause -/

/-- Encodings: a well-formed instruction, a TSBK and a command that decode. -/
theorem witness_encodings :
    (Instr.grpVChGrant true 0x01#8 0#8 5#16 100#16 0#24).wf = true ∧ (Instr.tsbkOther true true 0x00#6 0#8 0#64).wf = true ∧
      (∀ w, Key.tsbk g100 ≠ .nid w) ∧ decode (.tsbk g100) = .ok (.grpVChGrant true 0#8 0#8 5#16 100#16 0x123456#24) ∧
      (∀ w, Key.cmd 0x0280000000000000#64 ≠ .nid w) ∧ decode (.cmd 0x0280000000000000#64) = .ok (.setGain .auto) :=
  ⟨by decide, by decide, fun _ h => (by cases h), by decide +kernel, fun _ h => (by cases h), by decide +kernel⟩

/-- TrellisDecodeOptimal, DeintIsRowColumnMap: an input that ends with the flush dibit, a whole block of dibits, and the two
rows of the map's two shapes. -/
theorem witness_trellis_deint :
    ([0x2#4, 0x2#4] : List (BitVec 4)) ≠ [] ∧ ([3#2, 0#2] : List Dibit).length = [0x2#4, 0x2#4].length ∧
      ([3#2, 0#2] : List Dibit).getLast? = some 0#2 ∧ (List.replicate 98 1#2).length = 98 ∧
      (12 < 49 ∧ 12 < 13) ∧ (13 < 49 ∧ ¬13 < 13) := by decide

/-- StepRunsFrameInstr: a NID just complete, and a frame taken up. -/
theorem witness_StepRunsFrameInstr :
    (let s := { start0 with stage := .frame, sync := .locked 56, fbits := bvToBits 0x29333977728CED6F#64 }
     s.runState = .running ∧ s.stage = .frame ∧ s.cls = none ∧ s.fbits.length = 64 ∧
        decode (.nid (bitsToBV 64 s.fbits)) = .ok (.frameTdu 0x293#12)) ∧
      (let s := inFrame .hdu (zeros 66)
       s.runState = .running ∧ s.stage = .frame ∧ s.cls = some .hdu ∧
        classInstr .hdu s.nacCur = some (.frameHdu 0x293#12)) := by decide +kernel

/-- StepRunsTsbkInstr. -/
theorem witness_StepRunsTsbkInstr :
    let s := atArbiter .controlChannel
    s.runState = .running ∧ s.stage = .tsm ∧
      s.unit = some ⟨.trunkingSignalingBlock, true, 2000, 0x293#12, some (.tsbk g100)⟩ ∧
      decode (.tsbk g100) = .ok (.grpVChGrant true 0#8 0#8 5#16 100#16 0x123456#24) := by decide +kernel

/-- A word on P_CMD. -/
def sending (runState : RunState) (r : SendFor) (w : Word64) (replies : List Status) : State :=
  { start0 with runState := runState, stage := .send r, cmdWord := w, replies := replies }

/-- StepRunsCommandInstr: booting and running, with a reply and without one. -/
theorem witness_StepRunsCommandInstr :
    (let s := sending .booting .bootGain 0x0280000000000000#64 [.ok]
     s.runState = .booting ∧ s.stage = .send .bootGain ∧ decode (.cmd s.cmdWord) = .ok (.setGain .auto) ∧
        s.replies ≠ []) ∧
      (let s := sending .running (.retune .tick) 0x0100000032BA5FB8#64 []
       s.runState = .running ∧ s.stage = .send (.retune .tick) ∧
        decode (.cmd s.cmdWord) = .ok (.setFreq 851075000#56) ∧ s.replies = []) := by decide +kernel

/-- FrameTakenUpAtNid. -/
theorem witness_FrameTakenUpAtNid : start0.cls = none := rfl

/-- FixedBodyDecoded: the last bit of each body, and the bit pairs before the end. -/
theorem witness_FixedBodyDecoded :
    (inFrame .hdu (zeros 712)).cls = some .hdu ∧ (inFrame .hdu (zeros 712)).fbits.length = 712 ∧
      (inFrame .hdu (zeros 710)).fbits.length ≠ 712 ∧
      (inFrame .tdulc (zeros 352)).fbits.length = 352 ∧ (inFrame .tdulc (zeros 350)).fbits.length ≠ 352 ∧
      (inFrame .ldu1 (zeros 1632)).fbits.length = 1632 ∧ (inFrame .ldu1 (zeros 1630)).fbits.length ≠ 1632 ∧
      (inFrame .ldu2 (zeros 1632)).cls = some .ldu2 ∧ (inFrame .ldu2 (zeros 1632)).fbits.length = 1632 := by
  decide +kernel

/-- A bit string with `len` bits from `start` on inverted. -/
def flip (start len : Nat) (b : List Bool) : List Bool := (List.range b.length).map fun i =>
  if start ≤ i ∧ i < start + len then !b.getD i false else b.getD i false

theorem flip_length (start len : Nat) (b : List Bool) : (flip start len b).length = b.length := by simp [flip]

theorem flip_outside (start len p n : Nat) (b : List Bool) (h : p + n ≤ start ∨ start + len ≤ p) :
    bitsAt p n (flip start len b) = bitsAt p n b := by
  apply List.ext_getElem (by simp [flip_length])
  intro i h1 h2
  have h3 : ¬(start ≤ p + i ∧ p + i < start + len) := by simp at h2; omega
  have h4 : p + i < b.length := by simp at h2; omega
  simp [bitsAt, flip, h3, h4]

theorem differences_le {a b : List Bool} (m : Nat) (h : a.drop m = b.drop m) : differences a b ≤ m := by
  induction m generalizing a b with
  | zero => rw [List.drop_zero, List.drop_zero] at h; simp [h, differences_self]
  | succ m ih =>
    cases a with
    | nil => simp [differences]
    | cons x xs =>
      cases b with
      | nil => simp [differences]
      | cons y ys =>
        have := ih (by simpa using h : xs.drop m = ys.drop m)
        rw [differences]
        split <;> omega

/-- The first `m` words of a body inverted. -/
theorem beyond_flip (t start n count m : Nat) (b : List Bool) :
    wordsBeyond t start n count b (flip start (n * m) b) ≤ m := by
  have h : wordsBeyond t start n count b (flip start (n * m) b) ≤ (List.range count).countP fun i => decide (i < m) := by
    refine List.countP_mono_left fun i _ h => ?_
    rw [decide_eq_true_eq] at h ⊢
    by_contra hm
    have : n * m ≤ n * i := Nat.mul_le_mul_left _ (by omega)
    rw [flip_outside _ _ _ _ _ (.inr (by omega)), differences_self] at h
    omega
  refine h.trans ?_
  clear h
  induction count with
  | zero => simp
  | succ c ih =>
    rw [List.range_succ, List.countP_append, List.countP_singleton]
    by_cases hc : c < m
    · have := (List.range c).countP_le_length (p := fun i => decide (i < m))
      simp at this
      split <;> omega
    · simp [hc]; exact ih

/-- The first four bits of a word inverted are four differences. -/
theorem differences_flip (n : Nat) (h4 : 4 ≤ n) (b : List Bool) (h : n ≤ b.length) :
    differences (bitsAt 0 n b) (bitsAt 0 n (flip 0 4 b)) = 4 := by
  obtain ⟨w, x, y, z, rest, rfl⟩ : ∃ w x y z rest, b = w :: x :: y :: z :: rest := by
    match b, (by omega : 4 ≤ b.length) with
    | w :: x :: y :: z :: rest, _ => exact ⟨w, x, y, z, rest, rfl⟩
  have hf : flip 0 4 (w :: x :: y :: z :: rest) = (!w) :: (!x) :: (!y) :: (!z) :: rest := by
    apply List.ext_getElem (by simp [flip_length])
    intro i h1 h2
    match i with
    | 0 | 1 | 2 | 3 => simp [flip]
    | i + 4 =>
      have h3 : i < rest.length := by simp at h2; omega
      simp [flip, h3]
  obtain ⟨m, rfl⟩ := Nat.exists_eq_add_of_le' h4
  simp [hf, bitsAt, differences, differences_self]

/-- A frame of class `c` whose body is received as `b`. -/
def coded (c : FrameClass) (b : List Bool) : State := inFrame c (zeros 64 ++ b)

theorem coded_length (c : FrameClass) (b : List Bool) : (coded c b).fbits.length = 64 + b.length := by
  simp only [coded, inFrame, List.length_append, zeros, List.length_replicate]

theorem coded_collect (c : FrameClass) {n : Nat} (o : BitOrder n) (b : List Bool) (h : b.length = n) :
    o.collect ((coded c (o.spread b)).fbits.drop 64) = b := by
  rw [coded, inFrame, List.drop_left' (by simp only [zeros, List.length_replicate]), o.collect_spread h]

/-- BodyRestoredWithinCapability, HDU and TDULC: 8 of the 36 words, and 3 of the 12, inverted. -/
theorem witness_BodyRestoredWithinCapability (sent : List Bool) :
    (∀ m : BitVec 120, sent = Config.hduOrder.collect (hduEncode m) →
      ∃ s : State, s.cls = some .hdu ∧ s.fbits.length = 712 ∧
        wordsBeyond 3 0 18 36 sent (Config.hduOrder.collect (s.fbits.drop 64)) ≤ 8) ∧
    (∀ m : BitVec 72, sent = Config.tdulcOrder.collect (tdulcEncode m) →
      ∃ s : State, s.cls = some .tdulc ∧ s.fbits.length = 352 ∧
        wordsBeyond 3 0 24 12 sent (Config.tdulcOrder.collect (s.fbits.drop 64)) ≤ 3) := by
  refine ⟨?_, ?_⟩ <;> rintro m rfl
  · refine ⟨coded .hdu (Config.hduOrder.spread (flip 0 (18 * 8) (Config.hduOrder.collect (hduEncode m)))), rfl,
      by simp [coded_length], ?_⟩
    rw [coded_collect _ _ _ (by simp [flip_length])]
    exact beyond_flip _ _ _ _ _ _
  · refine ⟨coded .tdulc (Config.tdulcOrder.spread (flip 0 (24 * 3) (Config.tdulcOrder.collect (tdulcEncode m)))), rfl,
      by simp [coded_length], ?_⟩
    rw [coded_collect _ _ _ (by simp [flip_length])]
    exact beyond_flip _ _ _ _ _ _

/-- BodyRestoredWithinCapability, four errors: in the first word of an HDU and of a TDULC. -/
theorem witness_BodyRestored_four (sent : List Bool) :
    (∀ m : BitVec 120, sent = Config.hduOrder.collect (hduEncode m) →
      ∃ s : State, s.cls = some .hdu ∧ s.fbits.length = 712 ∧
        differences (bitsAt (18 * 0) 18 sent) (bitsAt (18 * 0) 18 (Config.hduOrder.collect (s.fbits.drop 64))) = 4) ∧
    (∀ m : BitVec 72, sent = Config.tdulcOrder.collect (tdulcEncode m) →
      ∃ s : State, s.cls = some .tdulc ∧ s.fbits.length = 352 ∧
        differences (bitsAt (24 * 0) 24 sent) (bitsAt (24 * 0) 24 (Config.tdulcOrder.collect (s.fbits.drop 64))) = 4) := by
  refine ⟨?_, ?_⟩ <;> rintro m rfl
  · refine ⟨coded .hdu (Config.hduOrder.spread (flip 0 4 (Config.hduOrder.collect (hduEncode m)))), rfl,
      by simp [coded_length], ?_⟩
    rw [coded_collect _ _ _ (by simp [flip_length])]
    exact differences_flip 18 (by omega) _ (by simp)
  · refine ⟨coded .tdulc (Config.tdulcOrder.spread (flip 0 4 (Config.tdulcOrder.collect (tdulcEncode m)))), rfl,
      by simp [coded_length], ?_⟩
    rw [coded_collect _ _ _ (by simp [flip_length])]
    exact differences_flip 24 (by omega) _ (by simp)

/-- BodyRestoredWithinCapability, LDU1 and LDU2: three errors in the first Golay word, and 6 or 4 of the 24 hexbits
inverted. -/
theorem witness_BodyRestored_ldu (o : BitOrder 1568) (sent : List Bool) (hs : sent.length = 1568) (c : FrameClass)
    (bad : Nat) :
    ∃ s : State, s.cls = some c ∧ s.fbits.length = 1632 ∧
      voiceWithin sent (o.collect (s.fbits.drop 64)) ∧
      wordsBeyond 1 1296 10 24 sent (o.collect (s.fbits.drop 64)) ≤ bad := by
  refine ⟨coded c (o.spread (flip 0 3 (flip 1296 (10 * bad) sent))), rfl, by simp [coded_length], ?_⟩
  rw [coded_collect _ _ _ (by simp [flip_length, hs])]
  refine ⟨fun j hj => ⟨?_, ?_⟩, ?_⟩
  · rw [wordsBeyond_eq_zero]
    intro i hi
    refine differences_le 3 ?_
    simp only [bitsAt, List.drop_take, List.drop_drop]
    exact ((flip_outside 0 3 (144 * j + 23 * i + 3) 20 (flip 1296 (10 * bad) sent) (.inr (by omega))).trans
      (flip_outside 1296 (10 * bad) (144 * j + 23 * i + 3) 20 sent (.inl (by omega)))).symm
  · rw [wordsBeyond_eq_zero]
    intro i hi
    rw [flip_outside _ _ _ _ _ (.inr (by omega)), flip_outside _ _ _ _ _ (.inl (by omega)), differences_self]
    omega
  · refine le_trans (le_of_eq ?_) (beyond_flip 1 1296 10 24 bad sent)
    refine List.countP_congr fun i _ => ?_
    rw [flip_outside 0 3 _ _ _ (.inr (by omega))]

/-- What an LDU1 and an LDU2 send meets the premises of `witness_BodyRestored_ldu`. -/
theorem witness_BodyRestored_frames :
    (List.replicate 9 5#88).length = 9 ∧
      (Config.ldu1Order.collect
        (lduEncode Config.ldu1Order Config.rsLc (List.replicate 9 5#88) 5#72 0#32)).length = 1568 ∧
      (Config.ldu2Order.collect
        (lduEncode Config.ldu2Order Config.rsEs (List.replicate 9 5#88) 5#96 0#32)).length = 1568 :=
  ⟨rfl, by simp, by simp⟩

/-- The step at the last bit of a body, in terms of its decoder. -/
theorem coded_body (c : FrameClass) (fec : List Bool → BitVec 12 → Nat → DataUnit) (b : List Bool)
    (h : b.length = bodyBits c) : bodyFixed c fec (coded c b) = handOver (fec b 0x293#12 1000) (coded c b) := by
  rw [bodyFixed_of_complete (by rw [coded_length, h])]
  congr 2
  rw [coded, inFrame, bitsAt, List.drop_left' (by simp only [zeros, List.length_replicate]), ← h, List.take_length]

/-- BodyRestoredWithinCapability, the converse clauses: a body sent and received without errors is a valid unit. -/
theorem witness_BodyRestored_valid :
    (let s := coded .hdu (hduEncode 5#120)
     exec (.frameHdu 0#12) s = .next (withValidUnit .headerUnit (.header 5#120) s)) ∧
    (let s := coded .tdulc (tdulcEncode 5#72)
     exec (.frameTdulc 0#12) s = .next (withValidUnit .terminator (.tdulc 5#72) s)) ∧
    (let s := coded .ldu1 (lduEncode Config.ldu1Order Config.rsLc (List.replicate 9 5#88) 5#72 0#32)
     exec (.frameLdu1 0#12) s = .next (withValidUnit .logicalLinkUnit1 (.ldu1 (List.replicate 9 5#88) 5#72) s)) ∧
    (let s := coded .ldu2 (lduEncode Config.ldu2Order Config.rsEs (List.replicate 9 5#88) 5#96 0#32)
     exec (.frameLdu2 0#12) s = .next (withValidUnit .logicalLinkUnit2 (.ldu2 (List.replicate 9 5#88) 5#96) s)) := by
  refine ⟨?_, ?_, ?_, ?_⟩
  · show Host.Outcome.next (bodyFixed .hdu fecHdu (coded _ _)) = _
    rw [coded_body _ _ _ (by rw [hduEncode, BitOrder.length_spread]; rfl), fecHdu, hduDecode_hduEncode]
    rfl
  · show Host.Outcome.next (bodyFixed .tdulc fecTdulc (coded _ _)) = _
    rw [coded_body _ _ _ (by rw [tdulcEncode, BitOrder.length_spread]; rfl), fecTdulc, tdulcDecode_tdulcEncode]
    rfl
  · show Host.Outcome.next (bodyFixed .ldu1 fecLdu1 (coded _ _)) = _
    rw [coded_body _ _ _ (by rw [lduEncode, BitOrder.length_spread]; rfl), fecLdu1, lduDecode_lduEncode _ _ rfl]
    rfl
  · show Host.Outcome.next (bodyFixed .ldu2 fecLdu2 (coded _ _)) = _
    rw [coded_body _ _ _ (by rw [lduEncode, BitOrder.length_spread]; rfl), fecLdu2, lduDecode_lduEncode _ _ rfl]
    rfl

/-- G100 with LB = 0. -/
def g100More : Octets12 := withCrc 0x00000000050064123456#80

/-- TsbkOfTsdu: between blocks and after the last one; an invalid block; LB = 1; the third block; a block with more to come. -/
theorem witness_TsbkOfTsdu :
    (inFrame .tsdu (zeros 66)).fbits.length ≠ 64 + 196 * ((inFrame .tsdu (zeros 66)).tsbkN + 1) ∧
    ({ inFrame .tsdu (zeros 260) with tsduEnd := some 154 } : State).tsduEnd ≠ none ∧
    (let s := inFrame .tsdu (zeros 260)
     s.cls = some .tsdu ∧ s.tsduEnd = none ∧ s.fbits.length = 64 + 196 * (s.tsbkN + 1) ∧
        crcOk (tsbkDecode ((s.fbits.drop (64 + 196 * s.tsbkN)).take 196)) = false) ∧
    (let s := inFrame .tsdu (zeros 64 ++ tsbkEncode g100)
     s.tsduEnd = none ∧ s.fbits.length = 64 + 196 * (s.tsbkN + 1) ∧
        g100 = tsbkDecode ((s.fbits.drop (64 + 196 * s.tsbkN)).take 196) ∧ crcOk g100 = true ∧
        g100.getLsbD 95 = true) ∧
    (let s := { inFrame .tsdu (zeros 456 ++ tsbkEncode g100More) with tsbkN := 2 }
     s.tsduEnd = none ∧ s.fbits.length = 64 + 196 * (s.tsbkN + 1) ∧
        g100More = tsbkDecode ((s.fbits.drop (64 + 196 * s.tsbkN)).take 196) ∧ crcOk g100More = true ∧
        s.tsbkN + 1 = 3) ∧
    (let s := inFrame .tsdu (zeros 64 ++ tsbkEncode g100More)
     s.tsduEnd = none ∧ s.fbits.length = 64 + 196 * (s.tsbkN + 1) ∧
        g100More = tsbkDecode ((s.fbits.drop (64 + 196 * s.tsbkN)).take 196) ∧ crcOk g100More = true ∧
        g100More.getLsbD 95 = false ∧ s.tsbkN + 1 ≠ 3) := by decide +kernel

/-- A PDU header with BTF = 2, and one with BTF = 0. -/
def pduHeader2 : Octets12 := withCrc 0x16000000000002000000#80

/-- See `pduHeader2`. -/
def pduHeader0 : Octets12 := withCrc 0x16000000000000000000#80

/-- PduHeaderAndBody: a valid header with and without blocks, an invalid one with and without a prior length; the last bit of
the blocks, and one before it; before the header is complete, and after the unit was handed over. -/
theorem witness_PduHeaderAndBody :
    (let s := inFrame .pdu (zeros 64 ++ tsbkEncode pduHeader2)
     s.cls = some .pdu ∧ s.curLen = none ∧ s.pduHdr = none ∧ s.fbits.length = 260 ∧
        pduHeader2 = tsbkDecode (s.fbits.drop 64) ∧ crcOk pduHeader2 = true ∧
        (pduHeader2.extractLsb' 40 7).toNat ≠ 0) ∧
    (let s := inFrame .pdu (zeros 64 ++ tsbkEncode pduHeader0)
     s.curLen = none ∧ s.pduHdr = none ∧ s.fbits.length = 260 ∧ pduHeader0 = tsbkDecode (s.fbits.drop 64) ∧
        crcOk pduHeader0 = true ∧ (pduHeader0.extractLsb' 40 7).toNat = 0) ∧
    (let s := { inFrame .pdu (zeros 260) with lastLen := some 180 }
     s.curLen = none ∧ s.pduHdr = none ∧ s.fbits.length = 260 ∧ crcOk (tsbkDecode (s.fbits.drop 64)) = false ∧
        s.lastLen = some 180) ∧
    (let s := inFrame .pdu (zeros 260)
     s.curLen = none ∧ s.pduHdr = none ∧ s.fbits.length = 260 ∧ crcOk (tsbkDecode (s.fbits.drop 64)) = false ∧
        s.lastLen = none) ∧
    (let s :=
      { inFrame .pdu (zeros 652) with
        curLen := some 396, pduHdr := some ⟨.packetDataUnit, true, 500, 0x293#12, some (.pdu pduHeader2 2 [])⟩ }
     s.curLen = some 396 ∧ s.fbits.length = 64 + 196 * (1 + 2) ∧
        ({ s with fbits := zeros 650 } : State).fbits.length ≠ 64 + 196 * (1 + 2)) ∧
    (let s := inFrame .pdu (zeros 258)
     s.cls = some .pdu ∧ s.pduHdr = none ∧ s.fbits.length ≠ 260 ∧
        ({ s with fbits := zeros 260, curLen := some 180 } : State).curLen ≠ none) := by decide +kernel

/-- GrantInControlRole: an unknown band, a talkgroup that is not monitored, and a grant that is followed. -/
theorem witness_GrantInControlRole :
    (let s := atArbiter .controlChannel
     s.role = .controlChannel ∧ s.unit = some (tsbkUnit g100) ∧ mapRead ((0x1005#16).extractLsb' 12 4) s = none ∧
        mapRead ((0x0005#16).extractLsb' 12 4) s = some entry0 ∧ s.cfg.tgPolicy = .all) ∧
    (let s := { atArbiter .controlChannel with cfg := { resetConfig with tgPolicy := .allowList [200] } }
     s.role = .controlChannel ∧ mapRead ((0x0005#16).extractLsb' 12 4) s = some entry0 ∧
        monitored s.cfg.tgPolicy 100#16 = false ∧ s.cfg.tgPolicy = .allowList [200] ∧ 200 ∈ [200]) := by decide +kernel

/-- GrantInTrafficRole: Ignore; Preempt for the same talkgroup, and for another one with each outcome. -/
theorem witness_GrantInTrafficRole :
    (let s := atArbiter traffic100
     s.role = .trafficChannel 851075000 100#16 1000 ∧ s.unit = some (tsbkUnit g100) ∧ s.cfg.grantPriority = .ignore) ∧
    (let s := { atArbiter traffic100 with cfg := { resetConfig with grantPriority := .preempt } }
     s.cfg.grantPriority = .preempt ∧ 100#16 ≠ 200#16 ∧ mapRead ((0x1005#16).extractLsb' 12 4) s = none ∧
        mapRead ((0x0007#16).extractLsb' 12 4) s = some entry0 ∧ s.cfg.tgPolicy = .all) ∧
    (let s :=
      { atArbiter traffic100 with cfg := { resetConfig with grantPriority := .preempt, tgPolicy := .allowList [100] } }
     s.cfg.grantPriority = .preempt ∧ mapRead ((0x0007#16).extractLsb' 12 4) s = some entry0 ∧
        monitored s.cfg.tgPolicy 200#16 = false) := by decide +kernel

/-- GrantUpdateTriesAThenB: each of the two channels known and unknown. -/
theorem witness_GrantUpdateTriesAThenB :
    let s := atArbiter .controlChannel
    s.unit = some (tsbkUnit g100) ∧ s.role = .controlChannel ∧ s.cfg.tgPolicy = .all ∧
      mapRead ((0x0005#16).extractLsb' 12 4) s = some entry0 ∧ mapRead ((0x1005#16).extractLsb' 12 4) s = none ∧
      mapRead ((0xF007#16).extractLsb' 12 4) s = none := by decide +kernel

/-- IdentifierUpdates, OtherTsbkOnlyRefreshes: both roles. -/
theorem witness_both_roles :
    (atArbiter .controlChannel).unit = some (tsbkUnit g100) ∧ (atArbiter .controlChannel).role = .controlChannel ∧
      (atArbiter traffic100).unit = some (tsbkUnit g100) ∧
      (atArbiter traffic100).role = .trafficChannel 851075000 100#16 1000 := ⟨rfl, rfl, rfl, rfl⟩

/-- GrantAfterIdentifierUpdates: the sequence of V-S7, with the update of the band twice and another band's after it. -/
theorem witness_GrantAfterIdentifierUpdates :
    let s := atArbiter .controlChannel
    let pre := [Instr.idenUp true 0#8 0#4 100#9 0x0B4#9 100#10 170202500#32]
    let post := [Instr.idenUpVu true 0#8 1#4 5#4 0#14 50#10 92000000#32]
    s.role = .controlChannel ∧ s.unit = some (tsbkUnit g100) ∧ monitored s.cfg.tgPolicy 100#16 = true ∧
      (∀ i ∈ pre, idenBand i ≠ none) ∧ post.map idenBand = [some 1#4] ∧ 1#4 ≠ 0#4 ∧
      (0x0005#16).extractLsb' 12 4 = 0#4 ∧
      852062500 = (170400000#32).toNat * 5 + ((0x0005#16).extractLsb' 0 12).toNat * ((100#10).toNat * 125) := by
  decide +kernel

/-- CommandsAnswered: each reply. -/
theorem witness_CommandsAnswered :
    ({ start0 with replies := [.ok] } : State).replies = .ok :: [] ∧
      ({ start0 with replies := [.fail] } : State).replies = .fail :: [] := ⟨rfl, rfl⟩

/-- A record for START, all optional fields absent. -/
def startRecord (initFreq : Nat) : StartConfig :=
  { initFreq := initFreq, ppm := none, gain := none, tgPolicy := none, grantPriority := none, failLimit := 3
    timeoutSamples := 48000, settleSamples := 4800, queueCap := 4, blockLen := 4800, fs := 48000, syncThresh := none
    cfoResidHz := none, mfTaps := none, kp := none, ki := none, driftMax := none, sliceThreshHz := none }

/-- A booting block with START next. -/
def booting (initFreq : Nat) (openReply : Status) (replies : List Status) : State :=
  { State.reset with events := [.start (startRecord initFreq) openReply, .decode], replies := replies }

/-- BootSequence, the configuration loaded: every optional field absent, and one given. The filter is a moving average of ten
samples (00_scope.md section 4). -/
theorem witness_BootSequence_loaded :
    loadConfig (startRecord 851012500) =
        { initFreq := 851012500, ppm := 0#32, gain := .auto, tgPolicy := .all, grantPriority := .ignore, failLimit := 3
          timeoutSamples := 48000, settleSamples := 4800, queueCap := 4, blockLen := 4800, fs := 48000, syncThresh := 170
          cfoResidHz := 0, mfTaps := List.replicate 10 (1 / 10), kp := 1 / 8, ki := 1 / 256, driftMax := 1 / 100
          sliceThreshHz := 1200 } ∧
      (loadConfig { startRecord 851012500 with gain := some (.manual 496#32) }).gain = .manual 496#32 := by
  decide +kernel

/-- BootSequence: an illegal configuration; a legal one with each reply. -/
theorem witness_BootSequence :
    firstIllegal (loadConfig (startRecord 0)) = some .initFreq ∧
      firstIllegal (loadConfig (startRecord 851012500)) = none ∧
      (booting 0 .ok []).runState = .booting ∧ (booting 0 .ok []).stage = .idle ∧
      (booting 0 .ok []).events = .start (startRecord 0) .ok :: [.decode] ∧
      (booting 851012500 .fail []).events = .start (startRecord 851012500) .fail :: [.decode] ∧
      (booting 851012500 .ok [.fail]).replies = .fail :: [] ∧
      (booting 851012500 .ok [.ok, .fail]).replies = .ok :: .fail :: [] ∧
      (booting 851012500 .ok [.ok, .ok, .fail]).replies = .ok :: .ok :: .fail :: [] ∧
      (booting 851012500 .ok [.ok, .ok, .ok]).replies = .ok :: .ok :: .ok :: [] := by decide +kernel

/-- A running block whose blocks are one sample long, in TrafficChannel role, after block 2, with block `seq` queued. -/
def busy (seq : Nat) : State :=
  { start0 with
    cfg := { resetConfig with initFreq := 851012500, blockLen := 1 }
    nextSeq := seq + 1, lastSeq := some 2, queue := [⟨seq, [⟨1, 0⟩]⟩], events := [.decode]
    role := .trafficChannel 851075000 100#16 1, tunedFreq := 851075000, replies := [.ok, .ok] }

/-- IngestStep: room in the queue, a full queue, a failed read. -/
theorem witness_IngestStep :
    (let s := { busy 3 with events := [.ingest (.ok [⟨1, 0⟩])] }
     s.runState = .running ∧ s.stage = .idle ∧ s.events = .ingest (.ok [⟨1, 0⟩]) :: [] ∧
        [(⟨1, 0⟩ : Cplx)].length = s.cfg.blockLen ∧ s.queue.length < s.cfg.queueCap) ∧
    (let s := { busy 3 with events := [.ingest (.ok [⟨1, 0⟩])], queue := List.replicate 4 ⟨3, [⟨1, 0⟩]⟩ }
     s.events = .ingest (.ok [⟨1, 0⟩]) :: [] ∧ [(⟨1, 0⟩ : Cplx)].length = s.cfg.blockLen ∧
        s.cfg.queueCap ≤ s.queue.length) ∧
    ({ busy 3 with events := [.ingest .fail] } : State).events = .ingest .fail :: [] := by decide +kernel

/-- GapResynchronizes: a gap, the first block, and the successor, in ControlChannel role; in TrafficChannel role after a gap,
the tick exactly at the timeout and one sample before it. -/
theorem witness_GapResynchronizes :
    (let s := { busy 4 with role := .controlChannel }
     s.runState = .running ∧ s.stage = .idle ∧ s.events = .decode :: [] ∧ s.queue = ⟨4, [⟨1, 0⟩]⟩ :: [] ∧
        s.role = .controlChannel ∧ s.lastSeq = some 2 ∧ 4 ≠ 2 + 1) ∧
    ({ busy 3 with role := .controlChannel, lastSeq := none } : State).lastSeq = none ∧
    ((busy 3).lastSeq = some 2 ∧ (busy 3).queue = ⟨3, [⟨1, 0⟩]⟩ :: [] ∧ 3 = 2 + 1) ∧
    ((busy 48001).lastSeq = some 2 ∧ 48001 ≠ 2 + 1 ∧ (busy 48001).role = .trafficChannel 851075000 100#16 1 ∧
        1 + (busy 48001).cfg.timeoutSamples ≤ 48001 * (busy 48001).cfg.blockLen ∧
        48000 * (busy 48000).cfg.blockLen < 1 + (busy 48000).cfg.timeoutSamples) ∧
    onNext (fun t => t.role == .controlChannel && t.cmd == some ⟨851012500, .timeout⟩ && t.sync == .searching)
      (step { busy 48001 with sync := .locked 30 }) = true := by decide +kernel

/-- TimeoutAtBlockStart: exactly TIMEOUT_SAMPLES after the last activity, and one sample less (V-S8). -/
theorem witness_TimeoutAtBlockStart :
    let s := fun la =>
      { start0 with
        lastSeq := some 30, queue := [⟨31, []⟩], events := [.decode], role := .trafficChannel 851075000 100#16 la }
    ((s 100800).runState = .running ∧ (s 100800).stage = .idle ∧ (s 100800).events = .decode :: [] ∧
        (s 100800).queue = ⟨31, []⟩ :: [] ∧ (s 100800).lastSeq = some 30 ∧ 31 = 30 + 1) ∧
      100800 + (s 100800).cfg.timeoutSamples ≤ 31 * (s 100800).cfg.blockLen ∧
      31 * (s 100801).cfg.blockLen < 100801 + (s 100801).cfg.timeoutSamples := by decide +kernel

/-- ShutdownTeardown. -/
theorem witness_ShutdownTeardown :
    ({ start0 with events := [.shutdown .ok] } : State).events = .shutdown .ok :: [] ∧ start0.stage = .idle ∧
      start0.runState = .running ∧ State.reset.runState = .booting ∧ State.reset.stage = .idle ∧
      ({ start0 with events := [.start (startRecord 1) .ok] } : State).events = .start (startRecord 1) .ok :: [] :=
  ⟨rfl, rfl, rfl, rfl, rfl, rfl⟩

/-- HaltedForGood: a stopped block with an event, and the state after it. -/
theorem witness_HaltedForGood :
    halted { start0 with runState := .stopped, events := [.decode] } = true ∧
      Reaches { start0 with runState := .stopped, events := [.decode] } { start0 with runState := .stopped } :=
  ⟨rfl, .tail (.refl _) rfl⟩

/-- SettleWindowDiscards: a window that covers the rest of the block and no more; one that ends inside it (V-D14: after it the
next sample is no longer dropped); no window; no sample. -/
theorem witness_SettleWindowDiscards :
    let s := { start0 with stage := .sample, todo := [⟨1, 0⟩, ⟨0, 1⟩], discardLeft := 2 }
    (s.runState = .running ∧ s.stage = .sample ∧ s.todo.length ≤ s.discardLeft) ∧
      (0 < ({ s with discardLeft := 1 } : State).discardLeft ∧ ({ s with discardLeft := 1 } : State).discardLeft < 2) ∧
      (({ s with discardLeft := 0 } : State).todo = ⟨1, 0⟩ :: [⟨0, 1⟩]) ∧
      ({ s with todo := [] } : State).todo = [] := by decide +kernel

/-- DiscriminatorRange: the rate; no residual offset, and one whose correction is a quarter turn; a zero sample; and for each
turn a previous sample off the axes. -/
theorem witness_DiscriminatorRange :
    0 < start0.cfg.fs ∧ start0.cfg.cfoResidHz = 0 ∧
      (12000 : Rat) * ((5 : Nat) : Rat) / (start0.cfg.fs : Rat) = ((1 : Int) : Rat) + 1 / 4 ∧
      (0 : Rat) < 2 ∧ (⟨3, 4⟩ : Cplx) ≠ ⟨0, 0⟩ ∧
      (⟨-6, -8⟩ : Cplx) = ⟨-2 * 3, -2 * 4⟩ ∧ (⟨-8, 6⟩ : Cplx) = ⟨-2 * 4, 2 * 3⟩ ∧
      (⟨8, -6⟩ : Cplx) = ⟨2 * 4, -2 * 3⟩ := by decide +kernel

/-- R234's example, the first output after reset; by hand from R234: a filter whose taps differ takes the
newest sample with its first tap. -/
theorem test_matched_filter :
    (matchedFilter 1800 start0).1 = 180 ∧
      (matchedFilter 5 { start0 with cfg := { resetConfig with mfTaps := [2, 1, 0] }, mfHist := [7, 11, 13] }).1 = 17 ∧
      (matchedFilter 5 { start0 with cfg := { resetConfig with mfTaps := [2, 1, 0] }, mfHist := [7, 11, 13] }).2.mfHist =
        [5, 7, 11] := by decide +kernel

/-- OneDibitPerPeriod: a crossing each way, at 0 (R235), and none; both signs, from the reset clock; an offset within the
tolerance and one beyond it; an offset below the slicer's margin with samples at the deviations. -/
theorem witness_OneDibitPerPeriod :
    (((-1 : Rat) < 0 ∧ (0 : Rat) ≤ 0) ∧ ((0 : Rat) ≤ 0 ∧ (-1 : Rat) < 0) ∧ ((-1 : Rat) < 0 ∧ (-1 : Rat) < 0)) ∧
      (0 ≤ start0.yPrev ∧ ∀ y ∈ [(0 : Rat), 1200], 0 ≤ y) ∧
      (({ start0 with yPrev := -1 } : State).yPrev < 0 ∧ ∀ y ∈ [(-1200 : Rat)], y < 0) ∧
      0 ≤ start0.clk ∧ start0.clk < start0.period ∧ 1 ≤ start0.period ∧
      (0 < start0.cfg.sliceThreshHz ∧ |(0 : Rat)| ≤ cfoTolerance ∧ cfoTolerance < |(1 / 1000 : Rat)|) ∧
      |(599 : Rat)| < sliceMargin start0.cfg ∧
      (deviation 0#2 = 600 ∧ deviation 1#2 = 1800 ∧ deviation 2#2 = -600 ∧ deviation 3#2 = -1800) := by
  refine ⟨by decide, by decide +kernel, by decide +kernel, by decide +kernel, by decide +kernel, by decide +kernel, ?_, ?_,
    by decide +kernel⟩
  · refine ⟨by decide +kernel, ?_, ?_⟩ <;> norm_num [cfoTolerance, abs_of_pos]
  · rw [show sliceMargin start0.cfg = 600 by decide +kernel]
    norm_num [abs_of_pos]

/-- CorrelationBounds. -/
theorem witness_CorrelationBounds : emptyWindow.length = 24 ∧ (syncDibits.map some).length = 24 := by decide +kernel

/-- A searching block whose window holds `w`, with `d` the next dibit. -/
def searching (w : List (Option Dibit)) (d : Dibit) : State :=
  { start0 with stage := .dibit, win := w, run := [(d, 7)] }

/-- V-FS2, V-FS4 and V-FS5 lock on their last dibit; V-FS3 and V-FS6 do not. -/
theorem test_search_step :
    let locks := fun w => onNext (fun t => t.sync == .locked 24 && t.now == 7 && t.run == [])
      (step (searching (none :: w.dropLast) ((w.getLast?.getD none).getD 0#2)))
    let sync := syncDibits.map some
    locks ((sync.set 4 (some 3#2)).set 7 (some 3#2)) = true ∧ locks (sync.set 0 (some 0#2)) = true ∧
      locks (List.replicate 5 none ++ sync.drop 5) = true ∧
      locks (((sync.set 4 (some 3#2)).set 7 (some 3#2)).set 0 (some 3#2)) = false ∧
      locks (List.replicate 6 none ++ sync.drop 6) = false := by decide +kernel

/-- LockOnAlignedSync: a dibit that completes the sync (V-FS2), and one that does not; a run from an empty window. -/
theorem witness_LockOnAlignedSync :
    (let s := searching (none :: (((syncDibits.set 4 3#2).set 7 3#2).map some).dropLast) 3#2
     s.runState = .running ∧ s.stage = .dibit ∧ s.sync = .searching ∧ s.run = (3#2, 7) :: [] ∧
        s.cfg.syncThresh < corr (s.win.drop 1 ++ [some 3#2]) ∧ corr (s.win.drop 1 ++ [some 1#2]) ≤ s.cfg.syncThresh) ∧
    (let s := { start0 with stage := .dibit, run := syncDibits.zip (List.range 24) ++ [(1#2, 24)] }
     s.runState = .running ∧ s.stage = .dibit ∧ s.sync = .searching ∧ s.win.length = 24 ∧ s.cfg.syncThresh < 216 ∧
        (List.range 24).length = 24 ∧ s.run = syncDibits.zip (List.range 24) ++ [(1#2, 24)] ∧
        ∀ k < 24, corr (s.win.drop k ++ (syncDibits.take k).map some) ≤ s.cfg.syncThresh) := by decide +kernel

/-- LockedDibit: a status position, the sync field's last position, and the first one after it. -/
theorem witness_LockedDibit :
    let s := fun pos => { start0 with stage := .dibit, sync := .locked pos, run := [(3#2, 7)] }
    ((s 35).runState = .running ∧ (s 35).stage = .dibit ∧ (s 35).sync = .locked 35 ∧ (s 35).run = (3#2, 7) :: [] ∧
        35 % 36 = 35) ∧
      ((s 23).sync = .locked 23 ∧ 23 < 24) ∧ ((s 24).sync = .locked 24 ∧ 24 % 36 ≠ 35 ∧ 24 ≤ 24) := by decide +kernel

/-- A complete NID. -/
def atNid (w : Word64) : State := { start0 with stage := .frame, sync := .locked 56, fbits := bvToBits w }

/-- NidStep: a class, a Terminator, and a reserved DUID with and without a prior length; a NID not yet complete, and an
Unknown frame. -/
theorem witness_NidStep :
    (let s := atNid 0x2937F88514ABAECC#64
     s.runState = .running ∧ s.stage = .frame ∧ s.cls = none ∧ s.fbits.length = 64 ∧ s.unit = none ∧
        nidDecode (bitsToBV 64 s.fbits) = some (0x293#12, 0x7#4)) ∧
    nidDecode (bitsToBV 64 (atNid 0x29333977728CED6F#64).fbits) = some (0x293#12, 0x3#4) ∧
    (let s := atNid (nidEncode 0x293#12 0x1#4)
     nidDecode (bitsToBV 64 s.fbits) = some (0x293#12, 0x1#4) ∧
        0x1#4 ∉ [0x0#4, 0x3#4, 0x5#4, 0x7#4, 0xA#4, 0xC#4, 0xF#4] ∧ s.lastLen = none ∧
        ({ s with lastLen := some 180 } : State).lastLen = some 180) ∧
    (let s := { atNid 0#64 with fbits := zeros 62 }
     s.runState = .running ∧ s.stage = .frame ∧ s.cls = none ∧ s.fbits.length ≠ 64) ∧
    (inFrame .unknown (zeros 66)).stage = .frame ∧ (inFrame .unknown (zeros 66)).cls = some .unknown := by decide +kernel

/-- FrameEnd: the last position of a good frame, of the frame that completes a streak, and another position; Searching forced
in the dibit. -/
theorem witness_FrameEnd :
    let s := { start0 with stage := .advance, sync := .locked 179, curLen := some 180 }
    let f := { s with frameFailed := true, failCount := 2 }
    (s.runState = .running ∧ s.stage = .advance ∧ s.sync = .locked 179 ∧
        0 = (if s.frameFailed then s.failCount + 1 else 0) ∧ s.curLen = some (179 + 1) ∧ 0 < s.cfg.failLimit) ∧
      (3 = (if f.frameFailed then f.failCount + 1 else 0) ∧ f.curLen = some (179 + 1) ∧ f.cfg.failLimit ≤ 3) ∧
      ({ s with sync := .locked 178 } : State).curLen ≠ some (178 + 1) ∧
      ({ s with sync := .searching } : State).sync = .searching := by decide +kernel

/-- SyncIgnoresTrunking: the three stages. -/
theorem witness_SyncIgnoresTrunking :
    ({ start0 with stage := .dibit } : State).runState = .running ∧ ({ start0 with stage := .dibit } : State).stage = .dibit ∧
      (atNid 0#64).stage = .frame ∧ ({ start0 with stage := .advance } : State).stage = .advance := ⟨rfl, rfl, rfl, rfl⟩

/-- A unit at the arbiter. -/
def arbiterUnit (role : Role) (du : DataUnit) : State := { atArbiter role with unit := some du }

/-- An invalid signaling block. -/
def badTsbk : DataUnit := ⟨.trunkingSignalingBlock, false, 2000, 0x293#12, none⟩

/-- A Terminator. -/
def terminator0 : DataUnit := ⟨.terminator, true, 2000, 0x293#12, some .tdu⟩

/-- A voice unit. -/
def ldu1Unit : DataUnit :=
  ⟨.logicalLinkUnit1, true, 2000, 0x293#12, some (.ldu1 (List.replicate 9 5#88) 0#72)⟩

/-- See `ldu1Unit`. -/
def ldu2Unit : DataUnit :=
  ⟨.logicalLinkUnit2, true, 2000, 0x293#12, some (.ldu2 (List.replicate 9 5#88) 0#96)⟩

/-- UnitsAtTheArbiter: each clause. -/
theorem witness_UnitsAtTheArbiter :
    ((arbiterUnit traffic100 badTsbk).runState = .running ∧ (arbiterUnit traffic100 badTsbk).stage = .tsm ∧
        (arbiterUnit traffic100 badTsbk).unit = some badTsbk ∧ badTsbk.valid = false) ∧
      ((arbiterUnit .controlChannel ldu1Unit).role = .controlChannel ∧ ldu1Unit.valid = true ∧
        ldu1Unit.kind ≠ .trunkingSignalingBlock) ∧
      ((arbiterUnit traffic100 terminator0).role = .trafficChannel 851075000 100#16 1000 ∧ terminator0.valid = true ∧
        terminator0.kind = .terminator) ∧
      ((arbiterUnit traffic100 ldu1Unit).role = .trafficChannel 851075000 100#16 1000 ∧
        ldu1Unit.kind ≠ .terminator) := by decide +kernel

/-- RetuneIdempotent and RetuneApplied: no command after the tick and after a delivery, a command to the tuned frequency
(V-S6), and to another one with each reply. -/
theorem witness_retunes :
    (∀ s ∈ [{ start0 with stage := .tune .tick }, { start0 with stage := .tune .delivery }],
      s.runState = .running ∧ s.cmd = none ∧
        ∃ p ∈ [(TuneFrom.tick, Stage.sample), (.delivery, .route)], s.stage = .tune p.1 ∧
          (p.1 = .tick ∧ p.2 = .sample ∨ p.1 = .delivery ∧ p.2 = .route)) ∧
    (let s := { start0 with stage := .tune .delivery, cmd := some ⟨851012500, .grant⟩ }
     s.runState = .running ∧ s.stage = .tune .delivery ∧ s.cmd = some ⟨851012500, .grant⟩ ∧
        (⟨851012500, .grant⟩ : RetuneCommand).targetFrequency = s.tunedFreq) ∧
    (let s := { start0 with stage := .tune .delivery, cmd := some ⟨851075000, .grant⟩, replies := [.ok] }
     s.runState = .running ∧ s.stage = .tune .delivery ∧ s.cmd = some ⟨851075000, .grant⟩ ∧
        (⟨851075000, .grant⟩ : RetuneCommand).targetFrequency ≠ s.tunedFreq ∧ 851075000 < 2 ^ 56 ∧
        s.replies = .ok :: [] ∧ ({ s with replies := [.fail] } : State).replies = .fail :: []) := by decide +kernel

/-- A unit at the router. -/
def atRouter (role : Role) (du : DataUnit) : State :=
  { start0 with stage := .route, unit := some du, role := role, tunedFreq := 851075000 }

/-- VoiceForwardedOrDropped: each voice unit on the followed frequency, and a unit in ControlChannel role. -/
theorem witness_VoiceForwardedOrDropped :
    ((atRouter traffic100 ldu1Unit).runState = .running ∧ (atRouter traffic100 ldu1Unit).stage = .route ∧
        (atRouter traffic100 ldu1Unit).unit = some ldu1Unit ∧ ldu1Unit.kind = .logicalLinkUnit1 ∧
        ldu1Unit.valid = true ∧ ldu1Unit.body = some (.ldu1 (List.replicate 9 5#88) 0#72) ∧
        (atRouter traffic100 ldu1Unit).role = .trafficChannel (atRouter traffic100 ldu1Unit).tunedFreq 100#16 1000) ∧
      (ldu2Unit.kind = .logicalLinkUnit2 ∧ ldu2Unit.body = some (.ldu2 (List.replicate 9 5#88) 0#96)) ∧
      (atRouter .controlChannel ldu1Unit).role ≠ .trafficChannel 851075000 100#16 1000 ∧
      (terminator0.kind ≠ .logicalLinkUnit1 ∧ terminator0.kind ≠ .logicalLinkUnit2) := by decide +kernel

/-- VoiceOnlyOnFollowedFrequency: a step that sends a record. -/
theorem witness_VoiceOnlyOnFollowedFrequency :
    onNext (fun t => voiceSent t == [⟨.ldu1, List.replicate 9 5#88, 2000⟩]) (step (atRouter traffic100 ldu1Unit)) = true := by
  decide +kernel

/-- RunStateTransitions: each way out of Booting and Running. -/
theorem witness_RunStateTransitions :
    onNext (fun t => t.runState == .running) (step { start0 with runState := .booting, stage := .sent .bootFreq }) = true ∧
      onNext (fun t => t.runState == .fatal (.e7 .initFreq)) (step (booting 0 .ok [])) = true ∧
      onNext (fun t => t.runState == .stopped) (step { start0 with events := [.shutdown .ok] }) = true := by decide +kernel

/-- RoleTransitions: a timeout, a refresh, a Terminator, and a grant. -/
theorem witness_RoleTransitions :
    onNext (fun t => t.role == .controlChannel) (step { busy 48001 with stage := .idle }) = true ∧
      onNext (fun t => t.role == .trafficChannel 851075000 100#16 2000) (step (arbiterUnit traffic100 ldu1Unit)) = true ∧
      onNext (fun t => t.role == .controlChannel) (step (arbiterUnit traffic100 terminator0)) = true ∧
      onNext (fun t => t.role == .trafficChannel 851075000 100#16 2000) (step (atArbiter .controlChannel)) = true := by
  decide +kernel

/-- ChannelMapOnlyGrows: IDENVU2 at the arbiter. -/
theorem witness_ChannelMapOnlyGrows :
    onNext (fun t => mapRead 2#4 t == some ⟨.idenVU, 851006250, 12500, 0#14, 5#9⟩)
      (step (arbiterUnit .controlChannel (tsbkUnit 0xB400250000640A2510A22B2F#96))) = true := by decide +kernel

/-- ConfigurationFixed: START loads another configuration. -/
theorem witness_ConfigurationFixed :
    onNext (fun t => t.cfg.initFreq == 851012500) (step (booting 851012500 .ok [.ok])) = true := by decide +kernel

/-- DecodeStepCompletes. -/
theorem witness_DecodeStepCompletes :
    (busy 3).runState = .running ∧ (busy 3).stage = .idle ∧ (busy 3).unit = none ∧ (busy 3).events = .decode :: [] ∧
      (busy 3).queue = ⟨3, [⟨1, 0⟩]⟩ :: [] ∧ 2 ≤ (busy 3).replies.length := by decide +kernel

theorem busy_step : ∃ t, step (busy 3) = .next t := ⟨_, rfl⟩

theorem witness_QueueKept : QueueOk (busy 3) ∧ ∃ t, step (busy 3) = .next t := by
  refine ⟨⟨by decide, by decide, by decide, ?_, ?_⟩, busy_step⟩
  · rintro p h; cases h; decide
  · rintro (h | h) <;> cases h

theorem witness_DemodulatorKept : DemodOk (busy 3) ∧ configured (busy 3) ∧ ∃ t, step (busy 3) = .next t :=
  ⟨fun _ => by decide +kernel, .inl rfl, busy_step⟩

/-- A locked frame whose position 57 has just been taken. -/
def midFrame : State := { inFrame .hdu (zeros 66) with sync := .locked 57 }

theorem witness_FramePositionKept : FrameOk midFrame ∧ ∃ t, step midFrame = .next t := by
  refine ⟨⟨fun h => (by cases h), by decide, fun h => (by cases h), fun _ => by decide⟩, ?_⟩
  exact ⟨_, rfl⟩

theorem witness_UnitsKept : UnitsOk (atRouter traffic100 ldu1Unit) ∧ ∃ t, step (atRouter traffic100 ldu1Unit) = .next t := by
  refine ⟨⟨?_, ?_, ?_⟩, ⟨_, rfl⟩⟩
  · rintro du h; cases h; decide
  · rintro _ h; cases h
  · rintro _ h; cases h

theorem witness_TuningFollowsRole : TunedToRole (busy 3) ∧ ∃ t, step (busy 3) = .next t :=
  ⟨⟨rfl, fun h => (by cases h), fun h => (by cases h)⟩, busy_step⟩

theorem witness_OnlyMonitoredFollowed : FollowsMonitored (busy 3) ∧ ∃ t, step (busy 3) = .next t :=
  ⟨⟨fun _ _ _ _ => rfl, fun h => (by cases h)⟩, busy_step⟩

/-- CommandsKept, CommandsInOrder, StopsOnlyOnMalformedRead: a block that is about to send a retune's word. -/
theorem witness_CommandsKept :
    let s :=
      { busy 3 with
        stage := .send (.retune .delivery), cmd := some ⟨851075000, .grant⟩, cmdWord := setFreqWord 851075000#56
        tunedFreq := 851012500 }
    CommandOk s ∧ ∃ t, step s = .next t := by
  refine ⟨⟨?_, ?_, by decide, by decide, ?_, ?_, fun _ => by decide⟩, ⟨_, rfl⟩⟩
  · rintro r h; cases h; exact ⟨_, rfl, by decide⟩
  · rintro c h; cases h; decide
  · rintro f tg la h; cases h; decide
  · intro b e h; simp [mapRead, busy, start0, State.reset] at h

/-- StopsOnlyOnMalformedRead: a read that is no SampleBlock. -/
theorem witness_StopsOnlyOnMalformedRead :
    step { busy 3 with events := [.ingest (.ok [])] } = .fault .notASampleBlock := rfl

theorem witness_ClockKept :
    QueueOk (busy 3) ∧ ClockOk (busy 3) ∧ (∃ t, step (busy 3) = .next t) ∧
      (busy 3).queue = ⟨3, [⟨1, 0⟩]⟩ :: [] ∧ (busy 3).role = .trafficChannel 851075000 100#16 1 := by
  refine ⟨witness_QueueKept.1, ⟨?_, ?_, ?_, ?_, ?_, ?_, ?_⟩, busy_step, rfl, rfl⟩
  · rintro f tg la h; cases h; decide
  · rintro p h; cases h
  · rintro du h; cases h
  · rintro du h; cases h
  · intro h; cases h
  · intro h; exact absurd rfl h
  · intro h; cases h

end Sys2Proof.Tests
end

section
/-! PROOFS. What one step does to the registers that agents share (S1-S4, S23, the configuration, the position in the block),
and the statements that follow: the queue, the ChannelMap, the configuration, the two halted states, the machine's stops. -/

namespace Sys2Proof.StateProofs

open Sys2Proof Sys2Proof.Machine

/-! ## What a step that takes no outside event leaves alone -/

/-- What every step keeps that takes no outside event: the configuration, the queue and its numbers, the block under way, S1 but
for a failed word and the end of boot; of the samples to come at most the first is taken. -/
structure Quiet (s t : State) : Prop where
  cfg : t.cfg = s.cfg
  nextSeq : t.nextSeq = s.nextSeq
  queue : t.queue = s.queue
  lastSeq : t.lastSeq = s.lastSeq
  curSeq : t.curSeq = s.curSeq
  runState : t.runState = s.runState ∨ t.runState = .running ∨ ∃ e, t.runState = .fatal e
  loop : (t.todo = s.todo ∧ t.idx = s.idx) ∨ ∃ x, s.todo = x :: t.todo ∧ t.idx = s.idx + 1

theorem Quiet.refl (s : State) : Quiet s s := ⟨rfl, rfl, rfl, rfl, rfl, .inl rfl, .inl ⟨rfl, rfl⟩⟩

theorem haltStep_quiet (s : State) : Quiet s (haltStep s) := ⟨rfl, rfl, rfl, rfl, rfl, .inl rfl, .inl ⟨rfl, rfl⟩⟩

theorem exec_quiet {s u : State} {i : Instr} (hf : fetch s = .instr i) (he : exec i s = .next u) : Quiet s u := by
  cases fetch_instr hf with
  | frame _ _ hi _ =>
    obtain ⟨_, _, _, _, _, _, _, _, _, _, _, _, _, _, rfl⟩ := exec_frame_effect hi he
    exact ⟨rfl, rfl, rfl, rfl, rfl, .inl rfl, .inl ⟨rfl, rfl⟩⟩
  | tsbk _ _ o _ _ _ hi =>
    obtain ⟨_, _, _, _, _, rfl⟩ := exec_tsbk_effect (hi ▸ dispatchTsbk_tsbk o) he
    exact ⟨rfl, rfl, rfl, rfl, rfl, .inl rfl, .inl ⟨rfl, rfl⟩⟩
  | cmd _ _ _ hp hd =>
    obtain ⟨_, _, _, ⟨_, rfl⟩ | ⟨e, _, _, rfl⟩⟩ := exec_cmd_effect (decodeCmd_cmd hd) hp he
    · exact ⟨rfl, rfl, rfl, rfl, rfl, .inl rfl, .inl ⟨rfl, rfl⟩⟩
    · exact ⟨rfl, rfl, rfl, rfl, rfl, .inr (.inr ⟨e, rfl⟩), .inl ⟨rfl, rfl⟩⟩

theorem Quiet.retire {s u : State} (h : Quiet s u) (b : Stage) : Quiet s (retire b u) := by
  obtain ⟨_, hr⟩ := retire_effect b u
  rw [hr]
  exact ⟨h.cfg, h.nextSeq, h.queue, h.lastSeq, h.curSeq, h.runState, h.loop⟩

theorem afterCommand_quiet (r : SendFor) (s : State) :
    Quiet s (afterCommand r s) ∧ (afterCommand r s).chanMap = s.chanMap := by
  cases r with
  | bootPpm => exact ⟨⟨rfl, rfl, rfl, rfl, rfl, .inl rfl, .inl ⟨rfl, rfl⟩⟩, rfl⟩
  | bootGain => exact ⟨⟨rfl, rfl, rfl, rfl, rfl, .inl rfl, .inl ⟨rfl, rfl⟩⟩, rfl⟩
  | bootFreq => exact ⟨⟨rfl, rfl, rfl, rfl, rfl, .inr (.inl rfl), .inl ⟨rfl, rfl⟩⟩, rfl⟩
  | retune src =>
    obtain ⟨_, _, _, _, _, _, _, _, _, _, _, _, _, _, _, _, _, _, _, _, h⟩ := retuneSent_effect src s
    rw [afterCommand, h]
    exact ⟨⟨rfl, rfl, rfl, rfl, rfl, .inl rfl, .inl ⟨rfl, rfl⟩⟩, rfl⟩

theorem sampleStep_quiet (s : State) : Quiet s (sampleStep s) ∧ (sampleStep s).chanMap = s.chanMap := by
  cases h : s.todo with
  | nil =>
    rw [sampleStep_of_nil h]
    exact ⟨⟨rfl, rfl, rfl, rfl, rfl, .inl rfl, .inl ⟨rfl, rfl⟩⟩, rfl⟩
  | cons x rest =>
    by_cases hw : 0 < s.discardLeft
    · rw [sampleStep_of_window h hw]
      exact ⟨⟨rfl, rfl, rfl, rfl, rfl, .inl rfl, .inr ⟨x, h, rfl⟩⟩, rfl⟩
    · obtain ⟨_, _, _, _, _, _, hd, _, _⟩ := demodSample_frame x
        { s with todo := rest, now := sampleTime s.cfg s.curSeq s.idx, idx := s.idx + 1 }
      rw [sampleStep_of_open h (Nat.eq_zero_of_not_pos hw), hd]
      exact ⟨⟨rfl, rfl, rfl, rfl, rfl, .inl rfl, .inr ⟨x, h, rfl⟩⟩, rfl⟩

/-- A pipeline operation of a running block is an outside event, or quiet and without a write to the ChannelMap. -/
theorem runningCase_kind {s t : State} (h : RunningCase s t) :
    EventCase s t ∨ Quiet s t ∧ t.chanMap = s.chanMap := by
  cases h with
  | event _ h => exact .inl (eventStep_cases h)
  | sending => exact .inr ⟨.refl s, rfl⟩
  | sent r => exact .inr (afterCommand_quiet r s)
  | sample => exact .inr (sampleStep_quiet s)
  | dibit =>
    obtain ⟨_, _, _, _, _, _, _, _, _, _, _, _, _, _, h⟩ := dibitStep_effect s
    rw [h]
    exact .inr ⟨⟨rfl, rfl, rfl, rfl, rfl, .inl rfl, .inl ⟨rfl, rfl⟩⟩, rfl⟩
  | frame =>
    obtain ⟨_, _, _, _, _, _, _, _, _, _, _, _, h⟩ := framePipeline_effect s
    rw [h]
    exact .inr ⟨⟨rfl, rfl, rfl, rfl, rfl, .inl rfl, .inl ⟨rfl, rfl⟩⟩, rfl⟩
  | tsm =>
    obtain ⟨_, _, h⟩ := tsmPipeline_effect s
    rw [h]
    exact .inr ⟨⟨rfl, rfl, rfl, rfl, rfl, .inl rfl, .inl ⟨rfl, rfl⟩⟩, rfl⟩
  | tune src =>
    obtain ⟨_, _, _, h⟩ := tuneStep_effect src s
    rw [h]
    exact .inr ⟨⟨rfl, rfl, rfl, rfl, rfl, .inl rfl, .inl ⟨rfl, rfl⟩⟩, rfl⟩
  | route =>
    obtain ⟨_, _, h⟩ := routeStep_effect s
    rw [h]
    exact .inr ⟨⟨rfl, rfl, rfl, rfl, rfl, .inl rfl, .inl ⟨rfl, rfl⟩⟩, rfl⟩
  | advance =>
    obtain ⟨_, _, _, _, _, _, _, _, _, _, _, _, h⟩ := advanceStep_effect s
    rw [h]
    exact .inr ⟨⟨rfl, rfl, rfl, rfl, rfl, .inl rfl, .inl ⟨rfl, rfl⟩⟩, rfl⟩

/-- What a step is, seen from the shared registers. -/
inductive StepKind (s : State) : State → Prop where
  /-- a TSBK operation, which alone writes the ChannelMap -/
  | tsbk (i : Instr) (u : State) (hr : s.runState = .running) (hs : s.stage = .tsm) (hf : fetch s = .instr i)
      (hi : isTsbkInstr i = true) (he : exec i s = .next u) (hq : Quiet s (retire s.stage u)) :
      StepKind s (retire s.stage u)
  /-- any other step that takes no outside event -/
  | quiet {t : State} (hq : Quiet s t) (hm : t.chanMap = s.chanMap) : StepKind s t
  /-- an outside event -/
  | event {t : State} (h : EventCase s t) : StepKind s t

theorem instr_kind {s u : State} {i : Instr} (hf : fetch s = .instr i) (he : exec i s = .next u) :
    StepKind s (retire s.stage u) := by
  have hq := (exec_quiet hf he).retire s.stage
  have hm : (retire s.stage u).chanMap = u.chanMap := by
    obtain ⟨_, h⟩ := retire_effect s.stage u
    rw [h]
  cases fetch_instr hf with
  | frame _ _ hi _ =>
    obtain ⟨_, _, _, _, _, _, _, _, _, _, _, _, _, _, rfl⟩ := exec_frame_effect hi he
    exact .quiet hq hm
  | tsbk _ _ o hr hs _ hi => exact .tsbk i u hr hs hf (hi ▸ dispatchTsbk_tsbk o) he hq
  | cmd _ _ _ hp hd =>
    obtain ⟨_, _, _, ⟨_, rfl⟩ | ⟨_, _, _, rfl⟩⟩ := exec_cmd_effect (decodeCmd_cmd hd) hp he
    · exact .quiet hq hm
    · exact .quiet hq hm

theorem step_kind {s t : State} (h : step s = .next t) : StepKind s t := by
  cases step_cases h with
  | instr i u hf he => exact instr_kind hf he
  | wait => exact .quiet (.refl s) rfl
  | halt => exact .quiet (haltStep_quiet s) rfl
  | bootSent r => exact .quiet (afterCommand_quiet r s).1 (afterCommand_quiet r s).2
  | bootEvent _ _ _ h => exact .event (eventStep_cases h)
  | running _ _ h =>
    rcases runningCase_kind h with he | ⟨hq, hm⟩
    · exact .event he
    · exact .quiet hq hm

/-- A step is quiet or takes an outside event. -/
theorem quiet_or_event {s t : State} (h : step s = .next t) : Quiet s t ∨ EventCase s t := by
  cases step_kind h with
  | tsbk _ _ _ _ _ _ _ hq => exact .inl hq
  | quiet hq _ => exact .inl hq
  | event he => exact .inr he

/-- A state change that keeps what `QueueOk` speaks of, and does not go back to Booting or on to Stopped, keeps it. -/
theorem queueOk_of_eq {s t : State} (h : QueueOk s) (hc : t.cfg = s.cfg) (hn : t.nextSeq = s.nextSeq)
    (hq : t.queue = s.queue) (hl : t.lastSeq = s.lastSeq)
    (hr : t.runState = s.runState ∨ t.runState = .running ∨ ∃ e, t.runState = .fatal e) : QueueOk t := by
  obtain ⟨hcap, hord, hblk, hlast, hempty⟩ := h
  refine ⟨by rwa [hq, hc], by rwa [hq], by rwa [hq, hn, hc], by rwa [hl, hn, hq], ?_⟩
  rw [hq]
  rcases hr with hr | hr | ⟨e, hr⟩ <;> rw [hr]
  · exact hempty
  · rintro (h | h) <;> cases h
  · rintro (h | h) <;> cases h

theorem Quiet.queueOk {s t : State} (hq : Quiet s t) (h : QueueOk s) : QueueOk t :=
  queueOk_of_eq h hq.cfg hq.nextSeq hq.queue hq.lastSeq hq.runState

/-- START is taken with an empty queue, so the new configuration breaks nothing. -/
theorem bootStart_queueOk {s : State} (h : QueueOk s) (hr : s.runState = .booting) (c : StartConfig) (r : Status)
    (es : List Event) : QueueOk (bootStart c r { s with events := es }) := by
  obtain ⟨_, _, _, hlast, hempty⟩ := h
  have hq : s.queue = [] := hempty (.inl hr)
  obtain ⟨_, _, _, _, _, hb⟩ := bootStart_effect c r { s with events := es }
  rw [hb]
  exact ⟨by simp [hq], by simp [hq], by simp [hq], hlast, fun _ => hq⟩

theorem shutdown_queueOk {s : State} (h : QueueOk s) (r : Status) (es : List Event) :
    QueueOk (shutdown r { s with events := es }) := by
  obtain ⟨_, _, _, hlast, _⟩ := h
  exact ⟨by simp, by simp, by simp, fun p hp => ⟨(hlast p hp).1, by simp⟩, fun _ => rfl⟩

/-- A block read takes the number `next_seq`, above all that are queued (R112, R500). -/
theorem ingestBlock_queueOk {s : State} (h : QueueOk s) (hr : s.runState = .running) {samples : List Cplx}
    (hl : samples.length = s.cfg.blockLen) : QueueOk (ingestBlock samples s) := by
  obtain ⟨hcap, hord, hblk, hlast, _⟩ := h
  obtain ⟨_, _, hi, rfl | ⟨rfl, hroom⟩⟩ := ingestBlock_effect samples s
  · rw [hi]
    refine ⟨hcap, hord, fun b hb => ⟨Nat.lt_succ_of_lt (hblk b hb).1, (hblk b hb).2⟩,
      fun p hp => ⟨Nat.lt_succ_of_lt (hlast p hp).1, (hlast p hp).2⟩, ?_⟩
    rintro (h | h) <;> simp [hr] at h
  · rw [hi]
    refine ⟨by simpa using hroom, ?_, ?_, ?_, ?_⟩
    · simpa [List.pairwise_append] using ⟨hord, fun b hb => (hblk b hb).1⟩
    · intro b hb
      rcases List.mem_append.mp hb with hb | hb
      · exact ⟨Nat.lt_succ_of_lt (hblk b hb).1, (hblk b hb).2⟩
      · rw [List.mem_singleton.mp hb]
        exact ⟨Nat.lt_succ_self _, hl⟩
    · intro p hp
      refine ⟨Nat.lt_succ_of_lt (hlast p hp).1, fun b hb => ?_⟩
      rcases List.mem_append.mp hb with hb | hb
      · exact (hlast p hp).2 b hb
      · rw [List.mem_singleton.mp hb]
        exact (hlast p hp).1
    · rintro (h | h) <;> simp [hr] at h

/-- The start of a Decode step, on the registers it shares with the others. -/
theorem beginBlock_registers (blk : SampleBlock) (s : State) :
    (beginBlock blk s).cfg = s.cfg ∧ (beginBlock blk s).nextSeq = s.nextSeq ∧ (beginBlock blk s).queue = s.queue ∧
      (beginBlock blk s).lastSeq = some blk.seq ∧ (beginBlock blk s).runState = s.runState ∧
      (beginBlock blk s).chanMap = s.chanMap := by
  obtain ⟨_, _, hb⟩ := beginBlock_effect blk s
  obtain ⟨_, _, _, _, _, _, _, _, _, _, _, _, _, _, _, _, hg⟩ := gapCheck_effect blk.seq s
  rw [hb, hg]
  exact ⟨rfl, rfl, rfl, rfl, rfl, rfl⟩

/-- A block taken from the queue becomes the last one processed; those behind it have larger numbers (R113). -/
theorem beginBlock_queueOk {s : State} {blk : SampleBlock} {rest : List SampleBlock} (h : QueueOk s)
    (hr : s.runState = .running) (hq : s.queue = blk :: rest) (es : List Event) :
    QueueOk (beginBlock blk { s with events := es, queue := rest }) := by
  obtain ⟨hcap, hord, hblk, _, _⟩ := h
  rw [hq] at hcap hord hblk
  simp only [List.map_cons, List.pairwise_cons, List.mem_map] at hord
  obtain ⟨hhead, hord⟩ := hord
  have hlt : ∀ b ∈ rest, blk.seq < b.seq := fun b hb => hhead _ ⟨b, hb, rfl⟩
  obtain ⟨hcfg, hnext, hqueue, hlast, hrun, _⟩ := beginBlock_registers blk { s with events := es, queue := rest }
  refine ⟨?_, ?_, ?_, ?_, ?_⟩
  · rw [hqueue, hcfg]
    exact Nat.le_of_succ_le hcap
  · rwa [hqueue]
  · rw [hqueue, hnext, hcfg]
    exact fun b hb => hblk b (List.mem_cons_of_mem _ hb)
  · rw [hlast, hnext, hqueue]
    rintro p hp
    cases hp
    exact ⟨(hblk blk List.mem_cons_self).1, hlt⟩
  · rw [hrun]
    rintro (h | h) <;> simp [hr] at h

/-! ## The queue (R33, R36, R112, R113) -/

/-- S2 and S4 only move forwards. -/
def SeqForward (s t : State) : Prop :=
  s.nextSeq ≤ t.nextSeq ∧ ∀ p, s.lastSeq = some p → ∃ q, t.lastSeq = some q ∧ p ≤ q

theorem seqForward_of_eq {s t : State} (hn : t.nextSeq = s.nextSeq) (hl : t.lastSeq = s.lastSeq) : SeqForward s t :=
  ⟨hn.ge, fun p hp => ⟨p, hl.trans hp, le_rfl⟩⟩

theorem event_queueOk {s t : State} (h : QueueOk s) (he : EventCase s t) : QueueOk t ∧ SeqForward s t := by
  cases he with
  | none => exact ⟨h, seqForward_of_eq rfl rfl⟩
  | start c r es hr _ =>
    refine ⟨bootStart_queueOk h hr c r es, ?_⟩
    obtain ⟨_, _, _, _, _, hb⟩ := bootStart_effect c r { s with events := es }
    rw [hb]
    exact seqForward_of_eq rfl rfl
  | shutdown r es => exact ⟨shutdown_queueOk h r es, seqForward_of_eq rfl rfl⟩
  | readFail es =>
    exact ⟨queueOk_of_eq h rfl rfl rfl rfl (.inr (.inr ⟨_, rfl⟩)), seqForward_of_eq rfl rfl⟩
  | block samples es hr _ hl =>
    refine ⟨ingestBlock_queueOk (s := { s with events := es }) h hr hl, ?_⟩
    obtain ⟨_, _, hi, _⟩ := ingestBlock_effect samples { s with events := es }
    rw [hi]
    exact ⟨Nat.le_succ _, fun p hp => ⟨p, hp, le_rfl⟩⟩
  | decodeEmpty es => exact ⟨h, seqForward_of_eq rfl rfl⟩
  | decode blk rest es hr _ hq =>
    refine ⟨beginBlock_queueOk h hr hq es, ?_⟩
    obtain ⟨_, hnext, _, hlast, _, _⟩ := beginBlock_registers blk { s with events := es, queue := rest }
    obtain ⟨_, _, _, hord, _⟩ := h
    exact ⟨hnext.ge, fun p hp => ⟨blk.seq, hlast, ((hord p hp).2 blk (hq ▸ List.mem_cons_self)).le⟩⟩
  | ignored e es => exact ⟨h, seqForward_of_eq rfl rfl⟩

/-- Settles O53: a quiet step leaves the queue's registers alone, and every outside event keeps them in order. -/
theorem queueKept : Obligations.QueueKept := by
  unfold Obligations.QueueKept
  intro s t h hs
  rcases quiet_or_event hs with hq | he
  · exact ⟨hq.queueOk h, seqForward_of_eq hq.nextSeq hq.lastSeq⟩
  · exact event_queueOk h he

/-! ## The configuration and the ChannelMap -/

/-- Settles O48: of the outside events only START loads a configuration. -/
theorem configurationFixed : Obligations.ConfigurationFixed := by
  unfold Obligations.ConfigurationFixed
  intro s t hs
  rcases quiet_or_event hs with hq | he
  · exact .inl hq.cfg
  · cases he with
    | start c r es hr he =>
      obtain ⟨_, _, _, _, _, hb⟩ := bootStart_effect c r { s with events := es }
      exact .inr ⟨hr, c, r, es, he, by rw [hb]; rfl⟩
    | block samples es =>
      obtain ⟨_, _, hi, _⟩ := ingestBlock_effect samples { s with events := es }
      exact .inl (by rw [hi])
    | decode blk rest es =>
      obtain ⟨hcfg, _⟩ := beginBlock_registers blk { s with events := es, queue := rest }
      exact .inl hcfg
    | _ => exact .inl rfl

theorem event_chanMap {s t : State} (h : EventCase s t) : t.chanMap = s.chanMap := by
  cases h with
  | start c r es =>
    obtain ⟨_, _, _, _, _, hb⟩ := bootStart_effect c r { s with events := es }
    rw [hb]
    rfl
  | block samples es =>
    obtain ⟨_, _, hi, _⟩ := ingestBlock_effect samples { s with events := es }
    rw [hi]
  | decode blk rest es =>
    obtain ⟨_, _, _, _, _, hm⟩ := beginBlock_registers blk { s with events := es, queue := rest }
    exact hm
  | _ => rfl

/-- A TSBK operation changes a ChannelMap entry only as an identifier update of its band, in ControlChannel role. -/
theorem tsbk_mapRead {i : Instr} {s t : State} (h : TsbkCase i s t) (b : BitVec 4) :
    mapRead b t = mapRead b s ∨ s.role = .controlChannel ∧ mapRead b t ≠ none ∧ idenBand i = some b := by
  cases h with
  | nothing =>
    obtain ⟨_, hr⟩ := refresh_effect (unitTime s) s
    rw [hr]
    exact .inl rfl
  | update b' e hi hr =>
    by_cases hb : b = b'
    · subst hb
      exact .inr ⟨hr, ne_of_eq_of_ne (mapRead_mapWrite_self b e s) (by simp), hi⟩
    · exact .inl (mapRead_mapWrite_of_ne hb e s)
  | grant => exact .inl rfl
  | preempt => exact .inl rfl

/-- Settles O47: only a TSBK operation writes the ChannelMap, and of those only an identifier update. -/
theorem channelMapOnlyGrows : Obligations.ChannelMapOnlyGrows := by
  unfold Obligations.ChannelMapOnlyGrows
  intro s t b hs
  cases step_kind hs with
  | tsbk i u hr hst hf hi he =>
    obtain ⟨_, hret⟩ := retire_effect s.stage u
    rw [hret]
    rcases tsbk_mapRead (exec_tsbk_cases hi he) b with h | ⟨hrole, hne, hband⟩
    · exact .inl h
    · exact .inr ⟨hr, hst, hrole, hne, i, hf, hband⟩
  | quiet _ hm => exact .inl (mapRead_congr hm b)
  | event he => exact .inl (mapRead_congr (event_chanMap he) b)

/-! ## Fatal and Stopped -/

theorem step_of_halted {s : State} (h : halted s = true) : step s = .next (haltStep s) := by
  cases hr : s.runState with
  | fatal e => simp [step, fetch, pipeline, hr]
  | stopped => simp [step, fetch, pipeline, hr]
  | booting => simp [halted, hr] at h
  | running => simp [halted, hr] at h

/-- Settles O30, by induction along the run: each step of a halted block drops at most one event more. -/
theorem haltedForGood : Obligations.HaltedForGood := by
  unfold Obligations.HaltedForGood
  intro s t hs hst
  refine reaches_induct (P := fun t => ∃ n, t = { s with events := s.events.drop n }) hst ⟨0, rfl⟩ ?_
  rintro _ v ⟨n, rfl⟩ hv
  rw [step_of_halted (s := { s with events := s.events.drop n }) hs] at hv
  cases hv
  exact ⟨n + 1, by simp [haltStep]⟩

end Sys2Proof.StateProofs
end

section
/-! PROOFS. The words of P_CMD are decoded as they were encoded; so the machine never refuses a word that is due, and boot
sends its three words in their order. -/

namespace Sys2Proof.StateProofs

open Sys2Proof Sys2Proof.Machine

/-! ## The words of P_CMD -/

theorem decodeCmd_setFreqWord (f : BitVec 56) : decodeCmd (setFreqWord f) = .ok (.setFreq f) := by
  have hcode : (setFreqWord f).extractLsb' 56 8 = 0x01#8 := BitVec.extractLsb'_append_eq_left
  have hfreq : (setFreqWord f).extractLsb' 0 56 = f := BitVec.extractLsb'_append_eq_right
  simp [decodeCmd, hcode, hfreq]

/-- A word with a 32-bit operand and zeros above it, as SET_PPM's and a manual SET_GAIN's are (R170). -/
theorem operand32_fields (code : BitVec 8) (x : BitVec 32) :
    (code ++ (0#24 ++ x)).extractLsb' 56 8 = code ∧ (code ++ (0#24 ++ x)).extractLsb' 32 24 = 0#24 ∧
      (code ++ (0#24 ++ x)).extractLsb' 0 32 = x := by
  refine ⟨BitVec.extractLsb'_append_eq_left, ?_, ?_⟩
  · rw [BitVec.extractLsb'_append_eq_of_add_le (by decide)]
    exact BitVec.extractLsb'_append_eq_left
  · rw [BitVec.extractLsb'_append_eq_of_add_le (by decide)]
    exact BitVec.extractLsb'_append_eq_right

theorem decodeCmd_setPpmWord (ppm : BitVec 32) : decodeCmd (setPpmWord ppm) = .ok (.setPpm ppm) := by
  obtain ⟨hcode, hzero, hppm⟩ := operand32_fields 0x03#8 ppm
  simp only [decodeCmd, setPpmWord, hcode, hzero, hppm]
  rfl

theorem decodeCmd_setGainWord (g : Gain) : decodeCmd (setGainWord g) = .ok (.setGain g) := by
  cases g with
  | auto => decide
  | manual g =>
    obtain ⟨hcode, hhigh, hgain⟩ := operand32_fields 0x02#8 g
    have hzero : (0x02#8 ++ (0#24 ++ g)).extractLsb' 32 23 = 0#23 := by
      rw [BitVec.extractLsb'_append_eq_of_add_le (by decide), BitVec.extractLsb'_append_eq_of_le (by decide)]
      decide
    have hauto : (0x02#8 ++ (0#24 ++ g)).getLsbD 55 = false := by
      simpa [BitVec.getLsbD_extractLsb'] using congrArg (BitVec.getLsbD · 23) hhigh
    simp only [decodeCmd, setGainWord, hcode, hauto, hzero, hgain]
    rfl

theorem setPpmWord_eq (ppm : BitVec 32) : setPpmWord ppm = 0x03000000#32 ++ ppm :=
  (BitVec.append_assoc (x₁ := 0x03#8) (x₂ := 0#24) (x₃ := ppm)).symm

/-! ## The machine's own stops (R170, R36) -/

/-- The word that is due is a command. -/
theorem wordFor_decodes {s : State} {r : SendFor} {w : Word64} (h : wordFor s r w) : ∃ i, decodeCmd w = .ok i := by
  cases r with
  | bootPpm => exact ⟨_, h ▸ decodeCmd_setPpmWord _⟩
  | bootGain => exact ⟨_, h ▸ decodeCmd_setGainWord _⟩
  | bootFreq => exact ⟨_, h ▸ decodeCmd_setFreqWord _⟩
  | retune =>
    obtain ⟨c, _, rfl⟩ := h
    exact ⟨_, decodeCmd_setFreqWord _⟩

theorem fetchCmd_reserved {s : State} (h : fetchCmd s = .reserved) (i : Instr) : decodeCmd s.cmdWord ≠ .ok i := by
  intro hd
  unfold fetchCmd at h
  split at h
  · cases h
  · rw [hd] at h
    cases h

theorem fetchFrame_ne_reserved (s : State) : fetchFrame s ≠ .reserved := by
  unfold fetchFrame
  (repeat' split) <;> simp

theorem fetchTsm_ne_reserved (s : State) : fetchTsm s ≠ .reserved := by
  unfold fetchTsm
  split <;> simp

/-- Only a word on P_CMD can be reserved. -/
theorem fetch_reserved {s : State} (h : fetch s = .reserved) :
    ∃ r, s.stage = .send r ∧ ∀ i, decodeCmd s.cmdWord ≠ .ok i := by
  unfold fetch at h
  split at h
  · split at h
    · exact absurd h (fetchFrame_ne_reserved s)
    · exact absurd h (fetchTsm_ne_reserved s)
    · exact ⟨_, ‹_›, fetchCmd_reserved h⟩
    · cases h
  · split at h
    · exact ⟨_, ‹_›, fetchCmd_reserved h⟩
    · cases h
  · cases h
  · cases h

/-- The read of a running block's next event answers a list that is no SampleBlock (R36). -/
def MalformedRead (s : State) : Prop :=
  s.runState = .running ∧ ∃ samples es, s.events = .ingest (.ok samples) :: es ∧ samples.length ≠ s.cfg.blockLen

theorem eventStep_outcome (s : State) :
    (∃ t, eventStep s = .next t) ∨ eventStep s = .fault .notASampleBlock ∧ MalformedRead s := by
  unfold eventStep
  split
  · exact .inl ⟨_, rfl⟩
  · rename_i es he
    dsimp only
    split
    · exact .inl ⟨_, rfl⟩
    · exact .inl ⟨_, rfl⟩
    · rename_i read hr
      cases read with
      | fail => exact .inl ⟨_, rfl⟩
      | ok samples =>
        by_cases hl : samples.length = s.cfg.blockLen
        · exact .inl ⟨_, ingestStep_of_block hl⟩
        · exact .inr ⟨by simp [ingestStep, hl], hr, samples, es, he, hl⟩
    · exact .inl ⟨_, rfl⟩
    · exact .inl ⟨_, rfl⟩

theorem pipeline_outcome (s : State) :
    (∃ t, pipeline s = .next t) ∨ pipeline s = .fault .notASampleBlock ∧ MalformedRead s := by
  unfold pipeline
  split
  · exact .inl ⟨_, rfl⟩
  · exact .inl ⟨_, rfl⟩
  · split
    · exact .inl ⟨_, rfl⟩
    · exact eventStep_outcome s
  · split
    · exact eventStep_outcome s
    all_goals exact .inl ⟨_, rfl⟩

/-- Settles O50: the word that is due decodes, no meaning stops, and of the pipeline only the Ingest step can. -/
theorem stopsOnlyOnMalformedRead : Obligations.StopsOnlyOnMalformedRead := by
  unfold Obligations.StopsOnlyOnMalformedRead
  rintro s ⟨hword, _⟩
  cases hf : fetch s with
  | instr i =>
    obtain ⟨u, he⟩ := exec_next i s
    exact .inl ⟨_, step_of_instr hf he⟩
  | wait => exact .inl ⟨s, step_of_wait hf⟩
  | reserved =>
    obtain ⟨r, hs, hno⟩ := fetch_reserved hf
    obtain ⟨i, hi⟩ := wordFor_decodes (hword r hs)
    exact absurd hi (hno i)
  | pipeline =>
    rw [step_of_pipeline hf]
    exact pipeline_outcome s

/-! ## Boot (R591) -/

/-- A configuration is legal exactly when every condition of R547 holds. -/
theorem firstIllegal_eq_none {c : CoreConfig} :
    firstIllegal c = none ↔ ∀ p ∈ configConditions c, p.2 = true := by
  simp [firstIllegal]

theorem initFreq_lt_of_legal {c : CoreConfig} (h : firstIllegal c = none) : c.initFreq < 2 ^ 56 := by
  have hp := firstIllegal_eq_none.mp h (.initFreq, _) List.mem_cons_self
  simp only [Bool.and_eq_true, decide_eq_true_eq] at hp
  exact hp.2

theorem steps_succ {s t : State} (n : Nat) (h : step s = .next t) : steps (n + 1) s = steps n t := by
  simp [steps, h]

theorem step_start {s : State} {c : StartConfig} {r : Status} {es : List Event} (hr : s.runState = .booting)
    (hs : s.stage = .idle) (he : s.events = .start c r :: es) :
    step s = .next (bootStart c r { s with events := es }) := by
  simp [step, fetch, pipeline, eventStep, hr, hs, he]

theorem bootStart_of_illegal {c : StartConfig} {r : Status} {s : State} {field : ConfigField}
    (h : firstIllegal (loadConfig c) = some field) :
    bootStart c r s = raise (.e7 field) (demodReset { s with cfg := loadConfig c }) := by
  simp [bootStart, h]

theorem bootStart_of_closed {c : StartConfig} {s : State} (h : firstIllegal (loadConfig c) = none) :
    bootStart c .fail s =
      raise (.e5 .openCall)
        { demodReset { s with cfg := loadConfig c } with out := .openSource .fail :: s.out } := by
  simp [bootStart, h]

theorem bootStart_of_open {c : StartConfig} {s : State} (h : firstIllegal (loadConfig c) = none) :
    bootStart c .ok s =
      { demodReset { s with cfg := loadConfig c } with
        out := .openSource .ok :: s.out, cmdWord := setPpmWord (loadConfig c).ppm, stage := .send .bootPpm } := by
  simp [bootStart, h]

/-- A booting block sends the word `w` for the reason `r`: it is a command whose failure is the fatal error `e`. -/
structure BootSends (s : State) (r : SendFor) (w : Word64) (e : Error) : Prop where
  booting : s.runState = .booting
  stage : s.stage = .send r
  fatal : e.fatal = true
  runs : ∃ i, decodeCmd s.cmdWord = .ok i ∧ ∀ u, exec i u = .next (sendCommand w e u)

theorem bootSends_ppm {s : State} (hr : s.runState = .booting) (hs : s.stage = .send .bootPpm)
    (hw : s.cmdWord = setPpmWord s.cfg.ppm) : BootSends s .bootPpm (setPpmWord s.cfg.ppm) (.e7 .ppm) :=
  ⟨hr, hs, rfl, _, hw ▸ decodeCmd_setPpmWord _, fun _ => rfl⟩

theorem bootSends_gain {s : State} (hr : s.runState = .booting) (hs : s.stage = .send .bootGain)
    (hw : s.cmdWord = setGainWord s.cfg.gain) : BootSends s .bootGain (setGainWord s.cfg.gain) (.e7 .gain) :=
  ⟨hr, hs, rfl, _, hw ▸ decodeCmd_setGainWord _, fun _ => rfl⟩

/-- SET_FREQ carries INIT_FREQ whole where the configuration is legal, so E6 names it (R109, R546). -/
theorem bootSends_freq {s : State} (hr : s.runState = .booting) (hs : s.stage = .send .bootFreq)
    (hw : s.cmdWord = setFreqWord (BitVec.ofNat 56 s.cfg.initFreq)) (hl : firstIllegal s.cfg = none) :
    BootSends s .bootFreq (setFreqWord (BitVec.ofNat 56 s.cfg.initFreq)) (.e6 s.cfg.initFreq) := by
  have hf : (BitVec.ofNat 56 s.cfg.initFreq).toNat = s.cfg.initFreq :=
    Nat.mod_eq_of_lt (initFreq_lt_of_legal hl)
  refine ⟨hr, hs, rfl, _, hw ▸ decodeCmd_setFreqWord _, fun u => ?_⟩
  rw [← hf]
  simp [exec, execSetFreq]

theorem BootSends.fetched {s : State} {r : SendFor} {w : Word64} {e : Error} (h : BootSends s r w e)
    (hp : s.replies ≠ []) : ∃ i, fetch s = .instr i ∧ ∀ u, exec i u = .next (sendCommand w e u) := by
  obtain ⟨i, hd, hx⟩ := h.runs
  refine ⟨i, ?_, hx⟩
  cases hq : s.replies with
  | nil => exact absurd hq hp
  | cons => simp [fetch, fetchCmd, h.booting, h.stage, hd, hq]

/-- A refused word ends boot (R504, R549). -/
theorem BootSends.refused {s : State} {r : SendFor} {w : Word64} {e : Error} {rest : List Status}
    (h : BootSends s r w e) (hp : s.replies = .fail :: rest) :
    ∃ t, steps 1 s = some t ∧ t.runState = .fatal e ∧ t.out = .command w .fail :: s.out := by
  obtain ⟨i, hf, hx⟩ := h.fetched (by simp [hp])
  have hstep := step_of_instr hf (hx s)
  rw [sendCommand_of_fail hp, raise_of_fatal h.fatal, h.stage] at hstep
  exact ⟨_, steps_succ 0 hstep, rfl, rfl⟩

/-- An accepted word is followed up in the step after it (R591). -/
theorem BootSends.accepted {s : State} {r : SendFor} {w : Word64} {e : Error} {rest : List Status}
    (h : BootSends s r w e) (hp : s.replies = .ok :: rest) (n : Nat) :
    steps (n + 2) s =
      steps n (afterCommand r { s with replies := rest, out := .command w .ok :: s.out, stage := .sent r }) := by
  obtain ⟨i, hf, hx⟩ := h.fetched (by simp [hp])
  have hsend : step s = .next { s with replies := rest, out := .command w .ok :: s.out, stage := .sent r } := by
    rw [step_of_instr hf (hx s), sendCommand_of_ok hp, h.stage]
    simp [retire, h.booting]
  have hnext : step { s with replies := rest, out := .command w .ok :: s.out, stage := .sent r } =
      .next (afterCommand r { s with replies := rest, out := .command w .ok :: s.out, stage := .sent r }) := by
    simp [step, fetch, pipeline, h.booting]
  rw [steps_succ (n + 1) hsend, steps_succ n hnext]

/-- From START with the configuration `c` the block is at `t` after `n` steps, having made the actions `acts`, with the replies
`rest` and the events `es` to come. -/
structure BootAt (s : State) (c : StartConfig) (es : List Event) (n : Nat) (acts : List PortAction) (rest : List Status)
    (t : State) : Prop where
  after : ∀ k, steps (k + n) s = steps k t
  cfg : t.cfg = loadConfig c
  out : t.out = acts ++ s.out
  replies : t.replies = rest
  events : t.events = es

/-- The word due at a point of boot is refused. -/
theorem BootAt.refused {s t : State} {c : StartConfig} {es : List Event} {n : Nat} {acts : List PortAction}
    {rest : List Status} {r : SendFor} {w : Word64} {e : Error} (h : BootAt s c es n acts (.fail :: rest) t)
    (hb : BootSends t r w e) :
    ∃ u, steps (1 + n) s = some u ∧ u.runState = .fatal e ∧ u.out = .command w .fail :: (acts ++ s.out) := by
  obtain ⟨u, hu, hrun, hout⟩ := hb.refused h.replies
  exact ⟨u, (h.after 1).trans hu, hrun, by rw [hout, h.out]⟩

/-- The steps of an accepted word at a point of boot. -/
theorem BootAt.accepted_steps {s t : State} {c : StartConfig} {es : List Event} {n : Nat} {acts : List PortAction}
    {rest : List Status} {r : SendFor} {w : Word64} {e : Error} (h : BootAt s c es n acts (.ok :: rest) t)
    (hb : BootSends t r w e) (k : Nat) :
    steps (k + (2 + n)) s =
      steps k
        (afterCommand r { t with replies := rest, out := .command w .ok :: t.out, stage := .sent r }) := by
  rw [← Nat.add_assoc, h.after, hb.accepted h.replies]

section Boot

variable {s : State} {c : StartConfig} {es : List Event} {rest : List Status}

/-- START with a legal configuration and an open Source: SET_PPM is the first word (R506, R591). -/
theorem boot_at_ppm (hr : s.runState = .booting) (hs : s.stage = .idle) (he : s.events = .start c .ok :: es)
    (hl : firstIllegal (loadConfig c) = none) :
    ∃ t, BootAt s c es 1 [.openSource .ok] s.replies t ∧
      BootSends t .bootPpm (setPpmWord (loadConfig c).ppm) (.e7 .ppm) := by
  have hstep := step_start hr hs he
  rw [bootStart_of_open hl] at hstep
  exact ⟨_, ⟨fun k => steps_succ k hstep, rfl, rfl, rfl, rfl⟩, bootSends_ppm hr rfl rfl⟩

/-- An accepted SET_PPM: SET_GAIN is next (R591). -/
theorem boot_at_gain (hr : s.runState = .booting) (hs : s.stage = .idle) (he : s.events = .start c .ok :: es)
    (hl : firstIllegal (loadConfig c) = none) (hq : s.replies = .ok :: rest) :
    ∃ t, BootAt s c es 3 [.command (setPpmWord (loadConfig c).ppm) .ok, .openSource .ok] rest t ∧
      BootSends t .bootGain (setGainWord (loadConfig c).gain) (.e7 .gain) := by
  obtain ⟨u, ha, hb⟩ := boot_at_ppm hr hs he hl
  rw [hq] at ha
  refine ⟨_, ⟨ha.accepted_steps hb, ha.cfg, congrArg (_ :: ·) ha.out, rfl, ha.events⟩, ?_⟩
  rw [← ha.cfg]
  exact bootSends_gain hb.booting rfl rfl

/-- An accepted SET_GAIN: SET_FREQ is next (R591). -/
theorem boot_at_freq (hr : s.runState = .booting) (hs : s.stage = .idle) (he : s.events = .start c .ok :: es)
    (hl : firstIllegal (loadConfig c) = none) (hq : s.replies = .ok :: .ok :: rest) :
    ∃ t, BootAt s c es 5
        [.command (setGainWord (loadConfig c).gain) .ok, .command (setPpmWord (loadConfig c).ppm) .ok, .openSource .ok]
        rest t ∧
      BootSends t .bootFreq (setFreqWord (BitVec.ofNat 56 (loadConfig c).initFreq)) (.e6 (loadConfig c).initFreq) := by
  obtain ⟨u, ha, hb⟩ := boot_at_gain hr hs he hl hq
  refine ⟨_, ⟨ha.accepted_steps hb, ha.cfg, congrArg (_ :: ·) ha.out, rfl, ha.events⟩, ?_⟩
  rw [← ha.cfg] at hl ⊢
  exact bootSends_freq hb.booting rfl rfl hl

/-- An accepted SET_FREQ ends boot (R591). -/
theorem boot_at_end (hr : s.runState = .booting) (hs : s.stage = .idle) (he : s.events = .start c .ok :: es)
    (hl : firstIllegal (loadConfig c) = none) (hq : s.replies = .ok :: .ok :: .ok :: rest) :
    ∃ t, BootAt s c es 7
        [.command (setFreqWord (BitVec.ofNat 56 (loadConfig c).initFreq)) .ok,
          .command (setGainWord (loadConfig c).gain) .ok, .command (setPpmWord (loadConfig c).ppm) .ok, .openSource .ok]
        rest t ∧
      t.runState = .running ∧ t.stage = .idle ∧ t.tunedFreq = (loadConfig c).initFreq ∧
      t.controlFreq = (loadConfig c).initFreq ∧ t.discardLeft = 0 := by
  obtain ⟨u, ha, hb⟩ := boot_at_freq hr hs he hl hq
  refine ⟨_, ⟨ha.accepted_steps hb, ha.cfg, congrArg (_ :: ·) ha.out, rfl, ha.events⟩, rfl, rfl, ?_, ?_, rfl⟩
  · exact congrArg CoreConfig.initFreq ha.cfg
  · exact congrArg CoreConfig.initFreq ha.cfg

end Boot

/-- Settles O25: START's three outcomes, then each word of boot refused or accepted in its turn. -/
theorem bootSequence : Obligations.BootSequence := by
  unfold Obligations.BootSequence
  intro s c openReply es rest cfg p g f hr hs he hcfg hp hg hf
  replace hcfg : cfg = loadConfig c := hcfg
  replace hp : p = setPpmWord cfg.ppm := hp.trans (setPpmWord_eq _).symm
  replace hf : f = setFreqWord (BitVec.ofNat 56 cfg.initFreq) := hf
  subst hcfg hp hg hf
  have hstep := step_start hr hs he
  refine ⟨fun field hl => ?_, fun hl ho => ?_, fun hl ho hq => ?_, fun hl ho hq => ?_, fun hl ho hq => ?_,
    fun hl ho hq => ?_⟩
  · rw [bootStart_of_illegal hl] at hstep
    exact ⟨_, steps_succ 0 hstep, rfl, rfl, rfl⟩
  · subst ho
    rw [bootStart_of_closed hl] at hstep
    exact ⟨_, steps_succ 0 hstep, rfl, rfl⟩
  · obtain ⟨t, ha, hb⟩ := boot_at_ppm hr hs (ho ▸ he) hl
    rw [hq] at ha
    exact ha.refused hb
  · obtain ⟨t, ha, hb⟩ := boot_at_gain hr hs (ho ▸ he) hl hq
    exact ha.refused hb
  · obtain ⟨t, ha, hb⟩ := boot_at_freq hr hs (ho ▸ he) hl hq
    exact ha.refused hb
  · obtain ⟨t, ha, hrun, hidle, htuned, hcontrol, hleft⟩ := boot_at_end hr hs (ho ▸ he) hl hq
    exact ⟨t, ha.after 0, hrun, hidle, ha.cfg, htuned, hcontrol, hleft, ha.replies, ha.events, ha.out⟩

end Sys2Proof.StateProofs
end

section
/-! PROOFS. The Demodulator stays sound: what a step does to S7, S9 and S10, and why the symbol clock never becomes negative. -/

namespace Sys2Proof.StateProofs

open Sys2Proof Sys2Proof.Machine

/-! ## The symbol clock (R235, R236) -/

/-- The bounds the symbol clock needs of a legal configuration (R547). -/
theorem legal_bounds {c : CoreConfig} (h : firstIllegal c = none) :
    c.mfTaps ≠ [] ∧ 0 < c.kp ∧ c.kp < 1 ∧ 0 ≤ c.driftMax ∧ c.driftMax < 1 / 2 := by
  rw [firstIllegal_eq_none] at h
  have htaps := h (.mfTaps, !c.mfTaps.isEmpty) (by simp [configConditions])
  have hkp := h (.kp, decide (0 < c.kp) && decide (c.kp < 1)) (by simp [configConditions])
  have hdrift := h (.driftMax, decide (0 ≤ c.driftMax) && decide (c.driftMax < 1 / 2)) (by simp [configConditions])
  simp only [Bool.and_eq_true, decide_eq_true_eq] at hkp hdrift
  exact ⟨by simpa using htaps, hkp.1, hkp.2, hdrift.1, hdrift.2⟩

theorem sps_in_clamp {c : CoreConfig} (h : firstIllegal c = none) :
    periodLo c ≤ (spsOf c : Rat) ∧ (spsOf c : Rat) ≤ periodHi c := by
  obtain ⟨_, _, _, hd, _⟩ := legal_bounds h
  have hs : (0 : Rat) ≤ spsOf c := Nat.cast_nonneg _
  unfold periodLo periodHi
  constructor <;> nlinarith only [mul_nonneg hs hd]

theorem periodLo_nonneg {c : CoreConfig} (h : firstIllegal c = none) : 0 ≤ periodLo c := by
  obtain ⟨_, _, _, _, hd⟩ := legal_bounds h
  exact mul_nonneg (Nat.cast_nonneg _) (by linarith only [hd])

theorem clamp_bounds {x lo hi : Rat} (h : lo ≤ hi) : lo ≤ clamp x lo hi ∧ clamp x lo hi ≤ hi :=
  ⟨le_max_left _ _, max_le h (min_le_right _ _)⟩

/-- The share of the sample before a crossing lies in [0, 1] (R235). -/
theorem crossing_share {yPrev y : Rat} (h : isCrossing yPrev y = true) :
    0 ≤ yPrev / (yPrev - y) ∧ yPrev / (yPrev - y) ≤ 1 := by
  simp only [isCrossing, Bool.or_eq_true, Bool.and_eq_true, decide_eq_true_eq] at h
  rcases h with ⟨hp, hy⟩ | ⟨hp, hy⟩
  · have hd : yPrev - y < 0 := by linarith
    exact ⟨div_nonneg_of_nonpos hp.le hd.le, (div_le_one_of_neg hd).mpr (by linarith)⟩
  · have hd : 0 < yPrev - y := by linarith
    exact ⟨div_nonneg hp hd.le, (div_le_one hd).mpr (by linarith)⟩

/-- Folding never raises an error that is at least minus half a period. -/
theorem foldError_le {err period : Rat} (hp : 0 ≤ period) (he : -(period / 2) ≤ err) : foldError err period ≤ err := by
  unfold foldError
  split
  · linarith
  · rw [if_neg (not_lt.mpr he)]

theorem crossingError_le {clk period yPrev y : Rat} (hx : isCrossing yPrev y = true) (hc : 0 ≤ clk) (hp : 0 ≤ period) :
    crossingError clk period yPrev y ≤ clk + 1 := by
  obtain ⟨hu0, hu1⟩ := crossing_share hx
  have hfold := foldError_le (err := clk + yPrev / (yPrev - y) - period / 2) hp (by linarith)
  unfold crossingError
  linarith

/-- With a gain between 0 and 1 the correction never takes more than the clock holds. -/
theorem corrected_clk_nonneg {clk kp err : Rat} (hc : 0 ≤ clk) (hk0 : 0 < kp) (hk1 : kp < 1) (he : err ≤ clk + 1) :
    0 ≤ clk + 1 - kp * err := by
  have h1 : kp * err ≤ kp * (clk + 1) := mul_le_mul_of_nonneg_left he hk0.le
  have h2 : kp * (clk + 1) ≤ 1 * (clk + 1) := mul_le_mul_of_nonneg_right hk1.le (by linarith)
  linarith

/-! ## A sound Demodulator -/

/-- What `DemodOk` asks of a configured block. -/
def DemodSound (s : State) : Prop :=
  firstIllegal s.cfg = none ∧ s.mfHist.length = s.cfg.mfTaps.length ∧ 0 ≤ s.clk ∧
    periodLo s.cfg ≤ s.period ∧ s.period ≤ periodHi s.cfg

theorem demodOk_iff {s : State} : DemodOk s ↔ (configured s → DemodSound s) := Iff.rfl

theorem timingError_sound {s : State} (h : DemodSound s) (y : Rat) : DemodSound (timingError y s) := by
  obtain ⟨hl, hm, hc, hlo, hhi⟩ := h
  obtain ⟨_, hk0, hk1, _, _⟩ := legal_bounds hl
  cases hx : isCrossing s.yPrev y with
  | true =>
    rw [timingError_of_crossing hx]
    have he := crossingError_le hx hc ((periodLo_nonneg hl).trans hlo)
    exact ⟨hl, hm, corrected_clk_nonneg hc hk0 hk1 he, clamp_bounds (hlo.trans hhi)⟩
  | false =>
    rw [timingError_of_no_crossing hx]
    exact ⟨hl, hm, by simp only; linarith, hlo, hhi⟩

theorem timingStep_sound {s : State} (h : DemodSound s) (y : Rat) : DemodSound (timingStep y s) := by
  obtain ⟨hl, hm, hc, hlo, hhi⟩ := timingError_sound h y
  by_cases hd : (timingError y s).period ≤ (timingError y s).clk
  · rw [timingStep_of_due hd]
    exact ⟨hl, hm, sub_nonneg.mpr hd, hlo, hhi⟩
  · rw [timingStep_of_early (not_le.mp hd)]
    exact ⟨hl, hm, hc, hlo, hhi⟩

theorem demodSample_eq_timingStep (x : Cplx) (s : State) :
    ∃ y z f, demodSample x s =
      timingStep y { s with zPrev := z, mfHist := f :: s.mfHist.take (s.cfg.mfTaps.length - 1) } :=
  ⟨_, _, _, rfl⟩

theorem demodSample_sound {s : State} (h : DemodSound s) (x : Cplx) : DemodSound (demodSample x s) := by
  obtain ⟨y, z, f, hd⟩ := demodSample_eq_timingStep x s
  rw [hd]
  obtain ⟨hl, hm, hclk⟩ := h
  apply timingStep_sound
  refine ⟨hl, ?_, hclk⟩
  have hpos : 0 < s.cfg.mfTaps.length := List.length_pos_iff.mpr (legal_bounds hl).1
  simp only [List.length_cons, List.length_take, hm]
  omega

theorem sampleStep_sound {s : State} (h : DemodSound s) : DemodSound (sampleStep s) := by
  cases ht : s.todo with
  | nil =>
    rw [sampleStep_of_nil ht]
    exact h
  | cons x rest =>
    by_cases hw : 0 < s.discardLeft
    · rw [sampleStep_of_window ht hw]
      exact h
    · rw [sampleStep_of_open ht (Nat.eq_zero_of_not_pos hw)]
      exact demodSample_sound (by exact h) x

/-! ## What a step does to the Demodulator -/

/-- What a step of a configured block that stays configured does to the configuration and to S7, S9 and S10. -/
inductive DemodStep (s : State) : State → Prop where
  | kept {t : State} (hcfg : t.cfg = s.cfg) (hhist : t.mfHist = s.mfHist) (hclk : t.clk = s.clk)
      (hperiod : t.period = s.period) : DemodStep s t
  /-- `demod_reset()` (R239) -/
  | reset {t : State} (hcfg : t.cfg = s.cfg) (hhist : t.mfHist = List.replicate s.cfg.mfTaps.length 0)
      (hclk : t.clk = 0) (hperiod : t.period = (spsOf s.cfg : Rat)) : DemodStep s t
  /-- a turn of the sample loop (R230) -/
  | sample : DemodStep s (sampleStep s)

theorem DemodStep.sound {s t : State} (hd : DemodStep s t) (h : DemodSound s) : DemodSound t := by
  cases hd with
  | kept hcfg hhist hclk hperiod =>
    unfold DemodSound
    rw [hcfg, hhist, hclk, hperiod]
    exact h
  | reset hcfg hhist hclk hperiod =>
    unfold DemodSound
    rw [hcfg, hhist, hclk, hperiod]
    obtain ⟨hl, _⟩ := h
    exact ⟨hl, List.length_replicate, le_rfl, sps_in_clamp hl⟩
  | sample => exact sampleStep_sound h

theorem exec_demod {s u : State} {i : Instr} (hf : fetch s = .instr i) (he : exec i s = .next u) :
    configured s ∧ DemodStep s (retire s.stage u) := by
  obtain ⟨_, hret⟩ := retire_effect s.stage u
  rw [hret]
  cases fetch_instr hf with
  | frame hr _ hi _ =>
    obtain ⟨_, _, _, _, _, _, _, _, _, _, _, _, _, _, rfl⟩ := exec_frame_effect hi he
    exact ⟨.inl hr, .kept rfl rfl rfl rfl⟩
  | tsbk _ _ o hr _ _ hi =>
    obtain ⟨_, _, _, _, _, rfl⟩ := exec_tsbk_effect (hi ▸ dispatchTsbk_tsbk o) he
    exact ⟨.inl hr, .kept rfl rfl rfl rfl⟩
  | cmd r hr hs hp hd =>
    refine ⟨hr.imp_right fun hb => ⟨hb, r, .inl hs⟩, ?_⟩
    obtain ⟨_, _, _, ⟨_, rfl⟩ | ⟨_, _, _, rfl⟩⟩ := exec_cmd_effect (decodeCmd_cmd hd) hp he
    · exact .kept rfl rfl rfl rfl
    · exact .kept rfl rfl rfl rfl

theorem afterCommand_demod (r : SendFor) (s : State) : DemodStep s (afterCommand r s) := by
  cases r with
  | retune src =>
    simp only [afterCommand, retuneSent]
    split
    · exact .kept rfl rfl rfl rfl
    · exact .reset rfl rfl rfl rfl
  | _ => exact .kept rfl rfl rfl rfl

theorem decode_demod (blk : SampleBlock) (rest : List SampleBlock) (es : List Event) (s : State) :
    DemodStep s (beginBlock blk { s with events := es, queue := rest }) := by
  obtain ⟨_, _, hb⟩ := beginBlock_effect blk { s with events := es, queue := rest }
  rw [hb]
  cases hg : isGap s.lastSeq blk.seq with
  | true =>
    rw [gapCheck_of_gap (s := { s with events := es, queue := rest }) hg]
    exact .reset rfl rfl rfl rfl
  | false =>
    rw [gapCheck_of_no_gap (s := { s with events := es, queue := rest }) hg]
    exact .kept rfl rfl rfl rfl

/-- An outside event of a running block that does not stop it. -/
theorem runningEvent_demod {s t : State} (hr : s.runState = .running) (h : EventCase s t) (ht : configured t) :
    DemodStep s t := by
  cases h with
  | none => exact .kept rfl rfl rfl rfl
  | start c r es hb => simp [hr] at hb
  | shutdown r es => rcases ht with h | ⟨h, _⟩ <;> cases h
  | readFail es => rcases ht with h | ⟨h, _⟩ <;> cases h
  | block samples es =>
    obtain ⟨_, _, hi, _⟩ := ingestBlock_effect samples { s with events := es }
    rw [hi]
    exact .kept rfl rfl rfl rfl
  | decodeEmpty es => exact .kept rfl rfl rfl rfl
  | decode blk rest es => exact decode_demod blk rest es s
  | ignored e es => exact .kept rfl rfl rfl rfl

theorem running_demod {s t : State} (hr : s.runState = .running) (h : RunningCase s t) (ht : configured t) :
    DemodStep s t := by
  cases h with
  | event _ h => exact runningEvent_demod hr (eventStep_cases h) ht
  | sending => exact .kept rfl rfl rfl rfl
  | sent r => exact afterCommand_demod r s
  | sample => exact .sample
  | dibit =>
    obtain ⟨_, _, _, _, _, _, _, _, _, _, _, _, _, _, h⟩ := dibitStep_effect s
    rw [h]
    exact .kept rfl rfl rfl rfl
  | frame =>
    obtain ⟨_, _, _, _, _, _, _, _, _, _, _, _, h⟩ := framePipeline_effect s
    rw [h]
    exact .kept rfl rfl rfl rfl
  | tsm =>
    obtain ⟨_, _, h⟩ := tsmPipeline_effect s
    rw [h]
    exact .kept rfl rfl rfl rfl
  | tune src =>
    obtain ⟨_, _, _, h⟩ := tuneStep_effect src s
    rw [h]
    exact .kept rfl rfl rfl rfl
  | route =>
    obtain ⟨_, _, h⟩ := routeStep_effect s
    rw [h]
    exact .kept rfl rfl rfl rfl
  | advance =>
    obtain ⟨_, _, _, _, _, _, _, _, _, _, _, _, h⟩ := advanceStep_effect s
    rw [h]
    exact .kept rfl rfl rfl rfl

theorem not_configured_of_halted {s : State} (h : halted s = true) : ¬configured s := by
  rintro (hr | ⟨hr, _⟩) <;> simp [halted, hr] at h

/-- Boot gets as far as its commands only with a legal configuration, the Demodulator reset under it (R591). -/
theorem bootStart_sound {c : StartConfig} {r : Status} {s : State} (ht : configured (bootStart c r s)) :
    DemodSound (bootStart c r s) := by
  cases hl : firstIllegal (loadConfig c) with
  | some field =>
    rw [bootStart_of_illegal hl] at ht
    exact absurd ht (not_configured_of_halted rfl)
  | none =>
    cases r with
    | fail =>
      rw [bootStart_of_closed hl] at ht
      exact absurd ht (not_configured_of_halted rfl)
    | ok =>
      rw [bootStart_of_open hl]
      exact ⟨hl, List.length_replicate, le_rfl, sps_in_clamp hl⟩

/-- Before its first word a booting block becomes configured only by START. -/
theorem bootEvent_sound {s t : State} (hr : s.runState = .booting) (hn : ∀ r, s.stage ≠ .sent r)
    (hw : ∀ r, s.stage ≠ .send r) (h : EventCase s t) (ht : configured t) : DemodSound t := by
  have hs : ¬configured s := by
    rintro (h | ⟨_, r, h | h⟩)
    · simp [hr] at h
    · exact hw r h
    · exact hn r h
  cases h with
  | start c r es => exact bootStart_sound ht
  | none => exact absurd ht hs
  | ignored e es => exact absurd ht hs
  | shutdown r es h => simp [hr] at h
  | readFail es h => simp [hr] at h
  | block samples es h => simp [hr] at h
  | decodeEmpty es h => simp [hr] at h
  | decode blk rest es h => simp [hr] at h

/-- Settles O54: a step keeps S7, S9 and S10, resets them, or turns the sample loop once; START loads a legal configuration. -/
theorem demodulatorKept : Obligations.DemodulatorKept := by
  unfold Obligations.DemodulatorKept
  intro s t h hs
  rw [demodOk_iff] at h ⊢
  intro ht
  cases step_cases hs with
  | instr i u hf he =>
    obtain ⟨hc, hd⟩ := exec_demod hf he
    exact hd.sound (h hc)
  | wait => exact h ht
  | halt hh => exact absurd ht (not_configured_of_halted (s := haltStep s) hh)
  | bootSent r hr hst => exact (afterCommand_demod r s).sound (h (.inr ⟨hr, r, .inr hst⟩))
  | bootEvent hr hn hw he => exact bootEvent_sound hr hn hw (eventStep_cases he) ht
  | running hr _ hc => exact (running_demod hr hc ht).sound (h (.inl hr))

end Sys2Proof.StateProofs
end

section
/-! PROOFS. No step invents a time: every time the machine holds was held before, but for the time of a sample of the block under
way. With it, all times stay before the next block's start. -/

namespace Sys2Proof.StateProofs

open Sys2Proof Sys2Proof.Machine

/-! ## The times a state holds -/

/-- The sample times that a state holds: of the last activity, of a dibit to be delivered, of a DataUnit, and at a data dibit the
time of the dibit itself (R34, R161, R238, R413). -/
inductive HeldTime (s : State) : Nat → Prop where
  | role {f la : Nat} {tg : BitVec 16} (h : s.role = .trafficChannel f tg la) : HeldTime s la
  | run {p : Dibit × Nat} (h : p ∈ s.run) : HeldTime s p.2
  | unit {du : DataUnit} (h : s.unit = some du) : HeldTime s du.time
  | pduHdr {h : DataUnit} (hh : s.pduHdr = some h) : HeldTime s h.time
  | now (h : s.stage = .frame) : HeldTime s s.now

/-- The samples to come are the rest of the last block taken. -/
def LoopOk (s : State) : Prop :=
  s.todo ≠ [] → s.lastSeq = some s.curSeq ∧ s.idx + s.todo.length ≤ s.cfg.blockLen

theorem nextBlockTime_of_none {s : State} (h : s.lastSeq = none) : nextBlockTime s = 0 := by
  simp [nextBlockTime, h]

theorem nextBlockTime_of_some {s : State} {p : Nat} (h : s.lastSeq = some p) :
    nextBlockTime s = (p + 1) * s.cfg.blockLen := by
  simp [nextBlockTime, h]

theorem nextBlockTime_congr {s t : State} (hc : t.cfg = s.cfg) (hl : t.lastSeq = s.lastSeq) :
    nextBlockTime t = nextBlockTime s := by
  simp [nextBlockTime, hc, hl]

/-- While booting no block has been taken, so that the bound is 0 and no time is held at all. -/
theorem clockOk_iff {s : State} :
    ClockOk s ↔ (∀ n, HeldTime s n → n < nextBlockTime s) ∧ LoopOk s ∧
      (s.runState = .booting → s.todo = [] ∧ s.lastSeq = none) := by
  constructor
  · rintro ⟨hrole, hrun, hunit, hpdu, hnow, hloop, hboot⟩
    refine ⟨fun n hn => ?_, hloop, fun hb => ?_⟩
    · cases hn with
      | role h => exact hrole _ _ _ h
      | run h => exact hrun _ h
      | unit h => exact hunit _ h
      | pduHdr h => exact hpdu _ h
      | now h => exact hnow h
    · obtain ⟨_, _, _, _, htodo, _, hlast⟩ := hboot hb
      exact ⟨htodo, hlast⟩
  · rintro ⟨htimes, hloop, hboot⟩
    refine ⟨fun f tg la h => htimes _ (.role h), fun p h => htimes _ (.run h), fun du h => htimes _ (.unit h),
      fun h hh => htimes _ (.pduHdr hh), fun h => htimes _ (.now h), hloop, fun hb => ?_⟩
    obtain ⟨htodo, hlast⟩ := hboot hb
    have hno : ∀ n, ¬HeldTime s n := fun n hn => by
      have hlt := htimes n hn
      rw [nextBlockTime_of_none hlast] at hlt
      exact Nat.not_lt_zero n hlt
    refine ⟨?_, ?_, ?_, ?_, htodo, fun h => hno _ (.now h), hlast⟩
    · cases hr : s.role with
      | controlChannel => rfl
      | trafficChannel f tg la => exact absurd (.role hr) (hno la)
    · exact List.eq_nil_iff_forall_not_mem.mpr fun p hp => hno _ (.run hp)
    · exact Option.eq_none_iff_forall_not_mem.mpr fun du hu => hno _ (.unit hu)
    · exact Option.eq_none_iff_forall_not_mem.mpr fun h hh => hno _ (.pduHdr hh)

/-! ## No step invents a time -/

/-- Every time that `t` holds is held by `s`. -/
def NoNewTime (s t : State) : Prop := ∀ n, HeldTime t n → HeldTime s n

/-- The DataUnit and the PDU header that `t` holds have times that `s` holds. -/
def UnitTimes (s t : State) : Prop :=
  (∀ du, t.unit = some du → HeldTime s du.time) ∧ ∀ h, t.pduHdr = some h → HeldTime s h.time

/-- A change brings no new time where it brings none to the role, the run, the units and the data dibit. -/
theorem noNewTime_of {s t : State} (hrole : ∀ f tg la, t.role = .trafficChannel f tg la → HeldTime s la)
    (hrun : ∀ p ∈ t.run, p ∈ s.run) (hunits : UnitTimes s t)
    (hstage : t.stage = .frame → HeldTime s t.now) : NoNewTime s t := by
  intro n hn
  cases hn with
  | role h => exact hrole _ _ _ h
  | run h => exact .run (hrun _ h)
  | unit h => exact hunits.1 _ h
  | pduHdr h => exact hunits.2 _ h
  | now h => exact hstage h

/-- The same where the role is kept, and the units are kept or dropped. -/
theorem noNewTime_of_kept {s t : State} (hrole : t.role = s.role) (hrun : ∀ p ∈ t.run, p ∈ s.run)
    (hunit : t.unit = s.unit ∨ t.unit = none) (hpdu : t.pduHdr = s.pduHdr ∨ t.pduHdr = none)
    (hstage : t.stage = .frame → HeldTime s t.now) : NoNewTime s t := by
  refine noNewTime_of (fun f tg la h => .role (hrole ▸ h)) hrun ⟨fun du h => ?_, fun d h => ?_⟩ hstage
  · rcases hunit with hu | hu <;> rw [hu] at h
    · exact .unit h
    · cases h
  · rcases hpdu with hp | hp <;> rw [hp] at h
    · exact .pduHdr h
    · cases h

/-! ### The frame-class operations -/

theorem unitTimes_refl (s : State) : UnitTimes s s := ⟨fun _ h => .unit h, fun _ h => .pduHdr h⟩

theorem unitTimes_handOver {s u : State} {du : DataUnit} (hdu : HeldTime s du.time) (hu : UnitTimes s u) :
    UnitTimes s (handOver du u) := by
  cases hv : du.valid with
  | true =>
    rw [handOver_of_valid hv]
    exact ⟨fun d h => by cases h; exact hdu, hu.2⟩
  | false =>
    rw [handOver_of_invalid hv]
    exact ⟨fun d h => by cases h; exact hdu, hu.2⟩

theorem bodyFixed_unitTimes {c : FrameClass} {fec : List Bool → BitVec 12 → Nat → DataUnit} {s : State}
    (hfec : ∀ b nac t, (fec b nac t).time = t) (hs : s.stage = .frame) : UnitTimes s (bodyFixed c fec s) := by
  by_cases hl : s.fbits.length = 64 + bodyBits c
  · rw [bodyFixed_of_complete hl]
    exact unitTimes_handOver (by rw [hfec]; exact .now hs) (unitTimes_refl s)
  · rw [bodyFixed_of_incomplete hl]
    exact unitTimes_refl s

theorem tsduBlock_unitTimes {s : State} (hs : s.stage = .frame) : UnitTimes s (tsduBlock s) := by
  unfold tsduBlock
  split
  · refine unitTimes_handOver (by exact .now hs) ?_
    split
    · exact unitTimes_refl s
    · exact unitTimes_refl s
  · exact unitTimes_refl s

theorem assumePriorLength_unitTimes {s u : State} (h : UnitTimes s u) : UnitTimes s (assumePriorLength u) := by
  cases hl : u.lastLen with
  | some len =>
    rw [assumePriorLength_of_some hl]
    exact h
  | none =>
    rw [assumePriorLength_of_none hl]
    exact ⟨h.1, fun _ hh => by cases hh⟩

theorem fecPduHeader_time (b : List Bool) (nac : BitVec 12) (t : Nat) : (fecPduHeader b nac t).time = t := rfl

theorem pduHeader_unitTimes {s : State} (hs : s.stage = .frame) : UnitTimes s (pduHeader s) := by
  have ht : HeldTime s (fecPduHeader (bitsAt 64 196 s.fbits) s.nacCur s.now).time := by
    rw [fecPduHeader_time]
    exact .now hs
  revert ht
  unfold pduHeader
  generalize fecPduHeader (bitsAt 64 196 s.fbits) s.nacCur s.now = h
  intro ht
  split
  · dsimp only
    split
    · exact ⟨(unitTimes_refl s).1, fun d hd => Option.some.inj hd ▸ ht⟩
    · have hand : UnitTimes s (handOver h s) := unitTimes_handOver ht (unitTimes_refl s)
      apply assumePriorLength_unitTimes
      split
      · exact hand
      · exact hand
  · exact unitTimes_refl s

theorem attachBlocks_time (h : DataUnit) (blocks : List Bool) : (attachBlocks h blocks).time = h.time := by
  unfold attachBlocks
  split <;> rfl

theorem pduBody_unitTimes {s u : State} (h : UnitTimes s u) : UnitTimes s (pduBody u) := by
  unfold pduBody
  split
  · exact h
  · rename_i hd hh
    split
    · have hand := unitTimes_handOver (du := attachBlocks hd (u.fbits.drop 260))
        (by rw [attachBlocks_time]; exact h.2 hd hh) h
      exact ⟨hand.1, fun _ hc => by cases hc⟩
    · exact h

theorem exec_frame_unitTimes {i : Instr} {s u : State} (hi : isFrameInstr i = true) (he : exec i s = .next u)
    (hs : s.stage = .frame) : UnitTimes s u := by
  cases i with
  | frameHdu nac =>
    simp only [exec, execFrameHdu] at he
    split at he <;> cases he
    · exact unitTimes_refl s
    · exact bodyFixed_unitTimes (fun _ _ _ => rfl) hs
  | frameTdu nac =>
    simp only [exec, execFrameTdu] at he
    split at he <;> cases he
    · exact unitTimes_handOver (by exact .now hs) (by exact unitTimes_refl s)
    · exact unitTimes_refl s
  | frameLdu1 nac =>
    simp only [exec, execFrameLdu1] at he
    split at he <;> cases he
    · exact unitTimes_refl s
    · exact bodyFixed_unitTimes (fun _ _ _ => rfl) hs
  | frameTsdu nac =>
    simp only [exec, execFrameTsdu] at he
    split at he <;> cases he
    · exact unitTimes_refl s
    · exact tsduBlock_unitTimes hs
  | frameLdu2 nac =>
    simp only [exec, execFrameLdu2] at he
    split at he <;> cases he
    · exact unitTimes_refl s
    · exact bodyFixed_unitTimes (fun _ _ _ => rfl) hs
  | framePdu nac =>
    simp only [exec, execFramePdu] at he
    split at he <;> cases he
    · exact unitTimes_refl s
    · exact pduBody_unitTimes (pduHeader_unitTimes hs)
  | frameTdulc nac =>
    simp only [exec, execFrameTdulc] at he
    split at he <;> cases he
    · exact unitTimes_refl s
    · exact bodyFixed_unitTimes (fun _ _ _ => rfl) hs
  | _ => cases hi

/-! ### The operations of the table -/

theorem retire_frame_stage (u : State) : (retire .frame u).stage ≠ .frame := by
  unfold retire
  cases u.unit <;> simp

theorem retire_send_stage {r : SendFor} {u : State} (h : u.stage = .send r) : (retire (.send r) u).stage ≠ .frame := by
  unfold retire
  dsimp only
  split <;> simp [h]

theorem exec_frame_noNewTime {i : Instr} {s u : State} (hi : isFrameInstr i = true) (he : exec i s = .next u)
    (hs : s.stage = .frame) : NoNewTime s (retire s.stage u) := by
  have hunits := exec_frame_unitTimes hi he hs
  have hst := retire_frame_stage u
  obtain ⟨_, hret⟩ := retire_effect .frame u
  rw [hs]
  rw [hret] at hst ⊢
  obtain ⟨_, _, _, _, _, _, _, _, _, _, _, _, _, _, hu⟩ := exec_frame_effect hi he
  have hrole : u.role = s.role := by rw [hu]
  have hrun : u.run = s.run := by rw [hu]
  exact noNewTime_of (fun f tg la h => .role (hrole ▸ h)) (fun p hp => hrun ▸ hp) hunits (absurd · hst)

/-- A role refreshed or taken at the time of the DataUnit in flight. -/
theorem tsbk_noNewTime {i : Instr} {s u : State} {du : DataUnit} (hu : s.unit = some du) (h : TsbkCase i s u) :
    NoNewTime s { u with stage := .tune .delivery } := by
  have ht : HeldTime s (unitTime s) := by
    simp only [unitTime, hu]
    exact .unit hu
  cases h with
  | nothing =>
    cases hr : s.role with
    | controlChannel =>
      rw [refresh_of_control hr]
      exact noNewTime_of_kept rfl (fun _ h => h) (.inl rfl) (.inl rfl) (by simp)
    | trafficChannel f tg la =>
      rw [refresh_of_traffic hr]
      exact noNewTime_of (fun _ _ _ h => by cases h; exact ht) (fun _ h => h) (unitTimes_refl s) (by simp)
  | update => exact noNewTime_of_kept rfl (fun _ h => h) (.inl rfl) (.inl rfl) (by simp)
  | grant => exact noNewTime_of (fun _ _ _ h => by cases h; exact ht) (fun _ h => h) (unitTimes_refl s) (by simp)
  | preempt => exact noNewTime_of (fun _ _ _ h => by cases h; exact ht) (fun _ h => h) (unitTimes_refl s) (by simp)

theorem instr_noNewTime {s u : State} {i : Instr} (hf : fetch s = .instr i) (he : exec i s = .next u) :
    NoNewTime s (retire s.stage u) := by
  cases fetch_instr hf with
  | frame _ hs hi _ => exact exec_frame_noNewTime hi he hs
  | tsbk _ _ o _ hs hu hi =>
    rw [hs]
    exact tsbk_noNewTime hu (exec_tsbk_cases (hi ▸ dispatchTsbk_tsbk o) he)
  | cmd r _ hs hp hd =>
    have hst : u.stage = .send r → (retire (.send r) u).stage ≠ .frame := retire_send_stage
    obtain ⟨_, hret⟩ := retire_effect (.send r) u
    rw [hs]
    rw [hret] at hst ⊢
    obtain ⟨_, _, _, ⟨_, rfl⟩ | ⟨_, _, _, rfl⟩⟩ := exec_cmd_effect (decodeCmd_cmd hd) hp he
    · exact noNewTime_of_kept rfl (fun _ h => h) (.inl rfl) (.inl rfl) (absurd · (hst hs))
    · exact noNewTime_of_kept rfl (fun _ h => h) (.inl rfl) (.inl rfl) (absurd · (hst hs))

/-! ### The pipeline operations -/

theorem framePipeline_pduHdr (s : State) :
    (framePipeline s).pduHdr = s.pduHdr ∨ (framePipeline s).pduHdr = none := by
  unfold framePipeline nidFailed assumePriorLength
  split
  · split
    · exact .inl rfl
    · exact .inr rfl
  · exact .inl rfl

theorem advanceStep_pduHdr (s : State) : (advanceStep s).pduHdr = s.pduHdr ∨ (advanceStep s).pduHdr = none := by
  unfold advanceStep
  split
  · exact .inl rfl
  · split
    · unfold frameEnd
      dsimp only
      split
      · exact .inr rfl
      · exact .inr rfl
    · exact .inl rfl

theorem fsDibit_pduHdr (d : Dibit) (s : State) : (fsDibit d s).pduHdr = s.pduHdr ∨ (fsDibit d s).pduHdr = none := by
  unfold fsDibit
  split
  · unfold searchStep
    dsimp only
    split
    · exact .inr rfl
    · exact .inl rfl
  · unfold lockedStep
    (repeat' split) <;> exact .inl rfl

theorem fsDibit_keeps (d : Dibit) (s : State) :
    (fsDibit d s).role = s.role ∧ (fsDibit d s).run = s.run ∧ (fsDibit d s).unit = s.unit ∧ (fsDibit d s).now = s.now := by
  unfold fsDibit
  split
  · unfold searchStep
    dsimp only
    split <;> exact ⟨rfl, rfl, rfl, rfl⟩
  · unfold lockedStep
    (repeat' split) <;> exact ⟨rfl, rfl, rfl, rfl⟩

/-- A dibit delivered keeps the time that it had in the run. -/
theorem dibitStep_noNewTime (s : State) : NoNewTime s (dibitStep s) := by
  unfold dibitStep
  split
  · exact noNewTime_of_kept rfl (fun _ h => h) (.inl rfl) (.inl rfl) (by simp)
  · rename_i d t rest hr
    obtain ⟨hrole, hrun, hunit, hnow⟩ := fsDibit_keeps d { s with run := rest, now := t }
    refine noNewTime_of_kept hrole ?_ (.inl hunit) (fsDibit_pduHdr d _) ?_
    · intro p hp
      rw [hrun] at hp
      exact hr ▸ List.mem_cons_of_mem _ hp
    · intro _
      rw [hnow]
      exact .run (p := (d, t)) (hr ▸ List.mem_cons_self)

theorem refresh_role {s : State} {t f la : Nat} {tg : BitVec 16} (h : (refresh t s).role = .trafficChannel f tg la) :
    la = t := by
  cases hr : s.role with
  | controlChannel => simp [refresh_of_control hr, hr] at h
  | trafficChannel f' tg' la' =>
    simp only [refresh_of_traffic hr, Role.trafficChannel.injEq] at h
    obtain ⟨_, _, ht⟩ := h
    exact ht.symm

theorem terminate_role {s : State} {f la : Nat} {tg : BitVec 16} : (terminate s).role ≠ .trafficChannel f tg la := by
  unfold terminate
  split
  · rename_i hr
    simp [hr]
  · simp

/-- A unit that is no valid TSBK can only refresh the role, with its own time (R413). -/
theorem tsmUnit_role {du : DataUnit} {s : State} {f la : Nat} {tg : BitVec 16}
    (h : (tsmUnit du s).role = .trafficChannel f tg la) : la = du.time ∨ s.role = .trafficChannel f tg la := by
  unfold tsmUnit at h
  dsimp only at h
  split at h
  · split at h
    · exact absurd h terminate_role
    · exact .inl (refresh_role h)
  · exact .inr h

theorem tsmPipeline_role {s : State} {f la : Nat} {tg : BitVec 16}
    (h : (tsmPipeline s).role = .trafficChannel f tg la) : HeldTime s la := by
  unfold tsmPipeline at h
  split at h
  · exact .role h
  · rename_i du hu
    rcases tsmUnit_role h with rfl | hr
    · exact .unit hu
    · exact .role hr

theorem tsmPipeline_noNewTime (s : State) : NoNewTime s (tsmPipeline s) := by
  have hrole := @tsmPipeline_role s
  obtain ⟨_, _, ht⟩ := tsmPipeline_effect s
  rw [ht] at hrole ⊢
  exact noNewTime_of (fun _ _ _ h => hrole h) (fun _ h => h) (unitTimes_refl s) (by simp)

theorem afterTune_ne_frame (src : TuneFrom) : afterTune src ≠ .frame := by cases src <;> simp [afterTune]

theorem tuneStep_noNewTime (src : TuneFrom) (s : State) : NoNewTime s (tuneStep src s) := by
  unfold tuneStep
  split
  · exact noNewTime_of_kept rfl (fun _ h => h) (.inl rfl) (.inl rfl) (absurd · (afterTune_ne_frame src))
  · split
    · exact noNewTime_of_kept rfl (fun _ h => h) (.inl rfl) (.inl rfl) (absurd · (afterTune_ne_frame src))
    · exact noNewTime_of_kept rfl (fun _ h => h) (.inl rfl) (.inl rfl) (by simp)

theorem routeStep_noNewTime (s : State) : NoNewTime s (routeStep s) := by
  unfold routeStep
  split
  · exact noNewTime_of_kept rfl (fun _ h => h) (.inl rfl) (.inl rfl) (by simp)
  · split
    · exact noNewTime_of_kept rfl (fun _ h => h) (.inr rfl) (.inl rfl) (by simp)
    · exact noNewTime_of_kept rfl (fun _ h => h) (.inr rfl) (.inl rfl) (by simp)

theorem framePipeline_noNewTime (s : State) : NoNewTime s (framePipeline s) := by
  have hpdu := framePipeline_pduHdr s
  obtain ⟨_, _, _, _, _, _, _, _, _, _, _, _, h⟩ := framePipeline_effect s
  rw [h] at hpdu ⊢
  exact noNewTime_of_kept rfl (fun _ h => h) (.inl rfl) hpdu (by simp)

theorem advanceStep_noNewTime (s : State) : NoNewTime s (advanceStep s) := by
  have hpdu := advanceStep_pduHdr s
  obtain ⟨_, _, _, _, _, _, _, _, _, _, _, _, h⟩ := advanceStep_effect s
  rw [h] at hpdu ⊢
  exact noNewTime_of_kept rfl (fun _ h => h) (.inl rfl) hpdu (by simp)

theorem afterCommand_noNewTime (r : SendFor) (s : State) : NoNewTime s (afterCommand r s) := by
  cases r with
  | bootPpm => exact noNewTime_of_kept rfl (fun _ h => h) (.inl rfl) (.inl rfl) (by simp [afterCommand])
  | bootGain => exact noNewTime_of_kept rfl (fun _ h => h) (.inl rfl) (.inl rfl) (by simp [afterCommand])
  | bootFreq => exact noNewTime_of_kept rfl (fun _ h => h) (.inl rfl) (.inl rfl) (by simp [afterCommand, bootDone])
  | retune src =>
    simp only [afterCommand, retuneSent]
    split
    · exact noNewTime_of_kept rfl (fun _ h => h) (.inl rfl) (.inl rfl) (absurd · (afterTune_ne_frame src))
    · exact noNewTime_of_kept rfl (by simp) (.inl rfl) (.inr rfl) (absurd · (afterTune_ne_frame src))

/-- The one new time: a sample's own, of the block under way (R34, R230). -/
def SampleTimeOf (s : State) (n : Nat) : Prop := s.todo ≠ [] ∧ n = sampleTime s.cfg s.curSeq s.idx

theorem sampleStep_heldTime {s : State} {n : Nat} (hs : s.stage = .sample) (hn : HeldTime (sampleStep s) n) :
    HeldTime s n ∨ SampleTimeOf s n := by
  cases ht : s.todo with
  | nil =>
    have hno : NoNewTime s (sampleStep s) := by
      rw [sampleStep_of_nil ht]
      exact noNewTime_of_kept rfl (fun _ h => h) (.inl rfl) (.inl rfl) (by simp)
    exact .inl (hno n hn)
  | cons x rest =>
    by_cases hw : 0 < s.discardLeft
    · have hno : NoNewTime s (sampleStep s) := by
        rw [sampleStep_of_window ht hw]
        exact noNewTime_of_kept rfl (fun _ h => h) (.inl rfl) (.inl rfl) (by simp [hs])
      exact .inl (hno n hn)
    · obtain ⟨_, _, _, _, _, run, hd, _, hrun⟩ := demodSample_frame x
        { s with todo := rest, now := sampleTime s.cfg s.curSeq s.idx, idx := s.idx + 1 }
      rw [sampleStep_of_open ht (Nat.eq_zero_of_not_pos hw), hd] at hn
      cases hn with
      | role h => exact .inl (.role h)
      | unit h => exact .inl (.unit h)
      | pduHdr h => exact .inl (.pduHdr h)
      | now h => simp [hs] at h
      | run h =>
        rcases hrun with rfl | ⟨d, rfl⟩
        · exact .inl (.run h)
        · rcases List.mem_append.mp h with h | h
          · exact .inl (.run h)
          · rw [List.mem_singleton.mp h]
            exact .inr ⟨by simp [ht], rfl⟩

theorem haltStep_noNewTime (s : State) : NoNewTime s (haltStep s) :=
  noNewTime_of_kept rfl (fun _ h => h) (.inl rfl) (.inl rfl) (fun h => .now h)

/-! ### Outside events -/

theorem beginBlock_role (blk : SampleBlock) (s : State) :
    (beginBlock blk s).role = s.role ∨ (beginBlock blk s).role = .controlChannel := by
  obtain ⟨_, _, _, _, _, _, _, _, _, _, _, _, _, _, _, _, hg⟩ := gapCheck_effect blk.seq s
  unfold beginBlock blockTick
  rw [hg]
  dsimp only
  split
  · exact .inl rfl
  · split
    · exact .inr rfl
    · exact .inl rfl

theorem gapCheck_pduHdr (seq : Nat) (s : State) :
    (gapCheck seq s).pduHdr = s.pduHdr ∨ (gapCheck seq s).pduHdr = none := by
  cases hg : isGap s.lastSeq seq with
  | true =>
    rw [gapCheck_of_gap hg]
    exact .inr rfl
  | false =>
    rw [gapCheck_of_no_gap hg]
    exact .inl rfl

/-- The start of a Decode step: the run is empty, the timeout can only end the role (R230, R410). -/
theorem beginBlock_noNewTime (blk : SampleBlock) (s : State) : NoNewTime s (beginBlock blk s) := by
  have hrole := beginBlock_role blk s
  have hpdu := gapCheck_pduHdr blk.seq s
  obtain ⟨_, _, hb⟩ := beginBlock_effect blk s
  obtain ⟨_, _, _, _, _, _, _, _, _, _, _, _, _, _, _, _, hg⟩ := gapCheck_effect blk.seq s
  rw [hb, hg] at hrole ⊢
  rw [hg] at hpdu
  refine noNewTime_of (fun f tg la h => ?_) (by simp) ⟨fun du h => .unit h, fun d h => ?_⟩ (by simp)
  · rcases hrole with hr | hr
    · exact .role (hr ▸ h)
    · exact absurd (hr ▸ h) (by simp)
  · rcases hpdu with hp | hp
    · exact .pduHdr (hp ▸ h)
    · exact absurd (hp ▸ h) (by simp)

theorem bootStart_stage (c : StartConfig) (r : Status) (s : State) :
    (bootStart c r s).stage = s.stage ∨ (bootStart c r s).stage = .send .bootPpm := by
  simp only [bootStart]
  split
  · exact .inl rfl
  · split
    · exact .inl rfl
    · exact .inr rfl

theorem event_noNewTime {s t : State} (h : EventCase s t) : NoNewTime s t := by
  cases h with
  | start c r es =>
    have hst := bootStart_stage c r { s with events := es }
    obtain ⟨_, _, _, _, _, hb⟩ := bootStart_effect c r { s with events := es }
    rw [hb] at hst ⊢
    refine noNewTime_of_kept rfl (fun _ h => h) (.inl rfl) (.inl rfl) fun h => ?_
    rcases hst with hst | hst
    · exact .now (hst.symm.trans h)
    · exact absurd (hst.symm.trans h) (by simp)
  | block samples es =>
    obtain ⟨_, _, hi, _⟩ := ingestBlock_effect samples { s with events := es }
    rw [hi]
    exact noNewTime_of_kept rfl (fun _ h => h) (.inl rfl) (.inl rfl) (fun h => .now h)
  | decode blk rest es =>
    have hno := beginBlock_noNewTime blk { s with events := es, queue := rest }
    have htaken : NoNewTime s { s with events := es, queue := rest } :=
      noNewTime_of_kept rfl (fun _ h => h) (.inl rfl) (.inl rfl) (fun h => .now h)
    exact fun n hn => htaken n (hno n hn)
  | _ => exact noNewTime_of_kept rfl (fun _ h => h) (.inl rfl) (.inl rfl) (fun h => .now h)

/-! ### Every step -/

theorem running_heldTime {s t : State} (h : RunningCase s t) {n : Nat} (hn : HeldTime t n) :
    HeldTime s n ∨ SampleTimeOf s n := by
  cases h with
  | event _ h => exact .inl (event_noNewTime (eventStep_cases h) n hn)
  | sending => exact .inl hn
  | sent r => exact .inl (afterCommand_noNewTime r s n hn)
  | sample hs => exact sampleStep_heldTime hs hn
  | dibit => exact .inl (dibitStep_noNewTime s n hn)
  | frame => exact .inl (framePipeline_noNewTime s n hn)
  | tsm => exact .inl (tsmPipeline_noNewTime s n hn)
  | tune src => exact .inl (tuneStep_noNewTime src s n hn)
  | route => exact .inl (routeStep_noNewTime s n hn)
  | advance => exact .inl (advanceStep_noNewTime s n hn)

/-- A time held after a step was held before it, or is that of the sample the step took. -/
theorem step_heldTime {s t : State} (h : step s = .next t) {n : Nat} (hn : HeldTime t n) :
    HeldTime s n ∨ SampleTimeOf s n := by
  cases step_cases h with
  | instr i u hf he => exact .inl (instr_noNewTime hf he n hn)
  | wait => exact .inl hn
  | halt => exact .inl (haltStep_noNewTime s n hn)
  | bootSent r => exact .inl (afterCommand_noNewTime r s n hn)
  | bootEvent _ _ _ h => exact .inl (event_noNewTime (eventStep_cases h) n hn)
  | running _ _ h => exact running_heldTime h hn

/-! ## The block under way and the next block's start -/

/-- A sample of the block under way lies before the next block's start. -/
theorem sampleTime_lt {s : State} (h : LoopOk s) {n : Nat} (hn : SampleTimeOf s n) : n < nextBlockTime s := by
  obtain ⟨htodo, rfl⟩ := hn
  obtain ⟨hlast, hlen⟩ := h htodo
  have hpos : 0 < s.todo.length := List.length_pos_iff.mpr htodo
  rw [nextBlockTime_of_some hlast, Nat.succ_mul]
  unfold sampleTime
  omega

/-- The block at the head of the queue starts no earlier than the next block's start. -/
theorem nextBlockTime_le_head {s : State} {blk : SampleBlock} {rest : List SampleBlock} (hq : QueueOk s)
    (h : s.queue = blk :: rest) : nextBlockTime s ≤ blk.seq * s.cfg.blockLen := by
  obtain ⟨_, _, _, hord, _⟩ := hq
  cases hp : s.lastSeq with
  | none =>
    rw [nextBlockTime_of_none hp]
    exact Nat.zero_le _
  | some p =>
    rw [nextBlockTime_of_some hp]
    exact Nat.mul_le_mul_right _ ((hord p hp).2 blk (h ▸ List.mem_cons_self))

/-- The next block's start never moves back: START is taken before any block, and a block taken has a larger number than the
last. -/
theorem nextBlockTime_le {s t : State} (hq : QueueOk s) (hb : s.runState = .booting → s.lastSeq = none)
    (h : step s = .next t) : nextBlockTime s ≤ nextBlockTime t := by
  rcases quiet_or_event h with hk | he
  · exact (nextBlockTime_congr hk.cfg hk.lastSeq).ge
  · cases he with
    | start c r es hr =>
      rw [nextBlockTime_of_none (hb hr)]
      exact Nat.zero_le _
    | block samples es =>
      obtain ⟨_, _, hi, _⟩ := ingestBlock_effect samples { s with events := es }
      rw [hi]
      exact le_rfl
    | decode blk rest es _ _ hqueue =>
      obtain ⟨hcfg, _, _, hlast, _, _⟩ := beginBlock_registers blk { s with events := es, queue := rest }
      rw [nextBlockTime_of_some hlast, hcfg]
      exact (nextBlockTime_le_head hq hqueue).trans (Nat.mul_le_mul_right _ (Nat.le_succ _))
    | _ => exact le_rfl

theorem Quiet.loopOk {s t : State} (hk : Quiet s t) (h : LoopOk s) : LoopOk t := by
  intro htodo
  rw [hk.lastSeq, hk.curSeq, hk.cfg]
  rcases hk.loop with ⟨ht, hi⟩ | ⟨x, ht, hi⟩
  · rw [ht] at htodo ⊢
    rw [hi]
    exact h htodo
  · obtain ⟨hlast, hlen⟩ := h (by simp [ht])
    rw [ht, List.length_cons] at hlen
    exact ⟨hlast, by omega⟩

theorem event_loopOk {s t : State} (hq : QueueOk s) (h : LoopOk s) (hb : s.runState = .booting → s.todo = [])
    (he : EventCase s t) : LoopOk t := by
  cases he with
  | start c r es hr =>
    obtain ⟨_, _, _, _, _, hs⟩ := bootStart_effect c r { s with events := es }
    rw [hs]
    exact fun ht => absurd (hb hr) ht
  | block samples es =>
    obtain ⟨_, _, hi, _⟩ := ingestBlock_effect samples { s with events := es }
    rw [hi]
    exact h
  | decode blk rest es _ _ hqueue =>
    obtain ⟨_, _, hblk, _, _⟩ := hq
    have hlen : blk.samples.length = s.cfg.blockLen := (hblk blk (hqueue ▸ List.mem_cons_self)).2
    obtain ⟨_, _, hs⟩ := beginBlock_effect blk { s with events := es, queue := rest }
    obtain ⟨_, _, _, _, _, _, _, _, _, _, _, _, _, _, _, _, hg⟩ :=
      gapCheck_effect blk.seq { s with events := es, queue := rest }
    rw [hs, hg]
    exact fun _ => ⟨rfl, by simp [hlen]⟩
  | _ => exact h

/-- Before START nothing of a block is there, and no step brings it. -/
theorem booting_untouched {s t : State} (h : step s = .next t) (hb : s.runState = .booting → s.todo = [] ∧ s.lastSeq = none)
    (ht : t.runState = .booting) : t.todo = [] ∧ t.lastSeq = none := by
  rcases quiet_or_event h with hk | he
  · have hs : s.runState = .booting := by
      rcases hk.runState with hr | hr | ⟨e, hr⟩
      · exact hr ▸ ht
      · simp [hr] at ht
      · simp [hr] at ht
    obtain ⟨htodo, hlast⟩ := hb hs
    rw [hk.lastSeq]
    rcases hk.loop with ⟨hl, _⟩ | ⟨x, hl, _⟩
    · exact ⟨hl.trans htodo, hlast⟩
    · simp [htodo] at hl
  · cases he with
    | none => exact hb ht
    | start c r es hr =>
      obtain ⟨_, _, _, _, _, hs⟩ := bootStart_effect c r { s with events := es }
      rw [hs]
      exact hb hr
    | shutdown r es => cases ht
    | readFail es => cases ht
    | block samples es hr =>
      obtain ⟨_, _, hi, _⟩ := ingestBlock_effect samples { s with events := es }
      rw [hi] at ht
      simp [hr] at ht
    | decodeEmpty es hr => simp [hr] at ht
    | decode blk rest es hr =>
      obtain ⟨_, _, _, _, hrun, _⟩ := beginBlock_registers blk { s with events := es, queue := rest }
      rw [hrun] at ht
      simp [hr] at ht
    | ignored e es => exact hb ht

theorem step_clockOk {s t : State} (hq : QueueOk s) (hc : ClockOk s) (h : step s = .next t) : ClockOk t := by
  rw [clockOk_iff] at hc ⊢
  obtain ⟨htimes, hloop, hboot⟩ := hc
  refine ⟨fun n hn => ?_, ?_, booting_untouched h hboot⟩
  · have hlt : n < nextBlockTime s := by
      rcases step_heldTime h hn with hs | hs
      · exact htimes n hs
      · exact sampleTime_lt hloop hs
    exact hlt.trans_le (nextBlockTime_le hq (fun hr => (hboot hr).2) h)
  · rcases quiet_or_event h with hk | he
    · exact hk.loopOk hloop
    · exact event_loopOk hq hloop (fun hr => (hboot hr).1) he

/-- Settles O60: a step brings no time but that of a sample of the block under way, and the next block's start never moves
back. -/
theorem clockKept : Obligations.ClockKept := by
  unfold Obligations.ClockKept
  refine ⟨fun s t hq hc h => step_clockOk hq hc h, fun s blk rest f la tg hq hc hqueue hrole => ?_⟩
  obtain ⟨htimes, _, _⟩ := clockOk_iff.mp hc
  exact (htimes la (.role hrole)).trans_le (nextBlockTime_le_head hq hqueue)

end Sys2Proof.StateProofs
end

section
/-! PROOFS. How a Decode step begins: the head block is taken, a sequence gap resynchronizes, and the timeout tick decides. -/

namespace Sys2Proof.StateProofs

open Sys2Proof Sys2Proof.Machine

theorem isGap_eq_false {last : Option Nat} {seq : Nat} :
    isGap last seq = false ↔ last = none ∨ ∃ p, last = some p ∧ seq = p + 1 := by
  cases last <;> simp [isGap]

/-- The block's state between the gap check and the timeout tick (R111, R230, R410). -/
def enterBlock (blk : SampleBlock) (s : State) : State :=
  { gapCheck blk.seq s with
    curSeq := blk.seq, idx := 0, todo := blk.samples, run := [], now := blk.seq * s.cfg.blockLen }

theorem enterBlock_of_gap {blk : SampleBlock} {s : State} (h : isGap s.lastSeq blk.seq = true) :
    enterBlock blk s =
      { demodReset (forceSearch s) with
        lastSeq := some blk.seq
        curSeq := blk.seq, idx := 0, todo := blk.samples, run := [], now := blk.seq * s.cfg.blockLen } := by
  simp only [enterBlock, gapCheck_of_gap h]

theorem enterBlock_of_no_gap {blk : SampleBlock} {s : State} (h : isGap s.lastSeq blk.seq = false) :
    enterBlock blk s =
      { s with
        lastSeq := some blk.seq
        curSeq := blk.seq, idx := 0, todo := blk.samples, run := [], now := blk.seq * s.cfg.blockLen } := by
  simp only [enterBlock, gapCheck_of_no_gap h]

theorem enterBlock_kept (blk : SampleBlock) (s : State) :
    (enterBlock blk s).cfg = s.cfg ∧ (enterBlock blk s).role = s.role ∧
      (enterBlock blk s).controlFreq = s.controlFreq := by
  cases hg : isGap s.lastSeq blk.seq with
  | true =>
    rw [enterBlock_of_gap hg]
    exact ⟨rfl, rfl, rfl⟩
  | false =>
    rw [enterBlock_of_no_gap hg]
    exact ⟨rfl, rfl, rfl⟩

theorem beginBlock_eq (blk : SampleBlock) (s : State) :
    beginBlock blk s = { blockTick (enterBlock blk s) with stage := .tune .tick } := by
  have hcfg : (gapCheck blk.seq s).cfg = s.cfg := (enterBlock_kept blk s).1
  simp only [beginBlock, enterBlock, sampleTime, hcfg, Nat.add_zero]

/-- The tick decides nothing in ControlChannel role (R410). -/
theorem beginBlock_of_control {blk : SampleBlock} {s : State} (h : s.role = .controlChannel) :
    beginBlock blk s = { enterBlock blk s with cmd := none, stage := .tune .tick } := by
  obtain ⟨_, hrole, _⟩ := enterBlock_kept blk s
  simp only [beginBlock_eq, blockTick_of_control (hrole.trans h)]

/-- The activity timeout has run out at the block's first sample (R410). -/
theorem beginBlock_of_timeout {blk : SampleBlock} {s : State} {f la : Nat} {tg : BitVec 16}
    (h : s.role = .trafficChannel f tg la) (ht : la + s.cfg.timeoutSamples ≤ blk.seq * s.cfg.blockLen) :
    beginBlock blk s =
      { enterBlock blk s with
        role := .controlChannel, cmd := some ⟨s.controlFreq, .timeout⟩, stage := .tune .tick } := by
  obtain ⟨hcfg, hrole, hfreq⟩ := enterBlock_kept blk s
  have hout : timedOut (enterBlock blk s).cfg.timeoutSamples (enterBlock blk s).now la = true := by
    rw [timedOut_eq_true, hcfg]
    exact ht
  simp only [beginBlock_eq, blockTick_of_timeout (hrole.trans h) hout, hfreq]

/-- The activity timeout is still running at the block's first sample (R410). -/
theorem beginBlock_of_active {blk : SampleBlock} {s : State} {f la : Nat} {tg : BitVec 16}
    (h : s.role = .trafficChannel f tg la) (ht : blk.seq * s.cfg.blockLen < la + s.cfg.timeoutSamples) :
    beginBlock blk s = { enterBlock blk s with cmd := none, stage := .tune .tick } := by
  obtain ⟨hcfg, hrole, _⟩ := enterBlock_kept blk s
  have hin : timedOut (enterBlock blk s).cfg.timeoutSamples (enterBlock blk s).now la = false := by
    rw [Bool.eq_false_iff, ne_eq, timedOut_eq_true, hcfg]
    exact Nat.not_le.mpr ht
  simp only [beginBlock_eq, blockTick_of_active (hrole.trans h) hin]

/-- The event and the head of the queue are taken (R110). -/
def takeBlock (es : List Event) (rest : List SampleBlock) (s : State) : State := { s with events := es, queue := rest }

theorem step_decode {s : State} {blk : SampleBlock} {rest : List SampleBlock} {es : List Event}
    (hr : s.runState = .running) (hs : s.stage = .idle) (he : s.events = .decode :: es) (hq : s.queue = blk :: rest) :
    step s = .next (beginBlock blk (takeBlock es rest s)) := by
  simp [takeBlock, step, fetch, pipeline, eventStep, decodeStep, hr, hs, he, hq]

/-- Settles O27: the gap check answers one of two states, and the tick decides by the role and the time. -/
theorem gapResynchronizes : Obligations.GapResynchronizes := by
  unfold Obligations.GapResynchronizes
  intro s blk rest es started checked hr hs he hq hstarted hchecked
  have hentered : checked = { enterBlock blk (takeBlock es rest s) with cmd := none, stage := .tune .tick } := by
    rcases hchecked with ⟨hlast, hc⟩ | ⟨hlast, hc⟩
    · rw [hc, hstarted, enterBlock_of_no_gap (s := takeBlock es rest s) (isGap_eq_false.mpr hlast)]
      rfl
    · rw [hc, hstarted, enterBlock_of_gap (s := takeBlock es rest s) (isGap_eq_true.mpr hlast)]
      rfl
  rw [step_decode hr hs he hq, hentered]
  exact ⟨fun hrole => congrArg _ (beginBlock_of_control hrole), fun f tg la hrole =>
    ⟨fun ht => congrArg _ (beginBlock_of_timeout hrole ht), fun ht => congrArg _ (beginBlock_of_active hrole ht)⟩⟩

end Sys2Proof.StateProofs
end

section
/-! PROOFS. Every Decode step ends: its parts one after the other (the tuner, the samples, the dibits of the run), each with a
bound on its steps and on the replies it takes. -/

namespace Sys2Proof.StateProofs

open Sys2Proof Sys2Proof.Machine

/-! ## Bounded runs inside a Decode step -/

/-- Within `n` steps the block still runs and `P` holds, or it has stopped with E6; the events and the queue are those of
`s`. -/
def EndsIn (n : Nat) (s : State) (P : State → Prop) : Prop :=
  ∃ k t, k ≤ n ∧ steps k s = some t ∧ t.events = s.events ∧ t.queue = s.queue ∧
    (t.runState = .running ∧ P t ∨ ∃ f, t.runState = .fatal (.e6 f))

theorem endsIn_zero {s : State} {P : State → Prop} (hr : s.runState = .running) (h : P s) : EndsIn 0 s P :=
  ⟨0, s, le_rfl, rfl, rfl, rfl, .inl ⟨hr, h⟩⟩

theorem EndsIn.mono {m n : Nat} {s : State} {P Q : State → Prop} (h : EndsIn m s P) (hn : m ≤ n)
    (hPQ : ∀ t, P t → Q t) : EndsIn n s Q := by
  obtain ⟨k, t, hk, hsteps, hev, hq, hend⟩ := h
  exact ⟨k, t, hk.trans hn, hsteps, hev, hq, hend.imp_left fun ⟨hr, hP⟩ => ⟨hr, hPQ t hP⟩⟩

theorem EndsIn.le {m n : Nat} {s : State} {P : State → Prop} (h : EndsIn m s P) (hn : m ≤ n) : EndsIn n s P :=
  h.mono hn fun _ hP => hP

theorem endsIn_step {n : Nat} {s t : State} {P : State → Prop} (hs : step s = .next t) (hev : t.events = s.events)
    (hq : t.queue = s.queue) (h : EndsIn n t P) : EndsIn (n + 1) s P := by
  obtain ⟨k, u, hk, hsteps, hev', hq', hend⟩ := h
  exact ⟨k + 1, u, Nat.succ_le_succ hk, (steps_succ k hs).trans hsteps, hev'.trans hev, hq'.trans hq, hend⟩

theorem steps_add {s t : State} {m : Nat} (n : Nat) (h : steps m s = some t) : steps (m + n) s = steps n t := by
  induction m generalizing s with
  | zero =>
    cases h
    rw [Nat.zero_add]
  | succ m ih =>
    rw [Nat.succ_add]
    cases hs : step s with
    | next u =>
      rw [steps_succ _ hs] at h ⊢
      exact ih h
    | fault r => simp [steps, hs] at h
    | refused r => simp [steps, hs] at h

theorem EndsIn.trans {m n : Nat} {s : State} {P Q : State → Prop} (h : EndsIn m s P)
    (hnext : ∀ t, t.runState = .running → P t → EndsIn n t Q) : EndsIn (m + n) s Q := by
  obtain ⟨j, t, hj, hsteps, hev, hq, ⟨hr, hP⟩ | hfatal⟩ := h
  · obtain ⟨k, u, hk, hsteps', hev', hq', hend⟩ := hnext t hr hP
    exact ⟨j + k, u, Nat.add_le_add hj hk, (steps_add k hsteps).trans hsteps', hev'.trans hev, hq'.trans hq, hend⟩
  · exact ⟨j, t, hj.trans (Nat.le_add_right m n), hsteps, hev, hq, .inr hfatal⟩

/-! ## One step of a running block at each position -/

/-- What every step inside a Decode step leaves alone but the answer of a call: S1, the queue, the events, the replies. -/
structure Onward (s t : State) : Prop where
  runState : t.runState = s.runState
  queue : t.queue = s.queue
  events : t.events = s.events
  replies : t.replies = s.replies

/-- A step that also leaves the rest of the block and the run of dibits alone. -/
structure Passing (s t : State) : Prop extends Onward s t where
  todo : t.todo = s.todo
  run : t.run = s.run

theorem Onward.endsIn {n : Nat} {s t : State} {P : State → Prop} (h : Onward s t) (hs : step s = .next t)
    (hend : EndsIn n t P) : EndsIn (n + 1) s P :=
  endsIn_step hs h.events h.queue hend

theorem fetchFrame_ne_wait (s : State) : fetchFrame s ≠ .wait := by
  unfold fetchFrame
  (repeat' split) <;> simp

theorem fetchTsm_ne_wait (s : State) : fetchTsm s ≠ .wait := by
  unfold fetchTsm
  split <;> simp

/-- A data dibit: the unit it completes goes to the arbiter, else the dibit step ends (R290, R401). -/
theorem step_at_frame {s : State} (hr : s.runState = .running) (hs : s.stage = .frame) :
    ∃ t, step s = .next t ∧ Passing s t ∧ (t.stage = .tsm ∨ t.stage = .advance) := by
  have hfetch : fetch s = fetchFrame s := by simp [fetch, hr, hs]
  cases hf : fetchFrame s with
  | instr i =>
    obtain ⟨u, he⟩ := exec_next i s
    obtain ⟨hi, _⟩ := fetchFrame_instr hf
    have hstep := step_of_instr (hfetch.trans hf) he
    obtain ⟨_, _, _, _, _, _, _, _, _, _, _, _, unit, _, rfl⟩ := exec_frame_effect hi he
    rw [hs] at hstep
    refine ⟨_, hstep, ⟨⟨rfl, rfl, rfl, rfl⟩, rfl, rfl⟩, ?_⟩
    cases unit with
    | some du => exact .inl rfl
    | none => exact .inr rfl
  | wait => exact absurd hf (fetchFrame_ne_wait s)
  | reserved => exact absurd hf (fetchFrame_ne_reserved s)
  | pipeline =>
    have hstep : step s = .next (framePipeline s) := by
      rw [step_of_pipeline (hfetch.trans hf)]
      simp [pipeline, hr, hs]
    obtain ⟨_, _, _, _, _, _, _, _, _, _, _, _, ht⟩ := framePipeline_effect s
    rw [ht] at hstep
    exact ⟨_, hstep, ⟨⟨rfl, rfl, rfl, rfl⟩, rfl, rfl⟩, .inr rfl⟩

/-- The arbiter's decision, on a valid TSBK or another unit, goes to the tuner (R401). -/
theorem step_at_tsm {s : State} (hr : s.runState = .running) (hs : s.stage = .tsm) :
    ∃ t, step s = .next t ∧ Passing s t ∧ t.stage = .tune .delivery := by
  have hfetch : fetch s = fetchTsm s := by simp [fetch, hr, hs]
  cases hf : fetchTsm s with
  | instr i =>
    obtain ⟨u, he⟩ := exec_next i s
    obtain ⟨_, _, o, _, hi⟩ := fetchTsm_instr hf
    have hstep := step_of_instr (hfetch.trans hf) he
    obtain ⟨_, _, _, _, _, rfl⟩ := exec_tsbk_effect (hi ▸ dispatchTsbk_tsbk o) he
    rw [hs] at hstep
    exact ⟨_, hstep, ⟨⟨rfl, rfl, rfl, rfl⟩, rfl, rfl⟩, rfl⟩
  | wait => exact absurd hf (fetchTsm_ne_wait s)
  | reserved => exact absurd hf (fetchTsm_ne_reserved s)
  | pipeline =>
    have hstep : step s = .next (tsmPipeline s) := by
      rw [step_of_pipeline (hfetch.trans hf)]
      simp [pipeline, hr, hs]
    obtain ⟨_, _, ht⟩ := tsmPipeline_effect s
    rw [ht] at hstep
    exact ⟨_, hstep, ⟨⟨rfl, rfl, rfl, rfl⟩, rfl, rfl⟩, rfl⟩

theorem step_at_route {s : State} (hr : s.runState = .running) (hs : s.stage = .route) :
    ∃ t, step s = .next t ∧ Passing s t ∧ t.stage = .advance := by
  have hstep : step s = .next (routeStep s) := by simp [step, fetch, pipeline, hr, hs]
  obtain ⟨_, _, ht⟩ := routeStep_effect s
  rw [ht] at hstep
  exact ⟨_, hstep, ⟨⟨rfl, rfl, rfl, rfl⟩, rfl, rfl⟩, rfl⟩

theorem step_at_advance {s : State} (hr : s.runState = .running) (hs : s.stage = .advance) :
    ∃ t, step s = .next t ∧ Passing s t ∧ t.stage = .dibit := by
  have hstep : step s = .next (advanceStep s) := by simp [step, fetch, pipeline, hr, hs]
  obtain ⟨_, _, _, _, _, _, _, _, _, _, _, _, ht⟩ := advanceStep_effect s
  rw [ht] at hstep
  exact ⟨_, hstep, ⟨⟨rfl, rfl, rfl, rfl⟩, rfl, rfl⟩, rfl⟩

/-- The Frame Synchronizer on a dibit: Searching is done with it, Locked skips it or takes its bits (R280, R290). -/
theorem fsDibit_passing (d : Dibit) (s : State) :
    Passing s (fsDibit d s) ∧
      ((fsDibit d s).stage = s.stage ∨ (fsDibit d s).stage = .advance ∨ (fsDibit d s).stage = .frame) := by
  cases hy : s.sync with
  | searching =>
    rw [fsDibit_of_searching hy]
    simp only [searchStep]
    split <;> exact ⟨⟨⟨rfl, rfl, rfl, rfl⟩, rfl, rfl⟩, .inl rfl⟩
  | locked pos =>
    rw [fsDibit_of_locked hy]
    by_cases hskip : isStatusPos pos = true ∨ pos < syncLen
    · rw [lockedStep_of_skip hskip]
      exact ⟨⟨⟨rfl, rfl, rfl, rfl⟩, rfl, rfl⟩, .inr (.inl rfl)⟩
    · obtain ⟨hstatus, hpos⟩ := not_or.mp hskip
      rw [lockedStep_of_data (Bool.eq_false_iff.mpr hstatus) (Nat.not_lt.mp hpos)]
      exact ⟨⟨⟨rfl, rfl, rfl, rfl⟩, rfl, rfl⟩, .inr (.inr rfl)⟩

/-- The next dibit leaves the run for the Frame Synchronizer (R238). -/
theorem step_at_dibit {s : State} {d : Dibit} {n : Nat} {rest : List (Dibit × Nat)} (hr : s.runState = .running)
    (hs : s.stage = .dibit) (hrun : s.run = (d, n) :: rest) :
    ∃ t, step s = .next t ∧ Onward s t ∧ t.todo = s.todo ∧ t.run = rest ∧
      (t.stage = .dibit ∨ t.stage = .advance ∨ t.stage = .frame) := by
  have hstep : step s = .next (fsDibit d { s with run := rest, now := n }) := by
    simp [step, fetch, pipeline, dibitStep, hr, hs, hrun]
  obtain ⟨⟨⟨hrs, hqueue, hev, hrep⟩, htodo, hrest⟩, hstage⟩ := fsDibit_passing d { s with run := rest, now := n }
  exact ⟨_, hstep, ⟨hrs, hqueue, hev, hrep⟩, htodo, hrest, hstage.imp_left fun h => h.trans hs⟩

/-- A sample leaves the block, and adds at most one dibit to the run (R230). -/
theorem step_at_sample {s : State} {x : Cplx} {rest : List Cplx} (hr : s.runState = .running)
    (hs : s.stage = .sample) (htodo : s.todo = x :: rest) :
    ∃ t, step s = .next t ∧ Onward s t ∧ t.stage = .sample ∧ t.todo = rest ∧ t.run.length ≤ s.run.length + 1 := by
  have hstep : step s = .next (sampleStep s) := by simp [step, fetch, pipeline, hr, hs]
  by_cases hw : 0 < s.discardLeft
  · rw [sampleStep_of_window htodo hw] at hstep
    exact ⟨_, hstep, ⟨rfl, rfl, rfl, rfl⟩, hs, rfl, Nat.le_succ _⟩
  · obtain ⟨_, _, _, _, _, run, hd, _, hrun⟩ := demodSample_frame x
      { s with todo := rest, now := sampleTime s.cfg s.curSeq s.idx, idx := s.idx + 1 }
    rw [sampleStep_of_open htodo (Nat.eq_zero_of_not_pos hw), hd] at hstep
    refine ⟨_, hstep, ⟨rfl, rfl, rfl, rfl⟩, hs, rfl, ?_⟩
    rcases hrun with rfl | ⟨d, rfl⟩
    · exact Nat.le_succ _
    · simp

/-! ## The Channel Tuner (R460-R462) -/

/-- At the stage `st` the tuner is done: without a call, or with one that took a reply and emptied the run (R461, R462). -/
def TunedAt (st : Stage) (s t : State) : Prop :=
  t.stage = st ∧ t.todo = s.todo ∧
    (t.run = s.run ∧ t.replies = s.replies ∨ t.run = [] ∧ t.replies.length + 1 = s.replies.length)

theorem Passing.tunedAt {st : Stage} {s t : State} (h : Passing s t) (hs : t.stage = st) : TunedAt st s t :=
  ⟨hs, h.todo, .inl ⟨h.run, h.replies⟩⟩

theorem TunedAt.after_passing {st : Stage} {s t u : State} (h : TunedAt st t u) (hp : Passing s t) : TunedAt st s u := by
  unfold TunedAt at h ⊢
  rwa [← hp.todo, ← hp.run, ← hp.replies]

theorem TunedAt.then_passing {st st' : Stage} {s t u : State} (h : TunedAt st s t) (hp : Passing t u)
    (hs : u.stage = st') : TunedAt st' s u := by
  obtain ⟨_, htodo, htuned⟩ := h
  refine ⟨hs, hp.todo.trans htodo, ?_⟩
  rwa [hp.run, hp.replies]

theorem step_at_tune {s : State} {src : TuneFrom} (hr : s.runState = .running) (hs : s.stage = .tune src) :
    step s = .next (tuneStep src s) := by
  simp [step, fetch, pipeline, hr, hs]

/-- The retune point: the rest of the run is dropped (R462, R238). -/
theorem step_at_sent {s : State} {src : TuneFrom} {c : RetuneCommand} (hr : s.runState = .running)
    (hs : s.stage = .sent (.retune src)) (hc : s.cmd = some c) :
    ∃ t, step s = .next t ∧ Onward s t ∧ t.stage = afterTune src ∧ t.todo = s.todo ∧ t.run = [] := by
  have hstep : step s = .next { applyRetune c.targetFrequency s with stage := afterTune src } := by
    simp [step, fetch, pipeline, afterCommand, retuneSent, hr, hs, hc]
  exact ⟨_, hstep, ⟨rfl, rfl, rfl, rfl⟩, rfl, rfl, rfl⟩

/-- A SET_FREQ with its reply at hand: FAIL stops the block, OK leads over the retune point (R462, R546). -/
theorem retune_endsIn {s : State} {src : TuneFrom} {c : RetuneCommand} {f : BitVec 56} (hr : s.runState = .running)
    (hs : s.stage = .send (.retune src)) (hc : s.cmd = some c) (hw : s.cmdWord = setFreqWord f)
    (hp : s.replies ≠ []) : EndsIn 2 s (TunedAt (afterTune src) s) := by
  obtain ⟨q, rest, hq⟩ := List.exists_cons_of_ne_nil hp
  have hf : fetch s = .instr (.setFreq f) := by simp [fetch, fetchCmd, hr, hs, hq, hw, decodeCmd_setFreqWord]
  have hstep := step_of_instr hf (t := sendCommand (setFreqWord f) (.e6 f.toNat) s) rfl
  rw [hs] at hstep
  cases q with
  | fail =>
    rw [sendCommand_of_fail hq, raise_of_fatal rfl] at hstep
    exact ⟨1, _, by decide, steps_succ 0 hstep, rfl, rfl, .inr ⟨f.toNat, rfl⟩⟩
  | ok =>
    rw [sendCommand_of_ok hq] at hstep
    simp only [retire, hr] at hstep
    obtain ⟨t, hsent, ⟨hrs, hqueue, hev, hrep⟩, hstage, htodo, hrun⟩ := step_at_sent (src := src) (c := c)
      (s := { s with
        runState := .running, replies := rest, out := .command (setFreqWord f) .ok :: s.out
        stage := .sent (.retune src) }) rfl rfl hc
    refine endsIn_step hstep rfl rfl (endsIn_step hsent hev hqueue (endsIn_zero hrs ⟨hstage, htodo, .inr ⟨hrun, ?_⟩⟩))
    rw [hrep, hq, List.length_cons]

/-- With a reply at hand the tuner is done within three steps, or its call has failed (R460). -/
theorem tune_endsIn {s : State} {src : TuneFrom} (hr : s.runState = .running) (hs : s.stage = .tune src)
    (hp : s.replies ≠ []) : EndsIn 3 s (TunedAt (afterTune src) s) := by
  have hstep := step_at_tune hr hs
  cases hc : s.cmd with
  | none =>
    rw [tuneStep_of_none hc] at hstep
    exact (endsIn_step hstep rfl rfl (endsIn_zero hr ⟨rfl, rfl, .inl ⟨rfl, rfl⟩⟩)).le (by decide)
  | some c =>
    by_cases hf : c.targetFrequency = s.tunedFreq
    · rw [tuneStep_of_same hc hf] at hstep
      exact (endsIn_step hstep rfl rfl (endsIn_zero hr ⟨rfl, rfl, .inl ⟨rfl, rfl⟩⟩)).le (by decide)
    · rw [tuneStep_of_new hc hf] at hstep
      exact endsIn_step hstep rfl rfl (retune_endsIn hr rfl hc rfl hp)

/-! ## The dibits of the run (R238, R290) -/

theorem advance_endsIn {s : State} (hr : s.runState = .running) (hs : s.stage = .advance) :
    EndsIn 1 s fun t => t.stage = .dibit ∧ Passing s t := by
  obtain ⟨t, hstep, ht, hdibit⟩ := step_at_advance hr hs
  exact ht.endsIn hstep (endsIn_zero (ht.runState.trans hr) ⟨hdibit, ht⟩)

/-- A unit is delivered to the arbiter, the tuner and the router (R401). -/
theorem delivery_endsIn {s : State} (hr : s.runState = .running) (hs : s.stage = .tsm) (hp : s.replies ≠ []) :
    EndsIn 6 s (TunedAt .dibit s) := by
  obtain ⟨t, hstep, ht, htune⟩ := step_at_tsm hr hs
  have hrt := ht.runState.trans hr
  refine ht.endsIn hstep ((tune_endsIn hrt htune (ht.replies ▸ hp)).trans (n := 2) fun u hru htuned => ?_)
  obtain ⟨v, hstep', hv, hadvance⟩ := step_at_route hru htuned.1
  refine hv.endsIn hstep' ((advance_endsIn (hv.runState.trans hru) hadvance).mono le_rfl fun w ⟨hdibit, hw⟩ => ?_)
  exact ((htuned.then_passing hv hadvance).then_passing hw hdibit).after_passing ht

theorem frame_endsIn {s : State} (hr : s.runState = .running) (hs : s.stage = .frame) (hp : s.replies ≠ []) :
    EndsIn 7 s (TunedAt .dibit s) := by
  obtain ⟨t, hstep, ht, hstage⟩ := step_at_frame hr hs
  have hrt := ht.runState.trans hr
  refine ht.endsIn hstep ?_
  rcases hstage with htsm | hadvance
  · exact (delivery_endsIn hrt htsm (ht.replies ▸ hp)).mono le_rfl fun u hu => hu.after_passing ht
  · exact (advance_endsIn hrt hadvance).mono (by decide) fun u ⟨hdibit, hu⟩ =>
      (hu.tunedAt hdibit).after_passing ht

/-- What a dibit leads to ends within seven steps, wherever the Frame Synchronizer left it. -/
theorem takenDibit_endsIn {s : State} (hr : s.runState = .running)
    (hs : s.stage = .dibit ∨ s.stage = .advance ∨ s.stage = .frame) (hp : s.replies ≠ []) :
    EndsIn 7 s (TunedAt .dibit s) := by
  rcases hs with hdibit | hadvance | hframe
  · exact (endsIn_zero hr ⟨hdibit, rfl, .inl ⟨rfl, rfl⟩⟩).le (by decide)
  · exact (advance_endsIn hr hadvance).mono (by decide) fun u ⟨hdibit, hu⟩ => hu.tunedAt hdibit
  · exact frame_endsIn hr hframe hp

/-- The Decode step is over, the block and the run used up, after at most `calls` replies (R230, R238). -/
def Finished (calls : Nat) (s t : State) : Prop :=
  t.stage = .idle ∧ t.run = [] ∧ t.todo = [] ∧ s.replies.length ≤ t.replies.length + calls

/-- The replies taken before count too. -/
theorem Finished.since {m n : Nat} {s t u : State} (h : Finished n t u)
    (hm : s.replies.length ≤ t.replies.length + m) : Finished (n + m) s u := by
  obtain ⟨hidle, hempty, hdone, hrep⟩ := h
  exact ⟨hidle, hempty, hdone, by omega⟩

theorem emptyRun_endsIn {s : State} (hr : s.runState = .running) (hs : s.stage = .dibit) (htodo : s.todo = [])
    (hrun : s.run = []) : EndsIn 1 s (Finished 0 s) := by
  have hstep : step s = .next { s with stage := .idle } := by simp [step, fetch, pipeline, dibitStep, hr, hs, hrun]
  exact endsIn_step hstep rfl rfl (endsIn_zero hr ⟨rfl, hrun, htodo, le_rfl⟩)

/-- The run is delivered within eight steps a dibit. A retune drops what is left of it, so one reply is enough (R238). -/
theorem run_endsIn {s : State} (hr : s.runState = .running) (hs : s.stage = .dibit) (htodo : s.todo = [])
    (hp : s.replies ≠ []) : EndsIn (8 * s.run.length + 1) s (Finished 1 s) := by
  induction hrun : s.run generalizing s with
  | nil =>
    exact (emptyRun_endsIn hr hs htodo hrun).mono (by simp) fun t ht => ht.since (m := 1) (Nat.le_succ _)
  | cons p rest ih =>
    obtain ⟨t, hstep, ht, htodo', hrest, hstage⟩ := step_at_dibit hr hs hrun
    have htaken := takenDibit_endsIn (ht.runState.trans hr) hstage (ht.replies ▸ hp)
    refine (ht.endsIn hstep (htaken.trans (n := 8 * rest.length + 1) fun u hru ⟨hdibit, hleft, hcall⟩ => ?_)).le
      (by rw [List.length_cons]; omega)
    have hnone : u.todo = [] := hleft.trans (htodo'.trans htodo)
    rw [ht.replies, hrest] at hcall
    rcases hcall with ⟨hrun', hrep⟩ | ⟨hrun', hrep⟩
    · exact (ih hru hdibit hnone (hrep ▸ hp) hrun').mono le_rfl
        fun v hv => hv.since (m := 0) (congrArg List.length hrep).ge
    · exact (emptyRun_endsIn hru hdibit hnone hrun').mono (by omega) fun v hv => hv.since (m := 1) hrep.ge

/-! ## The samples, and the whole Decode step -/

/-- The sample loop takes a step a sample, and adds at most a dibit a sample to the run (R230). -/
theorem samples_endsIn {s : State} (hr : s.runState = .running) (hs : s.stage = .sample) :
    EndsIn (s.todo.length + 1) s fun t =>
      t.stage = .dibit ∧ t.todo = [] ∧ t.run.length ≤ s.run.length + s.todo.length ∧ t.replies = s.replies := by
  induction htodo : s.todo generalizing s with
  | nil =>
    have hstep : step s = .next { s with stage := .dibit } := by
      simp [step, fetch, pipeline, sampleStep, hr, hs, htodo]
    exact endsIn_step hstep rfl rfl (endsIn_zero hr ⟨rfl, htodo, le_rfl, rfl⟩)
  | cons x rest ih =>
    obtain ⟨t, hstep, ht, hsample, hrest, hrun⟩ := step_at_sample hr hs htodo
    refine ht.endsIn hstep ((ih (ht.runState.trans hr) hsample hrest).mono le_rfl
      fun u ⟨hdibit, hdone, hlen, hrep⟩ => ⟨hdibit, hdone, ?_, hrep.trans ht.replies⟩)
    rw [List.length_cons]
    omega

/-- From the sample loop on a Decode step ends within nine steps a sample. -/
theorem block_endsIn {s : State} (hr : s.runState = .running) (hs : s.stage = .sample) (hrun : s.run = [])
    (hp : s.replies ≠ []) : EndsIn (9 * s.todo.length + 2) s (Finished 1 s) := by
  refine ((samples_endsIn hr hs).trans (n := 8 * s.todo.length + 1)
    fun t hrt ⟨hdibit, hdone, hlen, hrep⟩ => ?_).le (by omega)
  rw [hrun, List.length_nil, Nat.zero_add] at hlen
  exact (run_endsIn hrt hdibit hdone (hrep ▸ hp)).mono (by omega)
    fun u hu => hu.since (m := 0) (congrArg List.length hrep).ge

/-- A Decode step begins at the tuner, with the whole block to come and an empty run (R230, R410). -/
theorem beginBlock_entry (blk : SampleBlock) (s : State) :
    Onward s (beginBlock blk s) ∧ (beginBlock blk s).stage = .tune .tick ∧ (beginBlock blk s).todo = blk.samples ∧
      (beginBlock blk s).run = [] := by
  obtain ⟨_, _, hb⟩ := beginBlock_effect blk s
  obtain ⟨_, _, _, _, _, _, _, _, _, _, _, _, _, _, _, _, hg⟩ := gapCheck_effect blk.seq s
  rw [hb, hg]
  exact ⟨⟨rfl, rfl, rfl, rfl⟩, rfl, rfl, rfl⟩

/-- After the event: the tick's command, if any, takes one reply, the block's another. -/
theorem begunBlock_endsIn {s : State} (hr : s.runState = .running) (hs : s.stage = .tune .tick) (hrun : s.run = [])
    (hp : 2 ≤ s.replies.length) : EndsIn (9 * s.todo.length + 5) s (Finished 2 s) := by
  have htune := tune_endsIn hr hs (List.ne_nil_of_length_pos (by omega))
  refine (htune.trans (n := 9 * s.todo.length + 2) fun t hrt ⟨hsample, htodo, hcall⟩ => ?_).le (by omega)
  have hleft : t.run = [] ∧ s.replies.length ≤ t.replies.length + 1 := by
    rcases hcall with ⟨hkept, hrep⟩ | ⟨hempty, hrep⟩
    · exact ⟨hkept.trans hrun, hrep ▸ Nat.le_succ _⟩
    · exact ⟨hempty, hrep.ge⟩
  obtain ⟨hempty, hrep⟩ := hleft
  exact (block_endsIn hrt hsample hempty (List.ne_nil_of_length_pos (by omega))).mono (by rw [htodo])
    fun u hu => hu.since hrep

/-- Settles O51: the tick and its retune, then nine steps a sample at most. -/
theorem decodeStepCompletes : Obligations.DecodeStepCompletes := by
  unfold Obligations.DecodeStepCompletes
  intro s blk rest es hr hs _ he hq hp
  obtain ⟨hon, hstage, htodo, hrun⟩ := beginBlock_entry blk (takeBlock es rest s)
  have hrep : (beginBlock blk (takeBlock es rest s)).replies = s.replies := hon.replies
  obtain ⟨k, t, hk, hsteps, hev, hqueue, hout⟩ :=
    begunBlock_endsIn (hon.runState.trans hr) hstage hrun (hrep ▸ hp)
  rw [htodo] at hk
  refine ⟨k + 1, t, by omega, (steps_succ k (step_decode hr hs he hq)).trans hsteps, hev.trans hon.events,
    hqueue.trans hon.queue, hout.imp_left fun ⟨hrt, hidle, hempty, hdone, hcalls⟩ => ?_⟩
  exact ⟨hrt, hidle, hempty, hdone, hrep ▸ hcalls⟩

end Sys2Proof.StateProofs
end

section
/-! PROOFS. The decoder and the encoder undo each other on the three dispatch keys: a NID is the codeword nearest to itself,
and a TSBK with its CRC and a command word are the words of their fields. -/

namespace Sys2Proof.EncodingProofs

open Sys2Proof Sys2Proof.Machine Sys2Proof.StateProofs
open BitVec (getLsbD_append extractLsb'_append_extractLsb'_eq_extractLsb' extractLsb'_append_eq_of_le extractLsb'_append_eq_left
  extractLsb'_append_eq_right)

/-! ## The NID code (R153, R344) -/

theorem nearest_self (t : Nat) (rows : List (BitVec 63)) (r : BitVec 63) : nearest t r rows r = some r := by
  induction rows with
  | nil => simp [nearest, popcount]
  | cons row rows ih => simp only [nearest, ih]

theorem bchEncode_data (data : BitVec 16) : (bchEncode data).extractLsb' 47 16 = data := extractLsb'_append_eq_left

/-- The search begins at the codeword of the received data bits, which for a codeword is the word itself. -/
theorem bchDecode_bchEncode (data : BitVec 16) : bchDecode (bchEncode data) = some (bchEncode data) := by
  rw [bchDecode, bchEncode_data]
  exact nearest_self _ _ _

theorem bchEncode_fields (nac : BitVec 12) (duid : BitVec 4) :
    (bchEncode (nac ++ duid)).extractLsb' 51 12 = nac ∧ (bchEncode (nac ++ duid)).extractLsb' 47 4 = duid := by
  constructor
  · rw [bchEncode, extractLsb'_append_eq_of_le (by decide)]
    exact extractLsb'_append_eq_left
  · rw [bchEncode, extractLsb'_append_eq_of_le (by decide)]
    exact extractLsb'_append_eq_right

theorem nidEncode_word (nac : BitVec 12) (duid : BitVec 4) :
    (nidEncode nac duid).extractLsb' 1 63 = bchEncode (nac ++ duid) := extractLsb'_append_eq_left

theorem nidDecode_nidEncode (nac : BitVec 12) (duid : BitVec 4) : nidDecode (nidEncode nac duid) = some (nac, duid) := by
  obtain ⟨hnac, hduid⟩ := bchEncode_fields nac duid
  rw [nidDecode, nidEncode_word, bchDecode_bchEncode, Option.map_some, hnac, hduid]

theorem decodeNid_of_nidDecode {w : Word64} {nac : BitVec 12} {duid : BitVec 4} {i : Instr}
    (hw : nidDecode w = some (nac, duid)) (h : dispatchDuid nac duid = some i) : decodeNid w = .ok i := by
  unfold decodeNid
  simp only [hw, h]

theorem decodeNid_nidEncode {nac : BitVec 12} {duid : BitVec 4} {i : Instr} (h : dispatchDuid nac duid = some i) :
    decodeNid (nidEncode nac duid) = .ok i :=
  decodeNid_of_nidDecode (nidDecode_nidEncode nac duid) h

/-! ## The fields of a TSBK (R155) -/

section Fields

variable (lb p : Bool) (opc : BitVec 6) (mfid : BitVec 8) (args : BitVec 64)

@[simp] theorem crcOk_withCrc (m : BitVec 80) : crcOk (withCrc m) = true := by
  have hm : (withCrc m).extractLsb' 16 80 = m := extractLsb'_append_eq_left
  have hc : (withCrc m).extractLsb' 0 16 = crc16 (bvToBits m) := extractLsb'_append_eq_right
  rw [crcOk, tsbkCrc, hm, hc, beq_self_eq_true]

@[simp] theorem crcOk_tsbkWord : crcOk (tsbkWord lb p opc mfid args) = true := crcOk_withCrc _

/-- A field of octets 0-9 lies 16 bits higher in the twelve octets. -/
theorem extract_withCrc (m : BitVec 80) {start len : Nat} (h : 16 ≤ start) :
    (withCrc m).extractLsb' start len = m.extractLsb' (start - 16) len := extractLsb'_append_eq_of_le h

@[simp] theorem tsbkLb_tsbkWord : tsbkLb (tsbkWord lb p opc mfid args) = lb := by
  rw [tsbkLb, tsbkWord, withCrc, getLsbD_append, getLsbD_append, getLsbD_append, getLsbD_append, getLsbD_append]
  simp

@[simp] theorem tsbkP_tsbkWord : tsbkP (tsbkWord lb p opc mfid args) = p := by
  rw [tsbkP, tsbkWord, withCrc, getLsbD_append, getLsbD_append, getLsbD_append, getLsbD_append, getLsbD_append]
  simp

@[simp] theorem tsbkOpc_tsbkWord : tsbkOpc (tsbkWord lb p opc mfid args) = opc := by
  rw [tsbkOpc, tsbkWord, extract_withCrc _ (by decide), extractLsb'_append_eq_of_le (by decide),
    extractLsb'_append_eq_of_le (by decide)]
  exact extractLsb'_append_eq_right

@[simp] theorem tsbkMfid_tsbkWord : tsbkMfid (tsbkWord lb p opc mfid args) = mfid := by
  rw [tsbkMfid, tsbkWord, extract_withCrc _ (by decide), extractLsb'_append_eq_of_le (by decide)]
  exact extractLsb'_append_eq_right

@[simp] theorem tsbkArgs_tsbkWord : tsbkArgs (tsbkWord lb p opc mfid args) = args := by
  rw [tsbkArgs, tsbkWord, extract_withCrc _ (by decide)]
  exact extractLsb'_append_eq_right

end Fields

theorem ofBool_getLsbD {n : Nat} (x : BitVec n) (i : Nat) : BitVec.ofBool (x.getLsbD i) = x.extractLsb' i 1 := by
  apply BitVec.eq_of_getLsbD_eq
  intro j hj
  obtain rfl : j = 0 := by omega
  simp

/-- Octets 0-9 are LB, P, OPC, MFID and ARGS, one after the other (R155). -/
theorem tsbk_fields_append (o : Octets12) :
    BitVec.ofBool (tsbkLb o) ++ BitVec.ofBool (tsbkP o) ++ tsbkOpc o ++ tsbkMfid o ++ tsbkArgs o = o.extractLsb' 16 80 := by
  rw [tsbkLb, tsbkP, ofBool_getLsbD, ofBool_getLsbD, tsbkOpc, tsbkMfid, tsbkArgs,
    extractLsb'_append_extractLsb'_eq_extractLsb' (by rfl), extractLsb'_append_extractLsb'_eq_extractLsb' (by rfl),
    extractLsb'_append_extractLsb'_eq_extractLsb' (by rfl), extractLsb'_append_extractLsb'_eq_extractLsb' (by rfl)]

/-- Twelve octets whose CRC holds are the word of their fields (R347). -/
theorem tsbkWord_of_crcOk {o : Octets12} (h : crcOk o = true) :
    tsbkWord (tsbkLb o) (tsbkP o) (tsbkOpc o) (tsbkMfid o) (tsbkArgs o) = o := by
  rw [crcOk, beq_iff_eq, tsbkCrc] at h
  rw [tsbkWord, tsbk_fields_append, withCrc, ← h, extractLsb'_append_extractLsb'_eq_extractLsb' (by rfl)]
  exact BitVec.extractLsb'_eq_self

/-! ## The arguments of the handled opcodes (R156-R159) -/

/-- Bits above a word that was appended. -/
theorem extract_above {v w : Nat} (x : BitVec v) (y : BitVec w) (start len : Nat) :
    (x ++ y).extractLsb' (start + w) len = x.extractLsb' start len := by
  rw [extractLsb'_append_eq_of_le (Nat.le_add_left w start), Nat.add_sub_cancel]

/-- The parts of a word made of four. -/
theorem extract_four {a b c d : Nat} (w : BitVec a) (x : BitVec b) (y : BitVec c) (z : BitVec d) :
    (w ++ x ++ y ++ z).extractLsb' (b + c + d) a = w ∧ (w ++ x ++ y ++ z).extractLsb' (c + d) b = x ∧
      (w ++ x ++ y ++ z).extractLsb' d c = y ∧ (w ++ x ++ y ++ z).extractLsb' 0 d = z := by
  refine ⟨?_, ?_, ?_, extractLsb'_append_eq_right⟩
  · rw [extract_above, extract_above]
    exact extractLsb'_append_eq_left
  · rw [extract_above, extractLsb'_append_eq_of_le le_rfl, Nat.sub_self]
    exact extractLsb'_append_eq_right
  · rw [extractLsb'_append_eq_of_le le_rfl, Nat.sub_self]
    exact extractLsb'_append_eq_right

/-- The parts of a word made of five. -/
theorem extract_five {a b c d e : Nat} (v : BitVec a) (w : BitVec b) (x : BitVec c) (y : BitVec d) (z : BitVec e) :
    (v ++ w ++ x ++ y ++ z).extractLsb' (b + c + d + e) a = v ∧ (v ++ w ++ x ++ y ++ z).extractLsb' (c + d + e) b = w ∧
      (v ++ w ++ x ++ y ++ z).extractLsb' (d + e) c = x ∧ (v ++ w ++ x ++ y ++ z).extractLsb' e d = y ∧
      (v ++ w ++ x ++ y ++ z).extractLsb' 0 e = z := by
  obtain ⟨hv, hw, hx, hy⟩ := extract_four v w x y
  refine ⟨?_, ?_, ?_, ?_, extractLsb'_append_eq_right⟩
  · rw [extract_above, hv]
  · rw [extract_above, hw]
  · rw [extract_above, hx]
  · rw [extractLsb'_append_eq_of_le le_rfl, Nat.sub_self, hy]

theorem grantOf_append (lb : Bool) (mfid svc : BitVec 8) (chan tg : BitVec 16) (src : BitVec 24) :
    grantOf lb mfid (svc ++ chan ++ tg ++ src) = .grpVChGrant lb mfid svc chan tg src :=
  (Instr.grpVChGrant.injEq ..).mpr ⟨rfl, rfl, extract_four svc chan tg src⟩

theorem grantUpdtOf_append (lb : Bool) (mfid : BitVec 8) (chanA tgA chanB tgB : BitVec 16) :
    grantUpdtOf lb mfid (chanA ++ tgA ++ chanB ++ tgB) = .grpVChGrantUpdt lb mfid chanA tgA chanB tgB :=
  (Instr.grpVChGrantUpdt.injEq ..).mpr ⟨rfl, rfl, extract_four chanA tgA chanB tgB⟩

theorem idenUpVuOf_append (lb : Bool) (mfid : BitVec 8) (iden bwvu : BitVec 4) (tx : BitVec 14) (spacing : BitVec 10)
    (base : BitVec 32) :
    idenUpVuOf lb mfid (iden ++ bwvu ++ tx ++ spacing ++ base) = .idenUpVu lb mfid iden bwvu tx spacing base :=
  (Instr.idenUpVu.injEq ..).mpr ⟨rfl, rfl, extract_five iden bwvu tx spacing base⟩

theorem idenUpOf_append (lb : Bool) (mfid : BitVec 8) (iden : BitVec 4) (bw tx : BitVec 9) (spacing : BitVec 10)
    (base : BitVec 32) :
    idenUpOf lb mfid (iden ++ bw ++ tx ++ spacing ++ base) = .idenUp lb mfid iden bw tx spacing base :=
  (Instr.idenUp.injEq ..).mpr ⟨rfl, rfl, extract_five iden bw tx spacing base⟩

/-- Four fields that lie one after the other and fill a word are the word. -/
theorem append_four {a b c d : Nat} (x : BitVec (a + b + c + d)) :
    x.extractLsb' (b + c + d) a ++ x.extractLsb' (c + d) b ++ x.extractLsb' d c ++ x.extractLsb' 0 d = x := by
  rw [extractLsb'_append_extractLsb'_eq_extractLsb' (by omega), extractLsb'_append_extractLsb'_eq_extractLsb' (by omega),
    extractLsb'_append_extractLsb'_eq_extractLsb' (by omega)]
  exact BitVec.extractLsb'_eq_self

/-- Five fields that lie one after the other and fill a word are the word. -/
theorem append_five {a b c d e : Nat} (x : BitVec (a + b + c + d + e)) :
    x.extractLsb' (b + c + d + e) a ++ x.extractLsb' (c + d + e) b ++ x.extractLsb' (d + e) c ++ x.extractLsb' e d ++
      x.extractLsb' 0 e = x := by
  rw [extractLsb'_append_extractLsb'_eq_extractLsb' (by omega), extractLsb'_append_extractLsb'_eq_extractLsb' (by omega),
    extractLsb'_append_extractLsb'_eq_extractLsb' (by omega), extractLsb'_append_extractLsb'_eq_extractLsb' (by omega)]
  exact BitVec.extractLsb'_eq_self

theorem encode_grantOf (lb : Bool) (mfid : BitVec 8) (a : BitVec 64) :
    encode (grantOf lb mfid a) = .tsbk (tsbkWord lb false 0x00#6 mfid a) :=
  congrArg (fun args => Key.tsbk (tsbkWord lb false 0x00#6 mfid args)) (append_four (a := 8) (b := 16) (c := 16) (d := 24) a)

theorem encode_grantUpdtOf (lb : Bool) (mfid : BitVec 8) (a : BitVec 64) :
    encode (grantUpdtOf lb mfid a) = .tsbk (tsbkWord lb false 0x02#6 mfid a) :=
  congrArg (fun args => Key.tsbk (tsbkWord lb false 0x02#6 mfid args)) (append_four (a := 16) (b := 16) (c := 16) (d := 16) a)

theorem encode_idenUpVuOf (lb : Bool) (mfid : BitVec 8) (a : BitVec 64) :
    encode (idenUpVuOf lb mfid a) = .tsbk (tsbkWord lb false 0x34#6 mfid a) :=
  congrArg (fun args => Key.tsbk (tsbkWord lb false 0x34#6 mfid args))
    (append_five (a := 4) (b := 4) (c := 14) (d := 10) (e := 32) a)

theorem encode_idenUpOf (lb : Bool) (mfid : BitVec 8) (a : BitVec 64) :
    encode (idenUpOf lb mfid a) = .tsbk (tsbkWord lb false 0x3D#6 mfid a) :=
  congrArg (fun args => Key.tsbk (tsbkWord lb false 0x3D#6 mfid args))
    (append_five (a := 4) (b := 9) (c := 9) (d := 10) (e := 32) a)

/-! ## The operations of a TSBK (R175, R181, R400) -/

theorem tsbkGate_eq_true {o : Octets12} : tsbkGate o = true ↔ tsbkP o = false ∧ mfidStd (tsbkMfid o) = true := by
  simp [tsbkGate]

theorem decodeTsbk_of_crcOk {o : Octets12} (h : crcOk o = true) : decodeTsbk o = .ok (dispatchTsbk o) := by
  simp [decodeTsbk, h]

theorem decodeTsbk_eq_ok {o : Octets12} {i : Instr} : decodeTsbk o = .ok i ↔ crcOk o = true ∧ dispatchTsbk o = i := by
  cases h : crcOk o <;> simp [decodeTsbk, h]

/-- A signaling block's operation, one equation for each row of the table. -/
theorem dispatchTsbk_cases (o : Octets12) :
    tsbkGate o = true ∧
      ((tsbkOpc o = 0x00#6 ∧ dispatchTsbk o = grantOf (tsbkLb o) (tsbkMfid o) (tsbkArgs o)) ∨
        (tsbkOpc o = 0x02#6 ∧ dispatchTsbk o = grantUpdtOf (tsbkLb o) (tsbkMfid o) (tsbkArgs o)) ∨
        (tsbkOpc o = 0x34#6 ∧ dispatchTsbk o = idenUpVuOf (tsbkLb o) (tsbkMfid o) (tsbkArgs o)) ∨
        (tsbkOpc o = 0x3D#6 ∧ dispatchTsbk o = idenUpOf (tsbkLb o) (tsbkMfid o) (tsbkArgs o))) ∨
    (tsbkGate o = false ∨ handledOpc (tsbkOpc o) = false) ∧
      dispatchTsbk o = .tsbkOther (tsbkLb o) (tsbkP o) (tsbkOpc o) (tsbkMfid o) (tsbkArgs o) := by
  cases hg : tsbkGate o with
  | false => exact .inr ⟨.inl rfl, by simp [dispatchTsbk, hg]⟩
  | true =>
    by_cases h0 : tsbkOpc o = 0x00#6
    · exact .inl ⟨rfl, .inl ⟨h0, by simp [dispatchTsbk, hg, h0]⟩⟩
    by_cases h2 : tsbkOpc o = 0x02#6
    · exact .inl ⟨rfl, .inr (.inl ⟨h2, by simp [dispatchTsbk, hg, h2]⟩)⟩
    by_cases h34 : tsbkOpc o = 0x34#6
    · exact .inl ⟨rfl, .inr (.inr (.inl ⟨h34, by simp [dispatchTsbk, hg, h34]⟩))⟩
    by_cases h3D : tsbkOpc o = 0x3D#6
    · exact .inl ⟨rfl, .inr (.inr (.inr ⟨h3D, by simp [dispatchTsbk, hg, h3D]⟩))⟩
    · exact .inr ⟨.inr (by simp [handledOpc, h0, h2, h34, h3D]), by simp [dispatchTsbk, hg, h0, h2, h34, h3D]⟩

theorem dispatchTsbk_wf (o : Octets12) : (dispatchTsbk o).wf = true := by
  rcases dispatchTsbk_cases o with ⟨hg, hrow⟩ | ⟨hother, hrow⟩
  · obtain ⟨_, hm⟩ := tsbkGate_eq_true.mp hg
    rcases hrow with ⟨_, h⟩ | ⟨_, h⟩ | ⟨_, h⟩ | ⟨_, h⟩ <;> rw [h] <;> exact hm
  · rw [hrow]
    rcases hother with hg | hh
    · simp [tsbkGate] at hg
      cases hp : tsbkP o with
      | true => simp [Instr.wf]
      | false => simp [Instr.wf, hg hp]
    · simp [Instr.wf, hh]

theorem encode_dispatchTsbk {o : Octets12} (h : crcOk o = true) : encode (dispatchTsbk o) = .tsbk o := by
  have hword := tsbkWord_of_crcOk h
  rcases dispatchTsbk_cases o with ⟨hg, hrow⟩ | ⟨_, hrow⟩
  · obtain ⟨hp, _⟩ := tsbkGate_eq_true.mp hg
    rw [hp] at hword
    rcases hrow with ⟨ho, hi⟩ | ⟨ho, hi⟩ | ⟨ho, hi⟩ | ⟨ho, hi⟩ <;> rw [ho] at hword <;> rw [hi]
    · rw [encode_grantOf, hword]
    · rw [encode_grantUpdtOf, hword]
    · rw [encode_idenUpVuOf, hword]
    · rw [encode_idenUpOf, hword]
  · rw [hrow, encode, hword]

/-- A standard, unprotected signaling block decodes by its opcode. -/
theorem decodeTsbk_standard {lb : Bool} {mfid : BitVec 8} (h : mfidStd mfid = true) (a : BitVec 64) :
    decodeTsbk (tsbkWord lb false 0x00#6 mfid a) = .ok (grantOf lb mfid a) ∧
      decodeTsbk (tsbkWord lb false 0x02#6 mfid a) = .ok (grantUpdtOf lb mfid a) ∧
      decodeTsbk (tsbkWord lb false 0x34#6 mfid a) = .ok (idenUpVuOf lb mfid a) ∧
      decodeTsbk (tsbkWord lb false 0x3D#6 mfid a) = .ok (idenUpOf lb mfid a) := by
  simp [decodeTsbk, dispatchTsbk, tsbkGate, h]

/-- A block that the gate or its opcode leaves to TSBK_OTHER decodes to all its fields (R181). -/
theorem decodeTsbk_other {lb p : Bool} {opc : BitVec 6} {mfid : BitVec 8} {a : BitVec 64}
    (h : (Instr.tsbkOther lb p opc mfid a).wf = true) :
    decodeTsbk (tsbkWord lb p opc mfid a) = .ok (.tsbkOther lb p opc mfid a) := by
  rw [decodeTsbk_of_crcOk (crcOk_tsbkWord ..)]
  rcases dispatchTsbk_cases (tsbkWord lb p opc mfid a) with ⟨hg, hrow⟩ | ⟨_, hrow⟩
  · obtain ⟨hp, hm⟩ := tsbkGate_eq_true.mp hg
    simp only [tsbkP_tsbkWord, tsbkMfid_tsbkWord, tsbkOpc_tsbkWord] at hp hm hrow
    simp only [Instr.wf, hp, hm, handledOpc] at h
    rcases hrow with ⟨rfl, _⟩ | ⟨rfl, _⟩ | ⟨rfl, _⟩ | ⟨rfl, _⟩ <;> simp at h
  · simp [hrow]

/-! ## The words of P_CMD (R170) -/

theorem cmd_split {w : Word64} {code : BitVec 8} (h : w.extractLsb' 56 8 = code) : code ++ w.extractLsb' 0 56 = w := by
  rw [← h, extractLsb'_append_extractLsb'_eq_extractLsb' (by rfl)]
  exact BitVec.extractLsb'_eq_self

/-- A word whose bits 55-32 are 0 is its code and a 32-bit operand. -/
theorem cmd_split32 {w : Word64} {code : BitVec 8} (h : w.extractLsb' 56 8 = code) (hz : w.extractLsb' 32 24 = 0#24) :
    code ++ (0#24 ++ w.extractLsb' 0 32) = w := by
  rw [← hz, extractLsb'_append_extractLsb'_eq_extractLsb' (by rfl)]
  exact cmd_split h

theorem extract_succ {n start len : Nat} (w : BitVec n) :
    w.extractLsb' start (1 + len) = BitVec.ofBool (w.getLsbD (start + len)) ++ w.extractLsb' start len := by
  rw [ofBool_getLsbD, extractLsb'_append_extractLsb'_eq_extractLsb' (by rfl)]

/-- Every command word is the word of the command it decodes to. -/
theorem encode_decodeCmd {w : Word64} {i : Instr} (h : decodeCmd w = .ok i) : encode i = .cmd w := by
  simp only [decodeCmd] at h
  split at h
  · next hcode =>
    cases h
    rw [encode, setFreqWord, cmd_split hcode]
  · split at h
    · next hcode =>
      split at h
      · next hauto =>
        split at h <;> cases h
        next hz =>
        have hlow : w.extractLsb' 0 56 = 1#1 ++ 0#55 := by
          rw [extract_succ (len := 55), hz, hauto]
          rfl
        rw [encode, setGainWord, ← hlow, cmd_split hcode]
      · next hmanual =>
        split at h <;> cases h
        next hz =>
        have hhigh : w.extractLsb' 32 24 = 0#24 := by
          rw [extract_succ (len := 23), hz, Bool.eq_false_of_not_eq_true hmanual]
          rfl
        rw [encode, setGainWord, cmd_split32 hcode hhigh]
    · split at h
      · next hcode =>
        split at h <;> cases h
        next hz => rw [encode, setPpmWord, cmd_split32 hcode hz]
      · cases h

theorem wf_of_isCmdInstr {i : Instr} (h : isCmdInstr i = true) : i.wf = true := by
  cases i with
  | setFreq _ | setGain _ | setPpm _ => rfl
  | _ => cases h

theorem wf_of_isFrameInstr {i : Instr} (h : isFrameInstr i = true) : i.wf = true := by
  cases i with
  | frameHdu _ | frameTdu _ | frameLdu1 _ | frameTsdu _ | frameLdu2 _ | framePdu _ | frameTdulc _ => rfl
  | _ => cases h

/-! ## Decoding and encoding (R175) -/

/-- Settles O1: each word carries its key's code, and its fields lie where the decoder reads them. -/
theorem decodeEncode : Obligations.DecodeEncode := by
  unfold Obligations.DecodeEncode
  intro i hwf
  cases i with
  | frameHdu nac => exact decodeNid_nidEncode rfl
  | frameTdu nac => exact decodeNid_nidEncode rfl
  | frameLdu1 nac => exact decodeNid_nidEncode rfl
  | frameTsdu nac => exact decodeNid_nidEncode rfl
  | frameLdu2 nac => exact decodeNid_nidEncode rfl
  | framePdu nac => exact decodeNid_nidEncode rfl
  | frameTdulc nac => exact decodeNid_nidEncode rfl
  | grpVChGrant lb mfid svc chan tg src =>
    obtain ⟨hgrant, _, _, _⟩ := decodeTsbk_standard (lb := lb) hwf (svc ++ chan ++ tg ++ src)
    exact hgrant.trans (congrArg _ (grantOf_append ..))
  | grpVChGrantUpdt lb mfid chanA tgA chanB tgB =>
    obtain ⟨_, hupdt, _, _⟩ := decodeTsbk_standard (lb := lb) hwf (chanA ++ tgA ++ chanB ++ tgB)
    exact hupdt.trans (congrArg _ (grantUpdtOf_append ..))
  | idenUpVu lb mfid iden bwvu tx spacing base =>
    obtain ⟨_, _, hvu, _⟩ := decodeTsbk_standard (lb := lb) hwf (iden ++ bwvu ++ tx ++ spacing ++ base)
    exact hvu.trans (congrArg _ (idenUpVuOf_append ..))
  | idenUp lb mfid iden bw tx spacing base =>
    obtain ⟨_, _, _, hiden⟩ := decodeTsbk_standard (lb := lb) hwf (iden ++ bw ++ tx ++ spacing ++ base)
    exact hiden.trans (congrArg _ (idenUpOf_append ..))
  | tsbkOther lb p opc mfid args => exact decodeTsbk_other hwf
  | setFreq freq => exact decodeCmd_setFreqWord freq
  | setGain gain => exact decodeCmd_setGainWord gain
  | setPpm ppm => exact decodeCmd_setPpmWord ppm

/-- Settles O2, by the key: a CRC that holds, and a command's zero bits, leave nothing of the word open. -/
theorem encodeDecode : Obligations.EncodeDecode := by
  unfold Obligations.EncodeDecode
  intro k i hk h
  cases k with
  | nid w => exact absurd rfl (hk w)
  | tsbk o =>
    obtain ⟨hcrc, rfl⟩ := decodeTsbk_eq_ok.mp h
    exact ⟨encode_dispatchTsbk hcrc, dispatchTsbk_wf o⟩
  | cmd w => exact ⟨encode_decodeCmd h, wf_of_isCmdInstr (decodeCmd_cmd h)⟩

theorem decode_of_encode {k : Key} {i : Instr} (hwf : i.wf = true) (h : encode i = k) : decode k = .ok i :=
  h ▸ decodeEncode i hwf

/-- Settles O3: each word is the one its instruction encodes to; the corrupted TSBK's CRC does not hold. -/
theorem sampleWordsDecode : Obligations.SampleWordsDecode := by
  unfold Obligations.SampleWordsDecode
  have hbad : crcOk 0x80000000050064123456_1589#96 = false := by decide +kernel
  exact ⟨decode_of_encode rfl (by decide +kernel), decode_of_encode rfl (by decide +kernel),
    decode_of_encode rfl (by decide +kernel), decode_of_encode rfl (by decide +kernel),
    decode_of_encode rfl (by decide +kernel), by simp [decode, decodeTsbk, hbad],
    decode_of_encode rfl (by decide +kernel), decode_of_encode rfl (by decide +kernel),
    decode_of_encode rfl (by decide +kernel), decode_of_encode rfl (by decide +kernel),
    decode_of_encode rfl (by decide +kernel)⟩

end Sys2Proof.EncodingProofs
end

section
/-! PROOFS. A step fetches the operation its word decodes to and runs it; and what the frame-class operations do at the NID and
in the frame of a packet data unit. -/

namespace Sys2Proof.EncodingProofs

open Sys2Proof Sys2Proof.Machine

/-! ## What is fetched (R175) -/

theorem fetch_of_nid {s : State} {i : Instr} (hr : s.runState = .running) (hs : s.stage = .frame) (hc : s.cls = none)
    (hl : s.fbits.length = 64) (hd : decodeNid (bitsToBV 64 s.fbits) = .ok i) : fetch s = .instr i := by
  simp only [fetch, hr, hs, fetchFrame, hc, nidDue, hl, hd]
  rfl

theorem fetch_of_class {s : State} {c : FrameClass} {i : Instr} (hr : s.runState = .running) (hs : s.stage = .frame)
    (hc : s.cls = some c) (hi : classInstr c s.nacCur = some i) : fetch s = .instr i := by
  simp only [fetch, hr, hs, fetchFrame, hc, hi]

theorem fetch_of_tsbk {s : State} {time : Nat} {nac : BitVec 12} {o : Octets12} (hr : s.runState = .running)
    (hs : s.stage = .tsm) (hu : s.unit = some ⟨.trunkingSignalingBlock, true, time, nac, some (.tsbk o)⟩) :
    fetch s = .instr (dispatchTsbk o) := by
  simp only [fetch, hr, hs, fetchTsm, hu]

theorem fetch_at_send {s : State} {r : SendFor} (hr : s.runState = .running ∨ s.runState = .booting)
    (hs : s.stage = .send r) : fetch s = fetchCmd s := by
  rcases hr with hr | hr <;> simp only [fetch, hr, hs]

theorem fetchCmd_of_reply {s : State} {i : Instr} (hp : s.replies ≠ []) (hd : decodeCmd s.cmdWord = .ok i) :
    fetchCmd s = .instr i := by
  obtain ⟨q, rest, hq⟩ := List.exists_cons_of_ne_nil hp
  simp only [fetchCmd, hq, hd]

theorem fetchCmd_of_no_reply {s : State} (hp : s.replies = []) : fetchCmd s = .wait := by
  simp only [fetchCmd, hp]

/-! ## The operation fetched is run (R401, R504) -/

/-- Settles O8: either way the frame's operation is what is fetched. -/
theorem stepRunsFrameInstr : Obligations.StepRunsFrameInstr := by
  unfold Obligations.StepRunsFrameInstr
  intro s i hr hs hcase
  have hfetch : fetch s = .instr i := by
    rcases hcase with ⟨hc, hl, hd⟩ | ⟨c, hc, hi⟩
    · exact fetch_of_nid hr hs hc hl hd
    · exact fetch_of_class hr hs hc hi
  have hframe : isFrameInstr i = true := by
    cases fetch_instr hfetch with
    | frame _ _ hi _ => exact hi
    | tsbk _ _ _ _ hs' => simp [hs] at hs'
    | cmd _ _ hs' => simp [hs] at hs'
  obtain ⟨t, he⟩ := exec_next i s
  have hstep := step_of_instr hfetch he
  rw [hs] at hstep
  exact ⟨wf_of_isFrameInstr hframe, t, he, hstep⟩

/-- Settles O9: a valid TSBK's octets are fetched without their CRC being looked at again. -/
theorem stepRunsTsbkInstr : Obligations.StepRunsTsbkInstr := by
  unfold Obligations.StepRunsTsbkInstr
  intro s time nac o i hr hs hu hd
  obtain ⟨_, rfl⟩ := decodeTsbk_eq_ok.mp hd
  obtain ⟨t, he⟩ := exec_next (dispatchTsbk o) s
  have hstep := step_of_instr (fetch_of_tsbk hr hs hu) he
  rw [hs] at hstep
  exact ⟨dispatchTsbk_wf o, t, he, hstep⟩

/-- An answered word leaves the block as it was, or Fatal; so the command's stage is left exactly when the block goes on. -/
theorem retire_send {r : SendFor} {t : State} (h : t.runState ≠ .stopped) :
    retire (.send r) t = if halted t then t else { t with stage := .sent r } := by
  cases hr : t.runState with
  | stopped => exact absurd hr h
  | _ => simp [retire, halted, hr]

/-- Settles O10, by the reply: with one the command is fetched, without one the call has not returned. -/
theorem stepRunsCommandInstr : Obligations.StepRunsCommandInstr := by
  unfold Obligations.StepRunsCommandInstr
  intro s r i hr hs hd
  have hcmd : isCmdInstr i = true := decodeCmd_cmd hd
  refine ⟨fun hp => ⟨wf_of_isCmdInstr hcmd, ?_⟩, fun hp => ?_⟩
  · obtain ⟨t, he⟩ := exec_next i s
    have hstep := step_of_instr ((fetch_at_send hr hs).trans (fetchCmd_of_reply hp hd)) he
    have hrun : t.runState ≠ .stopped := by
      obtain ⟨_, _, _, ⟨_, rfl⟩ | ⟨_, _, _, rfl⟩⟩ := exec_cmd_effect hcmd hp he
      · rcases hr with hr | hr <;> simp [hr]
      · simp
    rw [hs, retire_send hrun] at hstep
    exact ⟨t, he, hstep⟩
  · exact step_of_wait ((fetch_at_send hr hs).trans (fetchCmd_of_no_reply hp))

/-! ## At the NID (R293) -/

theorem frameStart_of_fixed {c : FrameClass} {len : Nat} (h : fixedFrameLen c = some len) (nac : BitVec 12) (s : State) :
    frameStart c nac s = { s with cls := some c, nacCur := nac, curLen := some len } := by
  simp only [frameStart, h]

theorem frameStart_of_open {c : FrameClass} (h : fixedFrameLen c = none) (nac : BitVec 12) (s : State) :
    frameStart c nac s = { s with cls := some c, nacCur := nac } := by
  simp only [frameStart, h]

/-- Every class but TDU only takes up its frame at the NID. -/
theorem exec_at_nid {c : FrameClass} {nac : BitVec 12} {i : Instr} {s : State} (hi : classInstr c nac = some i)
    (ht : c ≠ .tdu) (hc : s.cls = none) : exec i s = .next (frameStart c nac s) := by
  cases c with
  | hdu => cases hi; simp only [exec, execFrameHdu, hc]
  | tdu => exact absurd rfl ht
  | ldu1 => cases hi; simp only [exec, execFrameLdu1, hc]
  | tsdu => cases hi; simp only [exec, execFrameTsdu, hc]
  | ldu2 => cases hi; simp only [exec, execFrameLdu2, hc]
  | pdu => cases hi; simp only [exec, execFramePdu, hc]
  | tdulc => cases hi; simp only [exec, execFrameTdulc, hc]
  | unknown => cases hi

theorem execFrameTdu_at_nid {nac : BitVec 12} {s : State} (hc : s.cls = none) :
    exec (.frameTdu nac) s = .next (handOver (fecTdu nac s.now) (frameStart .tdu nac s)) := by
  simp only [exec, execFrameTdu, hc]

/-- Settles O11, class by class: the length is the class's where it fixes one (R154). -/
theorem frameTakenUpAtNid : Obligations.FrameTakenUpAtNid := by
  unfold Obligations.FrameTakenUpAtNid
  intro nac s hc
  refine ⟨?_, ?_, ?_, ?_, ?_, ?_, ?_⟩
  · rw [exec_at_nid (c := .hdu) rfl (by decide) hc, frameStart_of_fixed rfl]
  · rw [exec_at_nid (c := .ldu1) rfl (by decide) hc, frameStart_of_fixed rfl]
  · rw [exec_at_nid (c := .ldu2) rfl (by decide) hc, frameStart_of_fixed rfl]
  · rw [exec_at_nid (c := .tdulc) rfl (by decide) hc, frameStart_of_fixed rfl]
  · rw [exec_at_nid (c := .tsdu) rfl (by decide) hc, frameStart_of_open rfl]
  · rw [exec_at_nid (c := .pdu) rfl (by decide) hc, frameStart_of_open rfl]
  · rw [execFrameTdu_at_nid hc, frameStart_of_fixed rfl, handOver_of_valid rfl]
    rfl

/-! ## The packet data unit (R296, R353) -/

theorem bitsAt_rest {start len : Nat} {b : List Bool} (h : b.length = start + len) : bitsAt start len b = b.drop start := by
  rw [bitsAt, List.take_of_length_le]
  simp [h]

theorem fecPduHeader_of_crcOk {b : List Bool} (h : crcOk (tsbkDecode b) = true) (nac : BitVec 12) (t : Nat) :
    fecPduHeader b nac t =
      ⟨.packetDataUnit, true, t, nac, some (.pdu (tsbkDecode b) (pduBtf (tsbkDecode b)) [])⟩ := by
  simp [fecPduHeader, h, mkUnit]

theorem fecPduHeader_of_crcBad {b : List Bool} (h : crcOk (tsbkDecode b) = false) (nac : BitVec 12) (t : Nat) :
    fecPduHeader b nac t = ⟨.packetDataUnit, false, t, nac, none⟩ := by
  simp [fecPduHeader, h, mkUnit]

theorem handOver_invalid_unit (kind : UnitKind) (s : State) :
    handOver ⟨kind, false, s.now, s.nacCur, none⟩ s = withInvalidUnit kind s := handOver_of_invalid rfl

theorem pduHeader_of_not_due {s : State} (h : s.curLen ≠ none ∨ s.fbits.length ≠ 260) : pduHeader s = s := by
  rw [pduHeader, if_neg (by tauto)]

section Header

variable {s : State} (hcur : s.curLen = none) (hlen : s.fbits.length = 260)
include hcur hlen

/-- A valid header is held, and its BTF fixes the frame's length (R163, R296). -/
theorem pduHeader_of_valid (hcrc : crcOk (tsbkDecode (s.fbits.drop 64)) = true) :
    pduHeader s =
      { s with
        pduHdr := some ⟨.packetDataUnit, true, s.now, s.nacCur,
          some (.pdu (tsbkDecode (s.fbits.drop 64)) (pduBtf (tsbkDecode (s.fbits.drop 64))) [])⟩
        curLen := some (paddedLen (tsduDibits (1 + pduBtf (tsbkDecode (s.fbits.drop 64))))) } := by
  rw [pduHeader, if_pos ⟨hcur, hlen⟩, bitsAt_rest hlen, fecPduHeader_of_crcOk hcrc]
  rfl

/-- An invalid header with a prior frame: its length is assumed (R296). -/
theorem pduHeader_of_invalid_prior {len : Nat} (hcrc : crcOk (tsbkDecode (s.fbits.drop 64)) = false)
    (hlast : s.lastLen = some len) :
    pduHeader s = { withInvalidUnit .packetDataUnit s with curLen := some len, cls := some .unknown } := by
  rw [pduHeader, if_pos ⟨hcur, hlen⟩, bitsAt_rest hlen, fecPduHeader_of_crcBad hcrc]
  simp only [handOver_invalid_unit, hlast, reduceCtorEq, if_false]
  exact assumePriorLength_of_some hlast

/-- An invalid header without a prior frame: the lock is given up (R289, R296). -/
theorem pduHeader_of_invalid_first (hcrc : crcOk (tsbkDecode (s.fbits.drop 64)) = false) (hlast : s.lastLen = none) :
    pduHeader s = forceSearch (raise (.e1 s.now) (withInvalidUnit .packetDataUnit s)) := by
  rw [pduHeader, if_pos ⟨hcur, hlen⟩, bitsAt_rest hlen, fecPduHeader_of_crcBad hcrc]
  simp only [handOver_invalid_unit, hlast, reduceCtorEq, if_false, if_true]
  exact assumePriorLength_of_none hlast

end Header

section PduBody

variable {s : State} {time btf : Nat} {nac : BitVec 12} {o : Octets12} {bs : List Bool}
  (hh : s.pduHdr = some ⟨.packetDataUnit, true, time, nac, some (.pdu o btf bs)⟩)
include hh

theorem pduBody_of_last (hl : s.fbits.length = 64 + 196 * (1 + btf)) :
    pduBody s =
      { s with
        pduHdr := none, unit := some ⟨.packetDataUnit, true, time, nac, some (.pdu o btf (s.fbits.drop 260))⟩ } := by
  simp only [pduBody, hh, unitBtf, hl, if_true, attachBlocks]
  rfl

theorem pduBody_of_more (hl : s.fbits.length ≠ 64 + 196 * (1 + btf)) : pduBody s = s := by
  simp only [pduBody, hh, unitBtf, hl, if_false]

end PduBody

theorem execFramePdu_in_frame {nac : BitVec 12} {s : State} {c : FrameClass} (hc : s.cls = some c) :
    exec (.framePdu nac) s = .next (pduBody (pduHeader s)) := by
  simp only [exec, execFramePdu, hc]

/-- Settles O15: the header's three outcomes, the last block, and the dibits at which nothing is due. -/
theorem pduHeaderAndBody : Obligations.PduHeaderAndBody := by
  unfold Obligations.PduHeaderAndBody
  intro nac s c hc
  rw [execFramePdu_in_frame hc]
  refine ⟨?_, ?_, ?_⟩
  · rintro o hcur hpdu hlen rfl
    refine ⟨fun hcrc hbtf => ?_, fun hcrc hbtf => ?_, fun len hcrc hlast => ?_, fun hcrc hlast => ?_⟩
    · rw [pduHeader_of_valid hcur hlen hcrc, pduBody_of_more rfl]
      · rfl
      · change s.fbits.length ≠ 64 + 196 * (1 + (BitVec.extractLsb' 40 7 _).toNat)
        omega
    · have hbtf : pduBtf (tsbkDecode (s.fbits.drop 64)) = 0 := hbtf
      rw [pduHeader_of_valid hcur hlen hcrc, hbtf, pduBody_of_last rfl hlen]
      simp [hpdu, hlen, paddedLen, tsduDibits]
    · rw [pduHeader_of_invalid_prior hcur hlen hcrc hlast, pduBody_of_none (by exact hpdu)]
      rfl
    · rw [pduHeader_of_invalid_first hcur hlen hcrc hlast, pduBody_of_none rfl]
      rfl
  · intro len time hnac o btf bs hcur hpdu
    rw [pduHeader_of_not_due (.inl (by simp [hcur]))]
    exact ⟨fun hl => by rw [pduBody_of_last hpdu hl], fun hl => by rw [pduBody_of_more hpdu hl]⟩
  · intro hpdu hdue
    rw [pduHeader_of_not_due hdue, pduBody_of_none hpdu]

end Sys2Proof.EncodingProofs
end

section
/-! PROOFS. Every step keeps the DataUnits well formed: what the FEC Decoder makes is, and a step only drops a unit, hands one
over that the decoder made, or sends the frames of the one in flight. -/

namespace Sys2Proof.EncodingProofs

open Sys2Proof Sys2Proof.Machine Sys2Proof.StateProofs

/-! ## The units the FEC Decoder makes (R161, R342) -/

/-- A unit made by `mkUnit` is well formed where the body it may have is one of its kind. -/
theorem unitOk_mkUnit {kind : UnitKind} {t : Nat} {nac : BitVec 12} {body : Option Body}
    (h : ∀ b, body = some b → unitOk (mkUnit kind t nac (some b)) = true) : unitOk (mkUnit kind t nac body) = true := by
  cases body with
  | none => simp [unitOk, mkUnit]
  | some b => exact h b rfl

theorem unitOk_fecHdu (b : List Bool) (nac : BitVec 12) (t : Nat) : unitOk (fecHdu b nac t) = true := by
  refine unitOk_mkUnit fun body hb => ?_
  obtain ⟨m, _, rfl⟩ := Option.map_eq_some_iff.mp hb
  rfl

theorem unitOk_fecTdu (nac : BitVec 12) (t : Nat) : unitOk (fecTdu nac t) = true := rfl

theorem unitOk_fecTdulc (b : List Bool) (nac : BitVec 12) (t : Nat) : unitOk (fecTdulc b nac t) = true := by
  refine unitOk_mkUnit fun body hb => ?_
  obtain ⟨m, _, rfl⟩ := Option.map_eq_some_iff.mp hb
  rfl

theorem length_frames_of_lduDecode {k d t : Nat} {o : BitOrder 1568} {rs : SymbolCode k 24 d t} {b : List Bool}
    {p : List (BitVec 88) × BitVec k} (h : lduDecode o rs b = some p) : p.1.length = 9 := by
  obtain ⟨hframes, _⟩ := lduDecode_eq_some.mp h
  exact length_voiceFrames hframes

theorem unitOk_fecLdu1 (b : List Bool) (nac : BitVec 12) (t : Nat) : unitOk (fecLdu1 b nac t) = true := by
  refine unitOk_mkUnit fun body hb => ?_
  obtain ⟨p, hp, rfl⟩ := Option.map_eq_some_iff.mp hb
  simp [unitOk, mkUnit, length_frames_of_lduDecode hp]

theorem unitOk_fecLdu2 (b : List Bool) (nac : BitVec 12) (t : Nat) : unitOk (fecLdu2 b nac t) = true := by
  refine unitOk_mkUnit fun body hb => ?_
  obtain ⟨p, hp, rfl⟩ := Option.map_eq_some_iff.mp hb
  simp [unitOk, mkUnit, length_frames_of_lduDecode hp]

theorem unitOk_fecTsbk (b : List Bool) (nac : BitVec 12) (t : Nat) : unitOk (fecTsbk b nac t) = true := by
  refine unitOk_mkUnit fun body hb => ?_
  obtain ⟨hcrc, ho⟩ := Option.ite_none_right_eq_some.mp hb
  cases ho
  simpa [unitOk, mkUnit] using hcrc

/-- The raw blocks are no part of what makes a unit well formed. -/
theorem unitOk_attachBlocks (du : DataUnit) (blocks : List Bool) : unitOk (attachBlocks du blocks) = unitOk du := by
  obtain ⟨kind, valid, time, nac, body⟩ := du
  match body with
  | some (.pdu hdr btf bs) => cases kind <;> rfl
  | none | some (.header _) | some (.ldu1 _ _) | some (.ldu2 _ _) | some (.tsbk _) | some .tdu | some (.tdulc _) => rfl

/-- The frames of a well-formed unit that the router forwards are nine (R171, R480). -/
theorem length_voiceRecord {role : Role} {tuned : Nat} {du : DataUnit} {r : VoiceRecord} (hdu : unitOk du = true)
    (h : voiceRecord role tuned du = some r) : r.frames.length = 9 := by
  obtain ⟨kind, valid, time, nac, body⟩ := du
  unfold voiceRecord at h
  split at h
  · cases h
  · split at h
    · split at h
      all_goals cases h
      all_goals
        next hkind hbody =>
        cases hkind
        cases hbody
        simp only [unitOk, Bool.and_eq_true, beq_iff_eq] at hdu
        obtain ⟨_, hnine⟩ := hdu
        exact hnine
    · cases h

/-! ## Changes that keep the units -/

/-- A step that keeps or drops the units it holds, and sends no voice record. -/
theorem unitsOk_of_kept {s t : State} (h : UnitsOk s) (hunit : t.unit = s.unit ∨ t.unit = none)
    (hpdu : t.pduHdr = s.pduHdr ∨ t.pduHdr = none) (hout : ∀ r, .voice r ∈ t.out → .voice r ∈ s.out) : UnitsOk t := by
  obtain ⟨hu, hp, hv⟩ := h
  refine ⟨fun du hdu => ?_, fun d hd => ?_, fun r hr => hv r (hout r hr)⟩
  · rcases hunit with he | he <;> rw [he] at hdu
    · exact hu du hdu
    · cases hdu
  · rcases hpdu with he | he <;> rw [he] at hd
    · exact hp d hd
    · cases hd

theorem unitsOk_handOver {du : DataUnit} {s : State} (hdu : unitOk du = true) (h : UnitsOk s) :
    UnitsOk (handOver du s) := by
  obtain ⟨_, hp, hv⟩ := h
  cases hval : du.valid with
  | true =>
    rw [handOver_of_valid hval]
    exact ⟨fun d hd => Option.some.inj hd ▸ hdu, hp, hv⟩
  | false =>
    rw [handOver_of_invalid hval]
    exact ⟨fun d hd => Option.some.inj hd ▸ hdu, hp, hv⟩

/-! ### The frame-class operations -/

theorem bodyFixed_unitsOk {c : FrameClass} {fec : List Bool → BitVec 12 → Nat → DataUnit} {s : State}
    (hfec : ∀ b nac t, unitOk (fec b nac t) = true) (h : UnitsOk s) : UnitsOk (bodyFixed c fec s) := by
  by_cases hl : s.fbits.length = 64 + bodyBits c
  · rw [bodyFixed_of_complete hl]
    exact unitsOk_handOver (hfec _ _ _) h
  · rw [bodyFixed_of_incomplete hl]
    exact h

theorem tsduBlock_unitsOk {s : State} (h : UnitsOk s) : UnitsOk (tsduBlock s) := by
  unfold tsduBlock
  split
  · refine unitsOk_handOver (unitOk_fecTsbk _ _ _) ?_
    split
    · exact h
    · exact h
  · exact h

theorem withInvalidUnit_unitsOk {s : State} (h : UnitsOk s) : UnitsOk (withInvalidUnit .packetDataUnit s) := by
  rw [← handOver_invalid_unit]
  exact unitsOk_handOver rfl h

theorem pduHeader_unitsOk {s : State} (h : UnitsOk s) : UnitsOk (pduHeader s) := by
  by_cases hdue : s.curLen = none ∧ s.fbits.length = 260
  · obtain ⟨hcur, hlen⟩ := hdue
    cases hcrc : crcOk (tsbkDecode (s.fbits.drop 64)) with
    | true =>
      obtain ⟨hu, _, hv⟩ := h
      rw [pduHeader_of_valid hcur hlen hcrc]
      refine ⟨hu, fun d hd => ?_, hv⟩
      cases hd
      exact ⟨by simp [unitOk, hcrc], rfl, rfl⟩
    | false =>
      have hinv := withInvalidUnit_unitsOk h
      cases hlast : s.lastLen with
      | some len =>
        rw [pduHeader_of_invalid_prior hcur hlen hcrc hlast]
        exact hinv
      | none =>
        rw [pduHeader_of_invalid_first hcur hlen hcrc hlast]
        exact unitsOk_of_kept hinv (.inl rfl) (.inr rfl) fun _ hr => hr
  · rw [pduHeader_of_not_due (by tauto)]
    exact h

theorem pduBody_unitsOk {s : State} (h : UnitsOk s) : UnitsOk (pduBody s) := by
  unfold pduBody
  split
  · exact h
  · next hd hh =>
    split
    · have ⟨_, hheld, _⟩ := h
      obtain ⟨hok, _⟩ := hheld hd hh
      have hand : UnitsOk (handOver (attachBlocks hd (s.fbits.drop 260)) s) :=
        unitsOk_handOver ((unitOk_attachBlocks _ _).trans hok) h
      exact unitsOk_of_kept hand (.inl rfl) (.inr rfl) fun _ hr => hr
    · exact h

theorem exec_frame_unitsOk {i : Instr} {s u : State} (hi : isFrameInstr i = true) (he : exec i s = .next u)
    (h : UnitsOk s) : UnitsOk u := by
  cases i with
  | frameHdu nac =>
    simp only [exec, execFrameHdu] at he
    split at he <;> cases he
    · exact h
    · exact bodyFixed_unitsOk unitOk_fecHdu h
  | frameTdu nac =>
    simp only [exec, execFrameTdu] at he
    split at he <;> cases he
    · exact unitsOk_handOver (unitOk_fecTdu nac s.now) (s := frameStart .tdu nac s) h
    · exact h
  | frameLdu1 nac =>
    simp only [exec, execFrameLdu1] at he
    split at he <;> cases he
    · exact h
    · exact bodyFixed_unitsOk unitOk_fecLdu1 h
  | frameTsdu nac =>
    simp only [exec, execFrameTsdu] at he
    split at he <;> cases he
    · exact h
    · exact tsduBlock_unitsOk h
  | frameLdu2 nac =>
    simp only [exec, execFrameLdu2] at he
    split at he <;> cases he
    · exact h
    · exact bodyFixed_unitsOk unitOk_fecLdu2 h
  | framePdu nac =>
    simp only [exec, execFramePdu] at he
    split at he <;> cases he
    · exact h
    · exact pduBody_unitsOk (pduHeader_unitsOk h)
  | frameTdulc nac =>
    simp only [exec, execFrameTdulc] at he
    split at he <;> cases he
    · exact h
    · exact bodyFixed_unitsOk unitOk_fecTdulc h
  | _ => cases hi

/-! ### The operations of the table -/

theorem exec_unitsOk {s u : State} {i : Instr} (hf : fetch s = .instr i) (he : exec i s = .next u) (h : UnitsOk s) :
    UnitsOk u := by
  cases fetch_instr hf with
  | frame _ _ hi => exact exec_frame_unitsOk hi he h
  | tsbk _ _ o _ _ _ hi =>
    obtain ⟨_, _, _, _, _, rfl⟩ := exec_tsbk_effect (hi ▸ dispatchTsbk_tsbk o) he
    exact h
  | cmd _ _ _ hp hd =>
    obtain ⟨_, _, _, ⟨_, rfl⟩ | ⟨_, _, _, rfl⟩⟩ := exec_cmd_effect (decodeCmd_cmd hd) hp he
    · exact unitsOk_of_kept h (.inl rfl) (.inl rfl) (by simp)
    · exact unitsOk_of_kept h (.inl rfl) (.inl rfl) (by simp)

theorem retire_unitsOk {u : State} (b : Stage) (h : UnitsOk u) : UnitsOk (retire b u) := by
  obtain ⟨_, hret⟩ := retire_effect b u
  rw [hret]
  exact h

/-! ### The pipeline operations -/

theorem afterCommand_unitsOk (r : SendFor) {s : State} (h : UnitsOk s) : UnitsOk (afterCommand r s) := by
  cases r with
  | bootPpm => exact h
  | bootGain => exact h
  | bootFreq => exact h
  | retune src =>
    simp only [afterCommand, retuneSent]
    split
    · exact h
    · exact unitsOk_of_kept h (.inl rfl) (.inr rfl) fun _ hr => hr

theorem dibitStep_unitsOk {s : State} (h : UnitsOk s) : UnitsOk (dibitStep s) := by
  have hpdu : (dibitStep s).pduHdr = s.pduHdr ∨ (dibitStep s).pduHdr = none := by
    unfold dibitStep
    split
    · exact .inl rfl
    · next d t rest _ => exact fsDibit_pduHdr d { s with run := rest, now := t }
  obtain ⟨_, _, _, _, _, _, _, _, _, _, _, _, _, _, ht⟩ := dibitStep_effect s
  rw [ht] at hpdu ⊢
  exact unitsOk_of_kept h (.inl rfl) hpdu fun _ hr => hr

theorem framePipeline_unitsOk {s : State} (h : UnitsOk s) : UnitsOk (framePipeline s) := by
  have hpdu := framePipeline_pduHdr s
  obtain ⟨_, _, _, _, _, _, _, _, _, _, _, _, ht⟩ := framePipeline_effect s
  rw [ht] at hpdu ⊢
  exact unitsOk_of_kept h (.inl rfl) hpdu fun _ hr => hr

theorem advanceStep_unitsOk {s : State} (h : UnitsOk s) : UnitsOk (advanceStep s) := by
  have hpdu := advanceStep_pduHdr s
  obtain ⟨_, _, _, _, _, _, _, _, _, _, _, _, ht⟩ := advanceStep_effect s
  rw [ht] at hpdu ⊢
  exact unitsOk_of_kept h (.inl rfl) hpdu fun _ hr => hr

/-- The router ends the unit in flight; the record it may send has that unit's nine frames (R480). -/
theorem routeStep_unitsOk {s : State} (h : UnitsOk s) : UnitsOk (routeStep s) := by
  unfold routeStep
  split
  · exact h
  · next du hdu =>
    split
    · next rec hrec =>
      obtain ⟨hu, hp, hv⟩ := h
      refine ⟨nofun, hp, fun r hr => ?_⟩
      rcases List.mem_cons.mp hr with heq | hr
      · cases heq
        exact length_voiceRecord (hu du hdu) hrec
      · exact hv r hr
    · exact unitsOk_of_kept h (.inr rfl) (.inl rfl) fun _ hr => hr

/-! ### Outside events -/

theorem bootStart_voice {c : StartConfig} {q : Status} {s : State} {r : VoiceRecord}
    (h : .voice r ∈ (bootStart c q s).out) : .voice r ∈ s.out := by
  simp only [bootStart] at h
  split at h
  · exact h
  · split at h
    · simpa using h
    · simpa using h

theorem event_unitsOk {s t : State} (he : EventCase s t) (h : UnitsOk s) : UnitsOk t := by
  cases he with
  | start c q es =>
    have hout := fun r => bootStart_voice (c := c) (q := q) (s := { s with events := es }) (r := r)
    obtain ⟨_, _, _, _, _, hb⟩ := bootStart_effect c q { s with events := es }
    rw [hb] at hout ⊢
    exact unitsOk_of_kept h (.inl rfl) (.inl rfl) hout
  | shutdown q es => exact unitsOk_of_kept h (.inl rfl) (.inl rfl) (by simp)
  | block samples es =>
    obtain ⟨_, _, hi, _⟩ := ingestBlock_effect samples { s with events := es }
    rw [hi]
    exact h
  | decode blk rest es =>
    have hpdu := gapCheck_pduHdr blk.seq { s with events := es, queue := rest }
    obtain ⟨_, _, hb⟩ := beginBlock_effect blk { s with events := es, queue := rest }
    obtain ⟨_, _, _, _, _, _, _, _, _, _, _, _, _, _, _, _, hg⟩ :=
      gapCheck_effect blk.seq { s with events := es, queue := rest }
    rw [hb, hg]
    rw [hg] at hpdu
    exact unitsOk_of_kept h (.inl rfl) hpdu fun _ hr => hr
  | _ => exact h

/-! ### Every step -/

theorem running_unitsOk {s t : State} (hc : RunningCase s t) (h : UnitsOk s) : UnitsOk t := by
  cases hc with
  | event _ he => exact event_unitsOk (eventStep_cases he) h
  | sending => exact h
  | sent r => exact afterCommand_unitsOk r h
  | sample =>
    obtain ⟨_, _, _, _, _, _, _, _, _, _, _, ht⟩ := sampleStep_effect s
    rw [ht]
    exact h
  | dibit => exact dibitStep_unitsOk h
  | frame => exact framePipeline_unitsOk h
  | tsm =>
    obtain ⟨_, _, ht⟩ := tsmPipeline_effect s
    rw [ht]
    exact h
  | tune src =>
    obtain ⟨_, _, _, ht⟩ := tuneStep_effect src s
    rw [ht]
    exact h
  | route => exact routeStep_unitsOk h
  | advance => exact advanceStep_unitsOk h

/-- Settles O56, by the cases of a step: only a frame-class operation makes a unit, and only the router sends one's frames. -/
theorem unitsKept : Obligations.UnitsKept := by
  unfold Obligations.UnitsKept
  intro s t h hs
  cases step_cases hs with
  | instr i u hf he => exact retire_unitsOk s.stage (exec_unitsOk hf he h)
  | wait => exact h
  | halt => exact h
  | bootSent r => exact afterCommand_unitsOk r h
  | bootEvent _ _ _ he => exact event_unitsOk (eventStep_cases he) h
  | running _ _ hc => exact running_unitsOk hc h

end Sys2Proof.EncodingProofs
end

section
/-! PROOFS. The Demodulator: the sample loop at the settle window, the datapath before the symbol clock, and the symbol clock
between zero crossings. -/

namespace Sys2Proof.DemodProofs

open Sys2Proof Sys2Proof.Machine Sys2Proof.StateProofs

/-! ## The sample loop and the settle window (R230, R231) -/

theorem step_of_sample {s : State} (hr : s.runState = .running) (hs : s.stage = .sample) :
    step s = .next (sampleStep s) := by
  have hfetch : fetch s = .pipeline := by simp [fetch, hr, hs]
  rw [step_of_pipeline hfetch]
  simp [pipeline, hr, hs]

/-- `n` samples inside the settle window move the position and count S5 down; `now` is the time of the last of them. -/
theorem steps_in_window (n : Nat) {s : State} (hr : s.runState = .running) (hs : s.stage = .sample)
    (hw : n ≤ s.discardLeft) (ht : n ≤ s.todo.length) :
    ∃ now, (0 < n → now = sampleTime s.cfg s.curSeq (s.idx + n - 1)) ∧
      steps n s =
        some { s with todo := s.todo.drop n, discardLeft := s.discardLeft - n, idx := s.idx + n, now := now } := by
  induction n with
  | zero => exact ⟨s.now, nofun, rfl⟩
  | succ n ih =>
    obtain ⟨now, -, hsteps⟩ := ih (Nat.le_of_succ_le hw) (Nat.le_of_succ_le ht)
    have hnext := sampleStep_of_window (s := { s with
      todo := s.todo.drop n, discardLeft := s.discardLeft - n, idx := s.idx + n, now := now })
      (List.drop_eq_getElem_cons ht) (Nat.sub_pos_of_lt hw)
    rw [steps_add 1 hsteps, steps_succ 0 (step_of_sample (by exact hr) (by exact hs)), hnext]
    exact ⟨sampleTime s.cfg s.curSeq (s.idx + n), fun _ => rfl, rfl⟩

/-- Settles O31: the window's samples by induction on how many there are, then the loop's two other turns. -/
theorem settleWindowDiscards : Obligations.SettleWindowDiscards := by
  unfold Obligations.SettleWindowDiscards
  intro s hr hs
  refine ⟨fun hcover => ?_, fun hpos hinside => ?_, ?_, fun hnil => ?_⟩
  · obtain ⟨now, -, hsteps⟩ := steps_in_window s.todo.length hr hs hcover le_rfl
    rw [steps_add 1 hsteps, steps_succ 0 (step_of_sample (by exact hr) (by exact hs)),
      sampleStep_of_nil List.drop_length]
    exact ⟨_, rfl, rfl, List.drop_length, rfl, rfl, rfl, rfl, rfl, rfl, rfl, rfl, rfl⟩
  · obtain ⟨now, hnow, hsteps⟩ := steps_in_window s.discardLeft hr hs le_rfl hinside.le
    rw [hsteps, hnow hpos, Nat.sub_self]
    rfl
  · rintro x rest taken z filterInput filtered htodo hopen rfl rfl rfl rfl
    rw [step_of_sample hr hs, sampleStep_of_open htodo hopen]
    rfl
  · rw [step_of_sample hr hs, sampleStep_of_nil hnil]

/-! ## Carrier correction (R232) -/

theorem fracPart_intCast_add {n : Int} {x : Rat} (h0 : 0 ≤ x) (h1 : x < 1) : fracPart ((n : Rat) + x) = x := by
  have hfloor : ((n : Rat) + x).floor = n := by
    change ⌊(n : Rat) + x⌋ = n
    rw [Int.floor_intCast_add, Int.floor_eq_zero_iff.mpr ⟨h0, h1⟩, add_zero]
  rw [fracPart, hfloor, add_sub_cancel_left]

theorem cosTurns_quarter (n : Int) : cosTurns ((n : Rat) + 1 / 4) = 0 := by
  unfold cosTurns
  rw [fracPart_intCast_add (by norm_num) (by norm_num)]
  norm_num

theorem sinTurns_quarter (n : Int) : sinTurns ((n : Rat) + 1 / 4) = 1 := by
  unfold sinTurns
  rw [fracPart_intCast_add (by norm_num) (by norm_num)]
  norm_num

theorem carrierCorrect_of_no_offset {c : CoreConfig} (h : c.cfoResidHz = 0) (z : Cplx) (now : Nat) :
    carrierCorrect c z now = z := by
  simp [carrierCorrect, h]

theorem carrierCorrect_of_offset {c : CoreConfig} (h : c.cfoResidHz ≠ 0) (z : Cplx) (now : Nat) :
    carrierCorrect c z now =
      cplxMul z ⟨cosTurns (c.cfoResidHz * now / c.fs), -sinTurns (c.cfoResidHz * now / c.fs)⟩ := by
  simp [carrierCorrect, h]

/-- No whole number of turns and a quarter is zero, so a correction by a quarter turn has an offset. -/
theorem intCast_add_quarter_ne_zero (n : Int) : (n : Rat) + 1 / 4 ≠ 0 := by
  intro h
  have h4 : 4 * n + 1 = 0 := by
    exact_mod_cast (by linarith : 4 * (n : Rat) + 1 = 0)
  omega

theorem carrierCorrect_of_quarter {c : CoreConfig} {now : Nat} {n : Int}
    (h : c.cfoResidHz * now / c.fs = (n : Rat) + 1 / 4) (z : Cplx) : carrierCorrect c z now = ⟨z.im, -z.re⟩ := by
  have hoffset : c.cfoResidHz ≠ 0 := by
    intro h0
    rw [h0, zero_mul, zero_div] at h
    exact intCast_add_quarter_ne_zero n h.symm
  rw [carrierCorrect_of_offset hoffset, h, cosTurns_quarter, sinTurns_quarter]
  simp [cplxMul]

/-! ## The discriminator (R233) -/

theorem intoUnit_bounds (x : Rat) : 0 < intoUnit x ∧ intoUnit x ≤ 1 := by
  have hpos : 0 < 1 + |x| := by positivity
  exact ⟨one_div_pos.mpr hpos, (div_le_one hpos).mpr (le_add_of_nonneg_right (abs_nonneg x))⟩

/-- A point off the real axis is at an angle to it. -/
theorem quadrantTurns_pos {re im : Rat} (h : im ≠ 0) : 0 < quadrantTurns re im := by
  obtain ⟨hpos, hle⟩ := intoUnit_bounds (Config.argFree re im)
  unfold quadrantTurns
  rw [if_neg h]
  split_ifs <;> linarith

theorem quadrantTurns_le (re im : Rat) : quadrantTurns re im ≤ 1 / 4 := by
  obtain ⟨hpos, hle⟩ := intoUnit_bounds (Config.argFree re im)
  unfold quadrantTurns
  split_ifs <;> linarith

theorem quadrantTurns_real (re : Rat) : quadrantTurns re 0 = 0 := if_pos rfl

theorem quadrantTurns_imaginary {im : Rat} (h : im ≠ 0) : quadrantTurns 0 im = 1 / 4 := by
  rw [quadrantTurns, if_neg h, if_pos rfl]

theorem quadrantTurns_nonneg (re im : Rat) : 0 ≤ quadrantTurns re im := by
  by_cases h : im = 0
  · rw [h, quadrantTurns_real]
  · exact (quadrantTurns_pos h).le

/-- `arg` lies in the half-open turn around 0: only below the real axis is it negative, and there it is not half a turn. -/
theorem argTurns_bounds (p : Cplx) : -(1 / 2) < argTurns p ∧ argTurns p ≤ 1 / 2 := by
  have h0 := quadrantTurns_nonneg p.re p.im
  have h1 := quadrantTurns_le p.re p.im
  unfold argTurns
  by_cases him : p.im < 0
  · have hpos := quadrantTurns_pos (re := p.re) him.ne
    simp only [him, if_true]
    split_ifs <;> constructor <;> linarith
  · simp only [him, if_false]
    split_ifs <;> constructor <;> linarith

theorem argTurns_zero : argTurns ⟨0, 0⟩ = 0 := if_pos ⟨rfl, rfl⟩

theorem argTurns_negative_real {x : Rat} (h : x < 0) : argTurns ⟨x, 0⟩ = 1 / 2 := by
  simp [argTurns, h.ne, not_le.mpr h, quadrantTurns_real]

theorem argTurns_positive_imaginary {y : Rat} (h : 0 < y) : argTurns ⟨0, y⟩ = 1 / 4 := by
  simp [argTurns, h.ne', not_lt.mpr h.le, quadrantTurns_imaginary h.ne']

theorem argTurns_negative_imaginary {y : Rat} (h : y < 0) : argTurns ⟨0, y⟩ = -(1 / 4) := by
  simp [argTurns, h.ne, h, quadrantTurns_imaginary h.ne]

/-- The squared magnitude of a sample. -/
def normSq (p : Cplx) : Rat := p.re ^ 2 + p.im ^ 2

theorem normSq_pos {p : Cplx} (h : p ≠ ⟨0, 0⟩) : 0 < normSq p := by
  obtain ⟨x, y⟩ := p
  have hxy : x ≠ 0 ∨ y ≠ 0 := by
    by_contra! hzero
    obtain ⟨rfl, rfl⟩ := hzero
    exact h rfl
  unfold normSq
  rcases hxy with hx | hy <;> positivity

/-- A turn of the previous sample times its conjugate is the turn times the squared magnitude. -/
theorem cplxMul_turned_conj (p : Cplx) (a b : Rat) :
    cplxMul ⟨a * p.re - b * p.im, a * p.im + b * p.re⟩ (cplxConj p) = ⟨a * normSq p, b * normSq p⟩ := by
  simp only [cplxMul, cplxConj, normSq, Cplx.mk.injEq]
  constructor <;> ring

theorem cplxMul_zero_left (p : Cplx) : cplxMul ⟨0, 0⟩ p = ⟨0, 0⟩ := by simp [cplxMul]

theorem cplxMul_conj_zero (p : Cplx) : cplxMul p (cplxConj ⟨0, 0⟩) = ⟨0, 0⟩ := by simp [cplxMul, cplxConj]

theorem discriminate_bounds (z : Cplx) {s : State} (hfs : 0 < s.cfg.fs) :
    -((s.cfg.fs : Rat) / 2) < (discriminate z s).1 ∧ (discriminate z s).1 ≤ (s.cfg.fs : Rat) / 2 := by
  obtain ⟨hlo, hhi⟩ := argTurns_bounds (cplxMul z (cplxConj s.zPrev))
  have hpos : (0 : Rat) < s.cfg.fs := by exact_mod_cast hfs
  have hlo' := mul_lt_mul_of_pos_left hlo hpos
  have hhi' := mul_le_mul_of_nonneg_left hhi hpos.le
  constructor <;> simp only [discriminate] <;> linarith

theorem discriminate_of_zero {z : Cplx} {s : State} (h : z = ⟨0, 0⟩ ∨ s.zPrev = ⟨0, 0⟩) :
    (discriminate z s).1 = 0 := by
  have hprod : cplxMul z (cplxConj s.zPrev) = ⟨0, 0⟩ := by
    rcases h with h | h
    · rw [h, cplxMul_zero_left]
    · rw [h, cplxMul_conj_zero]
  simp only [discriminate, hprod, argTurns_zero, mul_zero]

/-- Of the previous sample turned and scaled by `a + bi`, the discriminator sees the turn alone. -/
theorem discriminate_of_turned {z : Cplx} {s : State} (a b : Rat)
    (hz : z = ⟨a * s.zPrev.re - b * s.zPrev.im, a * s.zPrev.im + b * s.zPrev.re⟩) :
    (discriminate z s).1 = s.cfg.fs * argTurns ⟨a * normSq s.zPrev, b * normSq s.zPrev⟩ := by
  rw [discriminate, hz, cplxMul_turned_conj]

section Turns
variable {s : State} {k : Rat} (hk : 0 < k) (hp : s.zPrev ≠ ⟨0, 0⟩)
include hk hp

theorem discriminate_of_half_turn : (discriminate ⟨-k * s.zPrev.re, -k * s.zPrev.im⟩ s).1 = (s.cfg.fs : Rat) / 2 := by
  have hneg : -k * normSq s.zPrev < 0 := mul_neg_of_neg_of_pos (neg_neg_of_pos hk) (normSq_pos hp)
  rw [discriminate_of_turned (-k) 0 (by simp), zero_mul, argTurns_negative_real hneg, mul_one_div]

theorem discriminate_of_quarter_turn :
    (discriminate ⟨-k * s.zPrev.im, k * s.zPrev.re⟩ s).1 = (s.cfg.fs : Rat) / 4 := by
  rw [discriminate_of_turned 0 k (by simp), zero_mul,
    argTurns_positive_imaginary (mul_pos hk (normSq_pos hp)), mul_one_div]

theorem discriminate_of_quarter_turn_back :
    (discriminate ⟨k * s.zPrev.im, -k * s.zPrev.re⟩ s).1 = -((s.cfg.fs : Rat) / 4) := by
  have hneg : -k * normSq s.zPrev < 0 := mul_neg_of_neg_of_pos (neg_neg_of_pos hk) (normSq_pos hp)
  rw [discriminate_of_turned 0 (-k) (by simp), zero_mul, argTurns_negative_imaginary hneg, mul_neg, mul_one_div]

end Turns

/-! ## The matched filter (R234) -/

theorem firSum_no_history (taps : List Rat) : firSum taps [] = 0 := by simp [firSum]

theorem firSum_cons (a x : Rat) (taps hist : List Rat) : firSum (a :: taps) (x :: hist) = a * x + firSum taps hist := by
  simp [firSum]

/-- The sum of R234 over the taps, the newest sample with the first tap. -/
theorem firSum_eq_sum_range (taps hist : List Rat) :
    firSum taps hist = ((List.range taps.length).map fun k => taps.getD k 0 * hist.getD k 0).sum := by
  induction taps generalizing hist with
  | nil => rfl
  | cons a taps ih =>
    cases hist with
    | nil => simp [firSum_no_history]
    | cons x hist =>
      rw [firSum_cons, ih hist]
      simp [List.range_succ_eq_map, Function.comp_def]

/-- Only as much of the history is read as there are taps. -/
theorem firSum_take (taps hist : List Rat) : firSum taps (hist.take taps.length) = firSum taps hist := by
  induction taps generalizing hist with
  | nil => rfl
  | cons a taps ih =>
    cases hist with
    | nil => rfl
    | cons x hist => rw [List.length_cons, List.take_succ_cons, firSum_cons, firSum_cons, ih hist]

theorem firSum_push_take (taps hist : List Rat) (f : Rat) :
    firSum taps (f :: hist.take (taps.length - 1)) = firSum taps (f :: hist) := by
  cases taps with
  | nil => rfl
  | cons a taps => rw [firSum_cons, firSum_cons, List.length_cons, Nat.add_sub_cancel, firSum_take]

/-- Settles O32, from the rules of the three operations. -/
theorem discriminatorRange : Obligations.DiscriminatorRange := by
  unfold Obligations.DiscriminatorRange
  intro z f now s hfs
  obtain ⟨hlo, hhi⟩ := discriminate_bounds z hfs
  refine ⟨fun h => carrierCorrect_of_no_offset h z now, fun n h => carrierCorrect_of_quarter h z, rfl, hlo, hhi,
    discriminate_of_zero, ?_, ?_, ?_, rfl, ?_⟩
  · rintro k hk hp rfl
    exact discriminate_of_half_turn hk hp
  · rintro k hk hp rfl
    exact discriminate_of_quarter_turn hk hp
  · rintro k hk hp rfl
    exact discriminate_of_quarter_turn_back hk hp
  · exact (firSum_push_take s.cfg.mfTaps s.mfHist f).trans (firSum_eq_sum_range _ _)

/-! ## The symbol clock on one sample (R235, R236) -/

theorem isCrossing_iff {a b : Rat} : isCrossing a b = true ↔ (a < 0 ∧ 0 ≤ b) ∨ (0 ≤ a ∧ b < 0) := by
  simp [isCrossing]

theorem isCrossing_eq_false_iff {a b : Rat} : isCrossing a b = false ↔ (0 ≤ a ↔ 0 ≤ b) := by
  rw [Bool.eq_false_iff, Ne, isCrossing_iff, ← not_le, ← not_le]
  tauto

theorem slice_of_high {thresh y : Rat} (h : thresh ≤ y) : slice thresh y = 1#2 := if_pos h

theorem slice_of_low {thresh y : Rat} (h0 : 0 ≤ y) (h : y < thresh) : slice thresh y = 0#2 := by
  rw [slice, if_neg (not_le.mpr h), if_pos h0]

theorem slice_of_neg_low {thresh y : Rat} (hthresh : 0 < thresh) (h0 : y < 0) (h : -thresh ≤ y) :
    slice thresh y = 2#2 := by
  rw [slice, if_neg (not_le.mpr (h0.trans hthresh)), if_neg (not_le.mpr h0), if_pos h]

theorem slice_of_neg_high {thresh y : Rat} (hthresh : 0 < thresh) (h : y < -thresh) : slice thresh y = 3#2 := by
  have h0 : y < 0 := h.trans (neg_lt_zero.mpr hthresh)
  rw [slice, if_neg (not_le.mpr (h0.trans hthresh)), if_neg (not_le.mpr h0), if_neg (not_le.mpr h)]

/-- The dibit is decided on the clock and the period that the timing error leaves. -/
theorem timingStep_of_timingError {y clk period : Rat} {s : State}
    (h : timingError y s = { s with clk := clk, period := period }) :
    timingStep y s =
      if period ≤ clk then
        { s with
          yPrev := y, clk := clk - period, period := period, run := s.run ++ [(slice s.cfg.sliceThreshHz y, s.now)] }
      else { s with yPrev := y, clk := clk, period := period } := by
  by_cases hdue : period ≤ clk
  · rw [if_pos hdue, timingStep_of_due (by rw [h]; exact hdue), h]
  · rw [if_neg hdue, timingStep_of_early (by rw [h]; exact not_le.mp hdue), h]

/-- Where the sample lies on the side of S8 the clock counts on. -/
theorem timingStep_of_same_side {y : Rat} {s : State} (h : 0 ≤ s.yPrev ↔ 0 ≤ y) :
    timingStep y s =
      if s.period ≤ s.clk + 1 then
        { s with
          yPrev := y, clk := s.clk + 1 - s.period, run := s.run ++ [(slice s.cfg.sliceThreshHz y, s.now)] }
      else { s with yPrev := y, clk := s.clk + 1 } := by
  have herr := timingError_of_no_crossing (isCrossing_eq_false_iff.mpr h)
  rw [timingStep_of_timingError (clk := s.clk + 1) (period := s.period) herr]

/-! ## The symbol clock between zero crossings (R240) -/

/-- The symbol clock on a stream of filtered samples. -/
def clocked (s : State) (ys : List Rat) : State := ys.foldl (fun u y => timingStep y u) s

theorem clocked_cons (s : State) (y : Rat) (ys : List Rat) : clocked s (y :: ys) = clocked (timingStep y s) ys := by
  simp only [clocked, List.foldl_cons]

/-- A stream with an offset on every sample. -/
theorem clocked_map_add (s : State) (ys : List Rat) (offset : Rat) :
    clocked s (ys.map (· + offset)) = ys.foldl (fun v y => timingStep (y + offset) v) s :=
  List.foldl_map

/-- Every sample lies on the side of zero where S8 lies, 0 counting as positive. -/
def SameSide (yPrev : Rat) (ys : List Rat) : Prop := ∀ y ∈ ys, 0 ≤ yPrev ↔ 0 ≤ y

theorem sameSide_of_signs {a : Rat} {ys : List Rat} (h : (0 ≤ a ∧ ∀ y ∈ ys, 0 ≤ y) ∨ (a < 0 ∧ ∀ y ∈ ys, y < 0)) :
    SameSide a ys := by
  intro y hy
  rcases h with ⟨ha, hys⟩ | ⟨ha, hys⟩
  · exact iff_of_true ha (hys y hy)
  · exact iff_of_false (not_le.mpr ha) (not_le.mpr (hys y hy))

theorem SameSide.tail {a y : Rat} {ys : List Rat} (h : SameSide a (y :: ys)) : SameSide y ys := fun v hv =>
  (h y List.mem_cons_self).symm.trans (h v (List.mem_cons_of_mem y hv))

/-- `n` samples after `s` the clock is at `t`, in the midst of a period: as many periods have elapsed as `ds` has
dibits. -/
structure Counted (s t : State) (n : Nat) (ds : List (Dibit × Nat)) : Prop where
  run : t.run = s.run ++ ds
  period : t.period = s.period
  clk_nonneg : 0 ≤ t.clk
  clk_lt : t.clk < t.period
  elapsed : s.clk + n = ds.length * s.period + t.clk

theorem Counted.trans {s t u : State} {m n : Nat} {ds es : List (Dibit × Nat)} (h : Counted s t m ds)
    (h' : Counted t u n es) : Counted s u (m + n) (ds ++ es) where
  run := by rw [h'.run, h.run, List.append_assoc]
  period := h'.period.trans h.period
  clk_nonneg := h'.clk_nonneg
  clk_lt := h'.clk_lt
  elapsed := by
    have h1 := h.elapsed
    have h2 := h'.elapsed
    rw [h.period] at h2
    rw [List.length_append]
    push_cast
    linarith

/-- One sample elapses at most one period, since a period is at least a sample long. -/
theorem timingStep_counted {s : State} {y : Rat} (hside : 0 ≤ s.yPrev ↔ 0 ≤ y) (h0 : 0 ≤ s.clk)
    (hlt : s.clk < s.period) (h1 : 1 ≤ s.period) :
    (timingStep y s).yPrev = y ∧ ∃ ds, Counted s (timingStep y s) 1 ds := by
  rw [timingStep_of_same_side hside]
  by_cases hdue : s.period ≤ s.clk + 1
  · rw [if_pos hdue]
    exact ⟨rfl, [(slice s.cfg.sliceThreshHz y, s.now)],
      ⟨rfl, rfl, sub_nonneg.mpr hdue, by simp only; linarith, by simp⟩⟩
  · rw [if_neg hdue]
    exact ⟨rfl, [], ⟨(List.append_nil _).symm, rfl, by simp only; linarith, not_le.mp hdue, by simp⟩⟩

theorem clocked_counted {s : State} {ys : List Rat} (hside : SameSide s.yPrev ys) (h0 : 0 ≤ s.clk)
    (hlt : s.clk < s.period) (h1 : 1 ≤ s.period) : ∃ ds, Counted s (clocked s ys) ys.length ds := by
  induction ys generalizing s with
  | nil => exact ⟨[], ⟨(List.append_nil _).symm, rfl, h0, hlt, by simp [clocked]⟩⟩
  | cons y ys ih =>
    obtain ⟨hprev, ds, hstep⟩ := timingStep_counted (hside y List.mem_cons_self) h0 hlt h1
    obtain ⟨es, hrest⟩ := ih (hprev.symm ▸ hside.tail) hstep.clk_nonneg hstep.clk_lt (hstep.period ▸ h1)
    rw [clocked_cons, List.length_cons, Nat.add_comm]
    exact ⟨ds ++ es, hstep.trans hrest⟩

/-- One dibit for every period that elapses. -/
theorem Counted.length_eq_floor {s t : State} {n : Nat} {ds : List (Dibit × Nat)} (h : Counted s t n ds)
    (h1 : 1 ≤ s.period) : (ds.length : Int) = ((s.clk + n) / s.period).floor := by
  have hpos : 0 < s.period := zero_lt_one.trans_le h1
  have hlt := h.period ▸ h.clk_lt
  change (ds.length : Int) = ⌊(s.clk + n) / s.period⌋
  rw [eq_comm, Int.floor_eq_iff, le_div_iff₀ hpos, div_lt_iff₀ hpos, h.elapsed, Int.cast_natCast]
  exact ⟨le_add_of_nonneg_right h.clk_nonneg, by linarith⟩

/-! ## Frequency offsets (R240 point 4) -/

/-- The slicer's boundary at the threshold is sharp: every offset takes some non-negative sample across it. -/
theorem exists_slice_ne {thresh offset : Rat} (hthresh : 0 < thresh) (hoffset : offset ≠ 0) :
    ∃ y, 0 ≤ y ∧ 0 ≤ y + offset ∧ slice thresh (y + offset) ≠ slice thresh y := by
  rcases lt_or_gt_of_ne hoffset with hneg | hpos
  · have hhigh : thresh ≤ max thresh (-offset) := le_max_left _ _
    have h0 : 0 ≤ max thresh (-offset) + offset := by linarith [le_max_right thresh (-offset)]
    have hlow : max thresh (-offset) + offset < thresh := by
      rcases max_choice thresh (-offset) with h | h <;> rw [h] <;> linarith
    refine ⟨max thresh (-offset), hthresh.le.trans hhigh, h0, ?_⟩
    rw [slice_of_low h0 hlow, slice_of_high hhigh]
    decide
  · have h0 : 0 ≤ max (thresh - offset) 0 := le_max_right _ _
    have hhigh : thresh ≤ max (thresh - offset) 0 + offset := by linarith [le_max_left (thresh - offset) 0]
    have hlow : max (thresh - offset) 0 < thresh := max_lt (sub_lt_self thresh hpos) hthresh
    refine ⟨max (thresh - offset) 0, h0, hthresh.le.trans hhigh, ?_⟩
    rw [slice_of_low h0 hlow, slice_of_high hhigh]
    decide

theorem deviation_cases (d : Dibit) :
    deviation d = 600 ∨ deviation d = 1800 ∨ deviation d = -600 ∨ deviation d = -1800 := by
  revert d
  decide +kernel

/-- Below the slicer's margin an offset leaves a sample at a deviation on its side of every boundary. -/
theorem deviation_add {c : CoreConfig} {offset : Rat} (h : |offset| < sliceMargin c) (d : Dibit) :
    slice c.sliceThreshHz (deviation d + offset) = slice c.sliceThreshHz (deviation d) ∧
      (0 ≤ deviation d ↔ 0 ≤ deviation d + offset) := by
  obtain ⟨h600, hinner, houter⟩ :
      |offset| < 600 ∧ |offset| < c.sliceThreshHz - 600 ∧ |offset| < 1800 - c.sliceThreshHz := by
    simpa only [sliceMargin, lt_min_iff] using h
  obtain ⟨hlo6, hhi6⟩ := abs_lt.mp h600
  obtain ⟨hloI, hhiI⟩ := abs_lt.mp hinner
  obtain ⟨hloO, hhiO⟩ := abs_lt.mp houter
  have hthresh : 0 < c.sliceThreshHz := by linarith
  rcases deviation_cases d with hv | hv | hv | hv <;> rw [hv]
  · rw [slice_of_low (by linarith) (by linarith), slice_of_low (by linarith) (by linarith)]
    exact ⟨rfl, iff_of_true (by linarith) (by linarith)⟩
  · rw [slice_of_high (by linarith), slice_of_high (by linarith)]
    exact ⟨rfl, iff_of_true (by linarith) (by linarith)⟩
  · rw [slice_of_neg_low hthresh (by linarith) (by linarith), slice_of_neg_low hthresh (by linarith) (by linarith)]
    exact ⟨rfl, iff_of_false (by linarith) (by linarith)⟩
  · rw [slice_of_neg_high hthresh (by linarith), slice_of_neg_high hthresh (by linarith)]
    exact ⟨rfl, iff_of_false (by linarith) (by linarith)⟩

/-- Two clocks at the same time that have decided the same, their S8 on the same side of zero. -/
structure SameClock (s u : State) : Prop where
  run : u.run = s.run
  clk : u.clk = s.clk
  period : u.period = s.period
  now : u.now = s.now
  cfg : u.cfg = s.cfg
  side : 0 ≤ s.yPrev ↔ 0 ≤ u.yPrev

theorem SameClock.refl (s : State) : SameClock s s := ⟨rfl, rfl, rfl, rfl, rfl, Iff.rfl⟩

/-- Two samples of one dibit on the side of S8 keep the clocks together. -/
theorem SameClock.after_sample {s u : State} {y v : Rat} (h : SameClock s u) (hy : 0 ≤ s.yPrev ↔ 0 ≤ y)
    (hv : 0 ≤ y ↔ 0 ≤ v) (hslice : slice s.cfg.sliceThreshHz v = slice s.cfg.sliceThreshHz y) :
    SameClock (timingStep y s) (timingStep v u) := by
  obtain ⟨hrun, hclk, hperiod, hnow, hcfg, hside⟩ := h
  rw [timingStep_of_same_side hy, timingStep_of_same_side (hside.symm.trans (hy.trans hv)), hclk, hperiod]
  by_cases hdue : s.period ≤ s.clk + 1
  · rw [if_pos hdue, if_pos hdue]
    exact ⟨by simp only [hrun, hcfg, hslice, hnow], rfl, rfl, hnow, hcfg, hv⟩
  · rw [if_neg hdue, if_neg hdue]
    exact ⟨hrun, rfl, rfl, hnow, hcfg, hv⟩

theorem clocked_sameClock {s u : State} {ys : List Rat} {offset : Rat} (h : SameClock s u)
    (hmargin : |offset| < sliceMargin s.cfg) (hys : ∀ y ∈ ys, ∃ d, y = deviation d) (hside : SameSide s.yPrev ys) :
    SameClock (clocked s ys) (clocked u (ys.map (· + offset))) := by
  induction ys generalizing s u with
  | nil => exact h
  | cons y ys ih =>
    obtain ⟨d, rfl⟩ := hys y List.mem_cons_self
    obtain ⟨hslice, hsign⟩ := deviation_add hmargin d
    have hfirst := hside _ List.mem_cons_self
    obtain ⟨clk, period, run, hframe, -⟩ := timingStep_frame (deviation d) s
    have hnext := h.after_sample hfirst hsign hslice
    rw [clocked_cons, List.map_cons, clocked_cons]
    refine ih hnext ?_ (fun v hv => hys v (List.mem_cons_of_mem _ hv)) ?_
    · rw [hframe]
      exact hmargin
    · rw [hframe]
      exact hside.tail

/-- No bound above 0 is a tolerance: one sample at the slicer's boundary, at the end of a period, shows the offset. -/
theorem exists_run_ne {c : CoreConfig} {offset : Rat} (hthresh : 0 < c.sliceThreshHz) (hoffset : offset ≠ 0) :
    ∃ (s : State) (y : Rat), s.cfg = c ∧ 0 ≤ s.clk ∧ s.clk < s.period ∧
      (timingStep (y + offset) s).run ≠ (timingStep y s).run := by
  obtain ⟨y, h0, h1, hne⟩ := exists_slice_ne hthresh hoffset
  refine ⟨{ State.reset with cfg := c, clk := 0, period := 1, yPrev := 0 }, y, rfl, le_rfl, zero_lt_one, ?_⟩
  rw [timingStep_of_same_side (iff_of_true le_rfl h0), timingStep_of_same_side (iff_of_true le_rfl h1)]
  simpa using hne

/-! ## OneDibitPerPeriod -/

/-- Settles O33: the clock on one sample; the count of dibits between crossings; a sample at the slicer's boundary against every
offset; and two clocks kept together by an offset within the margin. -/
theorem oneDibitPerPeriod : Obligations.OneDibitPerPeriod := by
  unfold Obligations.OneDibitPerPeriod
  refine ⟨?_, ?_, ?_, ?_⟩
  · rintro s y err folded clk period lo hi d herr hfolded rfl rfl hclock rfl
    have hfold : crossingError s.clk s.period s.yPrev y = folded := by rw [crossingError, ← herr, foldError, hfolded]
    refine timingStep_of_timingError ?_
    rcases hclock with ⟨hcross, rfl, rfl⟩ | ⟨hsame, rfl, rfl⟩
    · rw [timingError_of_crossing (isCrossing_iff.mpr hcross), hfold]
      rfl
    · refine timingError_of_no_crossing (isCrossing_eq_false_iff.mpr ?_)
      rcases hsame with ⟨hp, hy⟩ | ⟨hp, hy⟩
      · exact iff_of_false (not_le.mpr hp) (not_le.mpr hy)
      · exact iff_of_true hp hy
  · rintro s t ys hsigns h0 hlt h1 rfl
    obtain ⟨ds, hcount⟩ := clocked_counted (sameSide_of_signs hsigns) h0 hlt h1
    refine ⟨?_, hcount.period, hcount.clk_nonneg, hcount.clk_lt, ds, hcount.run.symm⟩
    rw [← hcount.length_eq_floor h1, ← Nat.cast_add, ← List.length_append, ← hcount.run]
    rfl
  · intro c offset hthresh
    refine ⟨fun hle s ys _ _ _ => ?_, fun hall => ?_⟩
    · have hzero : offset = 0 := abs_nonpos_iff.mp hle
      simp only [hzero, add_zero]
    · by_contra hgt
      have hoffset : offset ≠ 0 := fun h => hgt (by rw [h, abs_zero]; exact le_rfl)
      obtain ⟨s, y, hcfg, h0, hlt, hne⟩ := exists_run_ne hthresh hoffset
      exact hne (hall s [y] hcfg h0 hlt)
  · rintro s t u ys offset hmargin hys hsigns rfl rfl
    have hclocks := clocked_sameClock (.refl s) hmargin hys (sameSide_of_signs hsigns)
    rw [clocked_map_add] at hclocks
    exact ⟨hclocks.run, hclocks.clk, hclocks.period⟩

end Sys2Proof.DemodProofs
end

section
/-! PROOFS. Every step keeps the frame position, the bits held and the class in step: most steps leave the frame alone, a forced
search clears it, and the steps of a locked dibit move the position by one. -/

namespace Sys2Proof.FrameSyncProofs

open Sys2Proof Sys2Proof.Machine Sys2Proof.StateProofs Sys2Proof.EncodingProofs

/-! ## The invariant by the lock (R39, R291) -/

/-- Searching, with nothing of a frame held (R289). -/
def Cleared (s : State) : Prop :=
  s.sync = .searching ∧ s.fbits = [] ∧ s.curLen = none ∧ s.lastLen = none ∧ s.cls = none ∧ s.failCount = 0 ∧
    s.frameFailed = false ∧ s.tsbkN = 0 ∧ s.tsduEnd = none ∧ s.pduHdr = none

/-- What `FrameOk` says of a frame at position `pos`. -/
def PositionOk (pos : Nat) (s : State) : Prop :=
  s.fbits.length = 2 * dataDibits (pos + dibitTaken s.stage) ∧
    (s.cls = none → s.fbits.length < 64 ∨ s.fbits.length = 64 ∧ s.stage = .frame) ∧
    (s.cls ≠ none → 64 ≤ s.fbits.length)

theorem frameOk_of_cleared {s : State} (h : Cleared s) : FrameOk s := by
  obtain ⟨hs, hrest⟩ := h
  refine ⟨fun _ => hs, ?_⟩
  rw [hs]
  exact hrest

theorem cleared_of_frameOk {s : State} (h : FrameOk s) (hs : s.sync = .searching) : Cleared s := by
  obtain ⟨-, hrest⟩ := h
  rw [hs] at hrest
  exact ⟨hs, hrest⟩

theorem frameOk_of_position {s : State} {pos : Nat} (hs : s.sync = .locked pos) (hr : s.runState ≠ .booting)
    (h : PositionOk pos s) : FrameOk s := by
  refine ⟨fun hb => absurd hb hr, ?_⟩
  rw [hs]
  exact h

theorem position_of_frameOk {s : State} {pos : Nat} (h : FrameOk s) (hs : s.sync = .locked pos) : PositionOk pos s := by
  obtain ⟨-, hrest⟩ := h
  rw [hs] at hrest
  exact hrest

theorem cleared_of_booting {s : State} (h : FrameOk s) (hr : s.runState = .booting) : Cleared s :=
  cleared_of_frameOk h (h.1 hr)

/-- The elements of the Frame Synchronizer that `FrameOk` speaks of, S12 and S14 to S21 and S26. -/
def frameElements (s : State) :
    Sync × List Bool × Option Nat × Option Nat × Option FrameClass × Nat × Bool × Nat × Option Nat × Option DataUnit :=
  (s.sync, s.fbits, s.curLen, s.lastLen, s.cls, s.failCount, s.frameFailed, s.tsbkN, s.tsduEnd, s.pduHdr)

theorem Cleared.congr {s t : State} (h : Cleared s) (he : frameElements t = frameElements s) : Cleared t := by
  simp only [frameElements, Prod.mk.injEq] at he
  obtain ⟨hsync, hfbits, hcur, hlast, hcls, hcount, hfailed, hn, hend, hpdu⟩ := he
  unfold Cleared
  rw [hsync, hfbits, hcur, hlast, hcls, hcount, hfailed, hn, hend, hpdu]
  exact h

/-- A step that leaves the frame alone, takes no dibit of it and ends none; it leaves a complete NID where it is. -/
theorem frameOk_of_same {s t : State} (h : FrameOk s) (he : frameElements t = frameElements s)
    (hr : t.runState = .booting → s.runState = .booting) (hd : dibitTaken t.stage = dibitTaken s.stage)
    (hnid : s.cls = none → s.fbits.length = 64 → s.stage = .frame → t.stage = .frame) : FrameOk t := by
  cases hs : s.sync with
  | searching => exact frameOk_of_cleared ((cleared_of_frameOk h hs).congr he)
  | locked pos =>
    obtain ⟨hlen, hopen, hbody⟩ := position_of_frameOk h hs
    obtain ⟨hboot, -⟩ := h
    simp only [frameElements, Prod.mk.injEq] at he
    obtain ⟨hsync, hfbits, -, -, hcls, -⟩ := he
    refine frameOk_of_position (hsync.trans hs) (fun hb => ?_) ?_
    · rw [hboot (hr hb)] at hs
      cases hs
    · unfold PositionOk
      rw [hfbits, hcls, hd]
      exact ⟨hlen, fun hc => (hopen hc).imp_right fun ⟨hl, hst⟩ => ⟨hl, hnid hc hl hst⟩, hbody⟩

theorem frameOk_of_kept {s t : State} (h : FrameOk s) (he : frameElements t = frameElements s)
    (hr : t.runState = .booting → s.runState = .booting) (hd : dibitTaken t.stage = dibitTaken s.stage)
    (hf : s.stage = .frame → t.stage = .frame) : FrameOk t :=
  frameOk_of_same h he hr hd fun _ _ => hf

theorem forceSearch_cleared (s : State) : Cleared (forceSearch s) := ⟨rfl, rfl, rfl, rfl, rfl, rfl, rfl, rfl, rfl, rfl⟩

/-! ## The positions of a frame (R291, R292) -/

theorem dataDibits_skip {pos : Nat} (h : isStatusPos pos = true ∨ pos < syncLen) :
    dataDibits (pos + 1) = dataDibits pos := by
  simp only [isStatusPos, beq_iff_eq, statusPeriod, syncLen] at h
  simp only [dataDibits, statusPeriod, syncLen]
  omega

theorem dataDibits_data {pos : Nat} (h : isStatusPos pos = false) (hp : syncLen ≤ pos) :
    dataDibits (pos + 1) = dataDibits pos + 1 := by
  simp only [isStatusPos, beq_eq_false_iff_ne, statusPeriod, syncLen] at h hp
  simp only [dataDibits, statusPeriod, syncLen]
  omega

/-! ## A dibit of the run (R280, R281, R290) -/

theorem lock_frameOk {s : State} (hr : s.runState = .running) (hs : s.stage = .dibit) : FrameOk (lock s) :=
  frameOk_of_position (pos := syncLen) rfl (by simp [hr]) ⟨by simp [hs, dibitTaken, dataDibits, statusPeriod, syncLen],
    fun _ => .inl (by simp), fun hc => absurd rfl hc⟩

theorem searchStep_frameOk {s : State} (h : FrameOk s) (hr : s.runState = .running) (hs : s.stage = .dibit) (d : Dibit) :
    FrameOk (searchStep d s) := by
  by_cases hm : s.cfg.syncThresh < corr (s.win.drop 1 ++ [some d])
  · rw [searchStep_of_match hm]
    exact lock_frameOk (by exact hr) (by exact hs)
  · rw [searchStep_of_no_match (not_lt.mp hm)]
    exact frameOk_of_kept h rfl id rfl id

/-- A locked dibit is taken: a data dibit brings two bits, so that the NID's last bit ends at 64 and not past it. -/
theorem lockedStep_frameOk {s : State} {pos : Nat} (h : FrameOk s) (hr : s.runState = .running) (hs : s.stage = .dibit)
    (hl : s.sync = .locked pos) (d : Dibit) : FrameOk (lockedStep d pos s) := by
  obtain ⟨hlen, hnid, hbody⟩ := position_of_frameOk h hl
  simp only [hs, dibitTaken, reduceCtorEq, and_false, or_false, Nat.add_zero] at hlen hnid
  by_cases hskip : isStatusPos pos = true ∨ pos < syncLen
  · rw [lockedStep_of_skip hskip]
    refine frameOk_of_position hl (by simp [hr]) ⟨?_, fun hc => .inl (hnid hc), hbody⟩
    rw [dibitTaken, dataDibits_skip hskip]
    exact hlen
  · rw [not_or, Bool.not_eq_true, not_lt] at hskip
    obtain ⟨hst, hp⟩ := hskip
    have hlen' : (s.fbits ++ dibitBits d).length = s.fbits.length + 2 := by simp [dibitBits]
    rw [lockedStep_of_data hst hp]
    refine frameOk_of_position hl (by simp [hr]) ⟨?_, fun hc => ?_, fun hc => ?_⟩
    · rw [dibitTaken, dataDibits_data hst hp, hlen', hlen]
      omega
    · have := hnid hc
      simp only [hlen', and_true]
      omega
    · have := hbody hc
      simp only [hlen']
      omega

theorem fsDibit_frameOk {s : State} (h : FrameOk s) (hr : s.runState = .running) (hs : s.stage = .dibit) (d : Dibit) :
    FrameOk (fsDibit d s) := by
  cases hl : s.sync with
  | searching =>
    rw [fsDibit_of_searching hl]
    exact searchStep_frameOk h hr hs d
  | locked pos =>
    rw [fsDibit_of_locked hl]
    exact lockedStep_frameOk h hr hs hl d

theorem dibitStep_frameOk {s : State} (h : FrameOk s) (hr : s.runState = .running) (hs : s.stage = .dibit) :
    FrameOk (dibitStep s) := by
  unfold dibitStep
  split
  · exact frameOk_of_kept h rfl id (by simp [hs, dibitTaken]) (by simp [hs])
  · next d t rest _ =>
    exact fsDibit_frameOk (s := { s with run := rest, now := t }) (frameOk_of_kept h rfl id rfl id) hr hs d

/-! ## The frame's operations (R293-R296) -/

/-- What the operation of a class does at the NID. -/
def nidAction (c : FrameClass) (nac : BitVec 12) (s : State) : State :=
  match c with
  | .tdu => handOver (fecTdu nac s.now) (frameStart .tdu nac s)
  | c => frameStart c nac s

/-- What the operation of a class does at a later data dibit of its frame. -/
def frameAction (c : FrameClass) (s : State) : State :=
  match c with
  | .hdu => bodyFixed .hdu fecHdu s
  | .ldu1 => bodyFixed .ldu1 fecLdu1 s
  | .ldu2 => bodyFixed .ldu2 fecLdu2 s
  | .tdulc => bodyFixed .tdulc fecTdulc s
  | .tsdu => tsduBlock s
  | .pdu => pduBody (pduHeader s)
  | .tdu => s
  | .unknown => s

theorem exec_of_nid {c : FrameClass} {nac : BitVec 12} {i : Instr} {s : State} (hi : classInstr c nac = some i)
    (hc : s.cls = none) : exec i s = .next (nidAction c nac s) := by
  by_cases ht : c = .tdu
  · subst ht
    cases hi
    exact execFrameTdu_at_nid hc
  · rw [exec_at_nid hi ht hc]
    cases c with
    | tdu => exact absurd rfl ht
    | _ => rfl

theorem exec_in_frame {c c' : FrameClass} {nac : BitVec 12} {i : Instr} {s : State} (hi : classInstr c nac = some i)
    (hc : s.cls = some c') : exec i s = .next (frameAction c s) := by
  cases c with
  | hdu => cases hi; simp only [exec, execFrameHdu, hc, frameAction]
  | tdu => cases hi; simp only [exec, execFrameTdu, hc, frameAction]
  | ldu1 => cases hi; simp only [exec, execFrameLdu1, hc, frameAction]
  | tsdu => cases hi; simp only [exec, execFrameTsdu, hc, frameAction]
  | ldu2 => cases hi; simp only [exec, execFrameLdu2, hc, frameAction]
  | pdu => cases hi; simp only [exec, execFramePdu, hc, frameAction]
  | tdulc => cases hi; simp only [exec, execFrameTdulc, hc, frameAction]
  | unknown => cases hi

theorem classInstr_of_isFrameInstr {i : Instr} (h : isFrameInstr i = true) : ∃ c nac, classInstr c nac = some i := by
  cases i with
  | frameHdu nac => exact ⟨.hdu, nac, rfl⟩
  | frameTdu nac => exact ⟨.tdu, nac, rfl⟩
  | frameLdu1 nac => exact ⟨.ldu1, nac, rfl⟩
  | frameTsdu nac => exact ⟨.tsdu, nac, rfl⟩
  | frameLdu2 nac => exact ⟨.ldu2, nac, rfl⟩
  | framePdu nac => exact ⟨.pdu, nac, rfl⟩
  | frameTdulc nac => exact ⟨.tdulc, nac, rfl⟩
  | _ => cases h

/-! ### What they leave of the lock, the bits and the class -/

/-- What a data dibit's operation leaves of the frame: it is cleared, or it has its bits and a class. -/
def ClearedOrClassed (s u : State) : Prop := Cleared u ∨ u.sync = s.sync ∧ u.fbits = s.fbits ∧ u.cls ≠ none

/-- Handing a unit over leaves the lock, the bits and the class alone. -/
theorem handOver_frame (du : DataUnit) (s : State) :
    (handOver du s).sync = s.sync ∧ (handOver du s).fbits = s.fbits ∧ (handOver du s).cls = s.cls := by
  cases hv : du.valid with
  | true => rw [handOver_of_valid hv]; exact ⟨rfl, rfl, rfl⟩
  | false => rw [handOver_of_invalid hv]; exact ⟨rfl, rfl, rfl⟩

theorem classed_handOver {s u : State} (du : DataUnit) (hs : u.sync = s.sync) (hf : u.fbits = s.fbits)
    (hc : u.cls ≠ none) : ClearedOrClassed s (handOver du u) := by
  obtain ⟨hsync, hfbits, hcls⟩ := handOver_frame du u
  exact .inr ⟨hsync.trans hs, hfbits.trans hf, hcls ▸ hc⟩

theorem bodyFixed_classed {c : FrameClass} {fec : List Bool → BitVec 12 → Nat → DataUnit} {s : State}
    (hc : s.cls ≠ none) : ClearedOrClassed s (bodyFixed c fec s) := by
  unfold bodyFixed
  split
  · exact classed_handOver _ rfl rfl hc
  · exact .inr ⟨rfl, rfl, hc⟩

theorem tsduBlock_classed {s : State} (hc : s.cls ≠ none) : ClearedOrClassed s (tsduBlock s) := by
  unfold tsduBlock
  split
  · dsimp only
    split
    · exact classed_handOver _ rfl rfl hc
    · exact classed_handOver _ rfl rfl hc
  · exact .inr ⟨rfl, rfl, hc⟩

theorem assumePriorLength_classed {s u : State} (hs : u.sync = s.sync) (hf : u.fbits = s.fbits) :
    ClearedOrClassed s (assumePriorLength u) := by
  cases hl : u.lastLen with
  | some len =>
    rw [assumePriorLength_of_some hl]
    exact .inr ⟨hs, hf, by simp⟩
  | none =>
    rw [assumePriorLength_of_none hl]
    exact .inl (forceSearch_cleared u)

theorem pduHeader_classed {s : State} (hc : s.cls ≠ none) : ClearedOrClassed s (pduHeader s) := by
  by_cases hdue : s.curLen = none ∧ s.fbits.length = 260
  · obtain ⟨hcur, hlen⟩ := hdue
    cases hcrc : crcOk (tsbkDecode (s.fbits.drop 64)) with
    | true =>
      rw [pduHeader_of_valid hcur hlen hcrc]
      exact .inr ⟨rfl, rfl, hc⟩
    | false =>
      cases hlast : s.lastLen with
      | some len =>
        rw [pduHeader_of_invalid_prior hcur hlen hcrc hlast]
        exact .inr ⟨rfl, rfl, by simp⟩
      | none =>
        rw [pduHeader_of_invalid_first hcur hlen hcrc hlast]
        exact .inl (forceSearch_cleared _)
  · rw [pduHeader_of_not_due (by tauto)]
    exact .inr ⟨rfl, rfl, hc⟩

/-- A cleared frame has no header, so nothing of it is handed over. -/
theorem pduBody_classed {s u : State} (h : ClearedOrClassed s u) : ClearedOrClassed s (pduBody u) := by
  unfold pduBody
  split
  · exact h
  · next hd hh =>
    split
    · rcases h with hclear | ⟨hs, hf, hc⟩
      · obtain ⟨_, _, _, _, _, _, _, _, _, hp⟩ := hclear
        rw [hp] at hh
        cases hh
      · obtain ⟨hsync, hfbits, hcls⟩ := handOver_frame (attachBlocks hd (u.fbits.drop 260)) u
        exact .inr ⟨hsync.trans hs, hfbits.trans hf, by dsimp only; rwa [hcls]⟩
    · exact h

theorem nidAction_classed (c : FrameClass) (nac : BitVec 12) (s : State) : ClearedOrClassed s (nidAction c nac s) := by
  unfold nidAction
  split
  · exact classed_handOver _ rfl rfl (by simp [frameStart])
  · exact .inr ⟨rfl, rfl, by simp [frameStart]⟩

theorem frameAction_classed (c : FrameClass) {s : State} (hc : s.cls ≠ none) : ClearedOrClassed s (frameAction c s) := by
  cases c with
  | tsdu => exact tsduBlock_classed hc
  | pdu => exact pduBody_classed (pduHeader_classed hc)
  | tdu => exact .inr ⟨rfl, rfl, hc⟩
  | unknown => exact .inr ⟨rfl, rfl, hc⟩
  | _ => exact bodyFixed_classed hc

theorem exec_frame_classed {i : Instr} {s u : State} (hi : isFrameInstr i = true) (he : exec i s = .next u) :
    ClearedOrClassed s u := by
  obtain ⟨c, nac, hi⟩ := classInstr_of_isFrameInstr hi
  cases hc : s.cls with
  | none =>
    rw [exec_of_nid hi hc] at he
    cases he
    exact nidAction_classed c nac s
  | some c' =>
    rw [exec_in_frame hi hc] at he
    cases he
    exact frameAction_classed c (by simp [hc])

/-- The step that ends at a data dibit of a frame with a class: the NID's last bit is the 64th. -/
theorem frameOk_of_classed {s t : State} (h : FrameOk s) (hs : s.stage = .frame) (hr : t.runState = .running)
    (hnid : s.cls = none → s.fbits.length = 64) (hd : dibitTaken t.stage = 1) (ht : ClearedOrClassed s t) : FrameOk t := by
  rcases ht with hclear | ⟨hsync, hfbits, hcls⟩
  · exact frameOk_of_cleared hclear
  · cases hl : s.sync with
    | searching =>
      obtain ⟨-, hnil, -, -, hnone, -⟩ := cleared_of_frameOk h hl
      have := hnid hnone
      simp [hnil] at this
    | locked pos =>
      obtain ⟨hlen, -, hbody⟩ := position_of_frameOk h hl
      refine frameOk_of_position (hsync.trans hl) (by simp [hr]) ⟨?_, fun hc => absurd hc hcls, fun _ => ?_⟩
      · rw [hfbits, hlen, hd, hs]
        rfl
      · rw [hfbits]
        by_cases hc : s.cls = none
        · exact (hnid hc).ge
        · exact hbody hc

theorem frame_instr_frameOk {s u : State} {i : Instr} (h : FrameOk s) (hr : s.runState = .running) (hs : s.stage = .frame)
    (hnid : s.cls = none → s.fbits.length = 64) (hi : isFrameInstr i = true) (he : exec i s = .next u) :
    FrameOk (retire .frame u) := by
  have hclassed := exec_frame_classed hi he
  obtain ⟨_, _, _, _, _, _, _, _, _, _, _, _, _, _, hu⟩ := exec_frame_effect hi he
  have hrun : u.runState = .running := by rw [hu]; exact hr
  refine frameOk_of_classed h hs hrun hnid ?_ hclassed
  simp only [retire]
  split <;> rfl

/-! ## The words on P_CMD (R462) -/

/-- A word sent for a retune of a delivery, and its answer, lie inside the dibit. -/
theorem dibitTaken_sent (r : SendFor) : dibitTaken (.sent r) = dibitTaken (.send r) := by
  cases r with
  | retune src => cases src <;> rfl
  | _ => rfl

theorem dibitTaken_retire_send {r : SendFor} {u : State} (hs : u.stage = .send r) :
    dibitTaken (retire (.send r) u).stage = dibitTaken (.send r) := by
  unfold retire
  dsimp only
  split
  · rw [hs]
  · exact dibitTaken_sent r

theorem cmd_instr_frameOk {s u : State} {i : Instr} {r : SendFor} (h : FrameOk s) (hs : s.stage = .send r)
    (hi : isCmdInstr i = true) (hp : s.replies ≠ []) (he : exec i s = .next u) : FrameOk (retire (.send r) u) := by
  have hkept : frameElements u = frameElements s ∧ (u.runState = .booting → s.runState = .booting) ∧
      u.stage = s.stage := by
    obtain ⟨_, _, _, ⟨_, rfl⟩ | ⟨_, _, _, rfl⟩⟩ := exec_cmd_effect hi hp he
    · exact ⟨rfl, id, rfl⟩
    · exact ⟨rfl, nofun, rfl⟩
  obtain ⟨hframe, hboot, hstage⟩ := hkept
  have hdibit := dibitTaken_retire_send (hstage.trans hs)
  obtain ⟨_, hret⟩ := retire_effect (.send r) u
  rw [hret] at hdibit ⊢
  exact frameOk_of_kept h hframe hboot (by rw [hdibit, hs]) (by simp [hs])

theorem dibitTaken_afterTune (src : TuneFrom) : dibitTaken (afterTune src) = dibitTaken (.tune src) := by
  cases src <;> rfl

theorem retuneSent_frameOk {s : State} {src : TuneFrom} (h : FrameOk s) (hs : s.stage = .sent (.retune src)) :
    FrameOk (retuneSent src s) := by
  unfold retuneSent
  split
  · exact frameOk_of_kept h rfl id (by rw [hs]; cases src <;> rfl) (by simp [hs])
  · exact frameOk_of_cleared ((forceSearch_cleared s).congr rfl)

theorem afterCommand_frameOk {s : State} {r : SendFor} (h : FrameOk s) (hs : s.stage = .sent r) :
    FrameOk (afterCommand r s) := by
  cases r with
  | retune src => exact retuneSent_frameOk h hs
  | bootFreq => exact frameOk_of_kept h rfl nofun (by rw [hs]; rfl) (by simp [hs])
  | _ => exact frameOk_of_kept h rfl id (by rw [hs]; rfl) (by simp [hs])

/-! ## The other pipeline operations -/

/-- No operation at a data dibit: the NID failed, or nothing is due and the class goes on as it was (R290, R293). -/
theorem framePipeline_frameOk {s : State} (h : FrameOk s) (hr : s.runState = .running) (hs : s.stage = .frame) :
    FrameOk (framePipeline s) := by
  unfold framePipeline
  split
  · next hdue =>
    simp only [nidDue, Bool.and_eq_true, Option.isNone_iff_eq_none, beq_iff_eq] at hdue
    obtain ⟨-, hlen⟩ := hdue
    have hclassed : ClearedOrClassed s (assumePriorLength { raise (.e1 s.now) s with frameFailed := true }) :=
      assumePriorLength_classed rfl rfl
    refine frameOk_of_classed h hs ?_ (fun _ => hlen) rfl hclassed
    unfold nidFailed assumePriorLength
    split <;> exact hr
  · next hnot =>
    simp only [nidDue, Bool.and_eq_true, Option.isNone_iff_eq_none, beq_iff_eq] at hnot
    exact frameOk_of_same h rfl id (by rw [hs]; rfl) fun hc hlen _ => absurd ⟨hc, hlen⟩ hnot

/-- The dibit ends: Searching stays, the frame ends, or its position moves past the dibit taken (R290, R297). -/
theorem advanceStep_frameOk {s : State} (h : FrameOk s) (hr : s.runState = .running) (hs : s.stage = .advance) :
    FrameOk (advanceStep s) := by
  cases hl : s.sync with
  | searching =>
    rw [advanceStep_of_searching hl]
    exact frameOk_of_cleared ((cleared_of_frameOk h hl).congr rfl)
  | locked pos =>
    by_cases hend : s.curLen = some (pos + 1)
    · rw [advanceStep_of_end hl hend]
      by_cases hstreak : s.cfg.failLimit ≤ (closeFrame s).failCount
      · rw [frameEnd_of_streak hstreak]
        exact frameOk_of_cleared ((forceSearch_cleared s).congr rfl)
      · rw [frameEnd_of_no_streak (not_le.mp hstreak)]
        exact frameOk_of_position (pos := 0) rfl (by simp [hr]) ⟨by simp [dibitTaken, dataDibits],
          fun _ => .inl (by simp), fun hc => absurd rfl hc⟩
    · rw [advanceStep_of_more hl hend]
      obtain ⟨hlen, hnid, hbody⟩ := position_of_frameOk h hl
      rw [hs] at hlen
      simp only [hs, reduceCtorEq, and_false, or_false] at hnid
      exact frameOk_of_position rfl (by simp [hr]) ⟨hlen, fun hc => .inl (hnid hc), hbody⟩

theorem tuneStep_frameOk {s : State} {src : TuneFrom} (h : FrameOk s) (hs : s.stage = .tune src) :
    FrameOk (tuneStep src s) := by
  unfold tuneStep
  split
  · exact frameOk_of_kept h rfl id (by rw [hs]; exact dibitTaken_afterTune src) (by simp [hs])
  · split
    · exact frameOk_of_kept h rfl id (by rw [hs]; exact dibitTaken_afterTune src) (by simp [hs])
    · exact frameOk_of_kept h rfl id (by rw [hs]; cases src <;> rfl) (by simp [hs])

theorem sampleStep_stage (s : State) : (sampleStep s).stage = s.stage ∨ (sampleStep s).stage = .dibit := by
  cases ht : s.todo with
  | nil => rw [sampleStep_of_nil ht]; exact .inr rfl
  | cons x rest =>
    by_cases hw : 0 < s.discardLeft
    · rw [sampleStep_of_window ht hw]; exact .inl rfl
    · obtain ⟨_, _, _, _, _, _, hd, _, _⟩ := demodSample_frame x
        { s with todo := rest, now := sampleTime s.cfg s.curSeq s.idx, idx := s.idx + 1 }
      rw [sampleStep_of_open ht (Nat.eq_zero_of_not_pos hw), hd]
      exact .inl rfl

theorem sampleStep_frameOk {s : State} (h : FrameOk s) (hs : s.stage = .sample) : FrameOk (sampleStep s) := by
  have hst := sampleStep_stage s
  obtain ⟨_, _, _, _, _, _, _, _, _, _, _, ht⟩ := sampleStep_effect s
  rw [ht] at hst ⊢
  refine frameOk_of_kept h rfl id ?_ (by simp [hs])
  rcases hst with hst | hst
  · rw [hst]
  · rw [hst, hs]
    rfl

theorem gapCheck_frameOk {s : State} (h : FrameOk s) (seq : Nat) : FrameOk (gapCheck seq s) := by
  cases hg : isGap s.lastSeq seq with
  | true =>
    rw [gapCheck_of_gap hg]
    exact frameOk_of_cleared ((forceSearch_cleared s).congr rfl)
  | false =>
    rw [gapCheck_of_no_gap hg]
    exact frameOk_of_kept h rfl id rfl id

/-! ## Outside events -/

theorem event_frameOk {s t : State} (h : FrameOk s) (hs : s.runState = .running → s.stage = .idle) (he : EventCase s t) :
    FrameOk t := by
  cases he with
  | none => exact h
  | start c r es hr =>
    obtain ⟨_, _, _, _, _, hb⟩ := bootStart_effect c r { s with events := es }
    rw [hb]
    exact frameOk_of_cleared ((cleared_of_booting h hr).congr rfl)
  | shutdown r es => exact frameOk_of_kept h rfl nofun rfl id
  | readFail es => exact frameOk_of_kept h rfl nofun rfl id
  | block samples es =>
    obtain ⟨_, _, hi, _⟩ := ingestBlock_effect samples { s with events := es }
    rw [hi]
    exact frameOk_of_kept h rfl id rfl id
  | decodeEmpty es => exact frameOk_of_kept h rfl id rfl id
  | decode blk rest es hr =>
    have hg := gapCheck_frameOk (s := { s with events := es, queue := rest }) (frameOk_of_kept h rfl id rfl id) blk.seq
    have hst : (gapCheck blk.seq { s with events := es, queue := rest }).stage = .idle := by
      obtain ⟨_, _, _, _, _, _, _, _, _, _, _, _, _, _, _, _, he⟩ :=
        gapCheck_effect blk.seq { s with events := es, queue := rest }
      rw [he]
      exact hs hr
    obtain ⟨_, _, hb⟩ := beginBlock_effect blk { s with events := es, queue := rest }
    rw [hb]
    exact frameOk_of_kept hg rfl id (by rw [hst]; rfl) (by simp [hst])
  | ignored e es => exact frameOk_of_kept h rfl id rfl id

/-! ## Every step -/

theorem instr_frameOk {s u : State} {i : Instr} (h : FrameOk s) (hf : fetch s = .instr i) (he : exec i s = .next u) :
    FrameOk (retire s.stage u) := by
  cases fetch_instr hf with
  | frame hr hs hi hc =>
    rw [hs]
    refine frame_instr_frameOk h hr hs (fun hnone => ?_) hi he
    rcases hc with ⟨-, hl, -⟩ | ⟨c, hc, -⟩
    · exact hl
    · simp [hnone] at hc
  | tsbk _ _ o hr hs _ hi =>
    obtain ⟨_, _, _, _, _, rfl⟩ := exec_tsbk_effect (hi ▸ dispatchTsbk_tsbk o) he
    rw [hs]
    exact frameOk_of_kept h rfl id (by rw [hs]; rfl) (by simp [hs])
  | cmd r _ hs hp hd =>
    rw [hs]
    exact cmd_instr_frameOk h hs (decodeCmd_cmd hd) hp he

theorem running_frameOk {s t : State} (h : FrameOk s) (hr : s.runState = .running) (hc : RunningCase s t) : FrameOk t := by
  cases hc with
  | event hs he => exact event_frameOk h (fun _ => hs) (eventStep_cases he)
  | sending => exact h
  | sent r hs => exact afterCommand_frameOk h hs
  | sample hs => exact sampleStep_frameOk h hs
  | dibit hs => exact dibitStep_frameOk h hr hs
  | frame hs => exact framePipeline_frameOk h hr hs
  | tsm hs =>
    obtain ⟨_, _, ht⟩ := tsmPipeline_effect s
    rw [ht]
    exact frameOk_of_kept h rfl id (by rw [hs]; rfl) (by simp [hs])
  | tune src hs => exact tuneStep_frameOk h hs
  | route hs =>
    obtain ⟨_, _, ht⟩ := routeStep_effect s
    rw [ht]
    exact frameOk_of_kept h rfl id (by rw [hs]; rfl) (by simp [hs])
  | advance hs => exact advanceStep_frameOk h hr hs

/-- Settles O55, by the cases of a step: a dibit taken moves the bits and the position together, a frame-class operation keeps
the bits and names a class, a forced search clears the frame, and every other step leaves it alone. -/
theorem framePositionKept : Obligations.FramePositionKept := by
  unfold Obligations.FramePositionKept
  intro s t h hs
  cases step_cases hs with
  | instr i u hf he => exact instr_frameOk h hf he
  | wait => exact h
  | halt => exact frameOk_of_kept h rfl id rfl id
  | bootSent r _ hst => exact afterCommand_frameOk h hst
  | bootEvent hr _ _ he => exact event_frameOk h (by simp [hr]) (eventStep_cases he)
  | running hr _ hc => exact running_frameOk h hr hc

end Sys2Proof.FrameSyncProofs
end

section
/-! PROOFS. The Frame Synchronizer: the correlation and the lock, the dibit of a locked frame, the NID, the frame's end, and that
none of its steps reads the Trunking State Machine. -/

namespace Sys2Proof.FrameSyncProofs

open Sys2Proof Sys2Proof.Machine Sys2Proof.StateProofs Sys2Proof.EncodingProofs

/-! ## The correlation (R150, R152, R280) -/

theorem level_cases (d : Dibit) :
    (d = 1#2 ∧ level d = 3) ∨ (d = 0#2 ∧ level d = 1) ∨ (d = 2#2 ∧ level d = -1) ∨ (d = 3#2 ∧ level d = -3) := by
  revert d
  decide

theorem level_bounds (d : Dibit) : -3 ≤ level d ∧ level d ≤ 3 := by
  rcases level_cases d with ⟨-, h⟩ | ⟨-, h⟩ | ⟨-, h⟩ | ⟨-, h⟩ <;> rw [h] <;> decide

/-- The dibits of the sync word have the outer levels only (R152). -/
theorem level_syncDibits : syncDibits.map level =
    [3, 3, 3, 3, 3, -3, 3, 3, -3, -3, 3, 3, -3, -3, -3, -3, 3, -3, 3, -3, -3, -3, -3, -3] := by decide +kernel

theorem length_syncDibits : syncDibits.length = 24 := by decide +kernel

theorem outer_syncDibits : ∀ k ∈ syncDibits, level k = 3 ∨ level k = -3 := by decide +kernel

theorem corrTerm_none (k : Dibit) : corrTerm none k = 0 := rfl

theorem corrTerm_some (d k : Dibit) : corrTerm (some d) k = level d * level k := rfl

theorem corrTerm_eq_levels (e : Option Dibit) (k : Dibit) :
    corrTerm e k =
      match e with
      | none => 0
      | some 1#2 => 3 * level k
      | some 0#2 => level k
      | some 2#2 => -level k
      | some _ => -3 * level k := by
  cases e with
  | none => rfl
  | some d =>
    rw [corrTerm_some]
    rcases level_cases d with ⟨rfl, h⟩ | ⟨rfl, h⟩ | ⟨rfl, h⟩ | ⟨rfl, h⟩ <;> rw [h] <;> simp

theorem corrTerm_bounds (e : Option Dibit) (k : Dibit) :
    -9 * (if e.isSome then 1 else 0) ≤ corrTerm e k ∧ corrTerm e k ≤ 9 * (if e.isSome then 1 else 0) := by
  cases e with
  | none => simp [corrTerm_none]
  | some d =>
    obtain ⟨hd, hd'⟩ := level_bounds d
    obtain ⟨hk, hk'⟩ := level_bounds k
    simp only [corrTerm_some, Option.isSome_some, if_true]
    constructor <;> nlinarith

/-- Against a dibit of an outer level, only the dibit itself counts 9. -/
theorem corrTerm_eq_nine {e : Option Dibit} {k : Dibit} (hk : level k = 3 ∨ level k = -3) :
    corrTerm e k = 9 ↔ e = some k := by
  revert e k
  decide

/-- What the correlation of a window with any dibits lies between: 9 for every dibit received. -/
theorem sum_corrTerm_bounds (w : List (Option Dibit)) (ks : List Dibit) :
    -9 * ((w.filter Option.isSome).length : Int) ≤ (List.zipWith corrTerm w ks).sum ∧
      (List.zipWith corrTerm w ks).sum ≤ 9 * ((w.filter Option.isSome).length : Int) := by
  induction w generalizing ks with
  | nil => simp
  | cons e w ih =>
    cases ks with
    | nil => simp
    | cons k ks =>
      obtain ⟨hlo, hhi⟩ := corrTerm_bounds e k
      obtain ⟨ilo, ihi⟩ := ih ks
      rw [List.zipWith_cons_cons, List.sum_cons]
      cases e with
      | none =>
        simp only [Option.isSome_none, Bool.false_eq_true, if_false, not_false_eq_true, List.filter_cons_of_neg] at hlo hhi ⊢
        omega
      | some d =>
        simp only [Option.isSome_some, if_true, List.filter_cons_of_pos, List.length_cons] at hlo hhi ⊢
        omega

/-- The largest correlation with dibits of outer levels is reached by those dibits alone. -/
theorem sum_corrTerm_eq_max {w : List (Option Dibit)} {ks : List Dibit} (hl : w.length = ks.length)
    (hk : ∀ k ∈ ks, level k = 3 ∨ level k = -3) :
    (List.zipWith corrTerm w ks).sum = 9 * (ks.length : Int) ↔ w = ks.map some := by
  induction ks generalizing w with
  | nil => simpa using List.length_eq_zero_iff.mp hl
  | cons k ks ih =>
    match w, hl with
    | e :: w, hl =>
      have hl' : w.length = ks.length := by simpa using hl
      have hrest := ih hl' fun x hx => hk x (List.mem_cons_of_mem k hx)
      have hterm := corrTerm_eq_nine (e := e) (hk k List.mem_cons_self)
      have hle : corrTerm e k ≤ 9 := by
        obtain ⟨-, h⟩ := corrTerm_bounds e k
        split at h <;> omega
      have hsum : (List.zipWith corrTerm w ks).sum ≤ 9 * (ks.length : Int) := by
        obtain ⟨-, h⟩ := sum_corrTerm_bounds w ks
        have := List.length_filter_le Option.isSome w
        omega
      rw [List.zipWith_cons_cons, List.sum_cons, List.map_cons, List.cons.injEq, ← hterm, ← hrest, List.length_cons]
      omega

theorem corr_sync : corr (syncDibits.map some) = 216 := by
  rw [corr, show (216 : Int) = 9 * (syncDibits.length : Int) by rw [length_syncDibits]; rfl]
  exact (sum_corrTerm_eq_max (by simp) outer_syncDibits).mpr rfl

/-- Settles O34: term by term the product of two levels is the sum's, lies between -9 and 9, and is 9 only for the sync's dibit. -/
theorem correlationBounds : Obligations.CorrelationBounds := by
  unfold Obligations.CorrelationBounds
  intro w hw
  obtain ⟨hlo, hhi⟩ := sum_corrTerm_bounds w syncDibits
  have hcount := List.length_filter_le Option.isSome w
  have hmax := sum_corrTerm_eq_max (w := w) (by rw [hw, length_syncDibits]) outer_syncDibits
  rw [length_syncDibits] at hmax
  refine ⟨?_, ?_, ?_, hhi, hmax⟩
  · rw [← level_syncDibits, List.zipWith_map_right, corr]
    congr 2
    funext e k
    exact corrTerm_eq_levels e k
  · rw [corr]
    omega
  · rw [corr]
    omega

/-! ## The dibits of the run (R280, R281, R290, R300) -/

theorem dibitStep_of_nil {s : State} (h : s.run = []) : dibitStep s = { s with stage := .idle } := by
  simp only [dibitStep, h]

theorem dibitStep_of_cons {s : State} {d : Dibit} {t : Nat} {rest : List (Dibit × Nat)} (h : s.run = (d, t) :: rest) :
    dibitStep s = fsDibit d { s with run := rest, now := t } := by
  simp only [dibitStep, h]

theorem step_at_dibit {s : State} (hr : s.runState = .running) (hs : s.stage = .dibit) : step s = .next (dibitStep s) := by
  have hfetch : fetch s = .pipeline := by simp only [fetch, hr, hs]
  rw [step_of_pipeline hfetch]
  simp only [pipeline, hr, hs]

theorem step_of_dibit {s : State} {d : Dibit} {t : Nat} {rest : List (Dibit × Nat)} (hr : s.runState = .running)
    (hs : s.stage = .dibit) (hrun : s.run = (d, t) :: rest) :
    step s = .next (fsDibit d { s with run := rest, now := t }) := by
  rw [step_at_dibit hr hs, dibitStep_of_cons hrun]

section Search

variable {s : State} {d : Dibit} {t : Nat} {rest : List (Dibit × Nat)} (hr : s.runState = .running) (hs : s.stage = .dibit)
  (hl : s.sync = .searching) (hrun : s.run = (d, t) :: rest)
include hr hs hl hrun

theorem step_of_search_match (hm : s.cfg.syncThresh < corr (s.win.drop 1 ++ [some d])) :
    step s = .next (lock { s with run := rest, now := t, win := s.win.drop 1 ++ [some d] }) := by
  rw [step_of_dibit hr hs hrun, fsDibit_of_searching (by exact hl), searchStep_of_match (by exact hm)]

theorem step_of_search_no_match (hm : corr (s.win.drop 1 ++ [some d]) ≤ s.cfg.syncThresh) :
    step s = .next { s with run := rest, now := t, win := s.win.drop 1 ++ [some d] } := by
  rw [step_of_dibit hr hs hrun, fsDibit_of_searching (by exact hl), searchStep_of_no_match (by exact hm)]

end Search

/-- The window after `k` dibits of the sync word. -/
def windowAfter (w : List (Option Dibit)) (k : Nat) : List (Option Dibit) := w.drop k ++ (syncDibits.take k).map some

theorem windowAfter_succ {w : List (Option Dibit)} (hw : w.length = 24) {k : Nat} (hk : k < 24) :
    (windowAfter w k).drop 1 ++ [some (syncDibits[k]'(by rw [length_syncDibits]; exact hk))] = windowAfter w (k + 1) := by
  have hk' : k < syncDibits.length := by rw [length_syncDibits]; exact hk
  rw [windowAfter, windowAfter, List.drop_append_of_le_length (by simp [hw]; omega), List.drop_drop,
    List.take_succ_eq_append_getElem hk', List.map_append, List.append_assoc]
  rfl

theorem windowAfter_all {w : List (Option Dibit)} (hw : w.length = 24) : windowAfter w 24 = syncDibits.map some := by
  rw [windowAfter, List.drop_eq_nil_of_le hw.le, List.take_of_length_le length_syncDibits.le, List.nil_append]

section AlignedRun

variable {s : State} {times : List Nat} {rest : List (Dibit × Nat)} (hr : s.runState = .running) (hs : s.stage = .dibit)
  (hl : s.sync = .searching) (hwin : s.win.length = 24) (htimes : times.length = 24)
  (hrun : s.run = syncDibits.zip times ++ rest)
  (hquiet : ∀ k < 24, corr (windowAfter s.win k) ≤ s.cfg.syncThresh)
include hr hs hl hwin htimes hrun hquiet

/-- Before its last dibit a sync-aligned run only fills the window. -/
theorem steps_aligned (k : Nat) (hk : k < 24) :
    ∃ now, steps k s =
      some { s with run := (syncDibits.zip times).drop k ++ rest, now := now, win := windowAfter s.win k } := by
  induction k with
  | zero => exact ⟨s.now, by rw [steps, List.drop_zero, ← hrun, windowAfter, List.drop_zero, List.take_zero,
      List.map_nil, List.append_nil]⟩
  | succ k ih =>
    obtain ⟨now, hsteps⟩ := ih (by omega)
    have hz : k < (syncDibits.zip times).length := by simp [length_syncDibits, htimes]; omega
    have hnext := step_of_search_no_match (s := { s with
      run := (syncDibits.zip times).drop k ++ rest, now := now, win := windowAfter s.win k }) hr hs hl
      (by dsimp only; rw [List.drop_eq_getElem_cons hz, List.getElem_zip, List.cons_append])
      (by dsimp only; rw [windowAfter_succ hwin (by omega)]; exact hquiet (k + 1) hk)
    rw [steps_add 1 hsteps, steps_succ 0 hnext]
    dsimp only
    rw [windowAfter_succ hwin (by omega)]
    exact ⟨_, rfl⟩

/-- The last dibit of the sync word completes it in the window, and the synchronizer locks (R300). -/
theorem steps_aligned_lock (hthresh : s.cfg.syncThresh < 216) :
    ∃ now, steps 24 s = some (lock { s with run := rest, now := now, win := syncDibits.map some }) := by
  obtain ⟨now, hsteps⟩ := steps_aligned hr hs hl hwin htimes hrun hquiet 23 (by omega)
  have hz : (syncDibits.zip times).length = 24 := by simp [length_syncDibits, htimes]
  have hnext := step_of_search_match (s := { s with
    run := (syncDibits.zip times).drop 23 ++ rest, now := now, win := windowAfter s.win 23 }) hr hs hl
    (by dsimp only; rw [List.drop_eq_getElem_cons (by omega), List.drop_eq_nil_of_le hz.le, List.getElem_zip,
      List.cons_append, List.nil_append])
    (by dsimp only; rw [windowAfter_succ hwin (by omega), windowAfter_all hwin, corr_sync]; exact hthresh)
  rw [steps_add 1 hsteps, steps_succ 0 hnext]
  dsimp only
  rw [windowAfter_succ hwin (by omega), windowAfter_all hwin]
  exact ⟨_, rfl⟩

end AlignedRun

/-- Settles O35: one dibit either way, then the run's first 23 dibits by induction and the 24th. -/
theorem lockOnAlignedSync : Obligations.LockOnAlignedSync := by
  unfold Obligations.LockOnAlignedSync
  refine ⟨fun s d t rest hr hs hl hrun => ⟨fun hm => ?_, fun hm => ?_⟩, ?_⟩
  · rw [step_of_search_match hr hs hl hrun hm]
    rfl
  · rw [step_of_search_no_match hr hs hl hrun hm]
  · intro s times rest hr hs hl hwin hthresh htimes hrun hquiet
    obtain ⟨now, hsteps⟩ := steps_aligned_lock hr hs hl hwin htimes hrun hquiet hthresh
    exact ⟨_, hsteps, rfl, rfl, rfl, hs, rfl, rfl⟩

/-- Settles O36, by the position: skipped or data (R290-R292). -/
theorem lockedDibit : Obligations.LockedDibit := by
  unfold Obligations.LockedDibit
  intro s d t pos rest hr hs hl hrun
  rw [step_of_dibit hr hs hrun, fsDibit_of_locked (by exact hl)]
  refine ⟨fun hskip => ?_, fun hstatus hp => ?_⟩
  · rw [lockedStep_of_skip (hskip.imp_left fun h => by simp [isStatusPos, statusPeriod, h])]
  · rw [lockedStep_of_data (by simp [isStatusPos, statusPeriod, hstatus]) hp]
    rfl

/-! ## The NID (R293, R540, R180) -/

section Nid

variable {s : State} (hr : s.runState = .running) (hs : s.stage = .frame)
include hr hs

theorem step_of_frame_pipeline (hf : fetchFrame s = .pipeline) : step s = .next (framePipeline s) := by
  have hfetch : fetch s = .pipeline := by simp only [fetch, hr, hs, hf]
  rw [step_of_pipeline hfetch]
  simp only [pipeline, hr, hs]

/-- No operation is due: before the NID's last bit, and in an Unknown frame (R290). -/
theorem step_of_frame_idle (h : s.cls = none ∧ s.fbits.length ≠ 64 ∨ s.cls = some .unknown) :
    step s = .next { s with stage := .advance } := by
  have hdue : nidDue s = false := by
    rcases h with ⟨hc, hl⟩ | hc
    · simp [nidDue, hl]
    · simp [nidDue, hc]
  have hfetch : fetchFrame s = .pipeline := by
    rcases h with ⟨hc, -⟩ | hc
    · simp [fetchFrame, hc, hdue]
    · simp [fetchFrame, hc, classInstr]
  rw [step_of_frame_pipeline hr hs hfetch]
  simp [framePipeline, hdue]

variable (hc : s.cls = none) (hl : s.fbits.length = 64)
include hc hl

theorem step_of_nid {nac : BitVec 12} {duid : BitVec 4} {i : Instr} {u : State}
    (hn : nidDecode (bitsToBV 64 s.fbits) = some (nac, duid)) (hd : dispatchDuid nac duid = some i)
    (he : exec i s = .next u) : step s = .next { u with stage := if u.unit.isSome then .tsm else .advance } := by
  have hstep := step_of_instr (fetch_of_nid hr hs hc hl (decodeNid_of_nidDecode hn hd)) he
  rw [hs] at hstep
  exact hstep

/-- A class other than TDU takes up its frame and the dibit ends. -/
theorem step_of_nid_class (hu : s.unit = none) {nac : BitVec 12} {duid : BitVec 4} {c : FrameClass} {i : Instr}
    (hn : nidDecode (bitsToBV 64 s.fbits) = some (nac, duid)) (hd : dispatchDuid nac duid = some i)
    (hi : classInstr c nac = some i) (ht : c ≠ .tdu) :
    step s = .next { frameStart c nac s with stage := .advance } := by
  rw [step_of_nid hr hs hc hl hn hd (exec_at_nid hi ht hc)]
  simp [hu]

theorem step_of_nid_failed (hd : ∀ i, decodeNid (bitsToBV 64 s.fbits) ≠ .ok i) : step s = .next (nidFailed s) := by
  have hdue : nidDue s = true := by simp [nidDue, hc, hl]
  have hfetch : fetchFrame s = .pipeline := by
    simp only [fetchFrame, hc, hdue, if_true]
    split
    · next i hi => exact absurd hi (hd i)
    · rfl
  rw [step_of_frame_pipeline hr hs hfetch]
  simp [framePipeline, hdue]

end Nid

theorem nidFailed_of_prior {s : State} {len : Nat} (h : s.lastLen = some len) :
    nidFailed s =
      { s with
        raised := .e1 s.now :: s.raised, frameFailed := true, curLen := some len, cls := some .unknown
        stage := .advance } := by
  rw [nidFailed, raise_of_not_fatal rfl, assumePriorLength_of_some (by exact h)]

theorem nidFailed_of_first {s : State} (h : s.lastLen = none) :
    nidFailed s = { forceSearch { s with raised := .e1 s.now :: s.raised } with stage := .advance } := by
  rw [nidFailed, raise_of_not_fatal rfl, assumePriorLength_of_none (by exact h)]
  rfl

/-- The DUIDs of R154; every other one is reserved (R180). -/
theorem dispatchDuid_of_reserved {nac : BitVec 12} {duid : BitVec 4}
    (h : duid ∉ [0x0#4, 0x3#4, 0x5#4, 0x7#4, 0xA#4, 0xC#4, 0xF#4]) : dispatchDuid nac duid = none := by
  simp only [List.mem_cons, List.not_mem_nil, or_false, not_or] at h
  obtain ⟨h0, h3, h5, h7, hA, hC, hF⟩ := h
  simp only [dispatchDuid, h0, h3, h5, h7, hA, hC, hF, if_false]

theorem decodeNid_of_failed {w : Word64}
    (h : nidDecode w = none ∨
      ∃ nac duid, nidDecode w = some (nac, duid) ∧ duid ∉ [0x0#4, 0x3#4, 0x5#4, 0x7#4, 0xA#4, 0xC#4, 0xF#4])
    (i : Instr) : decodeNid w ≠ .ok i := by
  unfold decodeNid
  rcases h with h | ⟨nac, duid, h, hd⟩
  · simp [h]
  · simp [h, dispatchDuid_of_reserved hd]

/-- Settles O37: at the NID by its DUID, TDU apart from the classes that make no unit; else no operation is due. -/
theorem nidStep : Obligations.NidStep := by
  unfold Obligations.NidStep
  intro s hr hs
  refine ⟨step_of_frame_idle hr hs, fun hc hl hu =>
    ⟨fun nac duid c len hn hmem => ?_, fun nac hn => ?_, fun hfail => ?_⟩⟩
  · have hstep := fun c i => step_of_nid_class (c := c) (i := i) hr hs hc hl hu hn
    simp only [List.mem_cons, List.not_mem_nil, or_false, Prod.mk.injEq] at hmem
    rcases hmem with ⟨rfl, rfl, rfl⟩ | ⟨rfl, rfl, rfl⟩ | ⟨rfl, rfl, rfl⟩ | ⟨rfl, rfl, rfl⟩ | ⟨rfl, rfl, rfl⟩ |
      ⟨rfl, rfl, rfl⟩
    · exact hstep .hdu _ rfl rfl (by decide)
    · exact hstep .ldu1 _ rfl rfl (by decide)
    · exact hstep .tsdu _ rfl rfl (by decide)
    · exact hstep .ldu2 _ rfl rfl (by decide)
    · exact hstep .pdu _ rfl rfl (by decide)
    · exact hstep .tdulc _ rfl rfl (by decide)
  · rw [step_of_nid hr hs hc hl hn rfl (execFrameTdu_at_nid hc), handOver_of_valid rfl]
    rfl
  · rw [step_of_nid_failed hr hs hc hl (decodeNid_of_failed hfail)]
    refine ⟨fun len hlast => ?_, fun hlast => ?_⟩
    · rw [nidFailed_of_prior hlast]
    · rw [nidFailed_of_first hlast]
      rfl

/-! ## The frame's end (R297, R298, R602) -/

theorem step_of_advance {s : State} (hr : s.runState = .running) (hs : s.stage = .advance) :
    step s = .next (advanceStep s) := by
  have hfetch : fetch s = .pipeline := by simp only [fetch, hr, hs]
  rw [step_of_pipeline hfetch]
  simp only [pipeline, hr, hs]

/-- Settles O38, by the lock and the position: Searching, the frame's end below and at FAIL_LIMIT, and every other position. -/
theorem frameEnd : Obligations.FrameEnd := by
  unfold Obligations.FrameEnd
  intro s hr hs
  rw [step_of_advance hr hs]
  refine ⟨fun hl => by rw [advanceStep_of_searching hl], ?_⟩
  rintro pos streak hl rfl
  refine ⟨fun hend hstreak => ?_, fun hend hstreak => ?_, fun hmore => by rw [advanceStep_of_more hl hmore]⟩
  · rw [advanceStep_of_end hl hend, frameEnd_of_no_streak (by exact hstreak), closeFrame, hend]
  · rw [advanceStep_of_end hl hend, frameEnd_of_streak (by exact hstreak)]
    rfl

/-! ## No step reads the Trunking State Machine (R299) -/

/-- An operation that does the same with another Trunking State Machine state, and leaves that as it is. -/
def IgnoresTrunking (f : State → State) : Prop :=
  ∀ role chanMap controlFreq s,
    f (withTrunking role chanMap controlFreq s) = withTrunking role chanMap controlFreq (f s)

theorem handOver_ignores (du : DataUnit) : IgnoresTrunking (handOver du) := by
  intro role chanMap controlFreq s
  cases hv : du.valid with
  | true => rw [handOver_of_valid hv, handOver_of_valid hv]; rfl
  | false => rw [handOver_of_invalid hv, handOver_of_invalid hv]; rfl

theorem fsDibit_ignores (d : Dibit) : IgnoresTrunking (fsDibit d) := by
  intro role chanMap controlFreq s
  cases hl : s.sync with
  | searching =>
    rw [fsDibit_of_searching hl, fsDibit_of_searching (by exact hl)]
    by_cases hm : s.cfg.syncThresh < corr (s.win.drop 1 ++ [some d])
    · rw [searchStep_of_match hm, searchStep_of_match (by exact hm)]
      rfl
    · rw [searchStep_of_no_match (not_lt.mp hm), searchStep_of_no_match (by exact not_lt.mp hm)]
      rfl
  | locked pos =>
    rw [fsDibit_of_locked hl, fsDibit_of_locked (by exact hl)]
    unfold lockedStep
    (repeat' split) <;> rfl

theorem dibitStep_ignores : IgnoresTrunking dibitStep := by
  intro role chanMap controlFreq s
  cases hrun : s.run with
  | nil =>
    rw [dibitStep_of_nil hrun, dibitStep_of_nil (by exact hrun)]
    rfl
  | cons p rest =>
    obtain ⟨d, t⟩ := p
    rw [dibitStep_of_cons hrun, dibitStep_of_cons (by exact hrun)]
    exact fsDibit_ignores d role chanMap controlFreq { s with run := rest, now := t }

theorem bodyFixed_ignores (c : FrameClass) (fec : List Bool → BitVec 12 → Nat → DataUnit) :
    IgnoresTrunking (bodyFixed c fec) := by
  intro role chanMap controlFreq s
  by_cases hl : s.fbits.length = 64 + bodyBits c
  · rw [bodyFixed_of_complete hl, bodyFixed_of_complete (by exact hl)]
    exact handOver_ignores _ role chanMap controlFreq s
  · rw [bodyFixed_of_incomplete hl, bodyFixed_of_incomplete (by exact hl)]

theorem tsduBlock_ignores : IgnoresTrunking tsduBlock := by
  intro role chanMap controlFreq s
  by_cases hdue : s.tsduEnd = none ∧ s.fbits.length = 64 + 196 * (s.tsbkN + 1)
  · obtain ⟨he, hl⟩ := hdue
    cases hm : tsduEnds (fecTsbk (bitsAt (64 + 196 * s.tsbkN) 196 s.fbits) s.nacCur s.now) (s.tsbkN + 1) with
    | true =>
      rw [tsduBlock_of_last he hl hm, tsduBlock_of_last (by exact he) (by exact hl) (by exact hm)]
      exact handOver_ignores _ role chanMap controlFreq { s with
        tsbkN := s.tsbkN + 1, tsduEnd := some (tsduDibits (s.tsbkN + 1))
        curLen := some (paddedLen (tsduDibits (s.tsbkN + 1))) }
    | false =>
      rw [tsduBlock_of_more he hl hm, tsduBlock_of_more (by exact he) (by exact hl) (by exact hm)]
      exact handOver_ignores _ role chanMap controlFreq { s with tsbkN := s.tsbkN + 1 }
  · have hnot : s.tsduEnd ≠ none ∨ s.fbits.length ≠ 64 + 196 * (s.tsbkN + 1) := by tauto
    rw [tsduBlock_of_incomplete (s := s) hnot, tsduBlock_of_incomplete (by exact hnot)]

theorem assumePriorLength_ignores : IgnoresTrunking assumePriorLength := by
  intro role chanMap controlFreq s
  cases hl : s.lastLen with
  | some len => rw [assumePriorLength_of_some hl, assumePriorLength_of_some (by exact hl)]; rfl
  | none => rw [assumePriorLength_of_none hl, assumePriorLength_of_none (by exact hl)]; rfl

theorem pduHeader_ignores : IgnoresTrunking pduHeader := by
  intro role chanMap controlFreq s
  by_cases hdue : s.curLen = none ∧ s.fbits.length = 260
  · obtain ⟨hcur, hlen⟩ := hdue
    cases hcrc : crcOk (tsbkDecode (s.fbits.drop 64)) with
    | true =>
      rw [pduHeader_of_valid hcur hlen hcrc, pduHeader_of_valid (by exact hcur) (by exact hlen) (by exact hcrc)]
      rfl
    | false =>
      cases hl : s.lastLen with
      | some len =>
        rw [pduHeader_of_invalid_prior hcur hlen hcrc hl,
          pduHeader_of_invalid_prior (by exact hcur) (by exact hlen) (by exact hcrc) (by exact hl)]
        rfl
      | none =>
        rw [pduHeader_of_invalid_first hcur hlen hcrc hl,
          pduHeader_of_invalid_first (by exact hcur) (by exact hlen) (by exact hcrc) (by exact hl)]
        rfl
  · have hnot : s.curLen ≠ none ∨ s.fbits.length ≠ 260 := by tauto
    rw [pduHeader_of_not_due (s := s) hnot, pduHeader_of_not_due (by exact hnot)]

theorem pduBody_ignores : IgnoresTrunking pduBody := by
  intro role chanMap controlFreq s
  cases hh : s.pduHdr with
  | none => rw [pduBody_of_none hh, pduBody_of_none (by exact hh)]
  | some h =>
    have hand := handOver_ignores (attachBlocks h (s.fbits.drop 260)) role chanMap controlFreq s
    by_cases hl : s.fbits.length = 64 + 196 * (1 + unitBtf h)
    · simp only [pduBody, hh, withTrunking, hl, if_true] at hand ⊢
      rw [hand]
    · simp only [pduBody, hh, withTrunking, hl, if_false]

theorem nidAction_ignores (c : FrameClass) (nac : BitVec 12) : IgnoresTrunking (nidAction c nac) := by
  intro role chanMap controlFreq s
  cases c with
  | tdu => exact handOver_ignores (fecTdu nac s.now) role chanMap controlFreq (frameStart .tdu nac s)
  | _ => rfl

theorem frameAction_ignores (c : FrameClass) : IgnoresTrunking (frameAction c) := by
  cases c with
  | hdu => exact bodyFixed_ignores .hdu fecHdu
  | ldu1 => exact bodyFixed_ignores .ldu1 fecLdu1
  | ldu2 => exact bodyFixed_ignores .ldu2 fecLdu2
  | tdulc => exact bodyFixed_ignores .tdulc fecTdulc
  | tsdu => exact tsduBlock_ignores
  | pdu =>
    intro role chanMap controlFreq s
    simp only [frameAction]
    rw [pduHeader_ignores, pduBody_ignores]
  | tdu => intro _ _ _ _; rfl
  | unknown => intro _ _ _ _; rfl

theorem framePipeline_ignores : IgnoresTrunking framePipeline := by
  intro role chanMap controlFreq s
  have hprior := assumePriorLength_ignores role chanMap controlFreq { raise (.e1 s.now) s with frameFailed := true }
  unfold framePipeline
  split
  · next hdue =>
    rw [if_pos (by exact hdue)]
    exact congrArg (fun u : State => { u with stage := .advance }) hprior
  · next hdue =>
    rw [if_neg (by exact hdue)]
    rfl

theorem advanceStep_ignores : IgnoresTrunking advanceStep := by
  intro role chanMap controlFreq s
  cases hl : s.sync with
  | searching => rw [advanceStep_of_searching hl, advanceStep_of_searching (by exact hl)]; rfl
  | locked pos =>
    by_cases hend : s.curLen = some (pos + 1)
    · rw [advanceStep_of_end hl hend, advanceStep_of_end (by exact hl) (by exact hend)]
      by_cases hstreak : s.cfg.failLimit ≤ (closeFrame s).failCount
      · rw [frameEnd_of_streak hstreak, frameEnd_of_streak (by exact hstreak)]
        rfl
      · rw [frameEnd_of_no_streak (not_le.mp hstreak), frameEnd_of_no_streak (by exact not_le.mp hstreak)]
        rfl
    · rw [advanceStep_of_more hl hend, advanceStep_of_more (by exact hl) (by exact hend)]
      rfl

theorem exec_frame_ignores {i : Instr} (hi : isFrameInstr i = true) (role : Role)
    (chanMap : Vector (Option BandEntry) 16) (controlFreq : Nat) (s : State) :
    ∃ u, exec i s = .next u ∧
      exec i (withTrunking role chanMap controlFreq s) = .next (withTrunking role chanMap controlFreq u) := by
  obtain ⟨c, nac, hi⟩ := classInstr_of_isFrameInstr hi
  cases hc : s.cls with
  | none =>
    refine ⟨nidAction c nac s, exec_of_nid hi hc, ?_⟩
    rw [exec_of_nid hi (by exact hc), nidAction_ignores]
  | some c' =>
    refine ⟨frameAction c s, exec_in_frame hi hc, ?_⟩
    rw [exec_in_frame hi (by exact hc), frameAction_ignores]

theorem retire_frame_ignores : IgnoresTrunking (retire .frame) := fun _ _ _ _ => rfl

theorem fetchFrame_ne_wait (s : State) : fetchFrame s ≠ .wait := by
  unfold fetchFrame
  (repeat' split) <;> simp

/-- Settles O39, by the stage: what is fetched does not depend on the Trunking State Machine, and neither does any of the
operations it runs. -/
theorem syncIgnoresTrunking : Obligations.SyncIgnoresTrunking := by
  unfold Obligations.SyncIgnoresTrunking
  intro s role chanMap controlFreq hr hstage
  rcases hstage with hs | hs | hs
  · refine ⟨dibitStep s, step_at_dibit hr hs, ?_⟩
    rw [step_at_dibit (by exact hr) (by exact hs), dibitStep_ignores]
  · have hfetch : fetch s = fetchFrame s := by simp only [fetch, hr, hs]
    cases hf : fetchFrame s with
    | instr i =>
      obtain ⟨hi, -⟩ := fetchFrame_instr hf
      obtain ⟨u, hu, hu'⟩ := exec_frame_ignores hi role chanMap controlFreq s
      refine ⟨retire .frame u, hs ▸ step_of_instr (hfetch.trans hf) hu, ?_⟩
      rw [← retire_frame_ignores, ← hs]
      exact step_of_instr (by exact hfetch.trans hf) hu'
    | pipeline =>
      refine ⟨framePipeline s, step_of_frame_pipeline hr hs hf, ?_⟩
      rw [step_of_frame_pipeline (by exact hr) (by exact hs) (by exact hf), framePipeline_ignores]
    | wait => exact absurd hf (fetchFrame_ne_wait s)
    | reserved => exact absurd hf (fetchFrame_ne_reserved s)
  · refine ⟨advanceStep s, step_of_advance hr hs, ?_⟩
    rw [step_of_advance (by exact hr) (by exact hs), advanceStep_ignores]

/-! ## The bodies of fixed length, and a TSDU's blocks (R294, R295) -/

/-- The state with the unit of a decoding in flight: valid with the body, or invalid where nothing decodes (R294, R342). -/
def withDecodedUnit (kind : UnitKind) (body : Option Body) (s : State) : State :=
  match body with
  | some b => withValidUnit kind b s
  | none => withInvalidUnit kind s

theorem handOver_mkUnit (kind : UnitKind) (body : Option Body) (s : State) :
    handOver (mkUnit kind s.now s.nacCur body) s = withDecodedUnit kind body s := by
  cases body with
  | some b => exact handOver_of_valid rfl
  | none => exact handOver_of_invalid rfl

section FixedBody

variable {nac : BitVec 12} {s : State} {c : FrameClass} (hc : s.cls = some c)
include hc

theorem execFrameHdu_of_complete (hl : s.fbits.length = 712) :
    exec (.frameHdu nac) s =
      .next (withDecodedUnit .headerUnit ((hduDecode (s.fbits.drop 64)).map .header) s) := by
  rw [exec_in_frame (c := .hdu) rfl hc, frameAction, bodyFixed_of_complete hl, bitsAt_rest hl]
  exact congrArg Host.Outcome.next (handOver_mkUnit _ _ s)

theorem execFrameTdulc_of_complete (hl : s.fbits.length = 352) :
    exec (.frameTdulc nac) s =
      .next (withDecodedUnit .terminator ((tdulcDecode (s.fbits.drop 64)).map .tdulc) s) := by
  rw [exec_in_frame (c := .tdulc) rfl hc, frameAction, bodyFixed_of_complete hl, bitsAt_rest hl]
  exact congrArg Host.Outcome.next (handOver_mkUnit _ _ s)

theorem execFrameLdu1_of_complete (hl : s.fbits.length = 1632) :
    exec (.frameLdu1 nac) s =
      .next (withDecodedUnit .logicalLinkUnit1
        ((lduDecode Config.ldu1Order Config.rsLc (s.fbits.drop 64)).map fun p => .ldu1 p.1 p.2) s) := by
  rw [exec_in_frame (c := .ldu1) rfl hc, frameAction, bodyFixed_of_complete hl, bitsAt_rest hl]
  exact congrArg Host.Outcome.next (handOver_mkUnit _ _ s)

theorem execFrameLdu2_of_complete (hl : s.fbits.length = 1632) :
    exec (.frameLdu2 nac) s =
      .next (withDecodedUnit .logicalLinkUnit2
        ((lduDecode Config.ldu2Order Config.rsEs (s.fbits.drop 64)).map fun p => .ldu2 p.1 p.2) s) := by
  rw [exec_in_frame (c := .ldu2) rfl hc, frameAction, bodyFixed_of_complete hl, bitsAt_rest hl]
  exact congrArg Host.Outcome.next (handOver_mkUnit _ _ s)

theorem exec_of_incomplete_body {c' : FrameClass} {i : Instr} {fec : List Bool → BitVec 12 → Nat → DataUnit}
    (hi : classInstr c' nac = some i) (hact : frameAction c' s = bodyFixed c' fec s)
    (hl : s.fbits.length ≠ 64 + bodyBits c') : exec i s = .next s := by
  rw [exec_in_frame hi hc, hact, bodyFixed_of_incomplete hl]

end FixedBody

/-- Settles O12, class by class: the bits before the last, and at the last bit what the body decodes to. -/
theorem fixedBodyDecoded : Obligations.FixedBodyDecoded := by
  unfold Obligations.FixedBodyDecoded
  intro nac s c hc
  refine ⟨exec_in_frame (c := .tdu) rfl hc, exec_of_incomplete_body hc (c' := .hdu) rfl rfl, fun hl => ?_,
    exec_of_incomplete_body hc (c' := .tdulc) rfl rfl, fun hl => ?_,
    exec_of_incomplete_body hc (c' := .ldu1) rfl rfl, fun hl => ?_,
    exec_of_incomplete_body hc (c' := .ldu2) rfl rfl, fun hl => ?_⟩
  · rw [execFrameHdu_of_complete hc hl, bitsAt_rest hl]
    cases hduDecode (s.fbits.drop 64) <;> rfl
  · rw [execFrameTdulc_of_complete hc hl, bitsAt_rest hl]
    cases tdulcDecode (s.fbits.drop 64) <;> rfl
  · rw [execFrameLdu1_of_complete hc hl, bitsAt_rest hl]
    cases lduDecode Config.ldu1Order Config.rsLc (s.fbits.drop 64) <;> rfl
  · rw [execFrameLdu2_of_complete hc hl, bitsAt_rest hl]
    cases lduDecode Config.ldu2Order Config.rsEs (s.fbits.drop 64) <;> rfl

/-! ## The blocks of a TSDU (R295, R351) -/

theorem fecTsbk_of_crcOk {b : List Bool} (h : crcOk (tsbkDecode b) = true) (nac : BitVec 12) (t : Nat) :
    fecTsbk b nac t = ⟨.trunkingSignalingBlock, true, t, nac, some (.tsbk (tsbkDecode b))⟩ := by
  simp [fecTsbk, h, mkUnit]

theorem fecTsbk_of_crcBad {b : List Bool} (h : crcOk (tsbkDecode b) = false) (nac : BitVec 12) (t : Nat) :
    fecTsbk b nac t = ⟨.trunkingSignalingBlock, false, t, nac, none⟩ := by
  simp [fecTsbk, h, mkUnit]

/-- A valid block ends its TSDU at LB = 1 and at the third block (R295). -/
theorem tsduEnds_of_valid (time : Nat) (nac : BitVec 12) (o : Octets12) (n : Nat) :
    tsduEnds ⟨.trunkingSignalingBlock, true, time, nac, some (.tsbk o)⟩ n = true ↔ o.getLsbD 95 = true ∨ n = 3 := by
  simp [tsduEnds, unitLb, tsbkLb, tsbkMax]

/-- Settles O14: an invalid block, a valid last one, a valid further one. -/
theorem tsbkOfTsdu : Obligations.TsbkOfTsdu := by
  unfold Obligations.TsbkOfTsdu
  intro nac s c hc
  rw [exec_in_frame (c := .tsdu) rfl hc, frameAction]
  refine ⟨fun hnot => by rw [tsduBlock_of_incomplete hnot], ?_⟩
  rintro o hend hlen rfl
  refine ⟨fun hcrc => ?_, fun hcrc hlast => ?_, fun hcrc hlb hn => ?_⟩
  · have hunit := fecTsbk_of_crcBad (b := bitsAt (64 + 196 * s.tsbkN) 196 s.fbits) hcrc s.nacCur s.now
    rw [tsduBlock_of_last hend hlen (by rw [hunit]; rfl), hunit, handOver_of_invalid rfl]
    rfl
  · have hunit := fecTsbk_of_crcOk (b := bitsAt (64 + 196 * s.tsbkN) 196 s.fbits) hcrc s.nacCur s.now
    rw [tsduBlock_of_last hend hlen (by rw [hunit]; exact (tsduEnds_of_valid _ _ _ _).mpr hlast), hunit,
      handOver_of_valid rfl]
    rfl
  · have hunit := fecTsbk_of_crcOk (b := bitsAt (64 + 196 * s.tsbkN) 196 s.fbits) hcrc s.nacCur s.now
    have hmore : ¬(((tsbkDecode (bitsAt (64 + 196 * s.tsbkN) 196 s.fbits)).getLsbD 95 = true) ∨ s.tsbkN + 1 = 3) := by
      rw [not_or, Bool.not_eq_true]
      exact ⟨hlb, hn⟩
    rw [← tsduEnds_of_valid s.now s.nacCur, Bool.not_eq_true] at hmore
    rw [tsduBlock_of_more hend hlen (by rw [hunit]; exact hmore), hunit, handOver_of_valid rfl]
    rfl

end Sys2Proof.FrameSyncProofs
end

section
/-! PROOFS. What the bodies of fixed length decode to, by the errors received: the words of hexbits and their Reed-Solomon code,
once for every class; the voice frames, with the bits no code protects; and the units that follow. -/

namespace Sys2Proof.FrameSyncProofs

open Sys2Proof Sys2Proof.Machine Sys2Proof.StateProofs Sys2Proof.EncodingProofs

/-! ## Hexbits, each in a word of its own (R345) -/

section Hexbits

variable {k n d t d' t' : Nat} {c : WordCode 6 n d t} {count : Nat} {rs : SymbolCode k count d' t'} {m : BitVec k}
  {start : Nat} {sent received : List Bool}
  (hsent : ∀ i (hi : i < (rs.encode m).length), bitsAt (start + n * i) n sent = bvToBits (c.encode (rs.encode m)[i]))
  (hlen : start + n * count ≤ received.length)
include hsent hlen

/-- The hexbits received lead back to the data sent exactly where no more words are beyond their code than the Reed-Solomon code
repairs. -/
theorem decode_hexbits_iff {hexbits : List Hexbit} (hx : decodeWords c start count received = some hexbits) :
    rs.decode hexbits = some m ↔ wordsBeyond t start n count sent received ≤ t' := by
  obtain ⟨-, hdiff⟩ := decodeWords_sent (rs.length_encode m) hsent hlen
  rw [rs.decode_eq_some m hexbits (length_decodeWords hx), hdiff hexbits hx]

theorem decodeWords_of_none_beyond (h : wordsBeyond t start n count sent received = 0) :
    decodeWords c start count received = some (rs.encode m) :=
  (decodeWords_sent (rs.length_encode m) hsent hlen).1 h

end Hexbits

/-- Two fields that lie one after the other and fill a word are the word. -/
theorem append_two {a b : Nat} (x : BitVec (a + b)) : x.extractLsb' b a ++ x.extractLsb' 0 b = x := by
  rw [BitVec.extractLsb'_append_extractLsb'_eq_extractLsb' (by omega)]
  exact BitVec.extractLsb'_eq_self

/-- A word with more errors than its code repairs, but fewer than its distance leaves room for, fails the whole body (R342 (b)). -/
theorem decodeWords_of_detected {k n d t : Nat} {c : WordCode k n d t} {start count i : Nat} {sent received : List Bool}
    {x : BitVec k} (hi : i < count) (hsent : bitsAt (start + n * i) n sent = bvToBits (c.encode x))
    (hlen : start + n * count ≤ received.length)
    (hbeyond : t < differences (bitsAt (start + n * i) n sent) (bitsAt (start + n * i) n received))
    (hdistance : differences (bitsAt (start + n * i) n sent) (bitsAt (start + n * i) n received) + t < d) :
    decodeWords c start count received = none := by
  have hn : n * (i + 1) ≤ n * count := Nat.mul_le_mul_left _ hi
  rw [Nat.mul_succ] at hn
  have herrors : bitErrors (c.encode x) (bitsToBV n (bitsAt (start + n * i) n received)) =
      differences (bitsAt (start + n * i) n sent) (bitsAt (start + n * i) n received) := by
    rw [bitErrors, bvToBits_bitsToBV (by rw [length_bitsAt]; omega), ← hsent]
  exact decodeWords_eq_none hi (decode_eq_none_of_detected c (m := x) (by rwa [herrors]) (by rwa [herrors]))

/-! ## HDU (R348) -/

/-- What an HDU's header words as received decode to. -/
theorem hduDecode_eq (air : List Bool) :
    hduDecode air = (decodeWords Config.golay18 0 36 (Config.hduOrder.collect air)).bind Config.rsHdu.decode := by
  unfold hduDecode
  cases decodeWords Config.golay18 0 36 (Config.hduOrder.collect air) <;> rfl

section Hdu

variable {m : BitVec 120} {air sent received : List Bool} (hsent : sent = Config.hduOrder.collect (hduEncode m))
  (hreceived : received = Config.hduOrder.collect air)
include hsent

theorem hdu_hexbit_sent (i : Nat) (hi : i < (Config.rsHdu.encode m).length) :
    bitsAt (0 + 18 * i) 18 sent = bvToBits (Config.golay18.encode (Config.rsHdu.encode m)[i]) := by
  rw [hsent, collect_hduEncode, Nat.zero_add, bitsAt_encodeWords _ _ _ hi]

include hreceived

/-- An HDU within the capability of its Reed-Solomon code is restored, unless one of its words does not decode. -/
theorem hduDecode_of_within (hb : wordsBeyond 3 0 18 36 sent received ≤ 8) :
    hduDecode air = (decodeWords Config.golay18 0 36 received).map fun _ => m := by
  have hl : received.length = 648 := by rw [hreceived, BitOrder.length_collect]
  rw [hduDecode_eq, ← hreceived]
  cases hx : decodeWords Config.golay18 0 36 received with
  | none => rfl
  | some hexbits => exact (decode_hexbits_iff (hdu_hexbit_sent hsent) (by omega) hx).mpr hb

theorem hduDecode_within (h : hduDecode air = some m) : wordsBeyond 3 0 18 36 sent received ≤ 8 := by
  have hl : received.length = 648 := by rw [hreceived, BitOrder.length_collect]
  rw [hduDecode_eq, ← hreceived, Option.bind_eq_some_iff] at h
  obtain ⟨hexbits, hx, hm⟩ := h
  exact (decode_hexbits_iff (hdu_hexbit_sent hsent) (by omega) hx).mp hm

theorem hdu_hexbits_of_none_beyond (hb : wordsBeyond 3 0 18 36 sent received = 0) :
    decodeWords Config.golay18 0 36 received = some (Config.rsHdu.encode m) := by
  have hl : received.length = 648 := by rw [hreceived, BitOrder.length_collect]
  exact decodeWords_of_none_beyond (hdu_hexbit_sent hsent) (by omega) hb

/-- Four errors in a word, between the capability 3 and the distance 8, are always found. -/
theorem hduDecode_of_four_errors {i : Nat} (hi : i < 36)
    (h : differences (bitsAt (18 * i) 18 sent) (bitsAt (18 * i) 18 received) = 4) : hduDecode air = none := by
  have hl : received.length = 648 := by rw [hreceived, BitOrder.length_collect]
  rw [← Nat.zero_add (18 * i)] at h
  rw [hduDecode_eq, ← hreceived, decodeWords_of_detected hi
    (hdu_hexbit_sent hsent i (by rw [Config.rsHdu.length_encode]; exact hi)) (by omega) (by omega) (by omega)]
  rfl

end Hdu

/-! ## TDULC (R354) -/

theorem tdulcDecode_eq (air : List Bool) :
    tdulcDecode air =
      (decodeWords Config.golay24 0 12 (Config.tdulcOrder.collect air)).bind fun words =>
        Config.rsLc.decode (words.flatMap hexbitPair) := by
  unfold tdulcDecode
  cases decodeWords Config.golay24 0 12 (Config.tdulcOrder.collect air) <;> rfl

theorem eq_of_hexbits {x y : BitVec 12} (hhigh : x.extractLsb' 6 6 = y.extractLsb' 6 6)
    (hlow : x.extractLsb' 0 6 = y.extractLsb' 0 6) : x = y := by
  rw [← append_two (a := 6) (b := 6) x, ← append_two (a := 6) (b := 6) y, hhigh, hlow]

/-- A Golay word received wrongly has at least one hexbit wrong. -/
theorem differences_le_hexbitPairs (xs ys : List (BitVec 12)) :
    differences xs ys ≤ differences (xs.flatMap hexbitPair) (ys.flatMap hexbitPair) := by
  induction xs generalizing ys with
  | nil => simp [differences]
  | cons x xs ih =>
    cases ys with
    | nil => simp [differences]
    | cons y ys =>
      have hrest := ih ys
      simp only [List.flatMap_cons, hexbitPair, List.cons_append, List.nil_append, differences] at hrest ⊢
      by_cases h : x = y
      · subst h
        simpa using hrest
      · rw [if_neg h]
        by_cases hhigh : x.extractLsb' 6 6 = y.extractLsb' 6 6
        · have hlow : x.extractLsb' 0 6 ≠ y.extractLsb' 0 6 := fun hlow => h (eq_of_hexbits hhigh hlow)
          rw [if_pos hhigh, if_neg hlow]
          omega
        · rw [if_neg hhigh]
          omega

section Tdulc

variable {m : BitVec 72} {air sent received : List Bool} (hsent : sent = Config.tdulcOrder.collect (tdulcEncode m))
  (hreceived : received = Config.tdulcOrder.collect air)

theorem length_tdulcWords (m : BitVec 72) : (joinHexbits (Config.rsLc.encode m)).length = 12 :=
  length_joinHexbits 12 _ (Config.rsLc.length_encode m)

theorem tdulcWords_hexbits (m : BitVec 72) :
    (joinHexbits (Config.rsLc.encode m)).flatMap hexbitPair = Config.rsLc.encode m :=
  joinHexbits_split 12 _ (Config.rsLc.length_encode m)

theorem rsLc_decode_iff {words : List (BitVec 12)} (hx : decodeWords Config.golay24 0 12 received = some words) :
    Config.rsLc.decode (words.flatMap hexbitPair) = some m ↔
      differences (Config.rsLc.encode m) (words.flatMap hexbitPair) ≤ 6 := by
  refine Config.rsLc.decode_eq_some m _ ?_
  have hw := length_decodeWords hx
  simp [List.length_flatMap, hexbitPair, hw]

include hsent

theorem tdulc_word_sent (i : Nat) (hi : i < (joinHexbits (Config.rsLc.encode m)).length) :
    bitsAt (0 + 24 * i) 24 sent = bvToBits (Config.golay24.encode (joinHexbits (Config.rsLc.encode m))[i]) := by
  rw [hsent, collect_tdulcEncode, Nat.zero_add, bitsAt_encodeWords _ _ _ hi]

include hreceived

/-- The hexbits wrong in a TDULC: at least one and at most two for every word beyond its code. -/
theorem tdulc_hexbits_wrong {words : List (BitVec 12)} (hx : decodeWords Config.golay24 0 12 received = some words) :
    wordsBeyond 3 0 24 12 sent received ≤ differences (Config.rsLc.encode m) (words.flatMap hexbitPair) ∧
      differences (Config.rsLc.encode m) (words.flatMap hexbitPair) ≤ 2 * wordsBeyond 3 0 24 12 sent received := by
  have hl : received.length = 288 := by rw [hreceived, BitOrder.length_collect]
  obtain ⟨-, hdiff⟩ := decodeWords_sent (b := received) (length_tdulcWords m) (tdulc_word_sent hsent) (by omega)
  have hlower := differences_le_hexbitPairs (joinHexbits (Config.rsLc.encode m)) words
  have hupper := differences_hexbitPairs (joinHexbits (Config.rsLc.encode m)) words
  rw [tdulcWords_hexbits] at hlower hupper
  rw [← hdiff words hx]
  exact ⟨hlower, hupper⟩

/-- A TDULC within the capability of its Reed-Solomon code is restored, unless one of its words does not decode. -/
theorem tdulcDecode_of_within (hb : wordsBeyond 3 0 24 12 sent received ≤ 3) :
    tdulcDecode air = (decodeWords Config.golay24 0 12 received).map fun _ => m := by
  rw [tdulcDecode_eq, ← hreceived]
  cases hx : decodeWords Config.golay24 0 12 received with
  | none => rfl
  | some words =>
    obtain ⟨-, hwrong⟩ := tdulc_hexbits_wrong hsent hreceived hx
    exact (rsLc_decode_iff hx).mpr (hwrong.trans (Nat.mul_le_mul_left 2 hb))

theorem tdulcDecode_within (h : tdulcDecode air = some m) : wordsBeyond 3 0 24 12 sent received ≤ 6 := by
  rw [tdulcDecode_eq, ← hreceived, Option.bind_eq_some_iff] at h
  obtain ⟨words, hx, hm⟩ := h
  obtain ⟨hwrong, -⟩ := tdulc_hexbits_wrong hsent hreceived hx
  exact hwrong.trans ((rsLc_decode_iff hx).mp hm)

theorem tdulc_words_of_none_beyond (hb : wordsBeyond 3 0 24 12 sent received = 0) :
    decodeWords Config.golay24 0 12 received = some (joinHexbits (Config.rsLc.encode m)) := by
  have hl : received.length = 288 := by rw [hreceived, BitOrder.length_collect]
  exact (decodeWords_sent (length_tdulcWords m) (tdulc_word_sent hsent) (by omega)).1 hb

/-- Four errors in a word, between the capability 3 and the distance 8, are always found. -/
theorem tdulcDecode_of_four_errors {i : Nat} (hi : i < 12)
    (h : differences (bitsAt (24 * i) 24 sent) (bitsAt (24 * i) 24 received) = 4) : tdulcDecode air = none := by
  have hl : received.length = 288 := by rw [hreceived, BitOrder.length_collect]
  rw [← Nat.zero_add (24 * i)] at h
  rw [tdulcDecode_eq, ← hreceived, decodeWords_of_detected hi
    (tdulc_word_sent hsent i (by rw [length_tdulcWords]; exact hi)) (by omega) (by omega) (by omega)]
  rfl

end Tdulc

/-! ## Voice frames (R345, R350) -/

theorem bvToBits_xor {n : Nat} (x y : BitVec n) : bvToBits (x ^^^ y) = List.zipWith xor (bvToBits x) (bvToBits y) := by
  apply List.ext_getElem (by simp)
  intro i h1 h2
  simp [bvToBits]

/-- The part of the voice mask that falls on the seven bits no code protects. -/
def tailMask (first : BitVec 12) : BitVec 7 := (Config.voiceMask first).extractLsb' 0 7

/-- The words of a voice frame, without the seven bits no code protects. -/
def voiceWords (f : BitVec 88) : List Bool :=
  bvToBits (Config.golay23.encode (f.extractLsb' 76 12)) ++
    maskVoice (f.extractLsb' 76 12)
      (encodeWords Config.golay23 [f.extractLsb' 64 12, f.extractLsb' 52 12, f.extractLsb' 40 12] ++
        encodeWords Config.hamming15 [f.extractLsb' 29 11, f.extractLsb' 18 11, f.extractLsb' 7 11])

theorem length_voiceWords (f : BitVec 88) : (voiceWords f).length = 137 := by simp [voiceWords]

theorem bvToBits_voiceMask (first : BitVec 12) :
    bvToBits (Config.voiceMask first) =
      bvToBits ((Config.voiceMask first).extractLsb' 7 114) ++ bvToBits (tailMask first) := by
  rw [tailMask, ← bvToBits_append, append_two (a := 114) (b := 7)]

/-- The mask on a voice frame's words and on its last seven bits. -/
theorem maskVoice_append (first : BitVec 12) {words : List Bool} (h : words.length = 114) (x : BitVec 7) :
    maskVoice first (words ++ bvToBits x) = maskVoice first words ++ bvToBits (x ^^^ tailMask first) := by
  have hl : words.length = (bvToBits ((Config.voiceMask first).extractLsb' 7 114)).length := by simp [h]
  have hwords := List.zipWith_append (f := xor) (l₁ := words) (l₁' := []) (l₂' := bvToBits (tailMask first)) hl
  rw [List.append_nil, List.zipWith_nil_left, List.append_nil] at hwords
  rw [maskVoice, maskVoice, bvToBits_voiceMask, List.zipWith_append hl, hwords, bvToBits_xor]

theorem voiceEncode_eq (f : BitVec 88) :
    voiceEncode f = voiceWords f ++ bvToBits (f.extractLsb' 0 7 ^^^ tailMask (f.extractLsb' 76 12)) := by
  rw [voiceEncode, voiceWords, maskVoice_append _ (by simp), List.append_assoc]

theorem bitsAt_voiceEncode_words {f : BitVec 88} {start len : Nat} (h : start + len ≤ 137) :
    bitsAt start len (voiceEncode f) = bitsAt start len (voiceWords f) := by
  rw [voiceEncode_eq, bitsAt_append_left (by rw [length_voiceWords]; exact h)]

theorem bitsAt_voiceEncode_tail (f : BitVec 88) :
    bitsAt 137 7 (voiceEncode f) = bvToBits (f.extractLsb' 0 7 ^^^ tailMask (f.extractLsb' 76 12)) := by
  rw [voiceEncode_eq, bitsAt_append_right (by rw [length_voiceWords]), length_voiceWords, Nat.sub_self,
    bitsAt_zero_of_length (by simp)]

/-- Errors in the last seven bits change none of a frame's words. -/
theorem extract_xor_tail (f : BitVec 88) (e : BitVec 7) {start len : Nat} (h : 7 ≤ start) :
    (f ^^^ e.setWidth 88).extractLsb' start len = f.extractLsb' start len := by
  apply BitVec.eq_of_getLsbD_eq
  intro i hi
  have hz : e.getLsbD (start + i) = false := BitVec.getLsbD_of_ge _ _ (by omega)
  simp [BitVec.getLsbD_extractLsb', hz]

theorem extract_tail_xor_tail (f : BitVec 88) (e : BitVec 7) :
    (f ^^^ e.setWidth 88).extractLsb' 0 7 = f.extractLsb' 0 7 ^^^ e := by
  apply BitVec.eq_of_getLsbD_eq
  intro i hi
  have h88 : i < 88 := by omega
  simp [hi, h88]

theorem voiceWords_xor_tail (f : BitVec 88) (e : BitVec 7) : voiceWords (f ^^^ e.setWidth 88) = voiceWords f := by
  unfold voiceWords
  repeat rw [extract_xor_tail f e (by decide)]

theorem wordsBeyond_congr_sent {t start n count len : Nat} {a b received : List Bool}
    (h : ∀ start n, start + n ≤ len → bitsAt start n a = bitsAt start n b) (hl : start + n * count ≤ len) :
    wordsBeyond t start n count a received = wordsBeyond t start n count b received := by
  refine List.countP_congr fun i hi => ?_
  have hn : n * (i + 1) ≤ n * count := Nat.mul_le_mul_left _ (by simpa using hi)
  rw [Nat.mul_succ] at hn
  rw [h _ _ (by omega)]

/-- Within the capability of its words a voice frame is restored, with the errors left in its last seven bits (R342 (a), R345). -/
theorem voiceDecode_of_words_within {f : BitVec 88} {b : List Bool} (hl : b.length = 144)
    (hg : wordsBeyond 3 0 23 4 (voiceEncode f) b = 0) (hh : wordsBeyond 1 92 15 3 (voiceEncode f) b = 0) :
    voiceDecode b =
      some (f ^^^ (bitsToBV 7 (bitsAt 137 7 (voiceEncode f)) ^^^ bitsToBV 7 (bitsAt 137 7 b)).setWidth 88) := by
  obtain ⟨e, he⟩ : ∃ e, e = bitsToBV 7 (bitsAt 137 7 (voiceEncode f)) ^^^ bitsToBV 7 (bitsAt 137 7 b) := ⟨_, rfl⟩
  have hwords : ∀ start n, start + n ≤ 137 →
      bitsAt start n (voiceEncode (f ^^^ e.setWidth 88)) = bitsAt start n (voiceEncode f) := fun start n h => by
    rw [bitsAt_voiceEncode_words h, voiceWords_xor_tail, bitsAt_voiceEncode_words h]
  rw [← he]
  refine (voiceDecode_eq_some hl).mpr ⟨?_, ?_, ?_⟩
  · rw [wordsBeyond_congr_sent hwords (by omega), hg]
  · rw [wordsBeyond_congr_sent hwords (by omega), hh]
  · have htail : f.extractLsb' 0 7 ^^^ e ^^^ tailMask (f.extractLsb' 76 12) = bitsToBV 7 (bitsAt 137 7 b) := by
      rw [he, bitsAt_voiceEncode_tail, bitsToBV_bvToBits]
      generalize f.extractLsb' 0 7 = x
      generalize tailMask (f.extractLsb' 76 12) = y
      generalize bitsToBV 7 (bitsAt 137 7 b) = z
      rw [show x ^^^ (x ^^^ y ^^^ z) ^^^ y = x ^^^ x ^^^ (y ^^^ y) ^^^ z by ac_rfl]
      simp
    rw [bitsAt_voiceEncode_tail, extract_tail_xor_tail, extract_xor_tail f e (by decide), htail,
      bvToBits_bitsToBV (by simp [hl])]

/-! ## LDU1 and LDU2 (R350, R352) -/

section Ldu

variable {k d t : Nat} {o : BitOrder 1568} {rs : SymbolCode k 24 d t} {frames : List (BitVec 88)} {word : BitVec k}
  {lowSpeed : BitVec 32} {air sent received : List Bool}
  (hf : frames.length = 9) (hsent : sent = o.collect (lduEncode o rs frames word lowSpeed))
  (hreceived : received = o.collect air)
include hf hsent

theorem ldu_frame_sent (j : Nat) (hj : j < 9) :
    bitsAt (144 * j) 144 sent = voiceEncode (frames[j]'(by omega)) := by
  rw [hsent, collect_lduEncode o rs hf, List.append_assoc,
    bitsAt_append_left (by rw [length_voiceBits, hf]; omega), bitsAt_voiceBits _ _ (by omega)]

theorem ldu_hexbit_sent (i : Nat) (hi : i < (rs.encode word).length) :
    bitsAt (1296 + 10 * i) 10 sent = bvToBits (Config.hamming10.encode (rs.encode word)[i]) := by
  have hv : (frames.flatMap voiceEncode).length = 1296 := by rw [length_voiceBits, hf]
  rw [hsent, collect_lduEncode o rs hf, List.append_assoc, bitsAt_append_right (by omega), hv, Nat.add_sub_cancel_left,
    bitsAt_append_left (by rw [length_encodeWords]; omega), bitsAt_encodeWords _ _ _ hi]

/-- The words of a voice frame, counted in the frame and in the body. -/
theorem ldu_frame_beyond (j : Nat) (hj : j < 9) {t' start n count : Nat} (h : start + n * count ≤ 144) :
    wordsBeyond t' start n count (voiceEncode (frames[j]'(by omega))) (bitsAt (144 * j) 144 received) =
      wordsBeyond t' (144 * j + start) n count sent received := by
  rw [← ldu_frame_sent hf hsent j hj, wordsBeyond_bitsAt _ _ _ _ _ _ _ _ h]

include hreceived

theorem voiceFrames_of_within (hw : voiceWithin sent received) :
    voiceFrames received = some (frames.mapIdx (frameReceived sent received)) := by
  have hl : received.length = 1568 := by rw [hreceived, o.length_collect]
  rw [voiceFrames, allSome_eq_some]
  apply List.ext_getElem (by simp [hf])
  intro j h1 h2
  have hj : j < 9 := by simpa using h1
  obtain ⟨hg, hh⟩ := hw j hj
  have hdecode := voiceDecode_of_words_within (f := frames[j]) (b := bitsAt (144 * j) 144 received) (by simp [hl]; omega)
    (by rw [ldu_frame_beyond hf hsent j hj (by omega)]; exact hg)
    (by rw [ldu_frame_beyond hf hsent j hj (by omega)]; exact hh)
  rw [← ldu_frame_sent hf hsent j hj, bitsAt_bitsAt _ _ _ _ _ (by omega),
    bitsAt_bitsAt _ _ _ _ _ (by omega)] at hdecode
  simp only [List.getElem_map, List.getElem_range, List.getElem_mapIdx, hdecode, frameReceived]

theorem voiceWithin_of_voiceFrames (h : voiceFrames received = some frames) : voiceWithin sent received := by
  have hl : received.length = 1568 := by rw [hreceived, o.length_collect]
  rw [voiceFrames, allSome_eq_some] at h
  intro j hj
  have hdecode : voiceDecode (bitsAt (144 * j) 144 received) = some (frames[j]'(by omega)) := by
    have hget := congrArg (fun l => l[j]?) h
    simpa [hj, hf] using hget
  obtain ⟨hg, hh, -⟩ := (voiceDecode_eq_some (by simp [hl]; omega)).mp hdecode
  rw [ldu_frame_beyond hf hsent j hj (by omega)] at hg hh
  exact ⟨hg, hh⟩

/-- Within the capability of the voice frames' codes and of the Reed-Solomon code an LDU is restored, unless a hexbit's word does
not decode. -/
theorem lduDecode_of_within (hw : voiceWithin sent received) (hb : wordsBeyond 1 1296 10 24 sent received ≤ t) :
    lduDecode o rs air =
      (decodeWords Config.hamming10 1296 24 received).map fun _ =>
        (frames.mapIdx (frameReceived sent received), word) := by
  have hl : received.length = 1568 := by rw [hreceived, o.length_collect]
  have hvoice := voiceFrames_of_within hf hsent hreceived hw
  cases hx : decodeWords Config.hamming10 1296 24 received with
  | none =>
    rw [hreceived] at hx hvoice
    simp only [lduDecode, hvoice, hx, Option.map_none]
  | some hexbits =>
    have hword := (decode_hexbits_iff (ldu_hexbit_sent hf hsent) (by omega) hx).mpr hb
    exact lduDecode_eq_some.mpr ⟨hreceived ▸ hvoice, hexbits, hreceived ▸ hx, hword⟩

theorem lduDecode_within (h : lduDecode o rs air = some (frames, word)) :
    voiceWithin sent received ∧ wordsBeyond 1 1296 10 24 sent received ≤ t := by
  have hl : received.length = 1568 := by rw [hreceived, o.length_collect]
  obtain ⟨hvoice, hexbits, hx, hword⟩ := lduDecode_eq_some.mp h
  rw [← hreceived] at hvoice hx
  exact ⟨voiceWithin_of_voiceFrames hf hsent hreceived hvoice,
    (decode_hexbits_iff (ldu_hexbit_sent hf hsent) (by omega) hx).mp hword⟩

theorem hexbits_of_none_beyond (hb : wordsBeyond 1 1296 10 24 sent received = 0) :
    decodeWords Config.hamming10 1296 24 received = some (rs.encode word) := by
  have hl : received.length = 1568 := by rw [hreceived, o.length_collect]
  exact decodeWords_of_none_beyond (ldu_hexbit_sent hf hsent) (by omega) hb

end Ldu

/-! ## The units handed over (R294, R342) -/

theorem withDecodedUnit_eq_valid {kind : UnitKind} {body : Option Body} {b : Body} {s : State}
    (h : withDecodedUnit kind body s = withValidUnit kind b s) : body = some b := by
  have hunit := congrArg State.unit h
  cases body with
  | some b' =>
    simp only [withDecodedUnit, withValidUnit, Option.some.injEq, DataUnit.mk.injEq, true_and] at hunit
    rw [hunit]
  | none => simp [withDecodedUnit, withInvalidUnit, withValidUnit] at hunit

/-- Settles O13, class by class: the body is what its words decode to, and the unit is what the body is. -/
theorem bodyRestoredWithinCapability : Obligations.BodyRestoredWithinCapability := by
  unfold Obligations.BodyRestoredWithinCapability
  intro nac s c sent received hc
  refine ⟨fun m hl hsent hreceived => ?_, fun m hl hsent hreceived => ?_,
    fun frames lc lowSpeed hf hl hsent hreceived => ?_, fun frames es lowSpeed hf hl hsent hreceived => ?_⟩
  · rw [execFrameHdu_of_complete hc hl]
    refine ⟨fun hb => ?_, fun hb => ?_, fun h => ?_, fun i hi h => ?_⟩
    · rw [hduDecode_of_within hsent hreceived (by omega), hdu_hexbits_of_none_beyond hsent hreceived hb]
      rfl
    · rw [hduDecode_of_within hsent hreceived hb]
      cases decodeWords Config.golay18 0 36 received <;> rfl
    · exact hduDecode_within hsent hreceived (by simpa using withDecodedUnit_eq_valid (Host.Outcome.next.inj h))
    · rw [hduDecode_of_four_errors hsent hreceived hi h]
      rfl
  · rw [execFrameTdulc_of_complete hc hl]
    refine ⟨fun hb => ?_, fun hb => ?_, fun h => ?_, fun i hi h => ?_⟩
    · rw [tdulcDecode_of_within hsent hreceived (by omega), tdulc_words_of_none_beyond hsent hreceived hb]
      rfl
    · rw [tdulcDecode_of_within hsent hreceived hb]
      cases decodeWords Config.golay24 0 12 received <;> rfl
    · exact tdulcDecode_within hsent hreceived (by simpa using withDecodedUnit_eq_valid (Host.Outcome.next.inj h))
    · rw [tdulcDecode_of_four_errors hsent hreceived hi h]
      rfl
  · rw [execFrameLdu1_of_complete hc hl]
    refine ⟨fun hw hb => ?_, fun hw hb => ?_, fun h => ?_⟩
    · rw [lduDecode_of_within hf hsent hreceived hw (by omega), hexbits_of_none_beyond hf hsent hreceived hb]
      rfl
    · rw [lduDecode_of_within hf hsent hreceived hw hb]
      cases decodeWords Config.hamming10 1296 24 received <;> rfl
    · exact lduDecode_within hf hsent hreceived (by simpa using withDecodedUnit_eq_valid (Host.Outcome.next.inj h))
  · rw [execFrameLdu2_of_complete hc hl]
    refine ⟨fun hw hb => ?_, fun hw hb => ?_, fun h => ?_⟩
    · rw [lduDecode_of_within hf hsent hreceived hw (by omega), hexbits_of_none_beyond hf hsent hreceived hb]
      rfl
    · rw [lduDecode_of_within hf hsent hreceived hw hb]
      cases decodeWords Config.hamming10 1296 24 received <;> rfl
    · exact lduDecode_within hf hsent hreceived (by simpa using withDecodedUnit_eq_valid (Host.Outcome.next.inj h))

end Sys2Proof.FrameSyncProofs
end

section
/-! PROOFS. The NID code: nonzero codewords vanish at 22 consecutive powers of a generator of GF(64), so they have 23 one bits
or more (the BCH bound), and the search of all codewords finds the one within 11 bit errors. -/

namespace Sys2Proof.FecProofs

open Sys2Proof Sys2Proof.Machine Sys2Proof.EncodingProofs Sys2Proof.FrameSyncProofs

/-! ## The Hamming weight -/

/-- The positions of the one bits. -/
def support {n : Nat} (x : BitVec n) : List Nat := (List.range n).filter fun i => x.getLsbD i

theorem cpopNatRec_eq_countP {n : Nat} (x : BitVec n) (i acc : Nat) :
    x.cpopNatRec i acc = acc + (List.range i).countP fun j => x.getLsbD j := by
  induction i generalizing acc with
  | zero => simp
  | succ i ih =>
    rw [BitVec.cpopNatRec_succ, ih, List.range_succ, List.countP_append, List.countP_singleton,
      Nat.add_assoc, Nat.add_comm (x.getLsbD i).toNat]
    cases x.getLsbD i <;> rfl

theorem popcount_eq_length_support {n : Nat} (x : BitVec n) : popcount x = (support x).length := by
  rw [popcount, BitVec.toNat_cpop, cpopNatRec_eq_countP, Nat.zero_add, List.countP_eq_length_filter, support]

theorem popcount_eq_weight {n : Nat} (x : BitVec n) : popcount x = weight x := by
  rw [weight_eq_oneBits, oneBits_eq, popcount_eq_length_support, support, ← List.countP_eq_length_filter]
  rfl

/-- The Hamming distance between two words is at most that over a third. -/
theorem popcount_xor_triangle {n : Nat} (a b r : BitVec n) :
    popcount (a ^^^ b) ≤ popcount (a ^^^ r) + popcount (b ^^^ r) := by
  have h := bitErrors_triangle a r b
  rw [show bitErrors r b = bitErrors b r from differences_comm _ _] at h
  simpa only [popcount_eq_weight, bitErrors_eq_weight] using h

theorem support_eq_nil {n : Nat} {x : BitVec n} : support x = [] ↔ x = 0#n := by
  refine ⟨fun h => BitVec.eq_of_getLsbD_eq fun i hi => ?_, ?_⟩
  · have hbit := List.filter_eq_nil_iff.mp h i (List.mem_range.mpr hi)
    simpa using hbit
  · rintro rfl
    simp [support]

theorem popcount_eq_zero {n : Nat} {x : BitVec n} : popcount x = 0 ↔ x = 0#n := by
  rw [popcount_eq_length_support, List.length_eq_zero_iff, support_eq_nil]

/-! ## Encoding is linear (R344) -/

/-- A division step shifts, and subtracts the generator where a bit falls out. -/
theorem bchStep_eq (r : BitVec 47) (m : Bool) :
    bchStep r m = (r <<< 1) ^^^ (if (r.msb ^^ m) = true then bchGenerator.setWidth 47 else 0#47) := by
  rw [bchStep]
  split
  · rfl
  · rw [BitVec.xor_zero]

theorem ite_xor {n : Nat} (g : BitVec n) (a b : Bool) :
    (if (a ^^ b) = true then g else 0#n) = (if a = true then g else 0#n) ^^^ (if b = true then g else 0#n) := by
  cases a <;> cases b <;> simp

theorem bchStep_xor (r s : BitVec 47) (a b : Bool) : bchStep (r ^^^ s) (a ^^ b) = bchStep r a ^^^ bchStep s b := by
  have hmsb : ((r ^^^ s).msb ^^ (a ^^ b)) = ((r.msb ^^ a) ^^ (s.msb ^^ b)) := by
    rw [BitVec.msb_xor, Bool.xor_assoc, Bool.xor_assoc, Bool.xor_left_comm s.msb]
  rw [bchStep_eq, bchStep_eq, bchStep_eq, hmsb, ite_xor, BitVec.shiftLeft_xor_distrib]
  ac_rfl

theorem foldl_bchStep_xor (as bs : List Bool) (h : as.length = bs.length) (r s : BitVec 47) :
    (List.zipWith xor as bs).foldl bchStep (r ^^^ s) = as.foldl bchStep r ^^^ bs.foldl bchStep s := by
  induction as generalizing bs r s with
  | nil => simp [List.length_eq_zero_iff.mp h.symm]
  | cons a as ih =>
    match bs, h with
    | b :: bs, h =>
      rw [List.zipWith_cons_cons, List.foldl_cons, bchStep_xor, ih bs (by simpa using h), List.foldl_cons, List.foldl_cons]

theorem bchEncode_xor (a b : BitVec 16) : bchEncode (a ^^^ b) = bchEncode a ^^^ bchEncode b := by
  have hparity : bchParity (a ^^^ b) = bchParity a ^^^ bchParity b := by
    simpa only [bchParity, bvToBits_xor, BitVec.xor_self] using
      foldl_bchStep_xor (bvToBits a) (bvToBits b) (by simp) 0#47 0#47
  rw [bchEncode, hparity, bchEncode, bchEncode, BitVec.xor_append]

theorem bchEncode_injective {a b : BitVec 16} (h : bchEncode a = bchEncode b) : a = b := by
  rw [← bchEncode_data a, h, bchEncode_data]

/-- The codeword of the data word with bit `i` set: a row of the generator matrix. -/
def bchRow (i : Nat) : BitVec 63 := bchEncode (BitVec.twoPow 16 i)

theorem rowSum_bchRow (m : BitVec 16) (k : Nat) :
    rowSum bchRow m k = bchEncode (rowSum (BitVec.twoPow 16) m k) := by
  have hzero : bchEncode 0#16 = 0#63 := by simpa using bchEncode_xor 0#16 0#16
  induction k with
  | zero => exact hzero.symm
  | succ k ih =>
    rw [rowSum, rowSum, bchEncode_xor, ih, apply_ite bchEncode, hzero, bchRow]

theorem getLsbD_rowSum_twoPow {n : Nat} (m : BitVec n) (k j : Nat) :
    (rowSum (BitVec.twoPow n) m k).getLsbD j = (decide (j < k) && m.getLsbD j) := by
  induction k with
  | zero => simp [rowSum]
  | succ k ih =>
    rw [rowSum, BitVec.getLsbD_xor, ih]
    by_cases hjk : j = k
    · subst hjk
      cases hm : m.getLsbD j with
      | false => simp
      | true => simp [BitVec.lt_of_getLsbD hm]
    · have hlt : j < k + 1 ↔ j < k := by omega
      cases m.getLsbD k <;> simp [hlt, BitVec.getLsbD_twoPow, Ne.symm hjk]

/-- Every codeword is the sum of the rows its data selects. -/
theorem bchEncode_eq_rowSum (m : BitVec 16) : bchEncode m = rowSum bchRow m 16 := by
  rw [rowSum_bchRow]
  congr 1
  refine BitVec.eq_of_getLsbD_eq fun j hj => ?_
  rw [getLsbD_rowSum_twoPow, decide_eq_true hj, Bool.true_and]

/-! ## Sums over positions in GF(64) -/

/-- The sum of the values of `f` at some positions. -/
def gfSum (is : List Nat) (f : Nat → Hexbit) : Hexbit := (is.map f).foldr (· ^^^ ·) 0#6

@[simp] theorem gfSum_nil (f : Nat → Hexbit) : gfSum [] f = 0#6 := rfl

@[simp] theorem gfSum_cons (i : Nat) (is : List Nat) (f : Nat → Hexbit) : gfSum (i :: is) f = f i ^^^ gfSum is f := rfl

theorem gfSum_filter (p : Nat → Bool) (is : List Nat) (f : Nat → Hexbit) :
    gfSum (is.filter p) f = gfSum is fun i => if p i = true then f i else 0#6 := by
  induction is with
  | nil => rfl
  | cons i is ih => cases hp : p i <;> simp [hp, ih]

theorem gfSum_xor (is : List Nat) (f g : Nat → Hexbit) : gfSum is f ^^^ gfSum is g = gfSum is fun i => f i ^^^ g i := by
  induction is with
  | nil => exact BitVec.xor_self
  | cons i is ih => rw [gfSum_cons, gfSum_cons, gfSum_cons, ← ih, xor_four]

theorem gfPow_gfSum (j : Nat) (is : List Nat) (f : Nat → Hexbit) :
    gfPow j (gfSum is f) = gfSum is fun i => gfPow j (f i) := by
  induction is with
  | nil => exact gfPow_zero j
  | cons i is ih => rw [gfSum_cons, gfSum_cons, gfPow_xor, ih]

theorem gfSum_zeros {is : List Nat} {f : Nat → Hexbit} (h : ∀ i ∈ is, f i = 0#6) : gfSum is f = 0#6 := by
  induction is with
  | nil => rfl
  | cons i is ih => rw [gfSum_cons, h i List.mem_cons_self, ih fun k hk => h k (List.mem_cons_of_mem i hk), BitVec.xor_zero]

theorem gfPow_period : ∀ a : Hexbit, gfPow 63 a = a := by decide +kernel

theorem gfPow_periods (q : Nat) (a : Hexbit) : gfPow (63 * q) a = a := by
  induction q with
  | zero => rfl
  | succ q ih => rw [Nat.mul_succ, gfPow_add, gfPow_period, ih]

theorem gfPow_mod (j : Nat) (a : Hexbit) : gfPow j a = gfPow (j % 63) a := by
  rw [← gfPow_periods (j / 63) (gfPow (j % 63) a), ← gfPow_add, Nat.div_add_mod]

/-- A Vandermonde system has only the zero solution: subtracting the first unknown's multiple of each power sum from the next
one leaves the system of the other unknowns. -/
theorem zero_of_powerSums {is : List Nat} (hd : is.Nodup) (hlt : ∀ i ∈ is, i < 63) (x : Nat → Hexbit)
    (h : ∀ j, 1 ≤ j → j ≤ is.length → gfSum is (fun i => gfPow (j * i) (x i)) = 0#6) : ∀ i ∈ is, x i = 0#6 := by
  induction is generalizing x with
  | nil => simp
  | cons m is ih =>
    obtain ⟨hm, hd⟩ := List.nodup_cons.mp hd
    have hrest : ∀ i ∈ is, gfPow i (x i) ^^^ gfPow m (x i) = 0#6 := by
      refine ih hd (fun i hi => hlt i (List.mem_cons_of_mem m hi)) _ fun j h1 hj => ?_
      have hnext := h (j + 1) (by omega) (by simpa using hj)
      have htimes := congrArg (gfPow m) (h j h1 (by rw [List.length_cons]; omega))
      rw [gfPow_zero, gfPow_gfSum] at htimes
      have hsum := congrArg₂ (· ^^^ ·) hnext htimes
      rw [gfSum_cons, gfSum_cons, xor_four, gfSum_xor] at hsum
      simpa [← gfPow_add, gfPow_xor, Nat.succ_mul, Nat.add_comm m] using hsum
    have hzero : ∀ i ∈ is, x i = 0#6 := fun i hi =>
      gfPow_separates (hlt i (List.mem_cons_of_mem m hi)) (hlt m List.mem_cons_self) (fun he => hm (he ▸ hi)) _ (hrest i hi)
    refine List.forall_mem_cons.mpr ⟨gfPow_injective (1 * m) _ ?_, hzero⟩
    have hfirst := h 1 le_rfl (by simp)
    rwa [gfSum_cons, gfSum_zeros fun i hi => by rw [hzero i hi, gfPow_zero], BitVec.xor_zero] at hfirst

/-! ## The BCH bound (R344) -/

/-- The value of a word, as a polynomial with bit `i` the coefficient of `x^i`, at the `j`-th power of the generator. -/
def valueAt {n : Nat} (j : Nat) (w : BitVec n) : Hexbit :=
  gfSum (List.range n) fun i => if w.getLsbD i = true then gfPow (j * i) 1#6 else 0#6

theorem valueAt_eq_sum {n : Nat} (j : Nat) (w : BitVec n) : valueAt j w = gfSum (support w) fun i => gfPow (j * i) 1#6 :=
  (gfSum_filter _ _ _).symm

theorem valueAt_xor {n : Nat} (j : Nat) (v w : BitVec n) : valueAt j (v ^^^ w) = valueAt j v ^^^ valueAt j w := by
  simp only [valueAt, gfSum_xor, BitVec.getLsbD_xor, ite_xor]

/-- The rows vanish at 22 consecutive powers of the generator: those are roots of the code's generator polynomial. -/
theorem valueAt_bchRow : ∀ i < 16, ∀ j < 23, 1 ≤ j → valueAt j (bchRow i) = 0#6 := by
  simp only [valueAt_eq_sum, gfPow_mod (_ * _)]
  decide +kernel

theorem valueAt_rowSum {k n j : Nat} {row : Nat → BitVec n} (m : BitVec k) {i : Nat}
    (h : ∀ l < i, valueAt j (row l) = 0#6) : valueAt j (rowSum row m i) = 0#6 := by
  have hzero : valueAt j (0#n) = 0#6 := by simpa using valueAt_xor j 0#n 0#n
  induction i with
  | zero => exact hzero
  | succ i ih =>
    rw [rowSum, valueAt_xor, ih fun l hl => h l (Nat.lt_succ_of_lt hl), BitVec.zero_xor]
    split
    · exact h i (Nat.lt_succ_self i)
    · exact hzero

theorem valueAt_bchEncode (m : BitVec 16) {j : Nat} (h1 : 1 ≤ j) (hj : j < 23) : valueAt j (bchEncode m) = 0#6 := by
  rw [bchEncode_eq_rowSum]
  exact valueAt_rowSum m fun i hi => valueAt_bchRow i hi j hj h1

/-- A word that vanishes at 22 consecutive powers of the generator is 0 or has 23 one bits or more. -/
theorem bch_bound {w : BitVec 63} (h : ∀ j, 1 ≤ j → j < 23 → valueAt j w = 0#6) (h0 : w ≠ 0#63) : 23 ≤ popcount w := by
  by_contra hlight
  rw [popcount_eq_length_support] at hlight
  have hlt : ∀ i ∈ support w, i < 63 := fun i hi => List.mem_range.mp (List.mem_of_mem_filter hi)
  have hone : ∀ i ∈ support w, 1#6 = 0#6 :=
    zero_of_powerSums (is := support w) (List.nodup_range.filter _) hlt (fun _ => 1#6) fun j h1 hj => by
      rw [← valueAt_eq_sum, h j h1 (by omega)]
  refine h0 (support_eq_nil.mp (List.eq_nil_iff_forall_not_mem.mpr fun i hi => ?_))
  exact absurd (hone i hi) (by decide)

theorem bchEncode_distance {a b : BitVec 16} (hne : a ≠ b) : 23 ≤ popcount (bchEncode a ^^^ bchEncode b) := by
  refine bch_bound (fun j h1 hj => ?_) fun h0 => hne (bchEncode_injective ?_)
  · rw [← bchEncode_xor, valueAt_bchEncode _ h1 hj]
  · simpa using congrArg (· ^^^ bchEncode b) h0

/-- At most one codeword lies within 11 bit errors of a word. -/
theorem bchEncode_unique {a b : BitVec 16} {r : BitVec 63} (ha : popcount (bchEncode a ^^^ r) ≤ 11)
    (hb : popcount (bchEncode b ^^^ r) ≤ 11) : a = b := by
  by_contra hne
  have hfar := bchEncode_distance hne
  have htriangle := popcount_xor_triangle (bchEncode a) (bchEncode b) r
  omega

/-! ## The search (R344) -/

/-- The first `k` rows, the last first. -/
def rowsDown (row : Nat → BitVec 63) : Nat → List (BitVec 63)
  | 0 => []
  | i + 1 => row i :: rowsDown row i

theorem map_range_eq_rowsDown (row : Nat → BitVec 63) (n : Nat) :
    ((List.range n).map fun i => row (n - 1 - i)) = rowsDown row n := by
  induction n with
  | zero => rfl
  | succ n ih =>
    rw [List.range_succ_eq_map, List.map_cons, List.map_map, rowsDown, ← ih]
    refine congrArg _ (List.map_congr_left fun i _ => congrArg row ?_)
    omega

theorem bchRows_eq : bchRows = rowsDown bchRow 16 := by
  have hrow (i : Nat) : bchEncode (BitVec.ofNat 16 (2 ^ i)) = bchRow i :=
    congrArg bchEncode (BitVec.eq_of_toNat_eq (by rw [BitVec.toNat_ofNat, BitVec.toNat_twoPow]))
  simp only [bchRows, hrow]
  exact map_range_eq_rowsDown bchRow 16

theorem nearest_nil_eq_some {t : Nat} {r c w : BitVec 63} :
    nearest t r [] c = some w ↔ c = w ∧ popcount (c ^^^ r) ≤ t := by
  rw [nearest]
  split <;> simp [*]

/-- The sums without a row are searched before those with it. -/
theorem nearest_cons (t : Nat) (r row c : BitVec 63) (rows : List (BitVec 63)) :
    nearest t r (row :: rows) c = (nearest t r rows c).or (nearest t r rows (c ^^^ row)) := by
  rw [nearest]
  cases nearest t r rows c <;> rfl

theorem nearest_within {t : Nat} {r c w : BitVec 63} {rows : List (BitVec 63)} (h : nearest t r rows c = some w) :
    popcount (w ^^^ r) ≤ t := by
  induction rows generalizing c with
  | nil =>
    obtain ⟨rfl, hc⟩ := nearest_nil_eq_some.mp h
    exact hc
  | cons row rows ih =>
    rw [nearest_cons, Option.or_eq_some_iff] at h
    exact h.elim ih fun ⟨_, hrow⟩ => ih hrow

/-- What the search finds is reached from where it begins by adding rows. -/
theorem nearest_induction {t : Nat} {r c w : BitVec 63} {rows : List (BitVec 63)} {P : BitVec 63 → Prop}
    (hadd : ∀ row ∈ rows, ∀ v, P v → P (v ^^^ row)) (hc : P c) (h : nearest t r rows c = some w) : P w := by
  induction rows generalizing c with
  | nil =>
    obtain ⟨rfl, -⟩ := nearest_nil_eq_some.mp h
    exact hc
  | cons row rows ih =>
    obtain ⟨hrow, hrows⟩ := List.forall_mem_cons.mp hadd
    rw [nearest_cons, Option.or_eq_some_iff] at h
    exact h.elim (ih hrows hc) fun ⟨_, hnext⟩ => ih hrows (hrow c hc) hnext

/-- The search misses no sum of rows. -/
theorem nearest_complete {k t : Nat} {r c : BitVec 63} {row : Nat → BitVec 63} (m : BitVec k) {i : Nat}
    (h : nearest t r (rowsDown row i) c = none) : t < popcount ((c ^^^ rowSum row m i) ^^^ r) := by
  induction i generalizing c with
  | zero =>
    by_contra hc
    rw [rowSum, BitVec.xor_zero, Nat.not_lt] at hc
    cases h.symm.trans (nearest_nil_eq_some.mpr ⟨rfl, hc⟩)
  | succ i ih =>
    rw [rowsDown, nearest_cons, Option.or_eq_none_iff] at h
    obtain ⟨hwithout, hwith⟩ := h
    rw [rowSum]
    cases m.getLsbD i with
    | false => simpa using ih hwithout
    | true => simpa [BitVec.xor_assoc, BitVec.xor_comm (row i)] using ih hwith

theorem mem_bchRows {row : BitVec 63} (h : row ∈ bchRows) : ∃ m, row = bchEncode m := by
  rw [bchRows, List.mem_map] at h
  obtain ⟨i, _, rfl⟩ := h
  exact ⟨_, rfl⟩

theorem bchDecode_sound {r w : BitVec 63} (h : bchDecode r = some w) :
    ∃ m, w = bchEncode m ∧ popcount (bchEncode m ^^^ r) ≤ 11 := by
  have hcode : ∃ m, w = bchEncode m := by
    refine nearest_induction (P := fun v => ∃ m, v = bchEncode m) ?_ ⟨_, rfl⟩ h
    rintro row hrow v ⟨a, rfl⟩
    obtain ⟨b, rfl⟩ := mem_bchRows hrow
    exact ⟨a ^^^ b, (bchEncode_xor a b).symm⟩
  obtain ⟨m, rfl⟩ := hcode
  exact ⟨m, rfl, nearest_within h⟩

theorem bchDecode_ne_none {r : BitVec 63} {m : BitVec 16} (h : popcount (bchEncode m ^^^ r) ≤ 11) : bchDecode r ≠ none := by
  intro hnone
  rw [bchDecode, bchRows_eq] at hnone
  have hfar := nearest_complete (r.extractLsb' 47 16 ^^^ m) hnone
  rw [← bchEncode_eq_rowSum, ← bchEncode_xor, ← BitVec.xor_assoc, BitVec.xor_self, BitVec.zero_xor] at hfar
  exact absurd h (Nat.not_le.mpr hfar)

/-- The decoder finds a codeword exactly where it lies within 11 bit errors (R344). -/
theorem bchDecode_eq_some {r : BitVec 63} {m : BitVec 16} :
    bchDecode r = some (bchEncode m) ↔ popcount (bchEncode m ^^^ r) ≤ 11 := by
  refine ⟨nearest_within, fun hm => ?_⟩
  obtain ⟨w, hw⟩ := Option.ne_none_iff_exists'.mp (bchDecode_ne_none hm)
  obtain ⟨a, rfl, ha⟩ := bchDecode_sound hw
  rw [hw, bchEncode_unique ha hm]

/-- Settles O4, by the BCH bound: codewords lie 23 bits apart, so at most one lies within 11 bit errors. -/
theorem nidDecodesWithinEleven : Obligations.NidDecodesWithinEleven := by
  unfold Obligations.NidDecodesWithinEleven
  intro nid nac duid
  rw [← bchDecode_eq_some, nidDecode, Option.map_eq_some_iff]
  constructor
  · rintro ⟨w, hw, hfields⟩
    obtain ⟨m, rfl, -⟩ := bchDecode_sound hw
    obtain ⟨hnac, hduid⟩ := bchEncode_fields (m.extractLsb' 4 12) (m.extractLsb' 0 4)
    rw [append_two (a := 12) (b := 4) m] at hnac hduid
    obtain ⟨rfl, rfl⟩ := Prod.mk.inj hfields
    rw [hnac, hduid, append_two (a := 12) (b := 4) m, hw]
  · intro hw
    obtain ⟨hnac, hduid⟩ := bchEncode_fields nac duid
    exact ⟨_, hw, by rw [hnac, hduid]⟩

end Sys2Proof.FecProofs
end

section
/-! PROOFS. The block code of TSBKs and PDU headers: DEINT is a permutation that interleaving undoes, the trellis decoder finds
the first of the best paths, and so it restores what the encoder sent. -/

namespace Sys2Proof.FecProofs

open Sys2Proof Sys2Proof.Machine Sys2Proof.FrameSyncProofs

/-! ## Deinterleaving (R343) -/

theorem deint_perm : deint.Perm (List.range 98) := by decide +kernel

theorem deint_row_column : ∀ p < 49,
    let r := if p < 13 then 0 else 1 + (p - 13) / 12
    let c := if p < 13 then p else (p - 13) % 12
    deint.getD (2 * p) 0 = 2 * (4 * c + r) ∧ deint.getD (2 * p + 1) 0 = 2 * (4 * c + r) + 1 := by decide +kernel

theorem length_deint : deint.length = 98 := rfl

theorem nodup_deint : deint.Nodup := deint_perm.nodup_iff.mpr List.nodup_range

theorem mem_deint {k : Nat} : k ∈ deint ↔ k < 98 := deint_perm.mem_iff.trans List.mem_range

@[simp] theorem length_deinterleave (air : List Dibit) : (deinterleave air).length = 98 := by
  rw [deinterleave, List.length_map, length_deint]

@[simp] theorem length_interleave (coded : List Dibit) : (interleave coded).length = 98 := by
  rw [interleave, List.length_map, List.length_range]

theorem getElem_deinterleave (air : List Dibit) {i : Nat} (h : i < (deinterleave air).length) :
    (deinterleave air)[i] = air.getD (deint[i]'(by rwa [length_deint, ← length_deinterleave air])) 0#2 := by
  simp [deinterleave]

theorem getElem_interleave (coded : List Dibit) {k : Nat} (h : k < (interleave coded).length) :
    (interleave coded)[k] = coded.getD (deint.idxOf k) 0#2 := by
  simp [interleave]

theorem deinterleave_interleave {coded : List Dibit} (h : coded.length = 98) : deinterleave (interleave coded) = coded := by
  refine List.ext_getElem (by rw [length_deinterleave, h]) fun i hi hi' => ?_
  have hlen : i < deint.length := by rw [length_deint, ← h]; exact hi'
  have hk : deint[i] < (interleave coded).length := by
    rw [length_interleave]
    exact mem_deint.mp (List.getElem_mem hlen)
  rw [getElem_deinterleave, List.getD_eq_getElem _ _ hk, getElem_interleave, nodup_deint.idxOf_getElem i hlen,
    List.getD_eq_getElem _ _ hi']

theorem interleave_deinterleave {air : List Dibit} (h : air.length = 98) : interleave (deinterleave air) = air := by
  refine List.ext_getElem (by rw [length_interleave, h]) fun k hk hk' => ?_
  have hidx : deint.idxOf k < deint.length := List.idxOf_lt_length_iff.mpr (mem_deint.mpr (h ▸ hk'))
  have hi : deint.idxOf k < (deinterleave air).length := by rwa [length_deinterleave, ← length_deint]
  rw [getElem_interleave, List.getD_eq_getElem _ _ hi, getElem_deinterleave, List.getElem_idxOf hidx,
    List.getD_eq_getElem _ _ hk']

/-- Settles O7: the table is checked against the formula row by row, and a permutation has its index function as inverse. -/
theorem deintIsRowColumnMap : Obligations.DeintIsRowColumnMap := by
  unfold Obligations.DeintIsRowColumnMap
  refine ⟨fun air i hi => ?_, deint_row_column, deint_perm, fun coded h =>
    ⟨deinterleave_interleave h, interleave_deinterleave h⟩⟩
  rw [List.getD_eq_getElem _ _ (by rwa [length_deinterleave]), getElem_deinterleave,
    List.getD_eq_getElem deint _ (by rwa [length_deint])]

/-! ## Comparing paths (R346) -/

/-- A path is no worse than another where its metric is less, or the same with inputs at most the other's in lexicographic
order. -/
def NoWorse (p q : Path) : Prop := p.metric < q.metric ∨ p.metric = q.metric ∧ (p.ins = q.ins ∨ p.ins < q.ins)

theorem NoWorse.refl (p : Path) : NoWorse p p := .inr ⟨rfl, .inl rfl⟩

theorem NoWorse.trans {p q r : Path} (hpq : NoWorse p q) (hqr : NoWorse q r) : NoWorse p r := by
  obtain hm | ⟨hm, hi⟩ := hpq
  · exact .inl (hqr.elim hm.trans fun ⟨he, _⟩ => he ▸ hm)
  · refine hqr.imp hm.trans_lt fun ⟨hm', hi'⟩ => ⟨hm.trans hm', ?_⟩
    obtain hi | hi := hi
    · exact hi ▸ hi'
    · exact .inr (hi'.elim (fun he => he ▸ hi) (List.lt_trans hi))

theorem better_of {P : Path → Prop} {a b : Path} (ha : P a) (hb : P b) : P (a.better b) := by
  unfold Path.better
  split
  · exact hb
  · exact ha

theorem better_ins_lt {a b : Path} {ins : List Dibit} (ha : a.ins < ins) (hb : b.ins < ins) : (a.better b).ins < ins :=
  better_of (P := fun p => p.ins < ins) ha hb

theorem better_noWorse_left (a b : Path) : NoWorse (a.better b) a := by
  unfold Path.better
  split
  · next h => exact .inl h
  · exact .refl a

/-- A tie goes to the first path, so that one must have the lesser inputs. -/
theorem better_noWorse_right {a b : Path} (hi : a.ins < b.ins) : NoWorse (a.better b) b := by
  unfold Path.better
  split
  · exact .refl b
  · next h => exact (Nat.lt_or_eq_of_le (Nat.le_of_not_lt h)).imp id fun he => ⟨he, .inr hi⟩

/-! ## One point (R346) -/

theorem dibit_cases : ∀ d : Dibit, d = 0#2 ∨ d = 1#2 ∨ d = 2#2 ∨ d = 3#2 := by decide

section OnePoint

variable (t : PathTable) (pt : BitVec 4) (s : Dibit)

theorem extendPath_ins_lt {d e : Dibit} (h : d < e) : (extendPath t pt s d).ins < (extendPath t pt s e).ins :=
  List.Lex.rel h

theorem bestFrom_of {P : Path → Prop} (h : ∀ d, P (extendPath t pt s d)) : P (bestFrom t pt s) :=
  better_of (better_of (better_of (h 0#2) (h 1#2)) (h 2#2)) (h 3#2)

/-- The inputs are tried in increasing order, so a tie goes to the least. -/
theorem bestFrom_noWorse (d : Dibit) : NoWorse (bestFrom t pt s) (extendPath t pt s d) := by
  have hlt {d e : Dibit} (h : d < e) := extendPath_ins_lt t pt s h
  have first {e : Dibit} (h0 : 0#2 < e) (h1 : 1#2 < e) := better_ins_lt (hlt h0) (hlt h1)
  obtain rfl | rfl | rfl | rfl := dibit_cases d
  · exact (better_noWorse_left _ _).trans ((better_noWorse_left _ _).trans (better_noWorse_left _ _))
  · exact (better_noWorse_left _ _).trans ((better_noWorse_left _ _).trans (better_noWorse_right (hlt (by decide))))
  · exact (better_noWorse_left _ _).trans (better_noWorse_right (first (by decide) (by decide)))
  · exact better_noWorse_right (better_ins_lt (first (by decide) (by decide)) (hlt (by decide)))

end OnePoint

/-! ## The best paths (R346) -/

/-- A path from state `s` over the points that ends with the flush dibit and is no worse than any other that does. -/
structure IsBest (pts : List (BitVec 4)) (s : Dibit) (p : Path) : Prop where
  length_eq : p.ins.length = pts.length
  flush : p.ins.getLast? = some 0#2
  metric_eq : p.metric = pathMetric s p.ins pts
  noWorse : ∀ ins : List Dibit, ins.length = pts.length → ins.getLast? = some 0#2 → NoWorse p ⟨pathMetric s ins pts, ins⟩

theorem flushFrom_isBest (pt : BitVec 4) (s : Dibit) : IsBest [pt] s (flushFrom pt s) where
  length_eq := rfl
  flush := rfl
  metric_eq := rfl
  noWorse ins hlen hlast := by
    obtain ⟨d, rfl⟩ := List.length_eq_one_iff.mp hlen
    obtain rfl : d = 0#2 := by simpa using hlast
    exact .refl _

/-- Whatever follows the first input is no better than the best path from the state the input leads to. -/
theorem extendPath_noWorse {t : PathTable} {pts : List (BitVec 4)} {d : Dibit} (h : IsBest pts d (t.get d)) (pt : BitVec 4)
    (s : Dibit) {ins : List Dibit} (hlen : ins.length = pts.length) (hlast : ins.getLast? = some 0#2) :
    NoWorse (extendPath t pt s d) ⟨pathMetric s (d :: ins) (pt :: pts), d :: ins⟩ := by
  refine (h.noWorse ins hlen hlast).imp (fun hm => Nat.add_lt_add_left hm _) fun ⟨hm, hi⟩ => ⟨congrArg (_ + ·) hm, ?_⟩
  exact hi.imp (congrArg (d :: ·)) List.Lex.cons

theorem bestFrom_isBest {t : PathTable} {pts : List (BitVec 4)} (hne : pts ≠ []) (h : ∀ d, IsBest pts d (t.get d))
    (pt : BitVec 4) (s : Dibit) : IsBest (pt :: pts) s (bestFrom t pt s) where
  length_eq := bestFrom_of (P := fun p => p.ins.length = (pt :: pts).length) t pt s fun d => congrArg (· + 1) (h d).length_eq
  flush := bestFrom_of (P := fun p => p.ins.getLast? = some 0#2) t pt s fun d => by
    rw [extendPath, List.getLast?_cons, (h d).flush]
    rfl
  metric_eq := bestFrom_of (P := fun p => p.metric = pathMetric s p.ins (pt :: pts)) t pt s fun d =>
    congrArg (_ + ·) (h d).metric_eq
  noWorse ins hlen hlast := by
    match ins, hlen with
    | d :: ins, hlen =>
      have hrest : ins.length = pts.length := Nat.succ.inj hlen
      have hins : ins ≠ [] := fun he => hne (List.length_eq_zero_iff.mp (by rw [← hrest, he]; rfl))
      exact (bestFrom_noWorse t pt s d).trans
        (extendPath_noWorse (h d) pt s hrest (by rwa [List.getLast?_cons_of_ne_nil hins] at hlast))

theorem get_table (f : Dibit → Path) (s : Dibit) : PathTable.get ⟨f 0#2, f 1#2, f 2#2, f 3#2⟩ s = f s := by
  obtain rfl | rfl | rfl | rfl := dibit_cases s <;> rfl

theorem bestPaths_cons_cons (pt pt' : BitVec 4) (rest : List (BitVec 4)) :
    bestPaths (pt :: pt' :: rest) =
      ⟨bestFrom (bestPaths (pt' :: rest)) pt 0#2, bestFrom (bestPaths (pt' :: rest)) pt 1#2,
        bestFrom (bestPaths (pt' :: rest)) pt 2#2, bestFrom (bestPaths (pt' :: rest)) pt 3#2⟩ := rfl

theorem bestPaths_isBest {pts : List (BitVec 4)} (hne : pts ≠ []) (s : Dibit) : IsBest pts s ((bestPaths pts).get s) := by
  induction pts generalizing s with
  | nil => exact absurd rfl hne
  | cons pt rest ih =>
    cases rest with
    | nil =>
      rw [bestPaths, get_table (flushFrom pt)]
      exact flushFrom_isBest pt s
    | cons pt' rest =>
      have hrest : pt' :: rest ≠ [] := List.cons_ne_nil _ _
      rw [bestPaths_cons_cons, get_table (bestFrom (bestPaths (pt' :: rest)) pt)]
      exact bestFrom_isBest hrest (ih hrest) pt s

/-- Settles O5: by induction over the points every entry of the table is the first of the best paths from its state. -/
theorem trellisDecodeOptimal : Obligations.TrellisDecodeOptimal := by
  unfold Obligations.TrellisDecodeOptimal
  intro pts hne
  obtain ⟨hlength, hflush, hmetric, hbest⟩ := bestPaths_isBest hne 0#2
  refine ⟨hlength, hflush, fun ins hlen hlast => ?_⟩
  have hnoworse := hbest ins hlen hlast
  rw [NoWorse, hmetric] at hnoworse
  exact hnoworse

/-! ## What the encoder sends is restored (R346) -/

theorem trellis_injective : ∀ s d e : Dibit, trellis s d = trellis s e → d = e := by decide

@[simp] theorem length_trellisEncode (s : Dibit) (ins : List Dibit) : (trellisEncode s ins).length = ins.length := by
  induction ins generalizing s with
  | nil => rfl
  | cons d ins ih => rw [trellisEncode, List.length_cons, List.length_cons, ih]

/-- The points of one path are at distance 0 from no other path than itself. -/
theorem pathMetric_trellisEncode {s : Dibit} {ins sent : List Dibit} (h : ins.length = sent.length) :
    pathMetric s ins (trellisEncode s sent) = 0 ↔ ins = sent := by
  induction sent generalizing s ins with
  | nil => simp [List.length_eq_zero_iff.mp h, pathMetric, trellisEncode]
  | cons d sent ih =>
    match ins, h with
    | e :: ins, h =>
      have hpoint : popcount (trellis s e ^^^ trellis s d) = 0 ↔ e = d := by
        rw [popcount_eq_zero, BitVec.xor_eq_zero_iff]
        exact ⟨trellis_injective s e d, congrArg _⟩
      rw [trellisEncode, pathMetric, Nat.add_eq_zero_iff, hpoint, List.cons.injEq]
      refine and_congr_right fun he => ?_
      subst he
      exact ih (Nat.succ.inj h)

/-- A path without errors is the best one. -/
theorem trellisDecode_trellisEncode {ins : List Dibit} (hlast : ins.getLast? = some 0#2) :
    trellisDecode (trellisEncode 0#2 ins) = ins := by
  have hne : trellisEncode 0#2 ins ≠ [] := by
    rw [← List.length_pos_iff, length_trellisEncode, List.length_pos_iff]
    rintro rfl
    cases hlast
  obtain ⟨hlength, -, hbest⟩ := trellisDecodeOptimal _ hne
  rw [length_trellisEncode] at hlength hbest
  have hleast := hbest ins rfl hlast
  rw [(pathMetric_trellisEncode rfl).mpr rfl] at hleast
  obtain hless | ⟨hnone, -⟩ := hleast
  · exact absurd hless (Nat.not_lt_zero _)
  · exact (pathMetric_trellisEncode hlength).mp hnone

/-! ## Bits, dibits and points (R100, R346) -/

theorem dibitOf_bits : ∀ d : Dibit, dibitOf (d.getLsbD 1) (d.getLsbD 0) = d := by decide

theorem dibitBits_dibitOf (a b : Bool) : dibitBits (dibitOf a b) = [a, b] := by
  cases a <;> cases b <;> decide

theorem dibitsOf_flatMap_dibitBits (ds : List Dibit) : dibitsOf (ds.flatMap dibitBits) = ds := by
  induction ds with
  | nil => rfl
  | cons d ds ih =>
    rw [List.flatMap_cons, dibitBits, List.cons_append, List.cons_append, List.nil_append, dibitsOf, ih, dibitOf_bits]

theorem pointsOf_flatMap_pointDibits (pts : List (BitVec 4)) : pointsOf (pts.flatMap pointDibits) = pts := by
  induction pts with
  | nil => rfl
  | cons pt pts ih =>
    rw [List.flatMap_cons, pointDibits, List.cons_append, List.cons_append, List.nil_append, pointsOf, ih,
      append_two (a := 2) (b := 2) pt]

theorem length_flatMap_pointDibits (pts : List (BitVec 4)) : (pts.flatMap pointDibits).length = 2 * pts.length := by
  rw [List.length_flatMap]
  simp [pointDibits, Nat.mul_comm]

/-- A bit string of even length is the bits of its dibits. -/
theorem dibitsOf_spec (n : Nat) {b : List Bool} (h : b.length = 2 * n) :
    (dibitsOf b).length = n ∧ (dibitsOf b).flatMap dibitBits = b := by
  induction n generalizing b with
  | zero => simp [List.length_eq_zero_iff.mp h, dibitsOf]
  | succ n ih =>
    match b, h with
    | b1 :: b0 :: rest, h =>
      obtain ⟨hlen, hbits⟩ := ih (b := rest) (by simp at h; omega)
      rw [dibitsOf, List.length_cons, hlen, List.flatMap_cons, hbits, dibitBits_dibitOf]
      exact ⟨rfl, rfl⟩

/-- Settles O6: the dibits and points are regrouped as they were, DEINT undoes the interleaving, and the path sent is the only
one without errors. -/
theorem tsbkDecodeEncode : Obligations.TsbkDecodeEncode := by
  unfold Obligations.TsbkDecodeEncode
  intro o
  obtain ⟨hlen, hbits⟩ := dibitsOf_spec 48 (b := bvToBits o) (length_bvToBits o)
  have hcoded : ((trellisEncode 0#2 (dibitsOf (bvToBits o) ++ [0#2])).flatMap pointDibits).length = 98 := by
    rw [length_flatMap_pointDibits, length_trellisEncode, List.length_append, hlen]
    rfl
  rw [tsbkDecode, tsbkEncode, dibitsOf_flatMap_dibitBits, deinterleave_interleave hcoded, pointsOf_flatMap_pointDibits,
    trellisDecode_trellisEncode List.getLast?_concat, List.take_left' hlen, hbits, bitsToBV_bvToBits]

end Sys2Proof.FecProofs
end

section
/-! PROOFS. The Trunking State Machine over every step: what a step can do to the role and to the frequencies, said once; so
the tuned frequency follows the role, and the talkgroup followed is a monitored one. -/

namespace Sys2Proof.TrunkingProofs

open Sys2Proof Sys2Proof.Machine Sys2Proof.StateProofs Sys2Proof.FrameSyncProofs

/-! ## Where the block is heading -/

/-- A stage at which the command in flight is under way to the retune point (R460). -/
def tuning : Stage → Bool
  | .tune _ => true
  | .send (.retune _) => true
  | .sent (.retune _) => true
  | _ => false

/-- The frequency that the role asks for (R41). -/
def roleFreq (s : State) : Nat :=
  match s.role with
  | .controlChannel => s.controlFreq
  | .trafficChannel f _ _ => f

theorem roleFreq_of_control {s : State} (h : s.role = .controlChannel) : roleFreq s = s.controlFreq := by
  simp [roleFreq, h]

theorem roleFreq_of_traffic {s : State} {f la : Nat} {tg : BitVec 16} (h : s.role = .trafficChannel f tg la) :
    roleFreq s = f := by
  simp [roleFreq, h]

theorem tunedToRole_iff {s : State} :
    TunedToRole s ↔ headingFor s = roleFreq s ∧
      (s.runState = .booting → s.role = .controlChannel ∧ s.tunedFreq = s.controlFreq) ∧
      (bootStage s.stage = true → s.role = .controlChannel) := by
  unfold TunedToRole roleFreq
  cases s.role <;> rfl

theorem headingFor_of_no_command {s : State} (h : s.cmd = none) : headingFor s = s.tunedFreq := by
  unfold headingFor
  split <;> simp_all

theorem headingFor_of_not_tuning {s : State} (h : tuning s.stage = false) : headingFor s = s.tunedFreq := by
  unfold headingFor
  split <;> simp_all [tuning]

theorem headingFor_of_tuning {s : State} {c : RetuneCommand} (h : tuning s.stage = true) (hc : s.cmd = some c) :
    headingFor s = c.targetFrequency := by
  unfold headingFor
  split <;> simp_all [tuning]

theorem headingFor_congr {s t : State} (hst : tuning t.stage = tuning s.stage) (hc : t.cmd = s.cmd)
    (hf : t.tunedFreq = s.tunedFreq) : headingFor t = headingFor s := by
  cases hs : tuning s.stage with
  | false => rw [headingFor_of_not_tuning hs, headingFor_of_not_tuning (hst.trans hs), hf]
  | true =>
    cases hcmd : s.cmd with
    | none => rw [headingFor_of_no_command hcmd, headingFor_of_no_command (hc.trans hcmd), hf]
    | some c => rw [headingFor_of_tuning hs hcmd, headingFor_of_tuning (hst.trans hs) (hc.trans hcmd)]

theorem tuning_afterTune (src : TuneFrom) : tuning (afterTune src) = false := by cases src <;> rfl

theorem bootStage_afterTune (src : TuneFrom) : bootStage (afterTune src) = false := by cases src <;> rfl

/-! ## What a step can do to the role and the frequencies -/

/-- Everything a step can do to S22, S24 and S25 (R404, R410-R413, R462, R591). -/
inductive TrunkCase (s t : State) : Prop where
  /-- no decision, and no frequency reached -/
  | kept (hrole : t.role = s.role) (hcontrol : t.controlFreq = s.controlFreq) (htuned : t.tunedFreq = s.tunedFreq)
      (hhead : headingFor t = headingFor s) (hboot : bootStage t.stage = true → bootStage s.stage = true)
  /-- an accepted START: boot's first word is sent -/
  | started (hr : s.runState = .booting) (hrole : t.role = s.role) (hcontrol : t.controlFreq = s.controlFreq)
      (htuned : t.tunedFreq = s.tunedFreq) (hhead : headingFor t = s.tunedFreq)
  /-- the end of boot -/
  | booted (hs : bootStage s.stage = true) (hrole : t.role = s.role) (hcontrol : t.controlFreq = t.tunedFreq)
      (hhead : headingFor t = t.tunedFreq)
  /-- the arbiter refreshes the activity -/
  | refreshed {f la n : Nat} {tg : BitVec 16} {src : TuneFrom} (hr : s.runState = .running)
      (hs : s.role = .trafficChannel f tg la) (hrole : t.role = .trafficChannel f tg n)
      (hhead : headingFor t = headingFor s) (hst : t.stage = .tune src)
  /-- the timeout or a Terminator ends the call -/
  | returned {src : TuneFrom} (hr : s.runState = .running) (hrole : t.role = .controlChannel)
      (hhead : headingFor t = t.controlFreq) (hst : t.stage = .tune src)
  /-- a grant is taken -/
  | granted {f n : Nat} {tg : BitVec 16} {src : TuneFrom} (hr : s.runState = .running)
      (hm : monitored s.cfg.tgPolicy tg = true) (hrole : t.role = .trafficChannel f tg n) (hhead : headingFor t = f)
      (hst : t.stage = .tune src)
  /-- the retune point -/
  | retuned (hrole : t.role = s.role) (hcontrol : t.controlFreq = s.controlFreq) (htuned : t.tunedFreq = headingFor s)
      (hhead : headingFor t = headingFor s) (hboot : bootStage t.stage = false)

theorem trunkCase_of_kept {s t : State} {st : Stage} (hs : s.stage = st) (hrole : t.role = s.role)
    (hcontrol : t.controlFreq = s.controlFreq) (htuned : t.tunedFreq = s.tunedFreq) (hcmd : t.cmd = s.cmd)
    (htuning : tuning t.stage = tuning st) (hboot : bootStage t.stage = bootStage st) : TrunkCase s t := by
  subst hs
  exact .kept hrole hcontrol htuned (headingFor_congr htuning hcmd htuned) (fun h => hboot ▸ h)

/-- A decision without a command, at the arbiter or the tick: at most the activity is refreshed. -/
theorem trunkCase_of_no_command {s t : State} {src : TuneFrom} (n : Nat) (hr : s.runState = .running)
    (hs : tuning s.stage = false) (hrole : t.role = s.role ∨ t.role = (refresh n s).role)
    (hcontrol : t.controlFreq = s.controlFreq) (htuned : t.tunedFreq = s.tunedFreq) (hcmd : t.cmd = none)
    (hst : t.stage = .tune src) : TrunkCase s t := by
  have hhead : headingFor t = headingFor s := by
    rw [headingFor_of_no_command hcmd, headingFor_of_not_tuning hs, htuned]
  have hkept : t.role = s.role → TrunkCase s t := fun h => .kept h hcontrol htuned hhead (by simp [hst, bootStage])
  rcases hrole with hrole | hrole
  · exact hkept hrole
  · cases hsr : s.role with
    | controlChannel => exact hkept (by rw [hrole, refresh_of_control hsr])
    | trafficChannel f tg la =>
      rw [refresh_of_traffic hsr] at hrole
      exact .refreshed hr hsr hrole hhead hst

theorem refresh_kept (n : Nat) (s : State) :
    (refresh n s).controlFreq = s.controlFreq ∧ (refresh n s).tunedFreq = s.tunedFreq := by
  obtain ⟨_, h⟩ := refresh_effect n s
  rw [h]
  exact ⟨rfl, rfl⟩

/-! ### The operations of the table -/

theorem tsbk_trunkCase {i : Instr} {s u : State} (hr : s.runState = .running) (hs : s.stage = .tsm)
    (h : TsbkCase i s u) : TrunkCase s { u with stage := .tune .delivery } := by
  have htuning : tuning s.stage = false := by rw [hs]; rfl
  cases h with
  | nothing =>
    obtain ⟨hcontrol, htuned⟩ := refresh_kept (unitTime s) s
    exact trunkCase_of_no_command (unitTime s) hr htuning (.inr rfl) hcontrol htuned rfl rfl
  | update => exact trunkCase_of_no_command 0 hr htuning (.inl rfl) rfl rfl rfl rfl
  | grant _ _ _ _ _ _ _ hm => exact .granted hr hm rfl rfl rfl
  | preempt _ _ _ _ _ _ _ hm => exact .granted hr hm rfl rfl rfl

/-- An answered word: the stage after it concerns the same command, and the same part of boot. -/
theorem retire_send_stages (r : SendFor) {u : State} (h : u.stage = .send r) :
    tuning (retire (.send r) u).stage = tuning (.send r) ∧
      bootStage (retire (.send r) u).stage = bootStage (.send r) := by
  unfold retire
  dsimp only
  split
  · rw [h]
    exact ⟨rfl, rfl⟩
  · cases r <;> exact ⟨rfl, rfl⟩

theorem cmd_trunkCase {i : Instr} {s u : State} {r : SendFor} (hs : s.stage = .send r) (hi : isCmdInstr i = true)
    (hp : s.replies ≠ []) (he : exec i s = .next u) : TrunkCase s (retire s.stage u) := by
  have hkept : u.role = s.role ∧ u.controlFreq = s.controlFreq ∧ u.tunedFreq = s.tunedFreq ∧ u.cmd = s.cmd ∧
      u.stage = s.stage := by
    obtain ⟨_, _, _, ⟨_, rfl⟩ | ⟨_, _, _, rfl⟩⟩ := exec_cmd_effect hi hp he
    · exact ⟨rfl, rfl, rfl, rfl, rfl⟩
    · exact ⟨rfl, rfl, rfl, rfl, rfl⟩
  obtain ⟨hrole, hcontrol, htuned, hcmd, hstage⟩ := hkept
  obtain ⟨htuning, hboot⟩ := retire_send_stages r (hstage.trans hs)
  obtain ⟨_, hret⟩ := retire_effect (.send r) u
  rw [hs, hret]
  rw [hret] at htuning hboot
  exact trunkCase_of_kept hs hrole hcontrol htuned hcmd htuning hboot

theorem instr_trunkCase {s u : State} {i : Instr} (hf : fetch s = .instr i) (he : exec i s = .next u) :
    TrunkCase s (retire s.stage u) := by
  cases fetch_instr hf with
  | frame _ hs hi _ =>
    obtain ⟨_, _, _, _, _, _, _, _, _, _, _, _, unit, _, rfl⟩ := exec_frame_effect hi he
    rw [hs]
    cases unit with
    | none => exact trunkCase_of_kept hs rfl rfl rfl rfl rfl rfl
    | some du => exact trunkCase_of_kept hs rfl rfl rfl rfl rfl rfl
  | tsbk _ _ o hr hs _ hi =>
    have h := tsbk_trunkCase hr hs (exec_tsbk_cases (hi ▸ dispatchTsbk_tsbk o) he)
    rw [hs]
    exact h
  | cmd r _ hs hp hd => exact cmd_trunkCase hs (decodeCmd_cmd hd) hp he

/-! ### The pipeline operations -/

theorem afterCommand_trunkCase {s : State} {r : SendFor} (hs : s.stage = .sent r) : TrunkCase s (afterCommand r s) := by
  cases r with
  | bootPpm => exact trunkCase_of_kept hs rfl rfl rfl rfl rfl rfl
  | bootGain => exact trunkCase_of_kept hs rfl rfl rfl rfl rfl rfl
  | bootFreq => exact .booted (by rw [hs]; rfl) rfl rfl (headingFor_of_not_tuning rfl)
  | retune src =>
    have htuning : tuning s.stage = true := by rw [hs]; rfl
    rw [afterCommand]
    unfold retuneSent
    split
    · next hc =>
      refine .kept rfl rfl rfl ?_ (by simp [bootStage_afterTune])
      rw [headingFor_of_not_tuning (tuning_afterTune src), headingFor_of_no_command hc]
    · next c hc =>
      have hhead := headingFor_of_tuning htuning hc
      exact .retuned rfl rfl hhead.symm ((headingFor_of_not_tuning (tuning_afterTune src)).trans hhead.symm)
        (bootStage_afterTune src)

theorem sampleStep_trunkCase {s : State} (hs : s.stage = .sample) : TrunkCase s (sampleStep s) := by
  have hst := sampleStep_stage s
  obtain ⟨_, _, _, _, _, _, _, _, _, _, _, ht⟩ := sampleStep_effect s
  rw [ht] at hst ⊢
  rw [hs] at hst
  rcases hst with rfl | rfl
  · exact trunkCase_of_kept hs rfl rfl rfl rfl rfl rfl
  · exact trunkCase_of_kept hs rfl rfl rfl rfl rfl rfl

theorem dibitStep_stage (s : State) :
    (dibitStep s).stage = s.stage ∨ (dibitStep s).stage = .idle ∨ (dibitStep s).stage = .advance ∨
      (dibitStep s).stage = .frame := by
  cases hr : s.run with
  | nil => exact .inr (.inl (by rw [dibitStep_of_nil hr]))
  | cons p rest =>
    rw [dibitStep_of_cons hr]
    obtain ⟨_, h | h⟩ := fsDibit_passing p.1 { s with run := rest, now := p.2 }
    · exact .inl h
    · exact .inr (.inr h)

theorem dibitStep_trunkCase {s : State} (hs : s.stage = .dibit) : TrunkCase s (dibitStep s) := by
  have hst := dibitStep_stage s
  obtain ⟨_, _, _, _, _, _, _, _, _, _, _, _, _, _, ht⟩ := dibitStep_effect s
  rw [ht] at hst ⊢
  rw [hs] at hst
  rcases hst with rfl | rfl | rfl | rfl <;> exact trunkCase_of_kept hs rfl rfl rfl rfl rfl rfl

/-- A unit that is no valid TSBK refreshes the activity, or as a Terminator ends the call (R411, R413, R416). -/
theorem tsmPipeline_trunkCase {s : State} (hr : s.runState = .running) (hs : s.stage = .tsm) :
    TrunkCase s (tsmPipeline s) := by
  have htuning : tuning s.stage = false := by rw [hs]; rfl
  unfold tsmPipeline
  split
  · exact trunkCase_of_no_command 0 hr htuning (.inl rfl) rfl rfl rfl rfl
  · next du _ =>
    obtain ⟨hcontrol, htuned⟩ := refresh_kept du.time s
    unfold tsmUnit terminate
    dsimp only
    split
    · split
      · split
        · exact trunkCase_of_no_command du.time hr htuning (.inr rfl) hcontrol htuned rfl rfl
        · exact .returned hr rfl rfl rfl
      · exact trunkCase_of_no_command du.time hr htuning (.inr rfl) hcontrol htuned rfl rfl
    · exact trunkCase_of_no_command 0 hr htuning (.inl rfl) rfl rfl rfl rfl

theorem tuneStep_trunkCase {s : State} {src : TuneFrom} (hs : s.stage = .tune src) : TrunkCase s (tuneStep src s) := by
  have htuning : tuning s.stage = true := by rw [hs]; rfl
  cases hc : s.cmd with
  | none =>
    rw [tuneStep_of_none hc]
    refine .kept rfl rfl rfl ?_ (by simp [bootStage_afterTune])
    rw [headingFor_of_not_tuning (tuning_afterTune src), headingFor_of_no_command hc]
  | some c =>
    by_cases hf : c.targetFrequency = s.tunedFreq
    · rw [tuneStep_of_same hc hf]
      refine .kept rfl rfl rfl ?_ (by simp [bootStage_afterTune])
      rw [headingFor_of_not_tuning (tuning_afterTune src), headingFor_of_tuning htuning hc, hf]
    · rw [tuneStep_of_new hc hf]
      exact trunkCase_of_kept hs rfl rfl rfl rfl rfl rfl

/-! ### Outside events -/

theorem bootStart_trunkCase {s : State} (hr : s.runState = .booting) (c : StartConfig) (q : Status) (es : List Event) :
    TrunkCase s (bootStart c q { s with events := es }) := by
  have hst := bootStart_stage c q { s with events := es }
  obtain ⟨_, _, _, _, _, hb⟩ := bootStart_effect c q { s with events := es }
  rw [hb] at hst ⊢
  rcases hst with hst | hst
  · exact trunkCase_of_kept rfl rfl rfl rfl rfl (congrArg _ hst) (congrArg _ hst)
  · exact .started hr rfl rfl rfl (headingFor_of_not_tuning (by rw [hst]; rfl))

/-- The timeout tick returns to the control frequency or decides nothing (R410). -/
theorem beginBlock_trunkCase {s : State} (hr : s.runState = .running) (hs : s.stage = .idle) (blk : SampleBlock)
    (es : List Event) (rest : List SampleBlock) : TrunkCase s (beginBlock blk (takeBlock es rest s)) := by
  have htuning : tuning s.stage = false := by rw [hs]; rfl
  have hkept : TrunkCase s { enterBlock blk (takeBlock es rest s) with cmd := none, stage := .tune .tick } := by
    obtain ⟨_, _, _, _, _, _, _, _, _, _, _, _, _, _, _, _, hg⟩ := gapCheck_effect blk.seq (takeBlock es rest s)
    rw [enterBlock, hg]
    exact trunkCase_of_no_command 0 hr htuning (.inl rfl) rfl rfl rfl rfl
  cases hrole : s.role with
  | controlChannel =>
    rw [beginBlock_of_control (s := takeBlock es rest s) hrole]
    exact hkept
  | trafficChannel f tg la =>
    rcases le_or_gt (la + s.cfg.timeoutSamples) (blk.seq * s.cfg.blockLen) with ht | ht
    · rw [beginBlock_of_timeout (s := takeBlock es rest s) hrole ht]
      obtain ⟨_, _, hcontrol⟩ := enterBlock_kept blk (takeBlock es rest s)
      exact .returned hr rfl hcontrol.symm rfl
    · rw [beginBlock_of_active (s := takeBlock es rest s) hrole ht]
      exact hkept

theorem event_trunkCase {s t : State} (hs : s.runState = .running → s.stage = .idle) (he : EventCase s t) :
    TrunkCase s t := by
  cases he with
  | start c q es hr => exact bootStart_trunkCase hr c q es
  | block samples es =>
    obtain ⟨_, _, hi, _⟩ := ingestBlock_effect samples { s with events := es }
    rw [hi]
    exact trunkCase_of_kept rfl rfl rfl rfl rfl rfl rfl
  | decode blk rest es hr => exact beginBlock_trunkCase hr (hs hr) blk es rest
  | _ => exact trunkCase_of_kept rfl rfl rfl rfl rfl rfl rfl

/-! ### Every step -/

theorem running_trunkCase {s t : State} (hr : s.runState = .running) (h : RunningCase s t) : TrunkCase s t := by
  cases h with
  | event hs he => exact event_trunkCase (fun _ => hs) (eventStep_cases he)
  | sending => exact trunkCase_of_kept rfl rfl rfl rfl rfl rfl rfl
  | sent r hs => exact afterCommand_trunkCase hs
  | sample hs => exact sampleStep_trunkCase hs
  | dibit hs => exact dibitStep_trunkCase hs
  | frame hs =>
    obtain ⟨_, _, _, _, _, _, _, _, _, _, _, _, ht⟩ := framePipeline_effect s
    rw [ht]
    exact trunkCase_of_kept hs rfl rfl rfl rfl rfl rfl
  | tsm hs => exact tsmPipeline_trunkCase hr hs
  | tune src hs => exact tuneStep_trunkCase hs
  | route hs =>
    obtain ⟨_, _, ht⟩ := routeStep_effect s
    rw [ht]
    exact trunkCase_of_kept hs rfl rfl rfl rfl rfl rfl
  | advance hs =>
    obtain ⟨_, _, _, _, _, _, _, _, _, _, _, _, ht⟩ := advanceStep_effect s
    rw [ht]
    exact trunkCase_of_kept hs rfl rfl rfl rfl rfl rfl

/-- The inversion of `step` for the role and the frequencies. -/
theorem step_trunkCase {s t : State} (h : step s = .next t) : TrunkCase s t := by
  cases step_cases h with
  | instr i u hf he => exact instr_trunkCase hf he
  | wait => exact trunkCase_of_kept rfl rfl rfl rfl rfl rfl rfl
  | halt => exact trunkCase_of_kept rfl rfl rfl rfl rfl rfl rfl
  | bootSent r _ hs => exact afterCommand_trunkCase hs
  | bootEvent hr _ _ he => exact event_trunkCase (by simp [hr]) (eventStep_cases he)
  | running hr _ hc => exact running_trunkCase hr hc

/-- Booting is never entered again. -/
theorem booting_of_step {s t : State} (h : step s = .next t) (hb : t.runState = .booting) : s.runState = .booting := by
  rcases quiet_or_event h with hq | he
  · rcases hq.runState with hr | hr | ⟨e, hr⟩
    · exact hr ▸ hb
    · simp [hr] at hb
    · simp [hr] at hb
  · cases he with
    | none => exact hb
    | start _ _ _ hr => exact hr
    | shutdown => cases hb
    | readFail => cases hb
    | block samples es =>
      obtain ⟨_, _, hi, _⟩ := ingestBlock_effect samples { s with events := es }
      rw [hi] at hb
      exact hb
    | decodeEmpty => exact hb
    | decode blk rest es =>
      obtain ⟨_, _, _, _, hrun, _⟩ := beginBlock_registers blk { s with events := es, queue := rest }
      exact hrun ▸ hb
    | ignored => exact hb

/-! ## The tuned frequency follows the role -/

theorem roleFreq_congr {s t : State} (hrole : t.role = s.role) (hcontrol : t.controlFreq = s.controlFreq) :
    roleFreq t = roleFreq s := by
  simp [roleFreq, hrole, hcontrol]

/-- Settles O57, by what a step does to the role and the frequencies: a decision issues the command to the frequency that its
role asks for, and the retune point reaches that frequency. -/
theorem tuningFollowsRole : Obligations.TuningFollowsRole := by
  unfold Obligations.TuningFollowsRole
  intro s t h hstep
  have hrunning : s.runState = .running → t.runState ≠ .booting := fun hr hb => by
    simpa [hr] using booting_of_step hstep hb
  rw [tunedToRole_iff] at h ⊢
  obtain ⟨hfollows, hboot, hstage⟩ := h
  cases step_trunkCase hstep with
  | kept hrole hcontrol htuned hhead hbs =>
    refine ⟨by rw [hhead, hfollows, roleFreq_congr hrole hcontrol], fun hb => ?_,
      fun hst => hrole.trans (hstage (hbs hst))⟩
    obtain ⟨hc, hf⟩ := hboot (booting_of_step hstep hb)
    exact ⟨hrole.trans hc, by rw [htuned, hcontrol, hf]⟩
  | started hr hrole hcontrol htuned hhead =>
    obtain ⟨hc, hf⟩ := hboot hr
    have hc' := hrole.trans hc
    exact ⟨by rw [hhead, roleFreq_of_control hc', hcontrol, hf], fun _ => ⟨hc', by rw [htuned, hcontrol, hf]⟩,
      fun _ => hc'⟩
  | booted hs hrole hcontrol hhead =>
    have hc := hrole.trans (hstage hs)
    exact ⟨by rw [hhead, roleFreq_of_control hc, hcontrol], fun _ => ⟨hc, hcontrol.symm⟩, fun _ => hc⟩
  | refreshed hr hs hrole hhead hst =>
    exact ⟨by rw [hhead, hfollows, roleFreq_of_traffic hs, roleFreq_of_traffic hrole], fun hb => absurd hb (hrunning hr),
      by simp [hst, bootStage]⟩
  | returned hr hrole hhead hst =>
    exact ⟨by rw [hhead, roleFreq_of_control hrole], fun hb => absurd hb (hrunning hr), by simp [hst, bootStage]⟩
  | granted hr _ hrole hhead hst =>
    exact ⟨by rw [hhead, roleFreq_of_traffic hrole], fun hb => absurd hb (hrunning hr), by simp [hst, bootStage]⟩
  | retuned hrole hcontrol htuned hhead hbs =>
    refine ⟨by rw [hhead, hfollows, roleFreq_congr hrole hcontrol], fun hb => ?_, by simp [hbs]⟩
    obtain ⟨hc, _⟩ := hboot (booting_of_step hstep hb)
    exact ⟨hrole.trans hc, by rw [htuned, hfollows, roleFreq_of_control hc, hcontrol]⟩

/-! ## The talkgroup followed is a monitored one -/

/-- A talkgroup followed after a step was followed before it, or was granted and is a monitored one. -/
theorem TrunkCase.followed {s t : State} (h : TrunkCase s t) {f la : Nat} {tg : BitVec 16}
    (ht : t.role = .trafficChannel f tg la) :
    (∃ f' la', s.role = .trafficChannel f' tg la') ∨ s.runState = .running ∧ monitored s.cfg.tgPolicy tg = true := by
  cases h with
  | kept hrole => exact .inl ⟨f, la, hrole ▸ ht⟩
  | started _ hrole => exact .inl ⟨f, la, hrole ▸ ht⟩
  | booted _ hrole => exact .inl ⟨f, la, hrole ▸ ht⟩
  | refreshed _ hs hrole =>
    cases hrole.symm.trans ht
    exact .inl ⟨_, _, hs⟩
  | returned _ hrole => cases hrole.symm.trans ht
  | granted hr hm hrole =>
    cases hrole.symm.trans ht
    exact .inr ⟨hr, hm⟩
  | retuned hrole => exact .inl ⟨f, la, hrole ▸ ht⟩

/-- Settles O58: the policy changes only while no talkgroup is followed, and only a monitored talkgroup's grant is taken. -/
theorem onlyMonitoredFollowed : Obligations.OnlyMonitoredFollowed := by
  unfold Obligations.OnlyMonitoredFollowed
  rintro s t ⟨hmon, hboot⟩ hstep
  have hbefore : ∀ {f tg la}, t.role = .trafficChannel f tg la →
      s.runState ≠ .booting ∧ monitored s.cfg.tgPolicy tg = true := by
    intro f tg la ht
    rcases (step_trunkCase hstep).followed ht with ⟨f', la', hs⟩ | ⟨hr, hm⟩
    · exact ⟨fun hb => by simp [hboot hb] at hs, hmon f' tg la' hs⟩
    · exact ⟨by simp [hr], hm⟩
  refine ⟨fun f tg la ht => ?_, fun hb => ?_⟩
  · obtain ⟨hnb, hm⟩ := hbefore ht
    rcases configurationFixed s t hstep with hcfg | ⟨hb, _⟩
    · rw [hcfg]
      exact hm
    · exact absurd hb hnb
  · cases hr : t.role with
    | controlChannel => rfl
    | trafficChannel f tg la => exact absurd (booting_of_step hstep hb) (hbefore hr).1

end Sys2Proof.TrunkingProofs
end

section
/-! PROOFS. The TSBK operations: what a grant and an Identifier-Update do in either role, pair B of an update tried where
pair A gave no command, and a grant after Identifier-Updates. -/

namespace Sys2Proof.TrunkingProofs

open Sys2Proof Sys2Proof.Machine Sys2Proof.StateProofs

/-! ## The unit's time and the policy -/

theorem unitTime_of_unit {s : State} {du : DataUnit} (h : s.unit = some du) : unitTime s = du.time := by
  simp [unitTime, h]

theorem monitored_iff {p : TgPolicy} {tg : BitVec 16} :
    monitored p tg = true ↔ p = .all ∨ ∃ l, p = .allowList l ∧ tg.toNat ∈ l := by
  cases p <;> simp [monitored]

theorem monitored_eq_false {p : TgPolicy} {tg : BitVec 16} :
    monitored p tg = false ↔ ¬(p = .all ∨ ∃ l, p = .allowList l ∧ tg.toNat ∈ l) := by
  rw [← monitored_iff, Bool.not_eq_true]

/-! ## A grant, by its outcome (R403, R404, R412) -/

section Grant

variable {chan tg cur : BitVec 16} {t f : Nat} {s : State}

theorem controlGrant_of_unresolved (h : resolve chan s = none) :
    controlGrant chan tg t s = { s with raised := .e4 chan :: s.raised, cmd := none } := by
  simp only [controlGrant, tryGrant_of_unresolved h]

theorem controlGrant_of_unmonitored (h : resolve chan s = some f) (hm : monitored s.cfg.tgPolicy tg = false) :
    controlGrant chan tg t s = { s with cmd := none } := by
  simp [controlGrant, tryGrant_of_resolved h, hm]

theorem controlGrant_of_monitored (h : resolve chan s = some f) (hm : monitored s.cfg.tgPolicy tg = true) :
    controlGrant chan tg t s =
      { s with controlFreq := s.tunedFreq, role := .trafficChannel f tg t, cmd := some ⟨f, .grant⟩ } := by
  simp [controlGrant, tryGrant_of_resolved h, hm]

theorem trafficGrant_of_stay (h : s.cfg.grantPriority = .ignore ∨ cur = tg) :
    trafficGrant cur chan tg t s = { s with cmd := none } := by
  cases hp : s.cfg.grantPriority with
  | ignore => simp only [trafficGrant, hp]
  | preempt =>
    have hcur : cur = tg := h.resolve_left (by simp [hp])
    simp only [trafficGrant, hp, if_pos hcur]

theorem trafficGrant_of_unresolved (hp : s.cfg.grantPriority = .preempt) (hc : cur ≠ tg) (h : resolve chan s = none) :
    trafficGrant cur chan tg t s = { s with raised := .e4 chan :: s.raised, cmd := none } := by
  simp [trafficGrant, hp, hc, tryGrant_of_unresolved h]

theorem trafficGrant_of_unmonitored (hp : s.cfg.grantPriority = .preempt) (hc : cur ≠ tg) (h : resolve chan s = some f)
    (hm : monitored s.cfg.tgPolicy tg = false) : trafficGrant cur chan tg t s = { s with cmd := none } := by
  simp [trafficGrant, hp, hc, tryGrant_of_resolved h, hm]

theorem trafficGrant_of_monitored (hp : s.cfg.grantPriority = .preempt) (hc : cur ≠ tg) (h : resolve chan s = some f)
    (hm : monitored s.cfg.tgPolicy tg = true) :
    trafficGrant cur chan tg t s =
      { s with role := .trafficChannel f tg t, cmd := some ⟨f, .preempt⟩ } := by
  simp [trafficGrant, hp, hc, tryGrant_of_resolved h, hm]

end Grant

theorem resolve_of_entry {chan : BitVec 16} {s : State} {e : BandEntry} {f : Nat}
    (h : mapRead (chan.extractLsb' 12 4) s = some e)
    (hf : f = e.baseHz + (chan.extractLsb' 0 12).toNat * e.spacingHz) : resolve chan s = some f :=
  resolve_eq_some.mpr ⟨e, h, hf.symm⟩

/-! ## The operations of the table -/

section Operation

variable {s : State} {du : DataUnit} (hu : s.unit = some du)
include hu

theorem exec_grant_of_control (hr : s.role = .controlChannel) (lb : Bool) (mfid svc : BitVec 8) (chan tg : BitVec 16)
    (src : BitVec 24) : exec (.grpVChGrant lb mfid svc chan tg src) s = .next (controlGrant chan tg du.time s) := by
  simp only [exec, execGrpVChGrant, unitTime_of_unit hu, refresh_of_control hr, grantPair_of_control hr]

theorem exec_grant_of_traffic {f0 la : Nat} {cur : BitVec 16} (hr : s.role = .trafficChannel f0 cur la) (lb : Bool)
    (mfid svc : BitVec 8) (chan tg : BitVec 16) (src : BitVec 24) :
    exec (.grpVChGrant lb mfid svc chan tg src) s =
      .next (trafficGrant cur chan tg du.time { s with role := .trafficChannel f0 cur du.time }) := by
  simp only [exec, execGrpVChGrant, unitTime_of_unit hu, refresh_of_traffic hr, grantPair]

end Operation

/-- Settles O16: the three outcomes of a grant in ControlChannel role. -/
theorem grantInControlRole : Obligations.GrantInControlRole := by
  unfold Obligations.GrantInControlRole
  intro lb mfid svc chan tg src s du hr hu
  rw [exec_grant_of_control hu hr]
  refine ⟨fun hnone => ?_, fun e he hm => ?_, fun e f he hm hf => ?_⟩
  · rw [controlGrant_of_unresolved (resolve_eq_none.mpr hnone)]
  · rw [controlGrant_of_unmonitored (resolve_of_entry he rfl) (monitored_eq_false.mpr hm)]
  · rw [controlGrant_of_monitored (resolve_of_entry he hf) (monitored_iff.mpr hm)]

/-- Settles O17: the outcomes of a grant in TrafficChannel role, each after the refresh. -/
theorem grantInTrafficRole : Obligations.GrantInTrafficRole := by
  unfold Obligations.GrantInTrafficRole
  intro lb mfid svc chan tg cur src s du f0 la hr hu
  rw [exec_grant_of_traffic hu hr]
  refine ⟨fun hstay => ?_, fun hp hc hnone => ?_, fun e hp hc he hm => ?_, fun e f hp hc he hm hf => ?_⟩
  · exact congrArg Host.Outcome.next (trafficGrant_of_stay hstay)
  · exact congrArg Host.Outcome.next (trafficGrant_of_unresolved hp hc (resolve_eq_none.mpr hnone))
  · exact congrArg Host.Outcome.next
      (trafficGrant_of_unmonitored hp hc (resolve_of_entry he rfl) (monitored_eq_false.mpr hm))
  · exact congrArg Host.Outcome.next
      (trafficGrant_of_monitored hp hc (resolve_of_entry he hf) (monitored_iff.mpr hm))

/-! ## Pair A, then pair B (R407) -/

theorem refresh_eq_self {t : Nat} {s : State} (h : ∀ {f tg la}, s.role = .trafficChannel f tg la → la = t) :
    refresh t s = s := by
  cases hr : s.role with
  | controlChannel => exact refresh_of_control hr
  | trafficChannel f tg la =>
    obtain rfl := h hr
    rw [refresh_of_traffic hr, ← hr]

/-- A grant that gives no command leaves the refreshed role as it is, so the refresh before the next grant does nothing. -/
theorem refresh_of_no_command {chan tg : BitVec 16} {t : Nat} {s : State}
    (h : (grantPair chan tg t (refresh t s)).cmd = none) :
    refresh t (grantPair chan tg t (refresh t s)) = grantPair chan tg t (refresh t s) := by
  rcases grantPair_cases chan tg t (refresh t s) with ⟨_, he⟩ | ⟨f, reason, _, _, ⟨_, he⟩ | ⟨_, he⟩⟩
  · have hrole : (grantPair chan tg t (refresh t s)).role = (refresh t s).role := by rw [he]
    exact refresh_eq_self fun hr => refresh_role (hrole ▸ hr)
  · simp [he] at h
  · simp [he] at h

theorem exec_grantUpdt (lb : Bool) (mfid svc : BitVec 8) (chanA tgA chanB tgB : BitVec 16) (src : BitVec 24)
    (s : State) :
    ∃ a, exec (.grpVChGrant lb mfid svc chanA tgA src) s = .next a ∧
      exec (.grpVChGrantUpdt lb mfid chanA tgA chanB tgB) s =
        if a.cmd = none then exec (.grpVChGrant lb mfid svc chanB tgB src) a else .next a := by
  refine ⟨_, rfl, ?_⟩
  have hunit : unitTime (grantPair chanA tgA (unitTime s) (refresh (unitTime s) s)) = unitTime s := by
    obtain ⟨_, hr⟩ := refresh_effect (unitTime s) s
    obtain ⟨_, _, _, _, hg⟩ := grantPair_effect chanA tgA (unitTime s) (refresh (unitTime s) s)
    rw [hg, hr]
    rfl
  simp only [exec, execGrpVChGrantUpdt, execGrpVChGrant]
  split
  · next h => rw [hunit, refresh_of_no_command h]
  · rfl

/-- Settles O18: pair B's grant runs on the state that pair A's left, and either is O16's. -/
theorem grantUpdateTriesAThenB : Obligations.GrantUpdateTriesAThenB := by
  unfold Obligations.GrantUpdateTriesAThenB
  intro lb mfid svc chanA tgA chanB tgB src s du hu
  obtain ⟨a, hA, hAB⟩ := exec_grantUpdt lb mfid svc chanA tgA chanB tgB src s
  refine ⟨⟨a, hA, hAB⟩, fun e hr he hp => ?_, fun e hr hnone he hp => ?_, fun hr hnone hnone' => ?_⟩
  · obtain ⟨_, _, hfollow⟩ := grantInControlRole lb mfid svc chanA tgA src s du hr hu
    cases hA.symm.trans (hfollow e _ he (.inl hp) rfl)
    exact hAB
  · obtain ⟨hfail, _, _⟩ := grantInControlRole lb mfid svc chanA tgA src s du hr hu
    cases hA.symm.trans (hfail hnone)
    obtain ⟨_, _, hfollow⟩ := grantInControlRole lb mfid svc chanB tgB src
      { s with raised := .e4 chanA :: s.raised, cmd := none } du hr hu
    exact hAB.trans (hfollow e _ he (.inl hp) rfl)
  · obtain ⟨hfail, _, _⟩ := grantInControlRole lb mfid svc chanA tgA src s du hr hu
    cases hA.symm.trans (hfail hnone)
    obtain ⟨hfail', _, _⟩ := grantInControlRole lb mfid svc chanB tgB src
      { s with raised := .e4 chanA :: s.raised, cmd := none } du hr hu
    exact hAB.trans (hfail' hnone')

/-! ## Identifier-Updates and every other TSBK (R405, R406, R408) -/

theorem identifierUpdate_of_control {s : State} (h : s.role = .controlChannel) (b : BitVec 4) (e : BandEntry) :
    identifierUpdate b e s = { mapWrite b e s with cmd := none } := by
  simp only [identifierUpdate, h]

theorem identifierUpdate_of_traffic {s : State} {f la : Nat} {tg : BitVec 16} (h : s.role = .trafficChannel f tg la)
    (b : BitVec 4) (e : BandEntry) : identifierUpdate b e s = { s with cmd := none } := by
  simp only [identifierUpdate, h]

/-- Settles O19, by the role. -/
theorem identifierUpdates : Obligations.IdentifierUpdates := by
  unfold Obligations.IdentifierUpdates
  intro lb mfid iden bwvu bw tx txvu spacing base s du hu
  simp only [exec, execIdenUp, execIdenUpVu, unitTime_of_unit hu]
  refine ⟨fun hr => ?_, fun f tg la hr => ?_⟩
  · rw [refresh_of_control hr, identifierUpdate_of_control hr, identifierUpdate_of_control hr]
    exact ⟨rfl, rfl⟩
  · rw [refresh_of_traffic hr, identifierUpdate_of_traffic rfl, identifierUpdate_of_traffic rfl]
    exact ⟨rfl, rfl⟩

/-- Settles O20, by the role. -/
theorem otherTsbkOnlyRefreshes : Obligations.OtherTsbkOnlyRefreshes := by
  unfold Obligations.OtherTsbkOnlyRefreshes
  intro lb p opc mfid args s du hu
  simp only [exec, execTsbkOther, unitTime_of_unit hu]
  exact ⟨fun hr => by rw [refresh_of_control hr], fun f tg la hr => by rw [refresh_of_traffic hr]⟩

/-! ## A grant after Identifier-Updates (R417) -/

theorem execSeq_cons_of_next {i : Instr} {rest : List Instr} {s t : State} (h : exec i s = .next t) :
    execSeq (i :: rest) s = execSeq rest t := by
  simp only [execSeq, h]

theorem execSeq_append_of_some {xs ys : List Instr} {s t : State} (h : execSeq xs s = some t) :
    execSeq (xs ++ ys) s = execSeq ys t := by
  induction xs generalizing s with
  | nil => cases h; rfl
  | cons i xs ih =>
    obtain ⟨u, hu⟩ := exec_next i s
    rw [execSeq_cons_of_next hu] at h
    rw [List.cons_append, execSeq_cons_of_next hu, ih h]

/-- What Identifier-Updates keep in ControlChannel role: all that a grant after them reads but the ChannelMap. -/
structure Updated (s t : State) : Prop where
  role : t.role = .controlChannel
  unit : t.unit = s.unit
  cfg : t.cfg = s.cfg
  tunedFreq : t.tunedFreq = s.tunedFreq
  raised : t.raised = s.raised

theorem Updated.refl {s : State} (h : s.role = .controlChannel) : Updated s s := ⟨h, rfl, rfl, rfl, rfl⟩

theorem Updated.trans {s t u : State} (h : Updated s t) (h' : Updated t u) : Updated s u :=
  ⟨h'.role, h'.unit.trans h.unit, h'.cfg.trans h.cfg, h'.tunedFreq.trans h.tunedFreq, h'.raised.trans h.raised⟩

/-- An Identifier-Update in ControlChannel role writes its band's entry and drops the command in flight. -/
theorem exec_update {i : Instr} {b : BitVec 4} {s : State} (hi : idenBand i = some b) (hr : s.role = .controlChannel) :
    ∃ e, exec i s = .next { mapWrite b e s with cmd := none } := by
  cases i with
  | idenUpVu lb mfid iden bwvu tx spacing base =>
    cases hi
    simp only [exec, execIdenUpVu, refresh_of_control hr, identifierUpdate_of_control hr]
    exact ⟨_, rfl⟩
  | idenUp lb mfid iden bw tx spacing base =>
    cases hi
    simp only [exec, execIdenUp, refresh_of_control hr, identifierUpdate_of_control hr]
    exact ⟨_, rfl⟩
  | _ => cases hi

/-- Identifier-Updates touch no entry but those of their bands. -/
theorem execSeq_updates {is : List Instr} (his : ∀ i ∈ is, idenBand i ≠ none) {s : State}
    (hr : s.role = .controlChannel) :
    ∃ t, execSeq is s = some t ∧ Updated s t ∧
      ∀ b, (∀ i ∈ is, idenBand i ≠ some b) → mapRead b t = mapRead b s := by
  induction is generalizing s with
  | nil => exact ⟨s, rfl, .refl hr, fun _ _ => rfl⟩
  | cons i is ih =>
    obtain ⟨b, hb⟩ := Option.ne_none_iff_exists'.mp (his i List.mem_cons_self)
    obtain ⟨e, he⟩ := exec_update hb hr
    obtain ⟨t, ht, hkept, hmap⟩ := ih (fun j hj => his j (List.mem_cons_of_mem _ hj))
      (s := { mapWrite b e s with cmd := none }) hr
    have hfirst : Updated s { mapWrite b e s with cmd := none } := ⟨hr, rfl, rfl, rfl, rfl⟩
    refine ⟨t, (execSeq_cons_of_next he).trans ht, hfirst.trans hkept, fun b' hb' => ?_⟩
    have hne : b' ≠ b := fun h => hb' i List.mem_cons_self (h ▸ hb)
    rw [hmap b' fun j hj => hb' j (List.mem_cons_of_mem _ hj)]
    exact mapRead_mapWrite_of_ne hne e s

/-- The last update of the band: IDEN_UP or IDEN_UP_VU, which give base and spacing alike. -/
theorem exec_band_update {upd : Instr} {lb : Bool} {mfid : BitVec 8} {iden bwvu : BitVec 4} {bw tx : BitVec 9}
    {txvu : BitVec 14} {spacing : BitVec 10} {base : BitVec 32} {s : State} (hr : s.role = .controlChannel)
    (h : upd = .idenUp lb mfid iden bw tx spacing base ∨ upd = .idenUpVu lb mfid iden bwvu txvu spacing base) :
    ∃ t e, exec upd s = .next t ∧ Updated s t ∧ mapRead iden t = some e ∧ e.baseHz = base.toNat * 5 ∧
      e.spacingHz = spacing.toNat * 125 := by
  rcases h with rfl | rfl
  · simp only [exec, execIdenUp, refresh_of_control hr, identifierUpdate_of_control hr]
    exact ⟨_, _, rfl, ⟨hr, rfl, rfl, rfl, rfl⟩, mapRead_mapWrite_self iden _ s, rfl, rfl⟩
  · simp only [exec, execIdenUpVu, refresh_of_control hr, identifierUpdate_of_control hr]
    exact ⟨_, _, rfl, ⟨hr, rfl, rfl, rfl, rfl⟩, mapRead_mapWrite_self iden _ s, rfl, rfl⟩

/-- Settles O21: updates before the band's last one are overwritten, those after it leave its entry alone, and the grant is
O16's. -/
theorem grantAfterIdentifierUpdates : Obligations.GrantAfterIdentifierUpdates := by
  unfold Obligations.GrantAfterIdentifierUpdates
  intro s du pre post upd lb lb' mfid mfid' svc iden bwvu bw tx txvu spacing base chan tg src f hr hu hm hpre hpost hupd
    hband hf
  obtain ⟨s1, hs1, hk1, _⟩ := execSeq_updates hpre hr
  obtain ⟨s2, e, hs2, hk2, he, hbase, hspacing⟩ := exec_band_update hk1.role hupd
  have hothers : ∀ i ∈ post, idenBand i ≠ none ∧ idenBand i ≠ some iden := fun i hi => by
    obtain ⟨b, hb, hne⟩ := hpost i hi
    simp [hb, hne]
  obtain ⟨s3, hs3, hk3, hmap⟩ := execSeq_updates (fun i hi => (hothers i hi).1) hk2.role
  have hk := (hk1.trans hk2).trans hk3
  have hentry : mapRead (chan.extractLsb' 12 4) s3 = some e := by
    rw [hband, hmap iden fun i hi => (hothers i hi).2, he]
  obtain ⟨_, _, hgrant⟩ := grantInControlRole lb' mfid' svc chan tg src s3 du hk.role (hk.unit.trans hu)
  have hexec := hgrant e f hentry (monitored_iff.mp (hk.cfg ▸ hm)) (by rw [hf, hbase, hspacing])
  rw [List.append_assoc, execSeq_append_of_some hs1, List.cons_append, execSeq_cons_of_next hs2,
    execSeq_append_of_some hs3, execSeq_cons_of_next hexec]
  exact ⟨_, rfl, rfl, rfl, hk.tunedFreq, hk.raised⟩

end Sys2Proof.TrunkingProofs
end

section
/-! PROOFS. The timeout tick at the start of a block without a gap, and the units at the arbiter that run no TSBK
operation. -/

namespace Sys2Proof.TrunkingProofs

open Sys2Proof Sys2Proof.Machine Sys2Proof.StateProofs

/-! ## The timeout tick (R410) -/

/-- Settles O28: the block is entered without a gap, and the tick decides by the time since the last activity. -/
theorem timeoutAtBlockStart : Obligations.TimeoutAtBlockStart := by
  unfold Obligations.TimeoutAtBlockStart
  intro s blk rest es p f la tg hr hs he hq hp hseq hrole
  have henter := enterBlock_of_no_gap (s := takeBlock es rest s) (isGap_eq_false.mpr (.inr ⟨p, hp, hseq⟩))
  rw [step_decode hr hs he hq]
  refine ⟨fun ht => ?_, fun ht => ?_⟩
  · rw [beginBlock_of_timeout (s := takeBlock es rest s) hrole ht, henter]
    rfl
  · rw [beginBlock_of_active (s := takeBlock es rest s) hrole ht, henter]
    rfl

/-! ## Units at the arbiter (R400, R411, R413, R416) -/

theorem tsmUnit_of_invalid {du : DataUnit} {s : State} (h : du.valid = false) : tsmUnit du s = { s with cmd := none } := by
  simp [tsmUnit, h]

theorem tsmUnit_of_terminator {du : DataUnit} {s : State} (h : du.valid = true) (hk : du.kind = .terminator) :
    tsmUnit du s = terminate (refresh du.time s) := by
  simp [tsmUnit, h, hk]

theorem tsmUnit_of_other {du : DataUnit} {s : State} (h : du.valid = true) (hk : du.kind ≠ .terminator) :
    tsmUnit du s = { refresh du.time s with cmd := none } := by
  simp [tsmUnit, h, hk]

theorem terminate_of_control {s : State} (h : s.role = .controlChannel) : terminate s = { s with cmd := none } := by
  simp only [terminate, h]

theorem terminate_of_traffic {s : State} {f la : Nat} {tg : BitVec 16} (h : s.role = .trafficChannel f tg la) :
    terminate s = { s with role := .controlChannel, cmd := some ⟨s.controlFreq, .terminate⟩ } := by
  simp only [terminate, h]

/-- Only a valid TSBK's operation is fetched at the arbiter (R175, R400). -/
theorem step_at_arbiter {s : State} {du : DataUnit} (hr : s.runState = .running) (hs : s.stage = .tsm)
    (hu : s.unit = some du) (h : du.valid = false ∨ du.kind ≠ .trunkingSignalingBlock) :
    step s = .next { tsmUnit du s with stage := .tune .delivery } := by
  have hfetch : fetch s = .pipeline := by
    have hat : fetch s = fetchTsm s := by simp [fetch, hr, hs]
    rw [hat]
    unfold fetchTsm
    split
    · next hv =>
      cases hu.symm.trans hv
      simp at h
    · rfl
  rw [step_of_pipeline hfetch]
  simp [pipeline, tsmPipeline, hr, hs, hu]

/-- Settles O40, by the unit's validity and kind, and the role. -/
theorem unitsAtTheArbiter : Obligations.UnitsAtTheArbiter := by
  unfold Obligations.UnitsAtTheArbiter
  intro s du hr hs hu
  refine ⟨fun hv => ?_, fun hv hk hrole => ?_, fun f tg la hv hk hrole => ?_, fun f tg la hv hk hkt hrole => ?_⟩
  · rw [step_at_arbiter hr hs hu (.inl hv), tsmUnit_of_invalid hv]
  · rw [step_at_arbiter hr hs hu (.inr hk)]
    by_cases hkt : du.kind = .terminator
    · rw [tsmUnit_of_terminator hv hkt, refresh_of_control hrole, terminate_of_control hrole]
    · rw [tsmUnit_of_other hv hkt, refresh_of_control hrole]
  · rw [step_at_arbiter hr hs hu (.inr (by simp [hk])), tsmUnit_of_terminator hv hk, refresh_of_traffic hrole,
      terminate_of_traffic rfl]
  · rw [step_at_arbiter hr hs hu (.inr hk), tsmUnit_of_other hv hkt, refresh_of_traffic hrole]

end Sys2Proof.TrunkingProofs
end

section
/-! PROOFS. The word on P_CMD stays the one that is due, and every frequency the block holds fits SET_FREQ's operand. -/

namespace Sys2Proof.TunerProofs

open Sys2Proof Sys2Proof.Machine Sys2Proof.StateProofs

/-! ## What the invariant asks for -/

/-- A word being sent is the one its reason asks for (R462, R591). -/
def WordDue (s : State) : Prop := ∀ r, s.stage = .send r → wordFor s r s.cmdWord

/-- The frequencies held fit SET_FREQ's operand, and the ChannelMap's fields their formats (R109, R160, R501). -/
def FreqsFit (s : State) : Prop :=
  (∀ c, s.cmd = some c → c.targetFrequency < 2 ^ 56) ∧ s.controlFreq < 2 ^ 56 ∧ s.tunedFreq < 2 ^ 56 ∧
  (∀ f tg la, s.role = .trafficChannel f tg la → f < 2 ^ 56) ∧ ∀ b e, mapRead b s = some e → entryBounds e

theorem commandOk_iff {s : State} :
    CommandOk s ↔ WordDue s ∧ FreqsFit s ∧ (configured s → s.cfg.initFreq < 2 ^ 56) := by
  simp only [CommandOk, WordDue, FreqsFit, entryBounds, and_assoc]

theorem wordDue_of_not_send {s : State} (h : ∀ r, s.stage ≠ .send r) : WordDue s := fun r hs => absurd hs (h r)

/-- A configured block's step that sends no word. -/
theorem commandOk_of_no_word {s t : State} (h : CommandOk s) (hc : configured s) (hcfg : t.cfg = s.cfg)
    (hfit : FreqsFit t) (hst : ∀ r, t.stage ≠ .send r) : CommandOk t := by
  obtain ⟨_, _, hinit⟩ := commandOk_iff.mp h
  exact commandOk_iff.mpr ⟨wordDue_of_not_send hst, hfit, fun _ => hcfg ▸ hinit hc⟩

/-- A step that leaves the word, the command and the frequencies alone, and S1 but for a stop. -/
theorem commandOk_of_kept {s t : State} (h : CommandOk s) (hcfg : t.cfg = s.cfg) (hfit : FreqsFit s → FreqsFit t)
    (hst : t.stage = s.stage) (hcmd : t.cmd = s.cmd) (hw : t.cmdWord = s.cmdWord)
    (hr : t.runState = s.runState ∨ halted t = true) : CommandOk t := by
  obtain ⟨hdue, hfit', hinit⟩ := commandOk_iff.mp h
  refine commandOk_iff.mpr ⟨fun r hs => ?_, hfit hfit', fun ht => ?_⟩
  · have hword := hdue r (hst.symm.trans hs)
    unfold wordFor at hword ⊢
    rwa [hcfg, hcmd, hw]
  · rcases hr with hr | hr
    · unfold configured at ht
      rw [hr, hst] at ht
      exact hcfg ▸ hinit ht
    · exact absurd ht (not_configured_of_halted hr)

/-! ## Decisions and their frequencies (R109, R404, R410-R412) -/

theorem FreqsFit.no_command {s : State} (h : FreqsFit s) : FreqsFit { s with cmd := none } := by
  obtain ⟨_, hkept⟩ := h
  exact ⟨nofun, hkept⟩

theorem FreqsFit.refresh {s : State} (h : FreqsFit s) (n : Nat) : FreqsFit (refresh n s) := by
  obtain ⟨hcmd, hcontrol, htuned, hrole, hmap⟩ := h
  cases hr : s.role with
  | controlChannel =>
    rw [refresh_of_control hr]
    exact ⟨hcmd, hcontrol, htuned, hrole, hmap⟩
  | trafficChannel f tg la =>
    rw [refresh_of_traffic hr]
    refine ⟨hcmd, hcontrol, htuned, ?_, hmap⟩
    rintro _ _ _ ⟨⟩
    exact hrole f tg la hr

/-- The end of a call: a command back to the control frequency. -/
theorem FreqsFit.returned {s : State} (h : FreqsFit s) (reason : Reason) :
    FreqsFit { s with role := .controlChannel, cmd := some ⟨s.controlFreq, reason⟩ } := by
  obtain ⟨_, hcontrol, htuned, _, hmap⟩ := h
  refine ⟨?_, hcontrol, htuned, nofun, hmap⟩
  rintro _ ⟨⟩
  exact hcontrol

/-- A grant taken: a command to its frequency. -/
theorem FreqsFit.granted {s : State} {f freq n : Nat} {tg : BitVec 16} {reason : Reason} (h : FreqsFit s)
    (hf : f < 2 ^ 56) (hfreq : freq < 2 ^ 56) :
    FreqsFit { s with role := .trafficChannel f tg n, controlFreq := freq, cmd := some ⟨f, reason⟩ } := by
  obtain ⟨_, _, htuned, _, hmap⟩ := h
  refine ⟨?_, hfreq, htuned, ?_, hmap⟩
  · rintro _ ⟨⟩
    exact hf
  · rintro _ _ _ ⟨⟩
    exact hf

/-- A 12-bit channel number times the spacing, on top of the base frequency, stays far below SET_FREQ's 56 bits (R109). -/
theorem resolve_lt {s : State} {chan : BitVec 16} {f : Nat} (h : FreqsFit s) (hf : resolve chan s = some f) :
    f < 2 ^ 56 := by
  obtain ⟨_, _, _, _, hmap⟩ := h
  obtain ⟨e, hread, rfl⟩ := resolve_eq_some.mp hf
  obtain ⟨hbase, hspacing⟩ := hmap _ e hread
  have hnumber : (chanNumber chan).toNat ≤ 2 ^ 12 - 1 := Nat.le_pred_of_lt (chanNumber chan).isLt
  calc e.baseHz + (chanNumber chan).toNat * e.spacingHz
      ≤ (2 ^ 32 - 1) * 5 + (2 ^ 12 - 1) * (1023 * 125) := Nat.add_le_add hbase (Nat.mul_le_mul hnumber hspacing)
    _ < 2 ^ 56 := by norm_num

theorem mapWrite_freqsFit {s : State} {b : BitVec 4} {e : BandEntry} (h : FreqsFit s) (he : entryBounds e) :
    FreqsFit (mapWrite b e s) := by
  obtain ⟨hcmd, hcontrol, htuned, hrole, hmap⟩ := h
  refine ⟨hcmd, hcontrol, htuned, hrole, fun b' e' hread => ?_⟩
  by_cases hb : b' = b
  · subst hb
    rw [mapRead_mapWrite_self] at hread
    cases hread
    exact he
  · rw [mapRead_mapWrite_of_ne hb] at hread
    exact hmap b' e' hread

theorem tsbk_freqsFit {i : Instr} {s u : State} (hu : TsbkCase i s u) (h : FreqsFit s) : FreqsFit u := by
  have ⟨_, hcontrol, htuned, _⟩ := h
  cases hu with
  | nothing => exact (h.refresh (unitTime s)).no_command
  | update b e _ _ he => exact (mapWrite_freqsFit h he).no_command
  | grant chan tg f _ _ _ hf => exact h.granted (resolve_lt h hf) htuned
  | preempt chan tg f _ _ _ hf => exact h.granted (resolve_lt h hf) hcontrol

theorem tsmPipeline_freqsFit {s : State} (h : FreqsFit s) : FreqsFit (tsmPipeline s) := by
  unfold tsmPipeline
  split
  · exact h.no_command
  · next du _ =>
    have hr := h.refresh du.time
    unfold tsmUnit terminate
    dsimp only
    split
    · split
      · split
        · exact hr.no_command
        · exact hr.returned .terminate
      · exact hr.no_command
    · exact h.no_command

theorem blockTick_freqsFit {s : State} (h : FreqsFit s) : FreqsFit (blockTick s) := by
  unfold blockTick
  split
  · exact h.no_command
  · split
    · exact h.returned .timeout
    · exact h.no_command

/-! ## The operations of the table -/

theorem instr_commandOk {s u : State} {i : Instr} (h : CommandOk s) (hf : fetch s = .instr i) (he : exec i s = .next u) :
    CommandOk (retire s.stage u) := by
  obtain ⟨_, hfit, _⟩ := commandOk_iff.mp h
  cases fetch_instr hf with
  | frame hr hs hi =>
    obtain ⟨_, _, _, _, _, _, _, _, _, _, _, _, unit, _, rfl⟩ := exec_frame_effect hi he
    rw [hs]
    cases unit with
    | none => exact commandOk_of_no_word h (.inl hr) rfl hfit nofun
    | some du => exact commandOk_of_no_word h (.inl hr) rfl hfit nofun
  | tsbk _ _ o hr hs _ hi =>
    have htsbk := hi ▸ dispatchTsbk_tsbk o
    have hcfg : u.cfg = s.cfg := (exec_quiet hf he).cfg
    have hu : FreqsFit u := tsbk_freqsFit (exec_tsbk_cases htsbk he) hfit
    rw [hs]
    exact commandOk_of_no_word h (.inl hr) hcfg hu nofun
  | cmd r hr hs hp hd =>
    obtain ⟨_, _, _, ⟨_, rfl⟩ | ⟨_, _, _, rfl⟩⟩ := exec_cmd_effect (decodeCmd_cmd hd) hp he
    · have hc : configured s := hr.imp_right fun hb => ⟨hb, r, .inl hs⟩
      rw [hs]
      rcases hr with hr | hr <;>
        · simp only [retire, hr]
          exact commandOk_of_no_word h hc rfl hfit nofun
    · rw [hs]
      exact commandOk_of_kept h rfl id hs.symm rfl rfl (.inr rfl)

/-! ## The pipeline operations -/

/-- A word that is accepted is followed by the one due next, or by the end of boot or of the retune (R462, R591). -/
theorem afterCommand_commandOk {s : State} (h : CommandOk s) (hc : configured s) (r : SendFor) :
    CommandOk (afterCommand r s) := by
  obtain ⟨_, hfit, hinit⟩ := commandOk_iff.mp h
  have ⟨hcmd, hcontrol, _, hrole, hmap⟩ := hfit
  cases r with
  | bootPpm => exact commandOk_iff.mpr ⟨by rintro _ ⟨⟩; rfl, hfit, fun _ => hinit hc⟩
  | bootGain => exact commandOk_iff.mpr ⟨by rintro _ ⟨⟩; rfl, hfit, fun _ => hinit hc⟩
  | bootFreq => exact commandOk_of_no_word h hc rfl ⟨hcmd, hinit hc, hinit hc, hrole, hmap⟩ nofun
  | retune src =>
    have hst : ∀ r, afterTune src ≠ .send r := by cases src <;> nofun
    rw [afterCommand]
    unfold retuneSent
    split
    · exact commandOk_of_no_word h hc rfl hfit hst
    · next c hcommand => exact commandOk_of_no_word h hc rfl ⟨nofun, hcontrol, hcmd c hcommand, hrole, hmap⟩ hst

/-- The tuner's own word is SET_FREQ to its command's frequency (R462). -/
theorem tuneStep_commandOk {s : State} (h : CommandOk s) (hr : s.runState = .running) (src : TuneFrom) :
    CommandOk (tuneStep src s) := by
  obtain ⟨_, hfit, hinit⟩ := commandOk_iff.mp h
  have hst : ∀ r, afterTune src ≠ .send r := by cases src <;> nofun
  cases hc : s.cmd with
  | none =>
    rw [tuneStep_of_none hc]
    exact commandOk_of_no_word h (.inl hr) rfl hfit hst
  | some c =>
    by_cases hf : c.targetFrequency = s.tunedFreq
    · rw [tuneStep_of_same hc hf]
      exact commandOk_of_no_word h (.inl hr) rfl hfit.no_command hst
    · rw [tuneStep_of_new hc hf]
      exact commandOk_iff.mpr ⟨by rintro _ ⟨⟩; exact ⟨c, hc, rfl⟩, hfit, fun _ => hinit (.inl hr)⟩

/-! ## Outside events -/

/-- A legal configuration's INIT_FREQ fits, and SET_PPM is the first word (R547, R591). -/
theorem bootStart_commandOk {s : State} (h : CommandOk s) (hst : ∀ r, s.stage ≠ .send r) (c : StartConfig) (q : Status) :
    CommandOk (bootStart c q s) := by
  obtain ⟨_, hfit, _⟩ := commandOk_iff.mp h
  have hstopped : ∀ {t : State}, t.stage = s.stage → FreqsFit t → halted t = true → CommandOk t :=
    fun hs hfit hh => commandOk_iff.mpr
      ⟨wordDue_of_not_send (hs ▸ hst), hfit, fun ht => absurd ht (not_configured_of_halted hh)⟩
  cases hl : firstIllegal (loadConfig c) with
  | some field =>
    rw [bootStart_of_illegal hl]
    exact hstopped rfl hfit rfl
  | none =>
    cases q with
    | fail =>
      rw [bootStart_of_closed hl]
      exact hstopped rfl hfit rfl
    | ok =>
      rw [bootStart_of_open hl]
      exact commandOk_iff.mpr ⟨by rintro _ ⟨⟩; rfl, hfit, fun _ => initFreq_lt_of_legal hl⟩

theorem beginBlock_commandOk {s : State} (h : CommandOk s) (hr : s.runState = .running) (blk : SampleBlock) :
    CommandOk (beginBlock blk s) := by
  obtain ⟨_, hfit, _⟩ := commandOk_iff.mp h
  obtain ⟨hcfg, _⟩ := beginBlock_registers blk s
  have henter : FreqsFit (enterBlock blk s) := by
    obtain ⟨_, _, _, _, _, _, _, _, _, _, _, _, _, _, _, _, hg⟩ := gapCheck_effect blk.seq s
    rw [enterBlock, hg]
    exact hfit
  rw [beginBlock_eq] at hcfg ⊢
  exact commandOk_of_no_word h (.inl hr) hcfg (blockTick_freqsFit henter) nofun

theorem event_commandOk {s t : State} (h : CommandOk s) (hst : ∀ r, s.stage ≠ .send r) (he : EventCase s t) :
    CommandOk t := by
  cases he with
  | none => exact h
  | start c q es => exact bootStart_commandOk (s := { s with events := es }) h hst c q
  | shutdown q es => exact commandOk_of_kept h rfl id rfl rfl rfl (.inr rfl)
  | readFail es => exact commandOk_of_kept h rfl id rfl rfl rfl (.inr rfl)
  | block samples es =>
    obtain ⟨_, _, hi, _⟩ := ingestBlock_effect samples { s with events := es }
    rw [hi]
    exact h
  | decodeEmpty es => exact h
  | decode blk rest es hr => exact beginBlock_commandOk (s := { s with events := es, queue := rest }) h hr blk
  | ignored e es => exact h

/-! ## Every step -/

theorem running_commandOk {s t : State} (h : CommandOk s) (hr : s.runState = .running) (hcase : RunningCase s t) :
    CommandOk t := by
  obtain ⟨_, hfit, _⟩ := commandOk_iff.mp h
  have hc : configured s := .inl hr
  cases hcase with
  | event hs he => exact event_commandOk h (by simp [hs]) (eventStep_cases he)
  | sending => exact h
  | sent r => exact afterCommand_commandOk h hc r
  | sample hs =>
    have hst := FrameSyncProofs.sampleStep_stage s
    obtain ⟨_, _, _, _, _, _, _, _, _, _, _, ht⟩ := sampleStep_effect s
    rw [ht] at hst ⊢
    rw [hs] at hst
    exact commandOk_of_no_word h hc rfl hfit (by rcases hst with rfl | rfl <;> nofun)
  | dibit hs =>
    have hst := TrunkingProofs.dibitStep_stage s
    obtain ⟨_, _, _, _, _, _, _, _, _, _, _, _, _, _, ht⟩ := dibitStep_effect s
    rw [ht] at hst ⊢
    rw [hs] at hst
    exact commandOk_of_no_word h hc rfl hfit (by rcases hst with rfl | rfl | rfl | rfl <;> nofun)
  | frame =>
    obtain ⟨_, _, _, _, _, _, _, _, _, _, _, _, ht⟩ := framePipeline_effect s
    rw [ht]
    exact commandOk_of_no_word h hc rfl hfit nofun
  | tsm =>
    have htsm := tsmPipeline_freqsFit hfit
    obtain ⟨_, _, ht⟩ := tsmPipeline_effect s
    rw [ht] at htsm ⊢
    exact commandOk_of_no_word h hc rfl htsm nofun
  | tune src => exact tuneStep_commandOk h hr src
  | route =>
    obtain ⟨_, _, ht⟩ := routeStep_effect s
    rw [ht]
    exact commandOk_of_no_word h hc rfl hfit nofun
  | advance =>
    obtain ⟨_, _, _, _, _, _, _, _, _, _, _, _, ht⟩ := advanceStep_effect s
    rw [ht]
    exact commandOk_of_no_word h hc rfl hfit nofun

/-- Settles O59, by the cases of a step: a word is put on P_CMD only by boot and the tuner, and a frequency comes from a legal
configuration, from a ChannelMap entry, or from one the block held before. -/
theorem commandsKept : Obligations.CommandsKept := by
  unfold Obligations.CommandsKept
  intro s t h hs
  cases step_cases hs with
  | instr i u hf he => exact instr_commandOk h hf he
  | wait => exact h
  | halt => exact h
  | bootSent r hr hst => exact afterCommand_commandOk h (.inr ⟨hr, r, .inr hst⟩) r
  | bootEvent _ _ hw he => exact event_commandOk h hw (eventStep_cases he)
  | running hr _ hc => exact running_commandOk h hr hc

end Sys2Proof.TunerProofs
end

section
/-! PROOFS. The Channel Tuner and the Voice Router, one step at a time: a command to the tuned frequency, a retune with either
answer, and the units the router forwards or drops. -/

namespace Sys2Proof.TunerProofs

open Sys2Proof Sys2Proof.Machine Sys2Proof.StateProofs Sys2Proof.EncodingProofs

/-! ## The Channel Tuner (R460-R462) -/

/-- Settles O41, by the command: without one, and with one to the tuned frequency, the tuner only moves on. -/
theorem retuneIdempotent : Obligations.RetuneIdempotent := by
  unfold Obligations.RetuneIdempotent
  intro s src next hr hs hnext
  have hafter : afterTune src = next := by rcases hnext with ⟨rfl, rfl⟩ | ⟨rfl, rfl⟩ <;> rfl
  rw [step_at_tune hr hs, ← hafter]
  exact ⟨fun c hc hf => congrArg _ (tuneStep_of_same hc hf), fun hc => congrArg _ (tuneStep_of_none hc)⟩

section Retune

variable {s : State} {src : TuneFrom} {freq : Nat} {rest : List Status}

theorem fetch_retune_word (hr : s.runState = .running) (hs : s.stage = .send (.retune src))
    (hw : s.cmdWord = setFreqWord (BitVec.ofNat 56 freq)) (hp : s.replies ≠ []) :
    fetch s = .instr (.setFreq (BitVec.ofNat 56 freq)) := by
  rw [fetch_at_send (.inl hr) hs]
  exact fetchCmd_of_reply hp (hw ▸ decodeCmd_setFreqWord _)

/-- A retune's word that is accepted leads to the retune point (R462, R504). -/
theorem step_retune_ok (hr : s.runState = .running) (hs : s.stage = .send (.retune src))
    (hw : s.cmdWord = setFreqWord (BitVec.ofNat 56 freq)) (hp : s.replies = .ok :: rest) :
    step s = .next { s with
      replies := rest, out := .command s.cmdWord .ok :: s.out, stage := .sent (.retune src) } := by
  rw [step_of_instr (fetch_retune_word hr hs hw (by simp [hp])) rfl, sendCommand_of_ok hp, hs, hw]
  simp only [retire, hr]

/-- A retune's word that is refused stops the block with E6 (R462, R546). -/
theorem step_retune_fail (hr : s.runState = .running) (hs : s.stage = .send (.retune src))
    (hw : s.cmdWord = setFreqWord (BitVec.ofNat 56 freq)) (hlt : freq < 2 ^ 56) (hp : s.replies = .fail :: rest) :
    step s = .next { s with
      replies := rest, out := .command s.cmdWord .fail :: s.out
      runState := .fatal (.e6 freq), raised := .e6 freq :: s.raised } := by
  have hfreq : (BitVec.ofNat 56 freq).toNat = freq := Nat.mod_eq_of_lt hlt
  rw [step_of_instr (fetch_retune_word hr hs hw (by simp [hp])) rfl, sendCommand_of_fail hp, raise_of_fatal rfl, hs, hw,
    hfreq]
  rfl

/-- The retune point is one step (R462). -/
theorem step_retune_point {c : RetuneCommand} (hr : s.runState = .running) (hs : s.stage = .sent (.retune src))
    (hc : s.cmd = some c) : step s = .next { applyRetune c.targetFrequency s with stage := afterTune src } := by
  simp only [step, fetch, pipeline, afterCommand, retuneSent, hr, hs, hc]

end Retune

/-- Settles O42: the tuner puts the word on P_CMD, its answer is taken in the next step, and an OK reaches the retune point in
the step after. -/
theorem retuneApplied : Obligations.RetuneApplied := by
  unfold Obligations.RetuneApplied
  intro s src c rest w hr hs hc hf hlt hw
  have htune := step_at_tune hr hs
  rw [tuneStep_of_new hc hf] at htune
  subst hw
  refine ⟨fun hp => ?_, fun hp => ?_⟩
  · refine Eq.trans (steps_succ 2 htune) ?_
    refine Eq.trans (steps_succ 1 (step_retune_ok hr rfl rfl hp)) ?_
    refine Eq.trans (steps_succ 0 (step_retune_point hr rfl hc)) ?_
    cases src <;> rfl
  · exact ⟨_, (steps_succ 1 htune).trans (steps_succ 0 (step_retune_fail hr rfl rfl hlt hp)), rfl, rfl, rfl, rfl, rfl⟩

/-! ## The Voice Router (R480, R482) -/

theorem voiceRecord_of_ldu1 {tuned la : Nat} {tg : BitVec 16} {du : DataUnit} {frames : List (BitVec 88)}
    {lc : BitVec 72} (hk : du.kind = .logicalLinkUnit1) (hv : du.valid = true) (hb : du.body = some (.ldu1 frames lc)) :
    voiceRecord (.trafficChannel tuned tg la) tuned du = some ⟨.ldu1, frames, du.time⟩ := by
  simp [voiceRecord, hk, hv, hb]

theorem voiceRecord_of_ldu2 {tuned la : Nat} {tg : BitVec 16} {du : DataUnit} {frames : List (BitVec 88)}
    {es : BitVec 96} (hk : du.kind = .logicalLinkUnit2) (hv : du.valid = true) (hb : du.body = some (.ldu2 frames es)) :
    voiceRecord (.trafficChannel tuned tg la) tuned du = some ⟨.ldu2, frames, du.time⟩ := by
  simp [voiceRecord, hk, hv, hb]

/-- A valid voice unit while the role's frequency is the tuned one: what ROUTER.FORWARD asks for (R480). -/
def FollowedVoice (role : Role) (tuned : Nat) (du : DataUnit) : Prop :=
  (du.kind = .logicalLinkUnit1 ∨ du.kind = .logicalLinkUnit2) ∧ du.valid = true ∧
    ∃ tg la, role = .trafficChannel tuned tg la

/-- A record is made of a valid voice unit on the followed frequency only, and has its time (R480, R171). -/
theorem voiceRecord_eq_some {role : Role} {tuned : Nat} {du : DataUnit} {rec : VoiceRecord}
    (h : voiceRecord role tuned du = some rec) : FollowedVoice role tuned du ∧ rec.time = du.time := by
  unfold voiceRecord at h
  split at h
  · cases h
  · next f tg la =>
    split at h
    · next hcond =>
      obtain ⟨hv, rfl⟩ := hcond
      split at h
      · next hk _ =>
        cases h
        exact ⟨⟨.inl hk, hv, tg, la, rfl⟩, rfl⟩
      · next hk _ =>
        cases h
        exact ⟨⟨.inr hk, hv, tg, la, rfl⟩, rfl⟩
      · cases h
    · cases h

theorem routeStep_of_none {s : State} (hu : s.unit = none) : routeStep s = { s with stage := .advance } := by
  simp only [routeStep, hu]

theorem routeStep_of_record {s : State} {du : DataUnit} {rec : VoiceRecord} (hu : s.unit = some du)
    (h : voiceRecord s.role s.tunedFreq du = some rec) :
    routeStep s = { s with unit := none, out := .voice rec :: s.out, stage := .advance } := by
  simp only [routeStep, hu, h]

theorem routeStep_of_no_record {s : State} {du : DataUnit} (hu : s.unit = some du)
    (h : voiceRecord s.role s.tunedFreq du = none) : routeStep s = { s with unit := none, stage := .advance } := by
  simp only [routeStep, hu, h]

theorem step_of_route {s : State} (hr : s.runState = .running) (hs : s.stage = .route) :
    step s = .next (routeStep s) := by
  simp only [step, fetch, pipeline, hr, hs]

/-- Settles O43, by the record that the router makes of the unit: one of either voice kind, or none. -/
theorem voiceForwardedOrDropped : Obligations.VoiceForwardedOrDropped := by
  unfold Obligations.VoiceForwardedOrDropped
  intro s du hr hs hu
  rw [step_of_route hr hs]
  refine ⟨fun frames lc tg la hk hv hb hrole => ?_, fun frames es tg la hk hv hb hrole => ?_, fun hno => ?_⟩
  · exact congrArg _ (routeStep_of_record hu (hrole ▸ voiceRecord_of_ldu1 hk hv hb))
  · exact congrArg _ (routeStep_of_record hu (hrole ▸ voiceRecord_of_ldu2 hk hv hb))
  · refine congrArg _ (routeStep_of_no_record hu (Option.eq_none_iff_forall_ne_some.mpr fun rec hrec => ?_))
    obtain ⟨hfollowed, _⟩ := voiceRecord_eq_some hrec
    exact hno hfollowed

end Sys2Proof.TunerProofs
end

section
/-! PROOFS. What a step sends on P_CMD and P_VOICE, said once: nothing, the word due with its reply taken, or the record of the
unit at the router. -/

namespace Sys2Proof.TunerProofs

open Sys2Proof Sys2Proof.Machine Sys2Proof.StateProofs Sys2Proof.EncodingProofs

/-! ## The words and the records sent (R464, R480) -/

theorem sentWords_cons_command {s t : State} {w : Word64} {q : Status} (h : t.out = .command w q :: s.out) :
    sentWords t = sentWords s ++ [w] := by
  simp [sentWords, h]

theorem voiceSent_cons_command {s t : State} {w : Word64} {q : Status} (h : t.out = .command w q :: s.out) :
    voiceSent t = voiceSent s := by
  simp [voiceSent, h]

theorem sentWords_cons_voice {s t : State} {rec : VoiceRecord} (h : t.out = .voice rec :: s.out) :
    sentWords t = sentWords s := by
  simp [sentWords, h]

theorem voiceSent_cons_voice {s t : State} {rec : VoiceRecord} (h : t.out = .voice rec :: s.out) :
    voiceSent t = voiceSent s ++ [rec] := by
  simp [voiceSent, h]

/-- Everything a step can send on P_CMD and P_VOICE. -/
inductive PortCase (s t : State) : Prop where
  /-- neither a word nor a record -/
  | silent (hwords : sentWords t = sentWords s) (hvoice : voiceSent t = voiceSent s)
  /-- the word on P_CMD, answered by the first reply -/
  | command (r : SendFor) (q : Status) (hc : configured s) (hs : s.stage = .send r) (hp : s.replies = q :: t.replies)
      (hout : t.out = .command s.cmdWord q :: s.out)
  /-- the record of the unit at the router -/
  | voice (du : DataUnit) (rec : VoiceRecord) (hr : s.runState = .running) (hs : s.stage = .route)
      (hu : s.unit = some du) (hrec : voiceRecord s.role s.tunedFreq du = some rec) (hunit : t.unit = none)
      (hout : t.out = .voice rec :: s.out)

theorem portCase_of_out_eq {s t : State} (h : t.out = s.out) : PortCase s t :=
  .silent (by simp only [sentWords, h]) (by simp only [voiceSent, h])

/-! ## The cases of a step -/

/-- The command fetched is the one the word encodes, so it sends that word (R170, R504). -/
theorem instr_portCase {s u : State} {i : Instr} (hf : fetch s = .instr i) (he : exec i s = .next u) :
    PortCase s (retire s.stage u) := by
  obtain ⟨_, hret⟩ := retire_effect s.stage u
  rw [hret]
  cases fetch_instr hf with
  | frame _ _ hi =>
    obtain ⟨_, _, _, _, _, _, _, _, _, _, _, _, _, _, rfl⟩ := exec_frame_effect hi he
    exact portCase_of_out_eq rfl
  | tsbk _ _ o _ _ _ hi =>
    obtain ⟨_, _, _, _, _, rfl⟩ := exec_tsbk_effect (hi ▸ dispatchTsbk_tsbk o) he
    exact portCase_of_out_eq rfl
  | cmd r hr hs hp hd =>
    have hc : configured s := hr.imp_right fun hb => ⟨hb, r, .inl hs⟩
    obtain ⟨w, rest, hw, hanswer⟩ := exec_cmd_effect (decodeCmd_cmd hd) hp he
    cases hw.symm.trans (encode_decodeCmd hd)
    rcases hanswer with ⟨hp, rfl⟩ | ⟨_, _, hp, rfl⟩
    · exact .command r .ok hc hs hp rfl
    · exact .command r .fail hc hs hp rfl

theorem afterCommand_portCase (s : State) (r : SendFor) : PortCase s (afterCommand r s) := by
  cases r with
  | retune src =>
    obtain ⟨_, _, _, _, _, _, _, _, _, _, _, _, _, _, _, _, _, _, _, _, h⟩ := retuneSent_effect src s
    rw [afterCommand, h]
    exact portCase_of_out_eq rfl
  | _ => exact portCase_of_out_eq rfl

theorem routeStep_portCase {s : State} (hr : s.runState = .running) (hs : s.stage = .route) :
    PortCase s (routeStep s) := by
  cases hu : s.unit with
  | none =>
    rw [routeStep_of_none hu]
    exact portCase_of_out_eq rfl
  | some du =>
    cases hrec : voiceRecord s.role s.tunedFreq du with
    | none =>
      rw [routeStep_of_no_record hu hrec]
      exact portCase_of_out_eq rfl
    | some rec =>
      rw [routeStep_of_record hu hrec]
      exact .voice du rec hr hs hu hrec rfl rfl

/-- The host's actions and the agents' events use the other ports only (R505, R509). -/
theorem event_portCase {s t : State} (he : EventCase s t) : PortCase s t := by
  cases he with
  | start c q es =>
    cases hl : firstIllegal (loadConfig c) with
    | some field =>
      rw [bootStart_of_illegal hl]
      exact portCase_of_out_eq rfl
    | none =>
      cases q with
      | fail =>
        rw [bootStart_of_closed hl]
        exact .silent rfl rfl
      | ok =>
        rw [bootStart_of_open hl]
        exact .silent rfl rfl
  | shutdown q es => exact .silent rfl rfl
  | block samples es =>
    obtain ⟨_, _, hi, _⟩ := ingestBlock_effect samples { s with events := es }
    rw [hi]
    exact portCase_of_out_eq rfl
  | decode blk rest es =>
    obtain ⟨_, _, hb⟩ := beginBlock_effect blk { s with events := es, queue := rest }
    obtain ⟨_, _, _, _, _, _, _, _, _, _, _, _, _, _, _, _, hg⟩ :=
      gapCheck_effect blk.seq { s with events := es, queue := rest }
    rw [hb, hg]
    exact portCase_of_out_eq rfl
  | _ => exact portCase_of_out_eq rfl

theorem running_portCase {s t : State} (hr : s.runState = .running) (hc : RunningCase s t) : PortCase s t := by
  cases hc with
  | event _ he => exact event_portCase (eventStep_cases he)
  | sending => exact portCase_of_out_eq rfl
  | sent r => exact afterCommand_portCase s r
  | sample =>
    obtain ⟨_, _, _, _, _, _, _, _, _, _, _, ht⟩ := sampleStep_effect s
    rw [ht]
    exact portCase_of_out_eq rfl
  | dibit =>
    obtain ⟨_, _, _, _, _, _, _, _, _, _, _, _, _, _, ht⟩ := dibitStep_effect s
    rw [ht]
    exact portCase_of_out_eq rfl
  | frame =>
    obtain ⟨_, _, _, _, _, _, _, _, _, _, _, _, ht⟩ := framePipeline_effect s
    rw [ht]
    exact portCase_of_out_eq rfl
  | tsm =>
    obtain ⟨_, _, ht⟩ := tsmPipeline_effect s
    rw [ht]
    exact portCase_of_out_eq rfl
  | tune src =>
    obtain ⟨_, _, _, ht⟩ := tuneStep_effect src s
    rw [ht]
    exact portCase_of_out_eq rfl
  | route hs => exact routeStep_portCase hr hs
  | advance =>
    obtain ⟨_, _, _, _, _, _, _, _, _, _, _, _, ht⟩ := advanceStep_effect s
    rw [ht]
    exact portCase_of_out_eq rfl

/-- The inversion of `step` for P_CMD and P_VOICE. -/
theorem step_portCase {s t : State} (h : step s = .next t) : PortCase s t := by
  cases step_cases h with
  | instr i u hf he => exact instr_portCase hf he
  | wait => exact portCase_of_out_eq rfl
  | halt => exact portCase_of_out_eq rfl
  | bootSent r => exact afterCommand_portCase s r
  | bootEvent _ _ _ he => exact event_portCase (eventStep_cases he)
  | running hr _ hc => exact running_portCase hr hc

/-- Settles O44: of the steps that send, only the router's sends a record, and only of a unit that it forwards. -/
theorem voiceOnlyOnFollowedFrequency : Obligations.VoiceOnlyOnFollowedFrequency := by
  unfold Obligations.VoiceOnlyOnFollowedFrequency
  intro s t h
  cases step_portCase h with
  | silent _ hvoice => exact .inl hvoice
  | command _ _ _ _ _ hout => exact .inl (voiceSent_cons_command hout)
  | voice du rec hr hs hu hrec hunit hout =>
    obtain ⟨⟨hk, hv, tg, la, hrole⟩, htime⟩ := voiceRecord_eq_some hrec
    exact .inr ⟨du, tg, la, rec, hr, hs, hu, hv, hk, hrole, htime, hunit, voiceSent_cons_voice hout⟩

/-! ## The word due (R464, R501) -/

/-- SET_FREQ's word holds its code and a frequency below 2^56 whole (R501, R109). -/
theorem setFreqWord_fields {w : Word64} {freq : Nat} (hw : w = setFreqWord (BitVec.ofNat 56 freq))
    (hf : freq < 2 ^ 56) : w.extractLsb' 56 8 = 0x01#8 ∧ (w.extractLsb' 0 56).toNat = freq := by
  subst hw
  have hcode : (setFreqWord (BitVec.ofNat 56 freq)).extractLsb' 56 8 = 0x01#8 := BitVec.extractLsb'_append_eq_left
  have hfreq : (setFreqWord (BitVec.ofNat 56 freq)).extractLsb' 0 56 = BitVec.ofNat 56 freq :=
    BitVec.extractLsb'_append_eq_right
  exact ⟨hcode, by rw [hfreq]; exact Nat.mod_eq_of_lt hf⟩

/-- Settles O49: of the steps that send, only a call on P_CMD sends a word, and that is the one its reason asks for. -/
theorem commandsInOrder : Obligations.CommandsInOrder := by
  unfold Obligations.CommandsInOrder
  rintro s t ⟨hdue, hcmd, _, _, _, _, hinit⟩ h
  cases step_portCase h with
  | silent hwords => exact .inl hwords
  | voice _ _ _ _ _ _ _ hout => exact .inl (sentWords_cons_voice hout)
  | command r q hc hs hp hout =>
    refine .inr ⟨r, hs, sentWords_cons_command hout, by rw [hp, List.length_cons], ?_⟩
    have hword := hdue r hs
    cases r with
    | bootPpm => exact .inl ⟨rfl, hword⟩
    | bootGain => exact .inr (.inl ⟨rfl, hword⟩)
    | bootFreq => exact .inr (.inr (.inl ⟨rfl, setFreqWord_fields hword (hinit hc)⟩))
    | retune src =>
      obtain ⟨c, hcommand, hword⟩ := hword
      exact .inr (.inr (.inr ⟨src, c, rfl, hcommand, setFreqWord_fields hword (hcmd c hcommand)⟩))

end Sys2Proof.TunerProofs
end

section
/-! PROOFS. The ports of the host and of the Sample Source, one operation or event at a time: the three command words with
either reply, the Ingest step, SHUTDOWN, and the host's calls that come at the wrong time. -/

namespace Sys2Proof.InterfaceProofs

open Sys2Proof Sys2Proof.Machine Sys2Proof.StateProofs

/-! ## The command words (R501-R504) -/

theorem exec_setFreq (freq : BitVec 56) (s : State) :
    exec (.setFreq freq) s = .next (sendCommand (0x01#8 ++ freq) (.e6 freq.toNat) s) := rfl

theorem exec_setGain_auto (s : State) :
    exec (.setGain .auto) s = .next (sendCommand 0x0280000000000000#64 (.e7 .gain) s) := rfl

theorem exec_setGain_manual (g : BitVec 32) (s : State) :
    exec (.setGain (.manual g)) s = .next (sendCommand (0x02000000#32 ++ g) (.e7 .gain) s) := by
  have hword : setGainWord (.manual g) = 0x02000000#32 ++ g :=
    (BitVec.append_assoc (x₁ := 0x02#8) (x₂ := 0#24) (x₃ := g)).symm
  rw [← hword]
  rfl

theorem exec_setPpm (ppm : BitVec 32) (s : State) :
    exec (.setPpm ppm) s = .next (sendCommand (0x03000000#32 ++ ppm) (.e7 .ppm) s) := by
  rw [← setPpmWord_eq]
  rfl

section Reply

variable {i : Instr} {w : Word64} {e : Error} {s : State} {rest : List Status}

/-- An operation that only calls on P_CMD, answered OK (R504). -/
theorem exec_of_accepted (hi : exec i s = .next (sendCommand w e s)) (hp : s.replies = .ok :: rest) :
    exec i s = .next { s with replies := rest, out := .command w .ok :: s.out } := by
  rw [hi, sendCommand_of_ok hp]

/-- An operation that only calls on P_CMD, answered FAIL: its error is fatal (R504, R549). -/
theorem exec_of_refused (hi : exec i s = .next (sendCommand w e s)) (he : e.fatal = true)
    (hp : s.replies = .fail :: rest) :
    exec i s = .next { s with
      replies := rest, out := .command w .fail :: s.out, runState := .fatal e, raised := e :: s.raised } := by
  rw [hi, sendCommand_of_fail hp, raise_of_fatal he]

end Reply

/-- Settles O22: each operation is a call of its word, which the reply decides. -/
theorem commandsAnswered : Obligations.CommandsAnswered := by
  unfold Obligations.CommandsAnswered
  intro freq g ppm s rest
  refine ⟨fun hp => ⟨?_, ?_, ?_, ?_⟩, fun hp => ⟨?_, ?_, ?_, ?_⟩⟩
  · exact exec_of_accepted (exec_setFreq freq s) hp
  · exact exec_of_accepted (exec_setGain_auto s) hp
  · exact exec_of_accepted (exec_setGain_manual g s) hp
  · exact exec_of_accepted (exec_setPpm ppm s) hp
  · exact exec_of_refused (exec_setFreq freq s) rfl hp
  · exact exec_of_refused (exec_setGain_auto s) rfl hp
  · exact exec_of_refused (exec_setGain_manual g s) rfl hp
  · exact exec_of_refused (exec_setPpm ppm s) rfl hp

/-! ## Outside events between two steps (R500, R505-R507) -/

section Event

variable {s : State} {es : List Event}

/-- Between two agent steps the next outside event is taken (R35). -/
theorem step_at_idle (hr : s.runState = .running ∨ s.runState = .booting) (hs : s.stage = .idle) :
    step s = eventStep s := by
  rcases hr with hr | hr <;> simp only [step, fetch, pipeline, hr, hs]

theorem step_ingest {read : ReadResult} (hr : s.runState = .running) (hs : s.stage = .idle)
    (he : s.events = .ingest read :: es) : step s = ingestStep read { s with events := es } := by
  simp only [step_at_idle (.inl hr) hs, eventStep, hr, he]

/-- An Ingest step whose read answers a SampleBlock (R36, R500). -/
theorem step_ingest_block {samples : List Cplx} (hr : s.runState = .running) (hs : s.stage = .idle)
    (he : s.events = .ingest (.ok samples) :: es) (hl : samples.length = s.cfg.blockLen) :
    step s = .next (ingestBlock samples { s with events := es }) := by
  rw [step_ingest hr hs he]
  exact ingestStep_of_block hl

theorem step_shutdown {r : Status} (hr : s.runState = .running) (hs : s.stage = .idle)
    (he : s.events = .shutdown r :: es) : step s = .next (shutdown r { s with events := es }) := by
  simp only [step_at_idle (.inl hr) hs, eventStep, hr, he]

/-- SHUTDOWN stops a running block only (R507). -/
theorem step_shutdown_of_booting {r : Status} (hr : s.runState = .booting) (hs : s.stage = .idle)
    (he : s.events = .shutdown r :: es) : step s = .next { s with events := es } := by
  simp only [step_at_idle (.inr hr) hs, eventStep, hr, he]

/-- START boots a booting block only (R506). -/
theorem step_start_of_running {c : StartConfig} {r : Status} (hr : s.runState = .running) (hs : s.stage = .idle)
    (he : s.events = .start c r :: es) : step s = .next { s with events := es } := by
  simp only [step_at_idle (.inl hr) hs, eventStep, hr, he]

end Event

/-- Settles O26: a block finds room in the queue or does not, and a failed read is raised. -/
theorem ingestStep : Obligations.IngestStep := by
  unfold Obligations.IngestStep
  intro s samples es hr hs
  refine ⟨fun he hl hroom => ?_, fun he hl hfull => ?_, fun he => ?_⟩
  · rw [step_ingest_block hr hs he hl, ingestBlock_of_room (s := { s with events := es }) hroom]
  · rw [step_ingest_block hr hs he hl, ingestBlock_of_full (s := { s with events := es }) hfull]
  · rw [step_ingest hr hs he, ingestStep_of_fail, raise_of_fatal rfl]

/-- Settles O29: a running block takes SHUTDOWN and ignores START, a booting one ignores SHUTDOWN. -/
theorem shutdownTeardown : Obligations.ShutdownTeardown := by
  unfold Obligations.ShutdownTeardown
  intro s r c es hs
  exact ⟨fun hr he => step_shutdown hr hs he, fun hr he => step_shutdown_of_booting hr hs he,
    fun hr he => step_start_of_running hr hs he⟩

end Sys2Proof.InterfaceProofs
end

section
/-! PROOFS. Which configurations boot accepts (R547). -/

namespace Sys2Proof.ExceptionProofs

open Sys2Proof Sys2Proof.Machine Sys2Proof.StateProofs

/-- FS is legal when it is some whole number of samples, two or more, a symbol (R547, condition 3). -/
theorem fsLegal_iff {c : CoreConfig} : fsLegal c = true ↔ ∃ sps, 2 ≤ sps ∧ c.fs = sps * 4800 := by
  have hquot : spsOf c = c.fs / 4800 := rfl
  simp only [fsLegal, symbolRate, Bool.and_eq_true, beq_iff_eq, decide_eq_true_eq]
  constructor
  · rintro ⟨hfs, hsps⟩
    exact ⟨spsOf c, hsps, hfs⟩
  · rintro ⟨sps, hsps, hfs⟩
    omega

theorem tgPolicyLegal_iff {p : TgPolicy} :
    tgPolicyLegal p = true ↔ ∀ l, p = .allowList l → ∀ tg ∈ l, tg < 2 ^ 16 := by
  cases p with
  | all => simp [tgPolicyLegal]
  | allowList tgs => simp only [tgPolicyLegal, List.all_eq_true, decide_eq_true_eq, TgPolicy.allowList.injEq, forall_eq']

/-- Settles O24: a configuration is legal when all conditions hold, and each condition says what R547 says. -/
theorem legalConfigurations : Obligations.LegalConfigurations := by
  unfold Obligations.LegalConfigurations
  intro c
  have hsps : spsOf c = c.fs / 4800 := rfl
  simp only [firstIllegal_eq_none, configConditions, List.forall_mem_cons, List.not_mem_nil, false_implies, implies_true,
    Bool.and_eq_true, decide_eq_true_eq, fsLegal_iff, tgPolicyLegal_iff, Bool.not_eq_true',
    List.isEmpty_eq_false_iff, hsps, and_assoc, and_true]

end Sys2Proof.ExceptionProofs
end

section
/-! PROOFS. What a step can do to S1 `run_state` and S22 `role`, said once; so each changes only as R553 lists. -/

namespace Sys2Proof.ExceptionProofs

open Sys2Proof Sys2Proof.Machine Sys2Proof.StateProofs Sys2Proof.TrunkingProofs

/-- What the arbiter makes of a role, for the valid unit `du` (R404, R411-R413). -/
inductive ArbiterRole (du : DataUnit) (r : Role) : Role → Prop where
  | kept : ArbiterRole du r r
  | refreshed (f : Nat) (tg : BitVec 16) (la : Nat) (hr : r = .trafficChannel f tg la) :
      ArbiterRole du r (.trafficChannel f tg du.time)
  | ended (hk : du.kind = .terminator) : ArbiterRole du r .controlChannel
  | granted (f : Nat) (tg : BitVec 16) (hk : du.kind = .trunkingSignalingBlock) :
      ArbiterRole du r (.trafficChannel f tg du.time)

/-- Everything a step can do to S1 and S22 (R553). -/
inductive ModeCase (s t : State) : Prop where
  | kept (hrun : t.runState = s.runState) (hrole : t.role = s.role)
  /-- the end of boot -/
  | booted (hr : s.runState = .booting) (hs : s.stage = .sent .bootFreq) (hrun : t.runState = .running)
      (hrole : t.role = s.role)
  /-- a fatal error -/
  | failed (e : Error) (hr : halted s = false) (he : e.fatal = true) (hrun : t.runState = .fatal e)
      (hraised : t.raised = e :: s.raised) (hrole : t.role = s.role)
  /-- SHUTDOWN -/
  | stopped (q : Status) (es : List Event) (hr : s.runState = .running) (hs : s.stage = .idle)
      (he : s.events = .shutdown q :: es) (hrun : t.runState = .stopped) (hrole : t.role = s.role)
  /-- the activity timeout at a block start -/
  | timedOut (f : Nat) (tg : BitVec 16) (la : Nat) (blk : SampleBlock) (rest : List SampleBlock)
      (hr : s.runState = .running) (hs : s.stage = .idle) (hbefore : s.role = .trafficChannel f tg la)
      (hq : s.queue = blk :: rest) (ht : la + s.cfg.timeoutSamples ≤ blk.seq * s.cfg.blockLen)
      (hrun : t.runState = s.runState) (hrole : t.role = .controlChannel)
  /-- a valid unit at the arbiter -/
  | decided (du : DataUnit) (hr : s.runState = .running) (hs : s.stage = .tsm) (hu : s.unit = some du)
      (hv : du.valid = true) (hrun : t.runState = s.runState) (hrole : ArbiterRole du s.role t.role)

/-! ## The arbiter -/

theorem refresh_arbiterRole (du : DataUnit) (s : State) : ArbiterRole du s.role (refresh du.time s).role := by
  cases hr : s.role with
  | controlChannel =>
    rw [refresh_of_control hr, hr]
    exact .kept
  | trafficChannel f tg la =>
    rw [refresh_of_traffic hr]
    exact .refreshed f tg la rfl

/-- After a Terminator the role is ControlChannel, whatever it was (R411). -/
theorem terminate_role_control (s : State) : (terminate s).role = .controlChannel := by
  cases hr : s.role with
  | controlChannel => rw [terminate_of_control hr]; exact hr
  | trafficChannel f tg la => rw [terminate_of_traffic hr]

theorem tsmUnit_arbiterRole {du : DataUnit} (hv : du.valid = true) (s : State) :
    ArbiterRole du s.role (tsmUnit du s).role := by
  by_cases hk : du.kind = .terminator
  · rw [tsmUnit_of_terminator hv hk, terminate_role_control]
    exact .ended hk
  · rw [tsmUnit_of_other hv hk]
    exact refresh_arbiterRole du s

theorem tsbk_arbiterRole {i : Instr} {s u : State} {du : DataUnit} (hu : s.unit = some du)
    (hk : du.kind = .trunkingSignalingBlock) (h : TsbkCase i s u) : ArbiterRole du s.role u.role := by
  have htime := unitTime_of_unit hu
  cases h with
  | nothing =>
    rw [htime]
    exact refresh_arbiterRole du s
  | update => exact .kept
  | grant _ tg f =>
    rw [htime]
    exact .granted f tg hk
  | preempt _ tg f =>
    rw [htime]
    exact .granted f tg hk

theorem tsmPipeline_modeCase {s : State} (hr : s.runState = .running) (hs : s.stage = .tsm) :
    ModeCase s (tsmPipeline s) := by
  have hrun : (tsmPipeline s).runState = s.runState := by
    obtain ⟨_, _, h⟩ := tsmPipeline_effect s
    rw [h]
  cases hu : s.unit with
  | none => exact .kept hrun (by simp only [tsmPipeline, hu])
  | some du =>
    have hrole : (tsmPipeline s).role = (tsmUnit du s).role := by simp only [tsmPipeline, hu]
    cases hv : du.valid with
    | false => exact .kept hrun (by rw [hrole, tsmUnit_of_invalid hv])
    | true => exact .decided du hr hs hu hv hrun (hrole ▸ tsmUnit_arbiterRole hv s)

/-! ## The operations of the table -/

theorem halted_of_active {s : State} (h : s.runState = .running ∨ s.runState = .booting) : halted s = false := by
  rcases h with h | h <;> simp only [halted, h]

theorem instr_modeCase {s u : State} {i : Instr} (hf : fetch s = .instr i) (he : exec i s = .next u) :
    ModeCase s (retire s.stage u) := by
  obtain ⟨_, hret⟩ := retire_effect s.stage u
  rw [hret]
  cases fetch_instr hf with
  | frame _ _ hi =>
    obtain ⟨_, _, _, _, _, _, _, _, _, _, _, _, _, _, rfl⟩ := exec_frame_effect hi he
    exact .kept rfl rfl
  | tsbk time nac o hr hs hu hi =>
    have hi := hi ▸ dispatchTsbk_tsbk o
    have hrole := tsbk_arbiterRole hu rfl (exec_tsbk_cases hi he)
    obtain ⟨_, _, _, _, _, rfl⟩ := exec_tsbk_effect hi he
    exact .decided _ hr hs hu rfl rfl hrole
  | cmd r hr _ hp hd =>
    obtain ⟨_, _, _, ⟨_, rfl⟩ | ⟨e, hfatal, _, rfl⟩⟩ := exec_cmd_effect (decodeCmd_cmd hd) hp he
    · exact .kept rfl rfl
    · exact .failed e (halted_of_active hr) hfatal rfl rfl rfl

/-! ## Accepted words and outside events -/

/-- Only the answer to the last word of boot moves S1 (R591). -/
theorem afterCommand_modeCase {s : State} {r : SendFor} (hr : s.runState = .running ∨ s.runState = .booting)
    (hs : s.stage = .sent r) : ModeCase s (afterCommand r s) := by
  cases r with
  | bootPpm => exact .kept rfl rfl
  | bootGain => exact .kept rfl rfl
  | bootFreq =>
    rcases hr with hr | hr
    · exact .kept hr.symm rfl
    · exact .booted hr hs rfl rfl
  | retune src =>
    obtain ⟨_, _, _, _, _, _, _, _, _, _, _, _, _, _, _, _, _, _, _, _, h⟩ := retuneSent_effect src s
    rw [afterCommand, h]
    exact .kept rfl rfl

/-- START fails with E7 or E5, or leaves the block Booting with its first word to send (R506, R591). -/
theorem bootStart_modeCase {s : State} (hr : s.runState = .booting) (c : StartConfig) (q : Status) (es : List Event) :
    ModeCase s (bootStart c q { s with events := es }) := by
  have hh : halted s = false := halted_of_active (.inr hr)
  cases hl : firstIllegal (loadConfig c) with
  | some field =>
    rw [bootStart_of_illegal hl]
    exact .failed _ hh rfl rfl rfl rfl
  | none =>
    cases q with
    | fail =>
      rw [bootStart_of_closed hl]
      exact .failed _ hh rfl rfl rfl rfl
    | ok =>
      rw [bootStart_of_open hl]
      exact .kept rfl rfl

/-- The tick at a block start ends the call when the timeout has run out, and otherwise leaves the role (R410). -/
theorem beginBlock_modeCase {s : State} {blk : SampleBlock} {rest : List SampleBlock} (hr : s.runState = .running)
    (hs : s.stage = .idle) (hq : s.queue = blk :: rest) (es : List Event) :
    ModeCase s (beginBlock blk (takeBlock es rest s)) := by
  obtain ⟨_, _, _, _, hrun, _⟩ := beginBlock_registers blk (takeBlock es rest s)
  obtain ⟨_, henter, _⟩ := enterBlock_kept blk (takeBlock es rest s)
  cases hrole : s.role with
  | controlChannel => exact .kept hrun (by rw [beginBlock_of_control (s := takeBlock es rest s) hrole]; exact henter)
  | trafficChannel f tg la =>
    rcases le_or_gt (la + s.cfg.timeoutSamples) (blk.seq * s.cfg.blockLen) with ht | ht
    · exact .timedOut f tg la blk rest hr hs hrole hq ht hrun
        (by rw [beginBlock_of_timeout (s := takeBlock es rest s) hrole ht])
    · exact .kept hrun (by rw [beginBlock_of_active (s := takeBlock es rest s) hrole ht]; exact henter)

theorem event_modeCase {s t : State} (hs : s.runState = .running → s.stage = .idle) (he : EventCase s t) :
    ModeCase s t := by
  cases he with
  | start c q es hr => exact bootStart_modeCase hr c q es
  | shutdown q es hr he => exact .stopped q es hr (hs hr) he rfl rfl
  | readFail es hr => exact .failed (.e5 .readCall) (halted_of_active (.inl hr)) rfl rfl rfl rfl
  | block samples es =>
    obtain ⟨_, _, hi, _⟩ := ingestBlock_effect samples { s with events := es }
    rw [hi]
    exact .kept rfl rfl
  | decode blk rest es hr _ hq => exact beginBlock_modeCase hr (hs hr) hq es
  | _ => exact .kept rfl rfl

/-! ## Every step -/

/-- Of the pipeline operations only an outside event and the arbiter move S1 or S22; so a lost lock and a failed frame
leave them (R415, R553). -/
theorem running_modeCase {s t : State} (hr : s.runState = .running) (h : RunningCase s t) : ModeCase s t := by
  cases h with
  | event hs he => exact event_modeCase (fun _ => hs) (eventStep_cases he)
  | sending => exact .kept rfl rfl
  | sent r hs => exact afterCommand_modeCase (.inl hr) hs
  | sample =>
    obtain ⟨_, _, _, _, _, _, _, _, _, _, _, ht⟩ := sampleStep_effect s
    rw [ht]
    exact .kept rfl rfl
  | dibit =>
    obtain ⟨_, _, _, _, _, _, _, _, _, _, _, _, _, _, ht⟩ := dibitStep_effect s
    rw [ht]
    exact .kept rfl rfl
  | frame =>
    obtain ⟨_, _, _, _, _, _, _, _, _, _, _, _, ht⟩ := framePipeline_effect s
    rw [ht]
    exact .kept rfl rfl
  | tsm hs => exact tsmPipeline_modeCase hr hs
  | tune src =>
    obtain ⟨_, _, _, ht⟩ := tuneStep_effect src s
    rw [ht]
    exact .kept rfl rfl
  | route =>
    obtain ⟨_, _, ht⟩ := routeStep_effect s
    rw [ht]
    exact .kept rfl rfl
  | advance =>
    obtain ⟨_, _, _, _, _, _, _, _, _, _, _, _, ht⟩ := advanceStep_effect s
    rw [ht]
    exact .kept rfl rfl

/-- The inversion of `step` for S1 and S22. -/
theorem step_modeCase {s t : State} (h : step s = .next t) : ModeCase s t := by
  cases step_cases h with
  | instr i u hf he => exact instr_modeCase hf he
  | wait => exact .kept rfl rfl
  | halt => exact .kept rfl rfl
  | bootSent r hr hs => exact afterCommand_modeCase (.inr hr) hs
  | bootEvent hr _ _ he => exact event_modeCase (by simp only [hr, reduceCtorEq, false_implies]) (eventStep_cases he)
  | running hr _ hc => exact running_modeCase hr hc

/-- Settles O45: of the cases of a step only the end of boot, a fatal error and SHUTDOWN move S1. -/
theorem runStateTransitions : Obligations.RunStateTransitions := by
  unfold Obligations.RunStateTransitions
  intro s t h hne
  cases step_modeCase h with
  | kept hrun => exact absurd hrun hne
  | booted hr hs hrun => exact ⟨halted_of_active (.inr hr), .inl ⟨hr, hs, hrun⟩⟩
  | failed e hh he hrun hraised => exact ⟨hh, .inr (.inl ⟨e, he, hrun, hraised⟩)⟩
  | stopped q es hr hs he hrun => exact ⟨halted_of_active (.inl hr), .inr (.inr ⟨hr, hs, hrun, q, es, he⟩)⟩
  | timedOut _ _ _ _ _ _ _ _ _ _ hrun => exact absurd hrun hne
  | decided _ _ _ _ _ hrun => exact absurd hrun hne

/-- Settles O46: of the cases of a step only the timeout tick and a valid unit at the arbiter move S22. -/
theorem roleTransitions : Obligations.RoleTransitions := by
  unfold Obligations.RoleTransitions
  intro s t h hne
  cases step_modeCase h with
  | kept _ hrole => exact absurd hrole hne
  | booted _ _ _ hrole => exact absurd hrole hne
  | failed _ _ _ _ _ hrole => exact absurd hrole hne
  | stopped _ _ _ _ _ _ hrole => exact absurd hrole hne
  | timedOut f tg la blk rest hr hs hbefore hq ht _ hrole =>
    exact ⟨hr, .inl ⟨hs, hrole, f, tg, la, blk, rest, hbefore, hq, ht⟩⟩
  | decided du hr hs hu hv _ hrole =>
    refine ⟨hr, .inr ⟨hs, du, hu, hv, ?_⟩⟩
    generalize hnew : t.role = new at hrole hne ⊢
    cases hrole with
    | kept => exact absurd rfl hne
    | refreshed f tg la hbefore => exact .inl ⟨f, tg, la, hbefore, rfl⟩
    | ended hk => exact .inr (.inl ⟨hk, rfl⟩)
    | granted f tg hk => exact .inr (.inr ⟨hk, f, tg, rfl⟩)

end Sys2Proof.ExceptionProofs
end

section
/-! PROOFS. The state after reset (R590): each element has its reset value, and nothing is configured, held or in flight, so the
invariants hold there. -/

namespace Sys2Proof.ResetProofs

open Sys2Proof Sys2Proof.Machine Sys2Proof.StateProofs Sys2Proof.FrameSyncProofs Sys2Proof.TrunkingProofs
open Sys2Proof.TunerProofs

/-! ## What reset leaves (R590) -/

/-- The Trunking State Machine knows no band at reset (R41). -/
@[simp] theorem mapRead_reset (b : BitVec 4) : mapRead b State.reset = none := by
  simp [mapRead, State.reset]

/-- Reset leaves the Frame Synchronizer as `force_search()` does (R39, R289). -/
theorem forceSearch_reset : forceSearch State.reset = State.reset := rfl

theorem reset_cleared : Cleared State.reset := forceSearch_reset ▸ forceSearch_cleared State.reset

theorem reset_role : State.reset.role = .controlChannel := rfl

theorem reset_stage : State.reset.stage = .idle := rfl

/-- Settles O23, table by table: every register is read off the reset state, and every band of the ChannelMap is empty. -/
theorem resetState : Obligations.ResetState := by
  unfold Obligations.ResetState
  exact ⟨
    rfl, -- R35: S1
    rfl, rfl, -- R36: S2, S3
    rfl, rfl, -- R37: S4, S5
    rfl, rfl, rfl, rfl, rfl, -- R38: S6-S10
    rfl, rfl, rfl, rfl, rfl, rfl, rfl, rfl, rfl, rfl, rfl, rfl, -- R39: S11-S21, S26
    reset_role, mapRead_reset⟩ -- R41: S22, S23

/-! ## The invariants -/

/-- Before START no configuration has been found legal (R591). -/
theorem not_configured_reset : ¬configured State.reset := by
  rintro (hrunning | ⟨-, r, hs | hs⟩)
  · cases hrunning
  · cases reset_stage.symm.trans hs
  · cases reset_stage.symm.trans hs

/-- No activity, dibit, unit or frame is under way at reset, so no time is held. -/
theorem not_heldTime_reset (n : Nat) : ¬HeldTime State.reset n := by
  intro h
  cases h with
  | role h => cases reset_role.symm.trans h
  | run h => cases h
  | unit h => cases h
  | pduHdr h => cases h
  | now h => cases reset_stage.symm.trans h

theorem queueOk_reset : QueueOk State.reset :=
  ⟨Nat.zero_le _, List.Pairwise.nil, fun _ hb => absurd hb List.not_mem_nil, fun _ hp => (nomatch hp), fun _ => rfl⟩

theorem demodOk_reset : DemodOk State.reset := fun hc => absurd hc not_configured_reset

theorem unitsOk_reset : UnitsOk State.reset :=
  ⟨fun _ hu => (nomatch hu), fun _ hh => (nomatch hh), fun _ hr => absurd hr List.not_mem_nil⟩

/-- The role asks for the control frequency, which is the one tuned: both are that of the reset configuration. -/
theorem tunedToRole_reset : TunedToRole State.reset := by
  refine tunedToRole_iff.mpr ⟨?_, fun _ => ⟨reset_role, rfl⟩, fun _ => reset_role⟩
  rw [headingFor_of_no_command rfl, roleFreq_of_control reset_role]
  rfl

theorem followsMonitored_reset : FollowsMonitored State.reset :=
  ⟨fun _ _ _ hr => (nomatch reset_role.symm.trans hr), fun _ => reset_role⟩

theorem freqsFit_reset : FreqsFit State.reset := by
  refine ⟨fun c hc => (nomatch hc), by decide, by decide, fun f tg la hr => (nomatch reset_role.symm.trans hr),
    fun b e he => ?_⟩
  rw [mapRead_reset] at he
  cases he

theorem commandOk_reset : CommandOk State.reset :=
  commandOk_iff.mpr ⟨wordDue_of_not_send fun _ hs => (nomatch reset_stage.symm.trans hs), freqsFit_reset,
    fun hc => absurd hc not_configured_reset⟩

theorem clockOk_reset : ClockOk State.reset :=
  clockOk_iff.mpr ⟨fun n hn => absurd hn (not_heldTime_reset n), fun htodo => absurd rfl htodo, fun _ => ⟨rfl, rfl⟩⟩

/-- Settles O52: one lemma per invariant, from what reset leaves empty. -/
theorem invariantsAtReset : Obligations.InvariantsAtReset := by
  unfold Obligations.InvariantsAtReset
  exact ⟨queueOk_reset, demodOk_reset, frameOk_of_cleared reset_cleared, unitsOk_reset, tunedToRole_reset,
    followsMonitored_reset, commandOk_reset, clockOk_reset⟩

end Sys2Proof.ResetProofs
end
